-- ==== Sys2Proof/Word.lean ====
section
/-!
DEFINITION. The words of the engine: bytes, the 16-bit cells of the frequency and code tables (R48, R49), the
32-bit CMD and STATUS registers and the 64-bit address and length registers (R21, 10_state.md section 1).
-/

namespace Sys2Proof

/-- A byte of host memory, of the window buffer or of the stream. -/
abbrev Byte := BitVec 8

/-- A 16-bit cell: a symbol frequency (R48), a canonical code (R49) or a block's SIZE (R116). -/
abbrev Half := BitVec 16

/-- A 32-bit register: CMD and STATUS (R32, R33), and a `position` cell of the match tree (R41). -/
abbrev Word32 := BitVec 32

/-- A 64-bit register: SRC_ADDR, SRC_LEN, DST_ADDR, DST_LEN, RESULT_LEN (R34 to R36). -/
abbrev Word64 := BitVec 64

end Sys2Proof
end

