-- ==== Sys2Proof/Config.lean ====
section
/-!
DEFINITION. What the implementation fixes (00_scope.md section 3) and the free values, which have no body.
The OPEN parameters ADDR_W and BASE are fields of State, fixed for a run (DESIGN CHOICE, log entry 2); no rule of one engine
depends on REG_ENDIAN, DMA_COHERENT, DONE_IRQ or N_ENGINES (log entry 14).
-/

namespace Sys2Proof.Config

/-- WNDBIT = 19 (R10). -/
abbrev wndBit : Nat := 19

/-- The window size W = 2^19 bytes (R10). -/
abbrev W : Nat := 2 ^ wndBit

/-- The maximum match length M = 256 (R11). -/
abbrev maxMatch : Nat := 256

/-- The minimum match length THRESHOLD = 3 (R12). -/
abbrev threshold : Nat := 3

/-- NC = 510, the size of the Char&Length alphabet (R13). -/
abbrev NC : Nat := 510

/-- NP = WNDBIT + 1 = 20, the encoder's position alphabet (R14). -/
abbrev NP : Nat := wndBit + 1

/-- NPD = 31, the decoder's position alphabet (R14). -/
abbrev NPD : Nat := 31

/-- NT = 19, the extra (meta) alphabet (R15). -/
abbrev NT : Nat := 19

/-- CODE_BIT = 16, the ceiling of a code length (R16). -/
abbrev codeBit : Nat := 16

/-- CBIT = 9 (R17). -/
abbrev cBit : Nat := 9

/-- TBIT = 5 (R17). -/
abbrev tBit : Nat := 5

/-- PBIT of a version 2 stream, the only one COMPRESS produces (R17, R4). -/
abbrev pBit : Nat := 5

/-- BUF_SIZE = 16384 (R18). -/
abbrev bufSize : Nat := 16384

/-- FLUSH_MARGIN = 40 (R18). -/
abbrev flushMargin : Nat := 40

/-- BIAS_LIMIT = 2048 (R19). -/
abbrev biasLimit : Nat := 2048

/-- MAX_HASH_VAL = 3W + (W/512 + 1) * 255 (R23). -/
abbrev maxHashVal : Nat := 3 * W + (W / 512 + 1) * 255

/-- ADDR_W, the host address width: 1 to 64 (R21). -/
abbrev AddrWidth := { n : Nat // 1 ≤ n ∧ n ≤ 64 }

/-! ## The sizes of the internal storage (R81) -/

/-- `text[0 .. 2W+M)` (R37). -/
abbrev textSize : Nat := 2 * W + maxMatch

/-- `level`, `childcount` and `position`: `[0 .. W+256)` (R39, R40, R41). -/
abbrev nodeSize : Nat := W + 256

/-- `parent` and `prev`: `[0 .. 2W)` (R42). -/
abbrev linkSize : Nat := 2 * W

/-- `next[0 .. MAX_HASH_VAL]` (R42). -/
abbrev nextSize : Nat := maxHashVal + 1

/-- `cfreq[0 .. 2NC-1)` (R48), and the builder's `left` and `right` (R50). -/
abbrev cfreqSize : Nat := 2 * NC - 1

/-- `pfreq[0 .. 2NP-1)` (R48). -/
abbrev pfreqSize : Nat := 2 * NP - 1

/-- `tfreq[0 .. 2NT-1)` (R48). -/
abbrev tfreqSize : Nat := 2 * NT - 1

/-- NPT = max(NT, NP), the size of `ptlen` and `ptcode` (R49). -/
abbrev NPT : Nat := max NT NP

/-- `lencnt[0 .. 16]` (R50). -/
abbrev lencntSize : Nat := codeBit + 1

/-! ## Free values -/

/-- The free values. Where the spec leaves a value open and the machine goes on, the value is
`free n` for the next unused `n` (State.freeCtr). It has no body, so a statement that holds holds
whatever these values are (DESIGN CHOICE, log entry 5). -/
opaque free : Nat → Word64

end Sys2Proof.Config
end

