-- ==== Sys2Proof/Syntax.lean ====
section
/-!
DEFINITION. The instructions: one constructor for each row of spec/opcode_table.json. Three are the command words a host
writes to CMD (R111, R112); the others are the structures and symbols of the compressed stream, which
the decoder executes like instructions (30_encoding.md).
-/

namespace Sys2Proof

/-- One constructor per row of spec/opcode_table.json. -/
inductive Instr where
  /-- COMPRESS (R111, R290): the FMT field is ignored, but it is stored in CMD as written. -/
  | compress (fmt : BitVec 8)
  /-- DECOMPRESS (R111, R330): `fmt` is the stream format version. -/
  | decompress (fmt : BitVec 8)
  /-- ILLEGAL_CMD (R112): every other value `w` written to CMD. -/
  | illegalCmd (w : Word32)
  /-- STREAM_HEADER (R114): the compressed length L and the original length O. -/
  | streamHeader (l o : Word32)
  /-- BLOCK (R116): the block header, whose first field is SIZE; the lists that follow are read by
  the steps it starts. -/
  | block (size : Half)
  /-- LIT (R121, R321): a C symbol below 256. -/
  | lit (b : Byte)
  /-- MATCH (R121, R322): a C symbol of 256 or more; its position operand is the POS that follows it. -/
  | matchCopy (s : BitVec 9)
  /-- POS (R122, R319): a P symbol `c` and its `c - 1` extra bits `e`. -/
  | pos (c : BitVec 5) (e : BitVec 29)
  /-- ZRUN1 (R311): T symbol 0. -/
  | zrun1
  /-- ZRUN_M (R311): T symbol 1 with 4 extension bits. -/
  | zrunM (r : BitVec 4)
  /-- ZRUN_L (R311): T symbol 2 with 9 extension bits. -/
  | zrunL (r : BitVec 9)
  /-- LEN (R311): T symbol `k + 2`, the code length `k` of the next C symbol. -/
  | len (k : BitVec 5)
  /-- LENCODE (R118, R306): the code length `k` of one T or P symbol; `k = 17` is the field that
  R306 finds to exceed 16 (DESIGN CHOICE, log entry 16). -/
  | lencode (k : BitVec 5)
  deriving DecidableEq, Repr

end Sys2Proof
end

