-- ==== Sys2Proof/WellFormed.lean ====
section
/-!
DEFINITION. Which instructions the encodings of 30_encoding.md can hold.
-/

namespace Sys2Proof

/-- A CMD value is legal: OP is 1 or 2 and RSVD is 0 (R111, R112). -/
def legalCmd (w : Word32) : Bool :=
  (w.extractLsb' 0 8 == 1#8 || w.extractLsb' 0 8 == 2#8) && w.extractLsb' 16 16 == 0#16

/-- The number of extra bits that follow P symbol `c` (R122). -/
def posExtra (c : Nat) : Nat := c - 1

/-- The instruction has an encoding. COMPRESS, DECOMPRESS, STREAM_HEADER, BLOCK, LIT and the zero
runs have one for every operand. An illegal command is a CMD value that is not legal (R112); a MATCH symbol
lies in 256 .. 509 (R124); a P symbol lies in 0 .. 30 and its extra bits fit (R122, R126); LEN states a
length of 1 to 16 (R125); a LENCODE states 0 to 16, or is the over-long field of R306. -/
def WellFormed : Instr → Bool
  | .compress _ => true
  | .decompress _ => true
  | .illegalCmd w => !legalCmd w
  | .streamHeader _ _ => true
  | .block _ => true
  | .lit _ => true
  | .matchCopy s => decide (256 ≤ s.toNat) && decide (s.toNat < Config.NC)
  | .pos c e => decide (c.toNat < Config.NPD) && decide (e.toNat < 2 ^ posExtra c.toNat)
  | .zrun1 => true
  | .zrunM _ => true
  | .zrunL _ => true
  | .len k => decide (1 ≤ k.toNat) && decide (k.toNat ≤ Config.codeBit)
  | .lencode k => decide (k.toNat ≤ Config.codeBit + 1)

end Sys2Proof
end

