-- ==== Sys2Proof/Decode.lean ====
section
/-!
DEFINITION. The decoder, total on any bits and rejecting by name, and the encoder. A stream instruction is given as bits, most significant
bit first, as it stands in the stream (R84); a symbol of an alphabet is given as its number (9 bits for a C
symbol, 5 for a T or P symbol, R124 to R126), since its Huffman code is the current block's (R127; DESIGN CHOICE, log entry 16), followed by its raw
extension bits. The command word is given as its 32 bits, bit 31 first.
-/

namespace Sys2Proof

/-- The number whose bits, most significant first, are given (R167). -/
def bitsToNat (bs : List Bool) : Nat := bs.foldl (fun v b => 2 * v + b.toNat) 0

/-- The low `n` bits of `v`, most significant first (R161). -/
def natToBits : Nat → Nat → List Bool
  | 0, _ => []
  | n + 1, v => v.testBit n :: natToBits n v

/-- What is being read: which of the encodings of 30_encoding.md stands next. -/
inductive Kind where
  | cmd | header | block | csym | psym | tsym | lencode
  deriving DecidableEq, Repr

/-- Why bits are no instruction. -/
inductive DecodeError where
  /-- there are fewer bits than the encoding takes -/
  | tooShort
  /-- a C symbol of 510 or 511 (R124) -/
  | cSymbolOutside
  /-- a P symbol of 31 (R126) -/
  | pSymbolOutside
  /-- a T symbol of 19 or more (R125) -/
  | tSymbolOutside
  deriving DecidableEq, Repr

/-- The decoder's answer: an instruction and the bits after it, or a named rejection. -/
inductive DecodeResult where
  | ok (i : Instr) (rest : List Bool)
  | bad (e : DecodeError)
  deriving DecidableEq, Repr

/-- The instruction a value written to CMD stands for (R110 to R112): total. -/
def decodeCmd (w : Word32) : Instr :=
  if w.extractLsb' 16 16 = 0#16 then
    if w.extractLsb' 0 8 = 1#8 then .compress (w.extractLsb' 8 8)
    else if w.extractLsb' 0 8 = 2#8 then .decompress (w.extractLsb' 8 8)
    else .illegalCmd w
  else .illegalCmd w

/-- Read a field of `n` bits and give its value and the rest to `k`. -/
def takeField (n : Nat) (bs : List Bool) (k : Nat → List Bool → DecodeResult) : DecodeResult :=
  if n ≤ bs.length then k (bitsToNat (bs.take n)) (bs.drop n) else .bad .tooShort

/-- A little-endian 32-bit header field, given as its four bytes' bits in stream order (R83). -/
def leWord32 (n : Nat) : Word32 :=
  let b : Word32 := BitVec.ofNat 32 n
  b.extractLsb' 0 8 ++ b.extractLsb' 8 8 ++ b.extractLsb' 16 8 ++ b.extractLsb' 24 8

/-- The unary part of a LENCODE (R118, R306): count ones up to the zero that ends them; the one bit that makes
the length 17 ends the field at once. `fuel` is how many ones may still come. -/
def lencodeUnary : Nat → Nat → List Bool → DecodeResult
  | _, _, [] => .bad .tooShort
  | _, k, false :: bs => .ok (.lencode (BitVec.ofNat 5 k)) bs
  | 0, k, true :: bs => .ok (.lencode (BitVec.ofNat 5 (k + 1))) bs
  | fuel + 1, k, true :: bs => lencodeUnary fuel (k + 1) bs

/-- Decode the C symbol `v` (R124). -/
def decodeCSym (v : Nat) (rest : List Bool) : DecodeResult :=
  if v < 256 then .ok (.lit (BitVec.ofNat 8 v)) rest
  else if v < Config.NC then .ok (.matchCopy (BitVec.ofNat 9 v)) rest
  else .bad .cSymbolOutside

/-- Decode the P symbol `c`, then its extra bits (R122, R126). -/
def decodePSym (c : Nat) (rest : List Bool) : DecodeResult :=
  if c < Config.NPD then
    takeField (posExtra c) rest fun e rest' => .ok (.pos (BitVec.ofNat 5 c) (BitVec.ofNat 29 e)) rest'
  else .bad .pSymbolOutside

/-- Decode the T symbol `t`, then its extension bits (R119, R125). -/
def decodeTSym (t : Nat) (rest : List Bool) : DecodeResult :=
  if t = 0 then .ok .zrun1 rest
  else if t = 1 then takeField 4 rest fun r rest' => .ok (.zrunM (BitVec.ofNat 4 r)) rest'
  else if t = 2 then takeField Config.cBit rest fun r rest' => .ok (.zrunL (BitVec.ofNat 9 r)) rest'
  else if t < Config.NT then .ok (.len (BitVec.ofNat 5 (t - 2))) rest
  else .bad .tSymbolOutside

/-- The decoder. -/
def decode (k : Kind) (bs : List Bool) : DecodeResult :=
  match k with
  | .cmd => takeField 32 bs fun v rest => .ok (decodeCmd (BitVec.ofNat 32 v)) rest
  | .header => takeField 32 bs fun l rest => takeField 32 rest fun o rest' =>
      .ok (.streamHeader (leWord32 l) (leWord32 o)) rest'
  | .block => takeField 16 bs fun v rest => .ok (.block (BitVec.ofNat 16 v)) rest
  | .csym => takeField 9 bs decodeCSym
  | .psym => takeField 5 bs decodePSym
  | .tsym => takeField 5 bs decodeTSym
  | .lencode => takeField 3 bs fun v rest =>
      if v < 7 then .ok (.lencode (BitVec.ofNat 5 v)) rest else lencodeUnary 9 7 rest

/-- The 32-bit word of a command (R110, R111). -/
def encodeCmd : Instr → Word32
  | .compress fmt => 0#16 ++ fmt ++ 1#8
  | .decompress fmt => 0#16 ++ fmt ++ 2#8
  | .illegalCmd w => w
  | _ => 0#32

/-- Which encoding an instruction has. -/
def kindOf : Instr → Kind
  | .compress _ => .cmd
  | .decompress _ => .cmd
  | .illegalCmd _ => .cmd
  | .streamHeader _ _ => .header
  | .block _ => .block
  | .lit _ => .csym
  | .matchCopy _ => .csym
  | .pos _ _ => .psym
  | .zrun1 => .tsym
  | .zrunM _ => .tsym
  | .zrunL _ => .tsym
  | .len _ => .tsym
  | .lencode _ => .lencode

/-- The bits of an instruction, as `decode (kindOf i)` reads them. -/
def encode : Instr → List Bool
  | .compress fmt => natToBits 32 (encodeCmd (.compress fmt)).toNat
  | .decompress fmt => natToBits 32 (encodeCmd (.decompress fmt)).toNat
  | .illegalCmd w => natToBits 32 w.toNat
  | .streamHeader l o => natToBits 32 (leWord32 l.toNat).toNat ++ natToBits 32 (leWord32 o.toNat).toNat
  | .block size => natToBits 16 size.toNat
  | .lit b => natToBits 9 b.toNat
  | .matchCopy s => natToBits 9 s.toNat
  | .pos c e => natToBits 5 c.toNat ++ natToBits (posExtra c.toNat) e.toNat
  | .zrun1 => natToBits 5 0
  | .zrunM r => natToBits 5 1 ++ natToBits 4 r.toNat
  | .zrunL r => natToBits 5 2 ++ natToBits 9 r.toNat
  | .len k => natToBits 5 (k.toNat + 2)
  | .lencode k =>
      if k.toNat ≤ 6 then natToBits 3 k.toNat
      else if k.toNat ≤ Config.codeBit then List.replicate (k.toNat - 4) true ++ [false]
      else List.replicate 13 true

/-- The instruction the decoder reads from the bits of one row of spec/opcode_table.json, numbered as that file numbers them: 32
bits are a command word, 16 bits hold a 9-bit C symbol, 8 bits a 5-bit T symbol whose extension bits are 0, and
64 bits the stream header's bytes, the first in bits 7..0. -/
def decodeTableWord (nbits w : Nat) : Option Instr :=
  let answer : DecodeResult :=
    if nbits = 32 then decode .cmd (natToBits 32 w)
    else if nbits = 16 then
      if w < 512 then decode .csym (natToBits 9 w) else .bad .cSymbolOutside
    else if nbits = 8 then
      if w < 32 then decode .tsym (natToBits 5 w ++ List.replicate 9 false) else .bad .tSymbolOutside
    else if nbits = 64 then
      decode .header (natToBits 32 (leWord32 w).toNat ++ natToBits 32 (leWord32 (w / 2 ^ 32)).toNat)
    else .bad .tooShort
  match answer with
  | .ok i _ => some i
  | .bad _ => none

end Sys2Proof
end

