-- ==== Sys2Proof/Machine/Arr.lean ====
section
/-!
DEFINITION. Sparse lists: host memory and every array of the engine's internal storage (R81) are lists of (key, value) pairs
that list only the entries that differ from `d`, the contents before anything is written. An array of the internal storage has its
size, one of R37 to R50, in its type, and its keys lie below it; what the operations do at an index that is none is log
entry 20's (DESIGN CHOICE).
-/

namespace Sys2Proof.Machine

/-! ## Sparse lists -/

/-- The entry at `i`: the listed value, else the initial one. -/
def sparseGet {κ α : Type} (key : κ → Nat) (d : Nat → α) (l : List (κ × α)) (i : Nat) : α :=
  match l with
  | [] => d i
  | (k, v) :: t => if key k = i then v else sparseGet key d t i

/-- Put the pair before the first entry with a larger key. -/
def sparseInsert {κ α : Type} (key : κ → Nat) (i : κ) (v : α) : List (κ × α) → List (κ × α)
  | [] => [(i, v)]
  | (k, x) :: t => if key i < key k then (i, v) :: (k, x) :: t else (k, x) :: sparseInsert key i v t

/-- Write `v` at `i`; an entry equal to the initial value is not listed. -/
def sparseSet {κ α : Type} [DecidableEq α] (key : κ → Nat) (d : Nat → α) (l : List (κ × α)) (i : κ) (v : α) :
    List (κ × α) :=
  let rest := l.filter fun p => key p.1 != key i
  if v = d (key i) then rest else sparseInsert key i v rest

/-- The canonical form: keys strictly rising and no entry equal to the initial value. -/
def sparseWf {κ α : Type} [DecidableEq α] (key : κ → Nat) (d : Nat → α) : List (κ × α) → Bool
  | [] => true
  | (k, v) :: t => t.all (fun p => decide (key k < key p.1)) && !decide (v = d (key k)) && sparseWf key d t

/-! ## Arrays -/

/-- An array `A[0 .. n)`. -/
abbrev Arr (n : Nat) (α : Type) := List (Fin n × α)

/-- `A[i]`; there is nothing written at or above `n`. -/
def arrGet {n : Nat} {α : Type} (d : Nat → α) (l : Arr n α) (i : Nat) : α := sparseGet Fin.val d l i

/-- `A[i] <- v`; the array has no entry at or above `n` to write. -/
def arrSet {n : Nat} {α : Type} [DecidableEq α] (d : Nat → α) (l : Arr n α) (i : Nat) (v : α) : Arr n α :=
  if h : i < n then sparseSet Fin.val d l ⟨i, h⟩ v else l

/-- `A[0 .. m) <- 0` for an array that is initially 0 everywhere. -/
def arrClearBelow {n : Nat} {α : Type} (m : Nat) (l : Arr n α) : Arr n α := l.filter fun p => decide (m ≤ p.1.val)

/-- The initial contents of an array of numbers: 0. -/
def zeroNat (_ : Nat) : Nat := 0

/-- The initial contents of an array of `w`-bit cells: 0. -/
def zeroBits (w : Nat) (_ : Nat) : BitVec w := 0#w

end Sys2Proof.Machine
end

