-- ==== Sys2Proof/Machine/State.lean ====
section
/-!
DEFINITION. The state of one engine, its host memory and what its host is about to do, as plain data (10_state.md, 20_memory.md,
70_reset_and_hazards.md). The engine executes one command at a time (R2), so State holds the interface registers,
the encoder's and the decoder's working state, and where in the running command the engine stands.
-/

namespace Sys2Proof.Machine

/-- Why the machine stops. -/
inductive Fault where
  /-- A host access to memory at or above 2^ADDR_W, or an engine access there (R80). The engine's can be raised
  only in states no run reaches, since R92 ends such a command (log entry 13). SAFE: the space has no such byte. -/
  | outsideAddressSpace
  /-- A pointer loop of the match finder has visited more entries than its array has (R184, R187, R192), so that
  it never ends. Only in states no run reaches (R391; log entry 13). SAFE: the machine makes no further step. -/
  | endlessLoop
  /-- A decode table that no check of R305 to R312 passed gives no symbol (R168). Only in states no run
  reaches (log entry 13). SAFE: the machine stops where the spec gives no symbol. -/
  | noSymbol
  deriving DecidableEq, Repr

/-- Why a step has no meaning. -/
inductive Refusal where
  /-- An instruction without a meaning; raised by exec's refused arms alone. SAFE. -/
  | notModelled (mnemonic : String)
  /-- A host access narrower than the register, or misaligned, or wider (R88, 93 U2: a model refuses it; log entry 10). SAFE. -/
  | partialRegisterAccess
  /-- A host write to SRC_ADDR, SRC_LEN, DST_ADDR or DST_LEN while BUSY = 1 (R392, 93 U8: a model refuses it; log entry 12).
  SAFE. -/
  | operandWriteWhileBusy
  /-- A host read of a register other than STATUS while BUSY = 1 (R96, R386: a model refuses such a run; log entry
  12). SAFE. -/
  | registerReadWhileBusy
  /-- A host write into the source or destination buffer while BUSY = 1 (R96, 93 U8: a model refuses it; log entry
  12). SAFE. -/
  | bufferWriteWhileBusy
  /-- COMPRESS of a source whose L = compsize + 1 exceeds 2^32 - 1 (R292, 93 U4: a model refuses it; log entry 15). SAFE. -/
  | headerOverflow
  deriving DecidableEq, Repr

/-- The three code-length lists of a block header (R116). -/
inductive ListKind where
  | tList | cList | pList
  deriving DecidableEq, Repr

/-- A decode table (R63): degenerate with one symbol, or regular with its code lengths. -/
inductive Table where
  | degenerate (s : Nat)
  | regular (len : List Nat)
  deriving DecidableEq, Repr

/-- Where in a command the engine stands: what its next step does. The model's own field; R31 names the cursors
only (DESIGN CHOICE, log entry 1). -/
inductive Phase where
  /-- no command runs (BUSY = 0) -/
  | idle
  /-- COMPRESS: MatchLoop up to its `while` (R205) -/
  | encFirst
  /-- COMPRESS: one iteration of MatchLoop's `while` (R205) -/
  | encLoop
  /-- COMPRESS: HufEncodeEnd and what follows (R285, R291 to R293) -/
  | encEnd
  /-- DECOMPRESS: read the header (R331) -/
  | header
  /-- DECOMPRESS: DecodeC, which reads a block header first when one is due (R318) -/
  | sym
  /-- DECOMPRESS: the count field of the list `dec.list` (R305, R310) -/
  | count
  /-- DECOMPRESS: the next length of a PT list (R305) -/
  | ptLen
  /-- DECOMPRESS: the next T symbol of the C list (R310) -/
  | cLen
  /-- DECOMPRESS: the position of the match symbol just read (R319) -/
  | pos
  /-- DECOMPRESS: the match symbol just read has its position and is executed (R322) -/
  | copy
  deriving DecidableEq, Repr

/-- The Huffman builder's scratch (R50). -/
structure Huff where
  /-- `n`, the alphabet size of the build in progress -/
  n : Nat
  /-- `heap[1 .. NC]`: slot `i` is entry `i - 1` -/
  heap : Arr Config.NC Nat
  heapsize : Nat
  /-- `left[0 .. 2NC-1)` -/
  left : Arr Config.cfreqSize Nat
  /-- `right[0 .. 2NC-1)` -/
  right : Arr Config.cfreqSize Nat
  /-- `lencnt[0 .. 16]` -/
  lencnt : Arr Config.lencntSize Nat
  sortorder : List Nat
  deriving DecidableEq, Repr

/-- The match finder's window and tree (R37 to R46). -/
structure Finder where
  /-- `text[0 .. 2W+M)` (R37), initially 0 -/
  text : Arr Config.textSize Byte
  /-- `level[0 .. W+256)` (R39), initially `levelInit` -/
  level : Arr Config.nodeSize Byte
  /-- `childcount[0 .. W+256)` (R40), initially 0 -/
  childcount : Arr Config.nodeSize Nat
  /-- `position[0 .. W+256)` (R41), the PERC flag in bit 31, initially 0 -/
  position : Arr Config.nodeSize Word32
  /-- `parent[0 .. 2W)` (R42), initially 0 -/
  parent : Arr Config.linkSize Nat
  /-- `prev[0 .. 2W)` (R42), initially 0 -/
  prev : Arr Config.linkSize Nat
  /-- `next[0 .. MAX_HASH_VAL]` (R42), initially `nextInit` -/
  next : Arr Config.nextSize Nat
  /-- head of the free list (R43) -/
  avail : Nat
  /-- current window position (R44) -/
  pos : Nat
  /-- length of the best match of the last insertion (R45) -/
  matchlen : Nat
  /-- text index of that match (R45) -/
  matchpos : Nat
  /-- input bytes from `pos` to the end of those read (R46) -/
  remainder : Nat
  deriving DecidableEq, Repr

/-- The encoder's working state (10_state.md section 2). -/
structure Enc where
  finder : Finder
  /-- source bytes consumed (R46) -/
  srcpos : Nat
  /-- count of source bytes read (R46) -/
  origsize : Nat
  /-- token buffer `buf[0 .. BUF_SIZE)` (R47), initially 0 -/
  buf : Arr Config.bufSize Byte
  /-- bytes used of the token buffer (R47) -/
  outputpos : Nat
  /-- one-hot place of the current token in its group (R47) -/
  outputmask : Byte
  /-- index of the current group's flag byte (R47) -/
  cpos : Nat
  /-- C frequencies, `[0 .. 2NC-1)` (R48), initially 0 -/
  cfreq : Arr Config.cfreqSize Half
  /-- P frequencies, `[0 .. 2NP-1)` (R48), initially 0 -/
  pfreq : Arr Config.pfreqSize Half
  /-- T frequencies, `[0 .. 2NT-1)` (R48), initially 0 -/
  tfreq : Arr Config.tfreqSize Half
  /-- C code lengths (R49) -/
  clen : Arr Config.NC Nat
  /-- C codes (R49) -/
  ccode : Arr Config.NC Half
  /-- T, then P, code lengths (R49) -/
  ptlen : Arr Config.NPT Nat
  /-- T, then P, codes (R49) -/
  ptcode : Arr Config.NPT Half
  huff : Huff
  /-- the partial output byte (R51) -/
  subbitbuf : Byte
  /-- free bit slots of the partial byte, 1 to 8 (R51) -/
  bitcount : Nat
  /-- bit-stream bytes produced (R51) -/
  compsize : Nat
  deriving DecidableEq, Repr

/-- The decoder's working state (10_state.md section 3), with the local variables of the list being read
(R305, R310) and of the match being decoded (R320). -/
structure Dec where
  /-- index of the next unread bit (R62) -/
  rpos : Nat
  /-- L, the stream's compressed length (R52) -/
  compsizeIn : Nat
  /-- O, the stream's original length (R52) -/
  origsize : Nat
  /-- width of the P list's count field (R52) -/
  pbit : Nat
  /-- symbols left in the current block (R52) -/
  blocksize : Half
  tTab : Table
  cTab : Table
  pTab : Table
  /-- bytes written to the destination (R66) -/
  out : Nat
  /-- the bad-table flag (R64) -/
  bad : Bool
  /-- the list being read -/
  list : ListKind
  /-- its `count` -/
  count : Nat
  /-- its `i` -/
  idx : Nat
  /-- its `len` -/
  lens : List Nat
  /-- the match symbol that awaits its position or its execution -/
  sym : BitVec 9
  /-- the position value of that match -/
  pval : Nat
  deriving DecidableEq, Repr

/-- What a host does (20_memory.md, 70_reset_and_hazards.md section 2). `addr` is an address of the register space (R82), the register
block standing at BASE, and `width` is in bits. -/
inductive HostOp where
  /-- write the low `width` bits of `v` at `addr` of the register space (R32 to R36, R82, R88) -/
  | regWrite (addr width : Nat) (v : Word64)
  /-- read at `addr` of the register space (R32 to R36, R82, R88) -/
  | regRead (addr width : Nat)
  /-- write a byte of host memory (R80) -/
  | memWrite (a : Nat) (b : Byte)
  /-- read a byte of host memory (R80) -/
  | memRead (a : Nat)
  /-- read STATUS until DONE = 1 (R360, 95_test_vectors.md section 4) -/
  | pollDone
  /-- reset the engine (R383) -/
  | reset
  deriving DecidableEq, Repr

/-- Who moves next: the engine, or the host with one access. -/
inductive Turn where
  | engine
  | host (op : HostOp)
  deriving DecidableEq, Repr

/-- One host-memory access of the engine: always a single byte (R86). -/
inductive Access where
  /-- the byte at `a` was read, and was `b` -/
  | read (a : Nat) (b : Byte)
  /-- `b` was written at `a` -/
  | write (a : Nat) (b : Byte)
  deriving DecidableEq, Repr

/-- The state. -/
structure State where
  /-- CMD (R32) -/
  cmd : Word32
  /-- STATUS (R33): BUSY in bit 0, DONE in bit 1, CODE in bits 7..4 -/
  status : Word32
  /-- SRC_ADDR (R34) -/
  srcAddr : Word64
  /-- SRC_LEN (R34) -/
  srcLen : Word64
  /-- DST_ADDR (R35) -/
  dstAddr : Word64
  /-- DST_LEN (R35) -/
  dstLen : Word64
  /-- RESULT_LEN (R36) -/
  resultLen : Word64
  /-- where in the running command the engine stands (the model's own) -/
  phase : Phase
  /-- encoder working state -/
  enc : Enc
  /-- decoder working state -/
  dec : Dec
  /-- host memory (R80): the bytes that differ from `memInit` -/
  mem : List Host.Cell
  /-- ADDR_W, the OPEN host address width (R21), fixed for a run -/
  addrW : Config.AddrWidth
  /-- BASE, the OPEN address of the register block (R21, R82), fixed for a run -/
  base : Nat
  /-- the sequence of host-memory accesses of the command accepted last, newest first (R390; the model's own record, log entry 19) -/
  accesses : List Access
  /-- what the host is about to do and where the engine's turns fall; when it is empty the engine moves
  (the model's own) -/
  agenda : List Turn
  /-- the data the last host read returned (the model's own) -/
  busData : Word64
  /-- the destination ranges (address, length) of the commands issued since the host last read DONE = 1 (R95, R393;
  the model's own) -/
  unacquired : List (Nat × Nat)
  /-- how many free values have been drawn (the model's own) -/
  freeCtr : Nat
  deriving DecidableEq, Repr

/-- What a byte of host memory that nothing has written reads as: 0xEE (DESIGN CHOICE, log entry 3). -/
def memInit (_ : Nat) : Byte := 0xEE#8

/-- The canonical form of host memory: addresses strictly rising, no byte equal to `memInit`. -/
def Memory.wf (m : List Host.Cell) : Bool := sparseWf id memInit m

/-- The scratch of the Huffman builder before any build. -/
def Huff.reset : Huff :=
  { n := 0, heap := [], heapsize := 0, left := [], right := [], lencnt := [], sortorder := [] }

/-- The match finder at reset: the contents InitSlide gives (DESIGN CHOICE, log entry 4). -/
def Finder.reset : Finder :=
  { text := [], level := [], childcount := [], position := [], parent := [], prev := [], next := [],
    avail := 1, pos := Config.W, matchlen := 0, matchpos := 0, remainder := 0 }

/-- The encoder at reset (DESIGN CHOICE, log entry 4). -/
def Enc.reset : Enc :=
  { finder := Finder.reset, srcpos := 0, origsize := 0, buf := [], outputpos := 0, outputmask := 0#8, cpos := 0,
    cfreq := [], pfreq := [], tfreq := [], clen := [], ccode := [], ptlen := [], ptcode := [],
    huff := Huff.reset, subbitbuf := 0#8, bitcount := 8, compsize := 0 }

/-- The decoder at reset (DESIGN CHOICE, log entry 4). -/
def Dec.reset : Dec :=
  { rpos := 0, compsizeIn := 0, origsize := 0, pbit := 5, blocksize := 0#16, tTab := .degenerate 0,
    cTab := .degenerate 0, pTab := .degenerate 0, out := 0, bad := false, list := .tList, count := 0, idx := 0,
    lens := [], sym := 256#9, pval := 0 }

/-- The machine right after reset: every interface register 0, the engine idle (R380), nothing listed in memory and
nothing on the host's agenda. The working state is unspecified (R381); the values are log entry 4's, ADDR_W and BASE are
log entry 2's, and the model's own fields are log entry 6's (DESIGN CHOICE). -/
def State.reset : State :=
  { cmd := 0#32, status := 0#32, srcAddr := 0#64, srcLen := 0#64, dstAddr := 0#64, dstLen := 0#64,
    resultLen := 0#64, phase := .idle, enc := Enc.reset, dec := Dec.reset, mem := [],
    addrW := ⟨64, by decide⟩, base := 0, accesses := [], agenda := [], busData := 0#64, unacquired := [], freeCtr := 0 }

end Sys2Proof.Machine
end

