-- ==== Sys2Proof/Machine/Flags.lean ====
section
/-!
DEFINITION. Every flag of the engine (R65): STATUS.BUSY, DONE and CODE, the PERC flag of a `position` cell, and the completeness check whose
failure sets the decoder's bad-table flag.
-/

namespace Sys2Proof.Machine

/-- The completion codes (R350). -/
inductive Code where
  | success | bufferTooSmall | invalidData | invalidParameter | outOfMemory
  deriving DecidableEq, Repr

/-- The value of STATUS.CODE (R33, R350). -/
def codeValue : Code → Nat
  | .success => 0
  | .bufferTooSmall => 1
  | .invalidData => 2
  | .invalidParameter => 3
  | .outOfMemory => 4

/-- STATUS while a command runs: BUSY = 1, DONE = 0, CODE = 0 (R291, R331). -/
def statusBusy : Word32 := 1#32

/-- STATUS of an ended command: BUSY = 0, DONE = 1, CODE (R356). -/
def statusEnded (c : Code) : Word32 := 2#32 ||| (BitVec.ofNat 32 (codeValue c) <<< 4)

/-- STATUS.BUSY (R33). -/
def busy (s : State) : Bool := s.status.getLsbD 0

/-- STATUS.DONE (R33). -/
def done (s : State) : Bool := s.status.getLsbD 1

/-- STATUS.CODE (R33). -/
def statusCode (s : State) : Nat := (s.status.extractLsb' 4 4).toNat

/-- A `position` cell: the PERC flag in bit 31 and the value below it (R41). -/
def percCell (flag : Bool) (p : Nat) : Word32 :=
  (if flag then 0x80000000#32 else 0#32) ||| (BitVec.ofNat 32 p &&& 0x7FFFFFFF#32)

/-- The PERC flag of a `position` cell (R41, R183). -/
def percFlag (u : Word32) : Bool := u.getLsbD 31

/-- The value of a `position` cell (R41). -/
def percValue (u : Word32) : Nat := (u &&& 0x7FFFFFFF#32).toNat

/-- What a code of length `l` takes of the Kraft sum at 16 bits (R226, R312). -/
def kraftTerm (l : Nat) : Nat := if l = 0 then 0 else 2 ^ (Config.codeBit - l)

/-- The Kraft sum of a length array at 16 bits (R312). -/
def kraftSum (len : List Nat) : Nat := (len.map kraftTerm).sum

/-- The completeness check of R312. -/
def kraftComplete (len : List Nat) : Bool := kraftSum len == 2 ^ Config.codeBit

end Sys2Proof.Machine
end

