-- ==== Sys2Proof/Machine/Ops.lean ====
section
/-!
DEFINITION. The named operations over host memory and the interface registers, and the start and the end of a command. Ending a command is
this hardware's exception entry (60_exceptions.md); there is no return from it: the host starts the next command (R357,
R358).
-/

namespace Sys2Proof.Machine

/-! ## Host memory -/

/-- The byte of memory `m` at `a`. -/
def cellGet (m : List Host.Cell) (a : Nat) : Byte := sparseGet id memInit m a

/-- The byte of host memory at `a` (R80, R86). -/
def memGet (s : State) (a : Nat) : Byte := cellGet s.mem a

/-- Write the byte of host memory at `a` (R80, R86, R87). -/
def memSet (s : State) (a : Nat) (b : Byte) : State := { s with mem := sparseSet id memInit s.mem a b }

/-- `a` is an address of host memory (R80). -/
def inSpace (s : State) (a : Nat) : Bool := decide (a < 2 ^ s.addrW.val)

/-! ## The engine's accesses, each recorded (R86, R390; log entry 19) -/

/-- The engine writes the byte of host memory at `a`. -/
def engineWrite (a : Nat) (b : Byte) (s : State) : State :=
  { memSet s a b with accesses := .write a b :: s.accesses }

/-- The engine reads the `k` bytes of host memory from `a` on, in increasing address order (R89). -/
def engineReads (a k : Nat) (s : State) : State :=
  { s with accesses := ((List.range k).map fun i => .read (a + i) (memGet s (a + i))).reverse ++ s.accesses }

/-- Destination index `i` as a host address (R35). -/
def dstAt (s : State) (i : Nat) : Nat := s.dstAddr.toNat + i

/-- The byte at destination index `i` (R322). -/
def dstGet (s : State) (i : Nat) : Byte := memGet s (dstAt s i)

/-- Write the byte at destination index `i` when it is an address of host memory (R80). -/
def dstPut (s : State) (i : Nat) (b : Byte) : Option State :=
  if inSpace s (dstAt s i) then some (engineWrite (dstAt s i) b s) else none

/-- COMPRESS's write of destination byte `i`, discarded at and above the capacity (R90, R162). -/
def dstPutCapped (s : State) (i : Nat) (b : Byte) : State :=
  if i < s.dstLen.toNat then engineWrite (dstAt s i) b s else s

/-- The byte at source index `i` (R34). -/
def srcGet (s : State) (i : Nat) : Byte := memGet s (s.srcAddr.toNat + i)

/-- Both buffers lie inside host memory (R92). -/
def buffersFit (s : State) : Bool :=
  decide (s.srcAddr.toNat + s.srcLen.toNat ≤ 2 ^ s.addrW.val) && decide (s.dstAddr.toNat + s.dstLen.toNat ≤ 2 ^ s.addrW.val)

/-- `a` lies in the range of `n` bytes from `base`. -/
def inRange (base n a : Nat) : Bool := decide (base ≤ a) && decide (a < base + n)

/-- `a` lies in the source or the destination buffer (R96). -/
def inBuffers (s : State) (a : Nat) : Bool :=
  inRange s.srcAddr.toNat s.srcLen.toNat a || inRange s.dstAddr.toNat s.dstLen.toNat a

/-! ## Free values -/

/-- The next free value (DESIGN CHOICE, log entry 5). -/
def drawFree (s : State) : Word64 × State := (Config.free s.freeCtr, { s with freeCtr := s.freeCtr + 1 })

/-- Destination bytes `0 .. n - 1` get unspecified contents: a draw per byte (R293, 93 U5). The draws are no accesses of the engine. -/
def drawDst : Nat → State → State
  | 0, s => s
  | n + 1, s =>
    let s := drawDst n s
    let (v, s) := drawFree s
    memSet s (dstAt s n) (v.setWidth 8)

/-! ## Starting and ending a command -/

/-- A write to CMD while BUSY = 0 is stored, legal or not (R32). The results of the command it encodes, RESULT_LEN and
`n` destination bytes, become visible to the host only once it reads DONE = 1 (R95, R393). Its sequence of accesses begins (R390). -/
def acceptCmd (w : Word32) (n : Nat) (s : State) : State :=
  { s with cmd := w, unacquired := (s.dstAddr.toNat, n) :: s.unacquired, accesses := [] }

/-- STATUS <- (BUSY = 1, DONE = 0, CODE = 0), and the engine stands at `p` (R291, R331). -/
def startCommand (p : Phase) (s : State) : State := { s with status := statusBusy, phase := p }

/-- End the command with `code` and `RESULT_LEN = n` (R350, R356): the one exception entry of this hardware. -/
def endCommand (code : Code) (n : Nat) (s : State) : State :=
  { s with status := statusEnded code, resultLen := BitVec.ofNat 64 n, phase := .idle }

/-- `Bad`: set the bad-table flag and end with INVALID_DATA and RESULT_LEN = out (R64, R328). -/
def endBad (s : State) : State :=
  endCommand .invalidData s.dec.out { s with dec := { s.dec with bad := true } }

/-- FMT, the format version of the stored command (R32). -/
def fmtOf (s : State) : Nat := (s.cmd.extractLsb' 8 8).toNat

/-- The buffer checks of R92, true when one of them fails. -/
def buffersBad (s : State) : Bool :=
  let sa := s.srcAddr.toNat
  let sl := s.srcLen.toNat
  let da := s.dstAddr.toNat
  let dl := s.dstLen.toNat
  decide (2 ^ s.addrW.val < sa + sl) || decide (2 ^ s.addrW.val < da + dl)
    || (sl != 0 && sa == 0) || (dl != 0 && da == 0)
    || (sl != 0 && dl != 0 && decide (sa < da + dl) && decide (da < sa + sl))

end Sys2Proof.Machine
end

