-- ==== Sys2Proof/Machine/Operands.lean ====
section
/-!
DEFINITION. Every operand form of the stream: the bits themselves (R166, R167), canonical codes and DecodeSymbol (R168, R233), the lists'
parameters (R305, R310), the length of a match symbol (R121) and the value of a position (R122).
-/

namespace Sys2Proof.Machine

/-- `InBit(k)` (R166): bit `k` of the stream, 0 past its end. -/
def inBit (s : State) (k : Nat) : Bool :=
  if k / 8 < s.dec.compsizeIn then (srcGet s (8 + k / 8)).getLsbD (7 - k % 8) else false

/-- The `n` bits from `k` on. -/
def bitsFrom (s : State) : Nat → Nat → List Bool
  | 0, _ => []
  | n + 1, k => inBit s k :: bitsFrom s n (k + 1)

/-- The next `n` unread bits. -/
def peekBits (s : State) (n : Nat) : List Bool := bitsFrom s n s.dec.rpos

/-- How many bytes of the stream the bits below `r` reach into; the bits past its end are in no byte (R166). -/
def bytesReached (d : Dec) (r : Nat) : Nat := min ((r + 7) / 8) d.compsizeIn

/-- `rpos <- rpos + n`. A byte of the stream is read when the first of its bits is, so that each is read once and in order
(R89, R166; log entry 19). -/
def skipBits (n : Nat) (s : State) : State :=
  let k := bytesReached s.dec s.dec.rpos
  let s := engineReads (s.srcAddr.toNat + 8 + k) (bytesReached s.dec (s.dec.rpos + n) - k) s
  { s with dec := { s.dec with rpos := s.dec.rpos + n } }

/-- `GetBits(n)` (R167). -/
def getBits (n : Nat) (s : State) : Nat × State := (bitsToNat (peekBits s n), skipBits n s)

/-! ## The canonical code of a length array (R233) -/

/-- `count[L]`: how many symbols have length `L`. -/
def lenCount (len : List Nat) (l : Nat) : Nat := len.count l

/-- `first[L]` for `L ≥ 1`: the first code of length `L`. -/
def firstCode (len : List Nat) : Nat → Nat
  | 0 => 0
  | 1 => 0
  | l + 2 => 2 * (firstCode len (l + 1) + lenCount len (l + 1))

/-- `code(σ)` for a symbol of nonzero length. -/
def canonCode (len : List Nat) (σ : Nat) : Nat :=
  firstCode len (len.getD σ 0) + (len.take σ).count (len.getD σ 0)

/-- The symbols of length `l`, in rising order, the list standing from index `i` on. -/
def symsFrom (l : Nat) : List Nat → Nat → List Nat
  | [], _ => []
  | x :: xs, i => if x = l then i :: symsFrom l xs (i + 1) else symsFrom l xs (i + 1)

/-- The symbol of length `l` and code `c`, if there is one. -/
def symOfCode (len : List Nat) (l c : Nat) : Option Nat :=
  if firstCode len l ≤ c then (symsFrom l len 0)[c - firstCode len l]? else none

/-- The bit-by-bit loop of DecodeSymbol (R168): `j` bits are read, their value is `c`, and at most `fuel` more are. The
answer is the symbol and how many bits it took. -/
def decodeLoop (len : List Nat) : Nat → Nat → Nat → List Bool → Option (Nat × Nat)
  | 0, _, _, _ => none
  | _ + 1, _, _, [] => none
  | fuel + 1, j, c, b :: bs =>
    match symOfCode len (j + 1) (2 * c + b.toNat) with
    | some σ => some (σ, j + 1)
    | none => decodeLoop len fuel (j + 1) (2 * c + b.toNat) bs

/-- `DecodeSymbol(table)` over an alphabet of `nn` symbols (R168). -/
def decodeSymbol (nn : Nat) (t : Table) (s : State) : Option (Nat × State) :=
  match t with
  | .degenerate σ => if σ < nn then some (σ, s) else none
  | .regular len =>
    match decodeLoop len Config.codeBit 0 0 (peekBits s Config.codeBit) with
    | some (σ, n) => if σ < nn then some (σ, skipBits n s) else none
    | none => none

/-! ## The lists of a block header -/

/-- The alphabet size of a list (R300). -/
def listSize : ListKind → Nat
  | .tList => Config.NT
  | .cList => Config.NC
  | .pList => Config.NPD

/-- The width of a list's count field (R300, R310). -/
def listCountWidth (d : Dec) : ListKind → Nat
  | .tList => Config.tBit
  | .cList => Config.cBit
  | .pList => d.pbit

/-- The special index of a PT list: 3 for the T list, none for the P list (R300). -/
def listSpecial : ListKind → Option Nat
  | .tList => some 3
  | .cList => none
  | .pList => none

/-- `while z > 0 and i < nn: len[i] <- 0; i <- i + 1; z <- z - 1` (R305, R310, R313). -/
def zeroRun (nn : Nat) : Nat → Nat → List Nat → Nat × List Nat
  | 0, i, len => (i, len)
  | z + 1, i, len => if i < nn then zeroRun nn z (i + 1) (len.set i 0) else (i, len)

/-! ## Matches -/

/-- The length of a match symbol (R121). -/
def matchLength (s : BitVec 9) : Nat := s.toNat - 253

/-- The position value of P symbol `c` with extra bits `e` (R122, R319). -/
def posValue (c e : Nat) : Nat := if c ≤ 1 then c else 2 ^ (c - 1) + e

/-- `bitlen(p)` (R25). -/
def bitlen (p : Nat) : Nat := if p = 0 then 0 else Nat.log2 p + 1

end Sys2Proof.Machine
end

