-- ==== Sys2Proof/Machine/BitWriter.lean ====
section
/-!
DEFINITION. The bit writer (40_bitstream.md section 1).
-/

namespace Sys2Proof.Machine

/-- A field of the bit stream: its width and its value (R161). -/
abbrev Field := Nat × Nat

/-- `InitPutBits` (R160). -/
def initPutBits (e : Enc) : Enc := { e with bitcount := 8, subbitbuf := 0#8, compsize := 0 }

/-- `EmitByte(x)` (R162): the byte belongs at destination offset 8 + compsize. -/
def emitByte (x : Byte) (s : State) : State :=
  let s := dstPutCapped s (8 + s.enc.compsize) x
  { s with enc := { s.enc with compsize := s.enc.compsize + 1 } }

/-- One turn of PutBits' loop (R161). -/
def putBit (b : Bool) (s : State) : State :=
  let bitcount := s.enc.bitcount - 1
  let x : Byte := s.enc.subbitbuf ||| (BitVec.ofNat 8 b.toNat <<< bitcount)
  if bitcount = 0 then
    let s := emitByte x s
    { s with enc := { s.enc with subbitbuf := 0#8, bitcount := 8 } }
  else { s with enc := { s.enc with subbitbuf := x, bitcount := bitcount } }

/-- `PutBits(n, v)` (R161). -/
def putBits (n v : Nat) (s : State) : State := (natToBits n v).foldl (fun s b => putBit b s) s

/-- PutBits of one field after the other. -/
def putFields (fs : List Field) (s : State) : State := fs.foldl (fun s f => putBits f.1 f.2 s) s

/-- `FlushBits` (R163). -/
def flushBits (s : State) : State := putBits 7 0 s

end Sys2Proof.Machine
end

