-- ==== Sys2Proof/Machine/Huffman.lean ====
section
/-!
DEFINITION. The canonical Huffman builder (42_huffman_builder.md). Each loop of the pseudocode is a recursion on a number that bounds how often it runs.
-/

namespace Sys2Proof.Machine

/-- Frequency of node `i`. -/
def freqAt {a : Nat} (freq : Arr a Half) (i : Nat) : Nat := (arrGet (zeroBits 16) freq i).toNat

/-- The heap `heap[1 .. NC]` (R50). -/
abbrev Heap := Arr Config.NC Nat

/-- `heap[i]`, for a slot `i ≥ 1`. -/
def heapAt (heap : Heap) (i : Nat) : Nat := arrGet zeroNat heap (i - 1)

/-- `heap[i] <- v`, for a slot `i ≥ 1`. -/
def heapSet (heap : Heap) (i v : Nat) : Heap := arrSet zeroNat heap (i - 1) v

/-! ## The heap -/

/-- The child of slot `i` that DownHeap compares with (R222): the left one unless the right one is smaller. -/
def downHeapChild {a : Nat} (freq : Arr a Half) (heapsize : Nat) (heap : Heap) (i : Nat) : Nat :=
  if 2 * i < heapsize ∧ freqAt freq (heapAt heap (2 * i + 1)) < freqAt freq (heapAt heap (2 * i)) then 2 * i + 1
  else 2 * i

/-- DownHeap's loop for the sinking node `k` (R222): the heap with the nodes moved up, and the slot left for `k`. Each turn at
least doubles the slot, so `heapsize` turns are enough. -/
def downHeapLoop {a : Nat} (freq : Arr a Half) (heapsize k : Nat) : Nat → Nat → Heap → Nat × Heap
  | 0, i, heap => (i, heap)
  | fuel + 1, i, heap =>
    if 2 * i ≤ heapsize then
      let j := downHeapChild freq heapsize heap i
      if freqAt freq k ≤ freqAt freq (heapAt heap j) then (i, heap)
      else downHeapLoop freq heapsize k fuel j (heapSet heap i (heapAt heap j))
    else (i, heap)

/-- `DownHeap(i)` (R222). -/
def downHeap {a : Nat} (freq : Arr a Half) (heapsize i : Nat) (heap : Heap) : Heap :=
  let k := heapAt heap i
  let (j, heap) := downHeapLoop freq heapsize k heapsize i heap
  heapSet heap j k

/-- The symbols below `n` with a nonzero frequency, in rising order (R220). -/
def usedSyms {a : Nat} (n : Nat) (freq : Arr a Half) : List Nat := (List.range n).filter fun i => freqAt freq i != 0

/-- Put `xs` into the heap slots from `i` on. -/
def heapFill : List Nat → Nat → Heap → Heap
  | [], _, heap => heap
  | x :: xs, i, heap => heapFill xs (i + 1) (heapSet heap i x)

/-- `for i in m .. 1 step -1: DownHeap(i)` (R220). -/
def heapify {a : Nat} (freq : Arr a Half) (heapsize : Nat) : Nat → Heap → Heap
  | 0, heap => heap
  | m + 1, heap => heapify freq heapsize m (downHeap freq heapsize (m + 1) heap)

/-- Record a leaf that leaves the heap (R220). -/
def recordLeaf (n i : Nat) (order : List Nat) : List Nat := if i < n then order ++ [i] else order

/-- The merge loop of MakeTree (R220): `k` is the next internal node. Each turn takes one node off the heap, so `heapsize`
turns are enough. The answer is the scratch, the frequencies and the last node made. -/
def mergeLoop {a : Nat} (n : Nat) : Nat → Nat → Huff → Arr a Half → Huff × Arr a Half × Nat
  | 0, k, h, freq => (h, freq, k - 1)
  | fuel + 1, k, h, freq =>
    let i := heapAt h.heap 1
    let order := recordLeaf n i h.sortorder
    let heap := heapSet h.heap 1 (heapAt h.heap h.heapsize)
    let heapsize := h.heapsize - 1
    let heap := downHeap freq heapsize 1 heap
    let j := heapAt heap 1
    let order := recordLeaf n j order
    let freq := arrSet (zeroBits 16) freq k (arrGet (zeroBits 16) freq i + arrGet (zeroBits 16) freq j)
    let heap := downHeap freq heapsize 1 (heapSet heap 1 k)
    let h : Huff := { h with
      heap := heap, heapsize := heapsize, sortorder := order
      left := arrSet zeroNat h.left k i, right := arrSet zeroNat h.right k j }
    if heapsize ≤ 1 then (h, freq, k) else mergeLoop n fuel (k + 1) h freq

/-! ## Code lengths -/

/-- The length counts `lencnt[0 .. 16]` (R50). -/
abbrev Lencnt := Arr Config.lencntSize Nat

/-- `lencnt[i]`. -/
def lencntAt (c : Lencnt) (i : Nat) : Nat := arrGet zeroNat c i

/-- `CountLen(i, depth)` (R224). A node's children are older than it, so `fuel` above the node number is enough. -/
def countLen (n : Nat) (left right : Arr Config.cfreqSize Nat) : Nat → Nat → Nat → Lencnt → Lencnt
  | 0, _, _, c => c
  | fuel + 1, i, depth, c =>
    if i < n then
      let d := min depth Config.codeBit
      arrSet zeroNat c d (lencntAt c d + 1)
    else
      countLen n left right fuel (arrGet zeroNat right i) (depth + 1)
        (countLen n left right fuel (arrGet zeroNat left i) (depth + 1) c)

/-- The Kraft sum of `lencnt` at 16 bits (R225). -/
def lencntKraft (c : Lencnt) : Nat :=
  ((List.range Config.codeBit).map fun i => lencntAt c (i + 1) * 2 ^ (Config.codeBit - (i + 1))).sum

/-- The inner loop of R225's adjustment, from length `i` down to 1. -/
def splitLeaf : Nat → Lencnt → Lencnt
  | 0, c => c
  | i + 1, c =>
    if lencntAt c (i + 1) ≠ 0 then
      let c := arrSet zeroNat c (i + 1) (lencntAt c (i + 1) - 1)
      arrSet zeroNat c (i + 2) (lencntAt c (i + 2) + 2)
    else splitLeaf i c

/-- R225's adjustment, run as many times as the Kraft sum exceeds 2^16 (each pass lowers it by 1). -/
def rebalance : Nat → Lencnt → Lencnt
  | 0, c => c
  | e + 1, c =>
    rebalance e (splitLeaf 15 (arrSet zeroNat c Config.codeBit (lencntAt c Config.codeBit - 1)))

/-- The lengths to hand out, longest first (R225): `lencnt[16]` times 16, down to `lencnt[1]` times 1. -/
def lengthsDown (c : Lencnt) : Nat → List Nat
  | 0 => []
  | i + 1 => List.replicate (lencntAt c (i + 1)) (i + 1) ++ lengthsDown c i

/-- `len[sortorder[p]] <- ` the p-th length (R225). -/
def assignLens {b : Nat} : List Nat → List Nat → Arr b Nat → Arr b Nat
  | σ :: order, l :: ls, len => assignLens order ls (arrSet zeroNat len σ l)
  | _, _, len => len

/-- `MakeLen(root)` (R225): the adjusted `lencnt` and the lengths. -/
def makeLen {b : Nat} (h : Huff) (root : Nat) (len : Arr b Nat) : Lencnt × Arr b Nat :=
  let c := countLen h.n h.left h.right (root + 1) root 0 []
  let c := rebalance (lencntKraft c - 2 ^ Config.codeBit) c
  (c, assignLens h.sortorder (lengthsDown c Config.codeBit) len)

/-! ## Codes -/

/-- `start[i]` before any code is handed out (R229). -/
def startCode (c : Lencnt) : Nat → Nat
  | 0 => 0
  | 1 => 0
  | i + 2 => ((startCode c (i + 1) + lencntAt c (i + 1)) * 2) % 2 ^ 16

/-- The table `start[1 .. 17]` of MakeCode (R229): `start[i]` is entry `i`. -/
abbrev StartTable := Arr (Config.codeBit + 2) Nat

/-- `start[1 .. 17]` before any code is handed out (R229). -/
def startTable (c : Lencnt) : StartTable :=
  (List.range 17).foldl (fun t i => arrSet zeroNat t (i + 1) (startCode c (i + 1))) []

/-- The loop of MakeCode over symbols `s, s + 1, …`, `m` of them (R229). -/
def codeLoop {b : Nat} (len : Arr b Nat) : Nat → Nat → StartTable → Arr b Half → Arr b Half
  | 0, _, _, code => code
  | m + 1, s, start, code =>
    let l := arrGet zeroNat len s
    if l ≠ 0 then
      codeLoop len m (s + 1) (arrSet zeroNat start l (arrGet zeroNat start l + 1))
        (arrSet (zeroBits 16) code s (BitVec.ofNat 16 (arrGet zeroNat start l)))
    else codeLoop len m (s + 1) start (arrSet (zeroBits 16) code s 0#16)

/-- `MakeCode(n, len, code)` (R229). -/
def makeCode {b : Nat} (n : Nat) (lencnt : Lencnt) (len : Arr b Nat) (code : Arr b Half) : Arr b Half :=
  codeLoop len n 0 (startTable lencnt) code

/-! ## MakeTree -/

/-- What MakeTree writes and returns (R220), for a frequency table of `a` entries and code tables of `b`. -/
structure TreeOut (a b : Nat) where
  root : Nat
  freq : Arr a Half
  len : Arr b Nat
  code : Arr b Half
  huff : Huff
  deriving DecidableEq, Repr

/-- `MakeTree(n, freq, len, code)` (R220, R223), with the builder's scratch `h0` of the build before. That sortorder is empty after a degenerate build,
whose `return` stands before `sortorder <- []`, and that the rest of the scratch keeps between builds what the last one left, is the model's choice
(DESIGN CHOICE, log entry 24): R50 makes the scratch valid during one build only. -/
def makeTree {a b : Nat} (n : Nat) (freq : Arr a Half) (len : Arr b Nat) (code : Arr b Half) (h0 : Huff) : TreeOut a b :=
  let used := usedSyms n freq
  let len := arrClearBelow n len
  let heapsize := used.length
  let heap := heapFill used 1 (heapSet h0.heap 1 0)
  let h : Huff := { h0 with n := n, heap := heap, heapsize := heapsize, sortorder := [] }
  if heapsize < 2 then
    { root := heapAt heap 1, freq := freq, len := len, code := arrSet (zeroBits 16) code (heapAt heap 1) 0#16, huff := h }
  else
    let h := { h with heap := heapify freq heapsize (heapsize / 2) heap }
    let (h, freq, root) := mergeLoop n heapsize n h freq
    let (lencnt, len) := makeLen h root len
    { root := root, freq := freq, len := len, code := makeCode n lencnt len code, huff := { h with lencnt := lencnt } }

end Sys2Proof.Machine
end

