-- ==== Sys2Proof/Machine/MatchFinder.lean ====
section
/-!
DEFINITION. The sliding-window match finder (41_match_finder.md). Every pointer loop of the pseudocode runs on `loopBound`, which exceeds
the number of entries it can visit: a loop that uses it up never ends, and the answer is then `none` (Fault.endlessLoop, log entry 13).
-/

namespace Sys2Proof.Machine

/-- More than the entries of any array of the tree (R42): no pointer loop that ends runs longer. -/
def loopBound : Nat := Config.maxHashVal + 2

/-! ## The arrays -/

/-- `level` after InitSlide (R182): 1 for the roots, else 0. -/
def levelInit (i : Nat) : Byte := if Config.W ≤ i ∧ i < Config.W + 256 then 1#8 else 0#8

/-- `next` after InitSlide (R182): the free list 1, 2, …, W - 1, and empty buckets. -/
def nextInit (i : Nat) : Nat := if 1 ≤ i ∧ i < Config.W - 1 then i + 1 else 0

/-- `text[i]` (R37). -/
def textAt (f : Finder) (i : Nat) : Byte := arrGet (zeroBits 8) f.text i

/-- `level[i]` (R39). -/
def levelAt (f : Finder) (i : Nat) : Nat := (arrGet levelInit f.level i).toNat

/-- `childcount[i]` (R40). -/
def childcountAt (f : Finder) (i : Nat) : Nat := arrGet zeroNat f.childcount i

/-- `position[i]` (R41). -/
def positionAt (f : Finder) (i : Nat) : Word32 := arrGet (zeroBits 32) f.position i

/-- `parent[i]` (R42). -/
def parentAt (f : Finder) (i : Nat) : Nat := arrGet zeroNat f.parent i

/-- `prev[i]` (R42). -/
def prevAt (f : Finder) (i : Nat) : Nat := arrGet zeroNat f.prev i

/-- `next[i]` (R42). -/
def nextAt (f : Finder) (i : Nat) : Nat := arrGet nextInit f.next i

/-- `text[i] <- b`. -/
def setText (i : Nat) (b : Byte) (f : Finder) : Finder := { f with text := arrSet (zeroBits 8) f.text i b }

/-- `level[i] <- v`, 8 bits (R39). -/
def setLevel (i v : Nat) (f : Finder) : Finder := { f with level := arrSet levelInit f.level i (BitVec.ofNat 8 v) }

/-- `childcount[i] <- v`. -/
def setChildcount (i v : Nat) (f : Finder) : Finder := { f with childcount := arrSet zeroNat f.childcount i v }

/-- `position[i] <- (flag, p)` (R41). -/
def setPosition (i : Nat) (flag : Bool) (p : Nat) (f : Finder) : Finder :=
  { f with position := arrSet (zeroBits 32) f.position i (percCell flag p) }

/-- `parent[i] <- v`. -/
def setParent (i v : Nat) (f : Finder) : Finder := { f with parent := arrSet zeroNat f.parent i v }

/-- `prev[i] <- v`. -/
def setPrev (i v : Nat) (f : Finder) : Finder := { f with prev := arrSet zeroNat f.prev i v }

/-- `next[i] <- v`. -/
def setNext (i v : Nat) (f : Finder) : Finder := { f with next := arrSet nextInit f.next i v }

/-- A position index as a text index (R44). -/
def textIndex (f : Finder) (q : Nat) : Nat := if f.pos ≤ q then q - Config.W else q

/-- A text index as a position index: `s | W` (R187, R192). -/
def posIndex (s : Nat) : Nat := s ||| Config.W

/-! ## Primitive operations -/

/-- `HASH(q, c)` (R181). -/
def hash (q : Nat) (c : Byte) : Nat := q + c.toNat * 2 ^ (Config.wndBit - 9) + 2 * Config.W

/-- InitSlide over zeroed arrays and window (R182, R291). -/
def initSlide (f : Finder) : Finder :=
  { f with text := [], level := [], childcount := [], position := [], parent := [], prev := [], next := [], avail := 1 }

/-- Child's search of a bucket (R184). -/
def childLoop (f : Finder) (q : Nat) : Nat → Nat → Option Nat
  | 0, _ => none
  | fuel + 1, r => if parentAt f r = q then some r else childLoop f q fuel (nextAt f r)

/-- `Child(q, c)` (R184): the child, 0 (NIL) when there is none, after `parent[NIL] <- q`. -/
def child (q : Nat) (c : Byte) (f : Finder) : Option (Nat × Finder) :=
  let r := nextAt f (hash q c)
  let f := setParent 0 q f
  (childLoop f q loopBound r).map fun r => (r, f)

/-- `MakeChild(q, c, r)` (R185). -/
def makeChild (q : Nat) (c : Byte) (r : Nat) (f : Finder) : Finder :=
  let h := hash q c
  let t := nextAt f h
  let f := setNext r t (setNext h r f)
  let f := setPrev r h (setPrev t r f)
  let f := setParent r q f
  setChildcount q (childcountAt f q + 1) f

/-- `Split(old)` (R186). -/
def split (old : Nat) (f : Finder) : Finder :=
  let new := f.avail
  let f := { f with avail := nextAt f new }
  let f := setChildcount new 0 f
  let t := prevAt f old
  let f := setNext t new (setPrev new t f)
  let t := nextAt f old
  let f := setPrev t new (setNext new t f)
  let f := setParent new (parentAt f old) f
  let f := setLevel new f.matchlen f
  let f := setPosition new false f.pos f
  let f := makeChild new (textAt f (f.matchpos + f.matchlen)) old f
  makeChild new (textAt f (f.pos + f.matchlen)) f.pos f

/-! ## Insertion (R187) -/

/-- Phase A: follow the replacements of a leaf until one has a parent. -/
def followReplaced (f : Finder) : Nat → Nat → Option Nat
  | 0, _ => none
  | fuel + 1, r => if parentAt f r = 0 then followReplaced f fuel (nextAt f r) else some r

/-- Phase A: climb from `r` to the deepest node `q` shallower than `matchlen`; the answer is `(r, q)`. -/
def climb (f : Finder) : Nat → Nat → Nat → Option (Nat × Nat)
  | 0, _, _ => none
  | fuel + 1, r, q => if f.matchlen ≤ levelAt f q then climb f fuel q (parentAt f q) else some (r, q)

/-- Phase A: settle pending lazy positions from `t` up; the answer names the node where it stops. -/
def settle : Nat → Nat → Finder → Option (Nat × Finder)
  | 0, _, _ => none
  | fuel + 1, t, f =>
    if percFlag (positionAt f t) then
      let f := setPosition t false f.pos f
      settle fuel (parentAt f t) f
    else some (t, f)

/-- Phase A for `matchlen ≥ 4`: the starting nodes `r` and `q`. -/
def shortcut (f : Finder) : Option (Nat × Nat × Finder) := do
  let f := { f with matchlen := f.matchlen - 1 }
  let r ← followReplaced f loopBound (posIndex (f.matchpos + 1))
  let (r, q) ← climb f loopBound r (parentAt f r)
  let (t, f) ← settle loopBound q f
  let f := if t < Config.W then setPosition t true f.pos f else f
  return (r, q, f)

/-- Phase B's comparison: raise `matchlen`, by at most `fuel`, while the bytes agree; true when they came to differ. -/
def compareRun : Nat → Finder → Bool × Finder
  | 0, f => (false, f)
  | fuel + 1, f =>
    if textAt f (f.pos + f.matchlen) ≠ textAt f (f.matchpos + f.matchlen) then (true, f)
    else compareRun fuel { f with matchlen := f.matchlen + 1 }

/-- Phase B's `j` and `matchpos` at node `r`: a leaf stands for M bytes at its own position, an internal node
for `level[r]` bytes at its `position`. -/
def nodeExtent (f : Finder) (r : Nat) : Nat × Nat :=
  if Config.W ≤ r then (Config.maxMatch, r) else (levelAt f r, percValue (positionAt f r))

/-- Phase C: `pos` replaces leaf `r`, whose parent is `q`, in its bucket. -/
def replaceLeaf (q r : Nat) (f : Finder) : Finder :=
  let t := prevAt f r
  let f := setNext t f.pos (setPrev f.pos t f)
  let t := nextAt f r
  let f := setPrev t f.pos (setNext f.pos t f)
  let f := setParent f.pos q f
  let f := setParent r 0 f
  setNext r f.pos f

/-- Phases B and C: walk down from node `r` under `q`. Each turn raises `matchlen`, so M + 1 turns are enough. -/
def descend : Nat → Nat → Nat → Finder → Option Finder
  | 0, _, _, _ => none
  | fuel + 1, q, r, f =>
    let (j, mp) := nodeExtent f r
    let f := { f with matchpos := textIndex f mp }
    let (differ, f) := compareRun (j - f.matchlen) f
    if differ then some (split r f)
    else if Config.maxMatch ≤ f.matchlen then some (replaceLeaf q r f)
    else
      let f := setPosition r false f.pos f
      let c := textAt f (f.pos + f.matchlen)
      match child r c f with
      | none => none
      | some (r', f) =>
        if r' = 0 then some (makeChild r c f.pos f)
        else descend fuel r r' { f with matchlen := f.matchlen + 1 }

/-- `InsertNode` (R187). -/
def insertNode (f : Finder) : Option Finder :=
  if 4 ≤ f.matchlen then
    match shortcut f with
    | none => none
    | some (r, q, f) => descend (Config.maxMatch + 1) q r f
  else
    let q := (textAt f f.pos).toNat + Config.W
    let c := textAt f (f.pos + 1)
    match child q c f with
    | none => none
    | some (r, f) =>
      if r = 0 then some { makeChild q c f.pos f with matchlen := 1 }
      else descend (Config.maxMatch + 1) q r { f with matchlen := 2 }

/-! ## Deletion (R192) -/

/-- The text index of a `position` cell's value. -/
def cellText (f : Finder) (u : Word32) : Nat := textIndex f (percValue u)

/-- Refresh flagged ancestors from `q` up with the latest text index `s`. -/
def refresh : Nat → Nat → Nat → Finder → Option (Nat × Nat × Finder)
  | 0, _, _, _ => none
  | fuel + 1, s, q, f =>
    if percFlag (positionAt f q) then
      let s := max s (cellText f (positionAt f q))
      let f := setPosition q false (posIndex s) f
      refresh fuel s (parentAt f q) f
    else some (s, q, f)

/-- Take the internal node `r`, whose only child is `s`, out of the tree and put it on the free list. -/
def spliceOut (r s : Nat) (f : Finder) : Finder :=
  let t := prevAt f s
  let u := nextAt f s
  let f := setPrev u t (setNext t u f)
  let t := prevAt f r
  let f := setPrev s t (setNext t s f)
  let t := nextAt f r
  let f := setNext s t (setPrev t s f)
  let f := setParent s (parentAt f r) f
  let f := setParent r 0 f
  { setNext r f.avail f with avail := r }

/-- Remove the internal node `r`, which has one child left. -/
def removeParent (r : Nat) (f : Finder) : Option Finder := do
  let t := cellText f (positionAt f r)
  let (s, q, f) ← refresh loopBound t (parentAt f r) f
  let f :=
    if q < Config.W then setPosition q true (posIndex (max s (cellText f (positionAt f q)))) f else f
  let (s, f) ← child r (textAt f (t + levelAt f r)) f
  return spliceOut r s f

/-- `DeleteNode` (R192). -/
def deleteNode (f : Finder) : Option Finder :=
  if parentAt f f.pos = 0 then some f
  else
    let r := prevAt f f.pos
    let s := nextAt f f.pos
    let f := setPrev s r (setNext r s f)
    let r := parentAt f f.pos
    let f := setParent f.pos 0 f
    if Config.W ≤ r then some f
    else
      let f := setChildcount r (childcountAt f r - 1) f
      if 1 < childcountAt f r then some f else removeParent r f

/-! ## Advancing the window -/

/-- `text[0 .. W+M) <- text[W .. 2W+M)` (R199). -/
def shiftText (f : Finder) : Finder :=
  { f with text :=
      (f.text.filterMap fun p =>
          if Config.W ≤ p.1.val then some (⟨p.1.val - Config.W, Nat.lt_of_le_of_lt (Nat.sub_le _ _) p.1.isLt⟩, p.2) else none)
        ++ f.text.filter fun p => decide (Config.W + Config.maxMatch ≤ p.1.val) }

/-- ReadInput's copy (R198): `m` source bytes from source index `i` to text index `d`. -/
def readLoop (s : State) : Nat → Nat → Nat → Finder → Finder
  | 0, _, _, f => f
  | m + 1, i, d, f => readLoop s m (i + 1) (d + 1) (setText d (srcGet s i) f)

/-- `ReadInput(dst, n)` (R198): the number of bytes read, and the state after. The source bytes are read in increasing address order
(R89). -/
def readInput (d n : Nat) (s : State) : Nat × State :=
  let k := min n (s.srcLen.toNat - s.enc.srcpos)
  let s := engineReads (s.srcAddr.toNat + s.enc.srcpos) k s
  (k, { s with enc := { s.enc with
    finder := readLoop s k s.enc.srcpos d s.enc.finder
    srcpos := s.enc.srcpos + k, origsize := s.enc.origsize + k } })

/-- Put a match finder into the state. -/
def withFinder (s : State) (f : Finder) : State := { s with enc := { s.enc with finder := f } }

/-- The refill of GetNextMatch (R199), when `pos` has reached 2W. -/
def refill (s : State) : State :=
  let s := withFinder s (shiftText s.enc.finder)
  let (k, s) := readInput (Config.W + Config.maxMatch) Config.W s
  withFinder s { s.enc.finder with remainder := s.enc.finder.remainder + k, pos := Config.W }

/-- `GetNextMatch` (R199). -/
def getNextMatch (s : State) : Option State :=
  let f := s.enc.finder
  let s := withFinder s { f with remainder := f.remainder - 1, pos := f.pos + 1 }
  let s := if s.enc.finder.pos = 2 * Config.W then refill s else s
  match deleteNode s.enc.finder with
  | none => none
  | some f => (insertNode f).map (withFinder s)

/-- `GetNextMatch`, `k` times (R205). -/
def getNextMatches : Nat → State → Option State
  | 0, s => some s
  | k + 1, s =>
    match getNextMatch s with
    | none => none
    | some s => getNextMatches k s

/-- `if matchlen > remainder: matchlen <- remainder` (R205). -/
def capMatch (s : State) : State :=
  withFinder s { s.enc.finder with matchlen := min s.enc.finder.matchlen s.enc.finder.remainder }

/-- The position value `(pos - lastpos - 2) & (W - 1)` (R209); after the window has shifted, `lastpos` still counts
from before the shift, and the difference is taken modulo W (DEDUCED, log entry 11). -/
def matchPosition (pos lastpos : Nat) : Nat := (((pos : Int) - lastpos - 2) % (Config.W : Int)).toNat

end Sys2Proof.Machine
end

