-- ==== Sys2Proof/Machine/BlockEncoder.lean ====
section
/-!
DEFINITION. The block encoder and the body of COMPRESS (43_block_encoder.md, 41_match_finder.md section 6). A procedure that puts bits is
given as the list of the fields it puts, in order; SendBlock puts them.
-/

namespace Sys2Proof.Machine

/-! ## Token buffering -/

/-- `buf[i]`. -/
def bufAt (e : Enc) (i : Nat) : Byte := arrGet (zeroBits 8) e.buf i

/-- `buf[i] <- b`. -/
def setBuf (i : Nat) (b : Byte) (e : Enc) : Enc := { e with buf := arrSet (zeroBits 8) e.buf i b }

/-- `freq[i] <- freq[i] + 1`. -/
def countSym {a : Nat} (freq : Arr a Half) (i : Nat) : Arr a Half :=
  arrSet (zeroBits 16) freq i (arrGet (zeroBits 16) freq i + 1#16)

/-- `HufEncodeStart` (R255). -/
def hufEncodeStart (e : Enc) : Enc :=
  initPutBits { e with
    cfreq := arrClearBelow Config.NC e.cfreq, pfreq := arrClearBelow Config.NP e.pfreq
    outputpos := 0, outputmask := 0#8 }

/-- Append one byte to the token buffer. -/
def pushBuf (b : Byte) (e : Enc) : Enc := { setBuf e.outputpos b e with outputpos := e.outputpos + 1 }

/-- Output's first token of a group (R257): its flag byte. -/
def openGroup (e : Enc) : Enc := pushBuf 0#8 { e with cpos := e.outputpos }

/-- Output after the group is open (R257): store the token and count its symbols. -/
def storeToken (c p : Nat) (e : Enc) : Enc :=
  let e := pushBuf (BitVec.ofNat 8 c) e
  let e := { e with cfreq := countSym e.cfreq c }
  if 256 ≤ c then
    let e := setBuf e.cpos (bufAt e e.cpos ||| e.outputmask) e
    let e := pushBuf (BitVec.ofNat 8 (p / 2 ^ 24)) e
    let e := pushBuf (BitVec.ofNat 8 (p / 2 ^ 16)) e
    let e := pushBuf (BitVec.ofNat 8 (p / 2 ^ 8)) e
    let e := pushBuf (BitVec.ofNat 8 p) e
    { e with pfreq := countSym e.pfreq (bitlen p) }
  else e

/-! ## Sending the tables -/

/-- The C lengths with trailing zeros dropped (R272, R275). -/
def trimLens {b : Nat} (len : Arr b Nat) : Nat → Nat
  | 0 => 0
  | n + 1 => if arrGet zeroNat len n = 0 then trimLens len n else n + 1

/-- The maximal runs of a length list: a run of zeros is one item with its count, a nonzero length an item of its own
(R272, R275). -/
def lenRuns : List Nat → List (Nat × Nat)
  | [] => []
  | k :: ks =>
    if k = 0 then
      match lenRuns ks with
      | (0, c) :: r => (0, c + 1) :: r
      | r => (0, 1) :: r
    else (k, 1) :: lenRuns ks

/-- The T symbols of one run, each with its extension field (R273). -/
def runSyms : Nat × Nat → List (Nat × Field)
  | (k, count) =>
    if k = 0 then
      if count ≤ 2 then List.replicate count (0, (0, 0))
      else if count ≤ 18 then [(1, (4, count - 3))]
      else if count = 19 then [(0, (0, 0)), (1, (4, 15))]
      else [(2, (Config.cBit, count - 20))]
    else [(k + 2, (0, 0))]

/-- The T symbols that send the first `n` C lengths (R272, R275). -/
def clenSyms {b : Nat} (len : Arr b Nat) (n : Nat) : List (Nat × Field) :=
  (lenRuns ((List.range n).map (arrGet zeroNat len))).flatMap runSyms

/-- `CountTFreq` (R272). -/
def countTFreq (e : Enc) : Enc :=
  let syms := clenSyms e.clen (trimLens e.clen Config.NC)
  { e with tfreq := syms.foldl (fun t x => countSym t x.1) (arrClearBelow Config.NT e.tfreq) }

/-- The field of symbol `σ` in a code (R275, R279, R280). -/
def codeField {b : Nat} (len : Arr b Nat) (code : Arr b Half) (σ : Nat) : Field :=
  (arrGet zeroNat len σ, (arrGet (zeroBits 16) code σ).toNat)

/-- `WriteCLen` (R275). -/
def writeCLen (e : Enc) : List Field :=
  let n := trimLens e.clen Config.NC
  (Config.cBit, n) :: (clenSyms e.clen n).flatMap fun x => [codeField e.ptlen e.ptcode x.1, x.2]

/-- The field of a length in a PT list (R118, R277). -/
def lencodeField (k : Nat) : Field := if k ≤ 6 then (3, k) else (k - 3, 2 ^ (k - 3) - 2)

/-- `while i < 6 and ptlen[i] == 0: i <- i + 1` (R277). -/
def skipZeros {b : Nat} (len : Arr b Nat) : Nat → Nat → Nat
  | 0, i => i
  | fuel + 1, i => if i < 6 ∧ arrGet zeroNat len i = 0 then skipZeros len fuel (i + 1) else i

/-- WritePTLen's loop from symbol `i` (R277). -/
def ptLenLoop {b : Nat} (len : Arr b Nat) (n : Nat) (special : Option Nat) : Nat → Nat → List Field
  | 0, _ => []
  | fuel + 1, i =>
    if i < n then
      let f := lencodeField (arrGet zeroNat len i)
      if special = some (i + 1) then
        let j := skipZeros len 6 (i + 1)
        f :: (2, (j - 3) % 4) :: ptLenLoop len n special fuel j
      else f :: ptLenLoop len n special fuel (i + 1)
    else []

/-- `WritePTLen(n, nbit, special)` (R277). -/
def writePTLen {b : Nat} (len : Arr b Nat) (n nbit : Nat) (special : Option Nat) : List Field :=
  let n := trimLens len n
  (nbit, n) :: ptLenLoop len n special n 0

/-! ## Coding the tokens -/

/-- `EncodeC(c)` (R279). -/
def encodeC (e : Enc) (c : Nat) : Field := codeField e.clen e.ccode c

/-- `EncodeP(p)` (R280). -/
def encodeP (e : Enc) (p : Nat) : List Field :=
  let c := bitlen p
  codeField e.ptlen e.ptcode c :: (if 1 < c then [(c - 1, p % 2 ^ (c - 1))] else [])

/-- `ReplayTokens` (R278): `m` tokens from token `i` on, the next byte at `rp`. -/
def replayTokens (e : Enc) : Nat → Nat → Nat → Byte → List Field
  | 0, _, _, _ => []
  | m + 1, i, rp, flags =>
    let flags : Byte := if i % 8 = 0 then bufAt e rp else flags <<< 1
    let rp := if i % 8 = 0 then rp + 1 else rp
    if flags.getLsbD 7 then
      let p := (bufAt e (rp + 1)).toNat * 2 ^ 24 + (bufAt e (rp + 2)).toNat * 2 ^ 16
        + (bufAt e (rp + 3)).toNat * 2 ^ 8 + (bufAt e (rp + 4)).toNat
      encodeC e ((bufAt e rp).toNat + 256) :: encodeP e p ++ replayTokens e m (i + 1) (rp + 5) flags
    else encodeC e (bufAt e rp).toNat :: replayTokens e m (i + 1) (rp + 1) flags

/-! ## SendBlock (R270) -/

/-- MakeTree over the C alphabet: the root, and the state after. -/
def buildC (e : Enc) : Nat × Enc :=
  let t := makeTree Config.NC e.cfreq e.clen e.ccode e.huff
  (t.root, { e with cfreq := t.freq, clen := t.len, ccode := t.code, huff := t.huff })

/-- MakeTree over the T alphabet. -/
def buildT (e : Enc) : Nat × Enc :=
  let t := makeTree Config.NT e.tfreq e.ptlen e.ptcode e.huff
  (t.root, { e with tfreq := t.freq, ptlen := t.len, ptcode := t.code, huff := t.huff })

/-- MakeTree over the P alphabet. -/
def buildP (e : Enc) : Nat × Enc :=
  let t := makeTree Config.NP e.pfreq e.ptlen e.ptcode e.huff
  (t.root, { e with pfreq := t.freq, ptlen := t.len, ptcode := t.code, huff := t.huff })

/-- The T and C tables of a block whose C table is regular (R270, R274). -/
def sendRegularC (e : Enc) : List Field × Enc :=
  let (root, e) := buildT (countTFreq e)
  let t := if Config.NT ≤ root then writePTLen e.ptlen Config.NT Config.tBit (some 3)
    else [(Config.tBit, 0), (Config.tBit, root)]
  (t ++ writeCLen e, e)

/-- The T and C tables of a block whose C table is degenerate with symbol `s` (R271). -/
def sendDegenerateC (s : Nat) : List Field :=
  [(Config.tBit, 0), (Config.tBit, 0), (Config.cBit, 0), (Config.cBit, s)]

/-- The P table of a block (R276). -/
def sendP (e : Enc) : List Field × Enc :=
  let (root, e) := buildP e
  (if Config.NP ≤ root then writePTLen e.ptlen Config.NP Config.pBit none
    else [(Config.pBit, 0), (Config.pBit, root)], e)

/-- The fields of the block that holds the buffered tokens, and the state after (R270, R281). -/
def blockFields (e : Enc) : List Field × Enc :=
  let (root, e) := buildC e
  let size := freqAt e.cfreq root
  let (tc, e) := if Config.NC ≤ root then sendRegularC e else (sendDegenerateC root, e)
  let (p, e) := sendP e
  ((16, size) :: tc ++ p ++ replayTokens e size 0 0 0#8,
    { e with cfreq := arrClearBelow Config.NC e.cfreq, pfreq := arrClearBelow Config.NP e.pfreq })

/-- `SendBlock` (R270). -/
def sendBlock (s : State) : State :=
  let (fs, e) := blockFields s.enc
  putFields fs { s with enc := e }

/-- `Output(c, p)` (R257). -/
def output (c p : Nat) (s : State) : State :=
  let mask : Byte := s.enc.outputmask >>> 1
  let s := { s with enc := { s.enc with outputmask := mask } }
  let s :=
    if mask = 0#8 then
      let s := { s with enc := { s.enc with outputmask := 0x80#8 } }
      let s :=
        if Config.bufSize - Config.flushMargin ≤ s.enc.outputpos then
          let s := sendBlock s
          { s with enc := { s.enc with outputpos := 0 } }
        else s
      { s with enc := openGroup s.enc }
    else s
  { s with enc := storeToken c p s.enc }

/-! ## MatchLoop (R205) -/

/-- MatchLoop up to its `while`. -/
def matchLoopStart (s : State) : Option State :=
  let (k, s) := readInput Config.W (Config.W + Config.maxMatch) s
  let s := withFinder s { s.enc.finder with remainder := k, matchlen := 0, matchpos := 0, pos := Config.W }
  (insertNode s.enc.finder).map fun f => capMatch (withFinder s f)

/-- The decision of one iteration (R205 to R208): emit a literal rather than the last match. -/
def emitsLiteral (lastlen matchlen p : Nat) : Bool :=
  decide (lastlen < matchlen) || decide (lastlen < Config.threshold)
    || (lastlen == Config.threshold && decide (Config.biasLimit < p))

/-- One iteration of MatchLoop's `while`. -/
def matchLoopTurn (s : State) : Option State :=
  let lastlen := s.enc.finder.matchlen
  let lastpos := s.enc.finder.matchpos
  match getNextMatch s with
  | none => none
  | some s =>
    let s := capMatch s
    let p := matchPosition s.enc.finder.pos lastpos
    if emitsLiteral lastlen s.enc.finder.matchlen p then
      some (output (textAt s.enc.finder (s.enc.finder.pos - 1)).toNat 0 s)
    else (getNextMatches (lastlen - 1) (output (lastlen + 253) p s)).map capMatch

/-! ## Ending COMPRESS -/

/-- Byte `i` of a number, the least significant first (R83). -/
def leByte (v i : Nat) : Byte := BitVec.ofNat 8 (v / 2 ^ (8 * i))

/-- `WriteHeader` (R292): L = compsize + 1 and O = origsize. -/
def writeHeader (s : State) : State :=
  let l := s.enc.compsize + 1
  let o := s.enc.origsize
  let s := (List.range 4).foldl (fun s i => dstPutCapped s i (leByte l i)) s
  (List.range 4).foldl (fun s i => dstPutCapped s (4 + i) (leByte o i)) s

/-- `FinishCompress` (R293): the required size, and the end of the command. After BUFFER_TOO_SMALL the destination bytes
below the capacity are free values (93 U5). -/
def finishCompress (s : State) : State :=
  let r := 8 + s.enc.compsize + 1
  if r ≤ s.dstLen.toNat then endCommand .success r s
  else endCommand .bufferTooSmall r (drawDst s.dstLen.toNat s)

/-- HufEncodeEnd (R285) and the terminator (R291). -/
def hufEncodeEnd (s : State) : State :=
  let s := flushBits (sendBlock s)
  dstPutCapped s (8 + s.enc.compsize) 0#8

/-- L does not fit its header field (R292, 93 U4). -/
def headerOverflows (s : State) : Bool := decide (2 ^ 32 - 1 < s.enc.compsize + 1)

/-- A step of the encoder that may meet an endless pointer loop. -/
def orEndless (s : Option State) : Host.Outcome State Fault Refusal :=
  match s with
  | some s => .next s
  | none => .fault .endlessLoop

/-- The engine's step at Phase.encFirst. -/
def stepEncFirst (s : State) : Host.Outcome State Fault Refusal :=
  orEndless ((matchLoopStart s).map fun s => { s with phase := .encLoop })

/-- The engine's step at Phase.encLoop: an iteration, or, when the input is used up, the way to the end. -/
def stepEncLoop (s : State) : Host.Outcome State Fault Refusal :=
  if s.enc.finder.remainder = 0 then .next { s with phase := .encEnd } else orEndless (matchLoopTurn s)

/-- The engine's step at Phase.encEnd (R285, R291 to R293). -/
def stepEncEnd (s : State) : Host.Outcome State Fault Refusal :=
  let s := hufEncodeEnd s
  if headerOverflows s then .refused .headerOverflow else .next (finishCompress (writeHeader s))

end Sys2Proof.Machine
end

