-- ==== Sys2Proof/Machine/Commands.lean ====
section
/-!
DEFINITION. The commands, COMPRESS, DECOMPRESS and ILLEGAL_CMD: what a write to CMD does (30_encoding.md section 1, R290, R291, R330, R331). A write while
BUSY = 1 is ignored and not stored (R392).
-/

namespace Sys2Proof.Machine

/-- The encoder's state at the start of a COMPRESS (R291): window, tree arrays and token buffer zeroed, InitSlide,
HufEncodeStart. -/
def encStart (e : Enc) : Enc :=
  hufEncodeStart { e with finder := initSlide e.finder, buf := [], srcpos := 0, origsize := 0 }

/-- The header placeholder: destination bytes 0 to 7 are written 0 (R291). -/
def headerPlaceholder (s : State) : State := (List.range 8).foldl (fun s i => dstPutCapped s i 0#8) s

/-- The body of COMPRESS up to MatchLoop (R291). -/
def startCompress (s : State) : State :=
  headerPlaceholder { startCommand .encFirst s with enc := encStart s.enc }

/-- COMPRESS (R290, R291). -/
def execCompress (fmt : BitVec 8) (s : State) : Host.Outcome State Fault Refusal :=
  if busy s then .next s
  else
    let s := acceptCmd (encodeCmd (.compress fmt)) s.dstLen.toNat s
    if buffersBad s || decide (2 ^ 32 - 1 < s.srcLen.toNat) then .next (endCommand .invalidParameter 0 s)
    else .next (startCompress s)

/-- Checks 1 to 3 of R330, true when one of them fails. -/
def decompressBad (s : State) : Bool :=
  (fmtOf s != 1 && fmtOf s != 2) || buffersBad s || decide (s.srcLen.toNat < 8)

/-- DECOMPRESS (R330, R331) up to the reading of the header. The bad-table flag, never cleared within a command (R64), is cleared here
(DEDUCED, log entry 18). -/
def execDecompress (fmt : BitVec 8) (s : State) : Host.Outcome State Fault Refusal :=
  if busy s then .next s
  else
    let s := acceptCmd (encodeCmd (.decompress fmt)) s.dstLen.toNat s
    if decompressBad s then .next (endCommand .invalidParameter 0 s)
    else
      let s := startCommand .header s
      .next { s with dec := { s.dec with bad := false } }

/-- ILLEGAL_CMD (R112): no operation starts, and no memory is touched. -/
def execIllegalCmd (w : Word32) (s : State) : Host.Outcome State Fault Refusal :=
  if busy s then .next s
  else .next (endCommand .invalidParameter 0 (acceptCmd (encodeCmd (.illegalCmd w)) 0 s))

end Sys2Proof.Machine
end

