-- ==== Sys2Proof/Machine/StreamSymbols.lean ====
section
/-!
DEFINITION. The decoded symbols of a block: LIT, MATCH and the POS that gives a match its position (44_block_decoder.md section 2).
-/

namespace Sys2Proof.Machine

/-- `out <- n`. -/
def setOut (n : Nat) (s : State) : State := { s with dec := { s.dec with out := n } }

/-- After a symbol (R320, R324): the command ends with SUCCESS as soon as out = origsize, else the next symbol is due. -/
def afterSymbol (s : State) : State :=
  if s.dec.out = s.dec.origsize then endCommand .success s.dec.origsize s else { s with phase := .sym }

/-- A write to the destination that may lie outside host memory. -/
def orOutside (s : Option State) : Host.Outcome State Fault Refusal :=
  match s with
  | some s => .next s
  | none => .fault .outsideAddressSpace

/-- Write byte `b` at destination index out; out <- out + 1. -/
def putOut (b : Byte) (s : State) : Option State := (dstPut s s.dec.out b).map (setOut (s.dec.out + 1))

/-- LIT (R321). -/
def execLit (b : Byte) (s : State) : Host.Outcome State Fault Refusal := orOutside ((putOut b s).map afterSymbol)

/-- The engine reads destination index `i` back (R87, R322). -/
def readBack (i : Nat) (s : State) : State := engineReads (dstAt s i) 1 s

/-- `repeat length times` of R320: copy from destination index out - p - 1, stopping at origsize (R322, R323). -/
def copyLoop (p : Nat) : Nat → State → Option State
  | 0, s => some s
  | n + 1, s =>
    if s.dec.out = s.dec.origsize then some s
    else
      let i := s.dec.out - p - 1
      match putOut (dstGet s i) (readBack i s) with
      | none => none
      | some s => copyLoop p n s

/-- MATCH (R322, R323) with the position value its POS has given: a source before the start of the output is Bad, with nothing of
the match written. -/
def execMatchCopy (m : BitVec 9) (s : State) : Host.Outcome State Fault Refusal :=
  if s.dec.out < s.dec.pval + 1 then .next (endBad s)
  else orOutside ((copyLoop s.dec.pval (matchLength m) s).map afterSymbol)

/-- POS (R319): the position value; the match that awaits it comes next. -/
def execPos (c : BitVec 5) (e : BitVec 29) (s : State) : Host.Outcome State Fault Refusal :=
  .next { s with dec := { s.dec with pval := posValue c.toNat e.toNat }, phase := .copy }

end Sys2Proof.Machine
end

