-- ==== Sys2Proof/Machine/StreamTables.lean ====
section
/-!
DEFINITION. The stream header, the block header and the symbols of its three lists (44_block_decoder.md sections 1 and 3): STREAM_HEADER, BLOCK, LENCODE,
ZRUN1, ZRUN_M, ZRUN_L and LEN. A list is read in steps: its count field (`readCount`), then one length or one T symbol a
step.
-/

namespace Sys2Proof.Machine

/-! ## The stream header -/

/-- The start of Decode (R320). -/
def startDecode (s : State) : State :=
  { s with dec := { s.dec with blocksize := 0#16, out := 0, rpos := 0 }, phase := .sym }

/-- STREAM_HEADER (R331 from the header on): checks 4 and 5 of R330, then `pbit`, then the end of an empty stream or Decode. -/
def execStreamHeader (l o : Word32) (s : State) : Host.Outcome State Fault Refusal :=
  let s := { s with dec := { s.dec with compsizeIn := l.toNat, origsize := o.toNat } }
  if s.srcLen.toNat < 8 + l.toNat then .next (endCommand .invalidParameter 0 s)
  else if s.dstLen.toNat ≠ o.toNat then .next (endCommand .invalidParameter 0 s)
  else
    let s := { s with dec := { s.dec with pbit := if fmtOf s = 1 then 4 else 5 } }
    if o.toNat = 0 then .next (endCommand .success 0 s) else .next (startDecode s)

/-! ## The block header -/

/-- Go to the count field of list `k`. -/
def startList (k : ListKind) (s : State) : State :=
  { s with dec := { s.dec with list := k }, phase := .count }

/-- BLOCK (R300): SIZE = 0 is Bad; else the T list comes next. -/
def execBlock (size : Half) (s : State) : Host.Outcome State Fault Refusal :=
  if size = 0#16 then .next (endBad s)
  else .next (startList .tList { s with dec := { s.dec with blocksize := size } })

/-- The list is read and its table is `t`: store it and go on to the next list, or, after the P list, to the
symbols (R300). -/
def storeTable (t : Table) (s : State) : State :=
  match s.dec.list with
  | .tList => startList .cList { s with dec := { s.dec with tTab := t } }
  | .cList => startList .pList { s with dec := { s.dec with cTab := t } }
  | .pList => { s with dec := { s.dec with pTab := t }, phase := .sym }

/-- `BuildTable` (R312, R316). -/
def buildTable (s : State) : State :=
  if kraftComplete s.dec.lens then storeTable (.regular s.dec.lens) s else endBad s

/-- `while i < count` (R305, R310): go on with the list, or build its table. -/
def listTurn (s : State) : State := if s.dec.idx < s.dec.count then s else buildTable s

/-- The step that reads a list's count field, and the symbol of a degenerate table (R305, R310). -/
def readCount (s : State) : State :=
  let k := s.dec.list
  let w := listCountWidth s.dec k
  let (count, s) := getBits w s
  if count = 0 then
    let (σ, s) := getBits w s
    if listSize k ≤ σ then endBad s else storeTable (.degenerate σ) s
  else if listSize k < count then endBad s
  else
    { s with
      dec := { s.dec with count := count, idx := 0, lens := List.replicate (listSize k) 0 }
      phase := match k with | .cList => .cLen | _ => .ptLen }

/-! ## The symbols of the lists -/

/-- `len[i] <- k; i <- i + 1`. -/
def putLen (k : Nat) (s : State) : State :=
  { s with dec := { s.dec with lens := s.dec.lens.set s.dec.idx k, idx := s.dec.idx + 1 } }

/-- A run of `z` zero lengths, stopped at the end of the alphabet (R305, R313). -/
def putZeros (z : Nat) (s : State) : State :=
  let (i, len) := zeroRun (listSize s.dec.list) z s.dec.idx s.dec.lens
  { s with dec := { s.dec with idx := i, lens := len } }

/-- The 2-bit skip field after the special index (R305). -/
def skipField (s : State) : State :=
  if listSpecial s.dec.list = some s.dec.idx then
    let (z, s) := getBits 2 s
    putZeros z s
  else s

/-- LENCODE (R305, R306): one length of a PT list; more than 16 is Bad. -/
def execLencode (k : BitVec 5) (s : State) : Host.Outcome State Fault Refusal :=
  if Config.codeBit < k.toNat then .next (endBad s) else .next (listTurn (skipField (putLen k.toNat s)))

/-- ZRUN1 (R311): one C symbol of length 0. -/
def execZrun1 (s : State) : Host.Outcome State Fault Refusal := .next (listTurn (putZeros 1 s))

/-- ZRUN_M (R311): `r + 3` C symbols of length 0. -/
def execZrunM (r : BitVec 4) (s : State) : Host.Outcome State Fault Refusal :=
  .next (listTurn (putZeros (r.toNat + 3) s))

/-- ZRUN_L (R311): `r + 20` C symbols of length 0. -/
def execZrunL (r : BitVec 9) (s : State) : Host.Outcome State Fault Refusal :=
  .next (listTurn (putZeros (r.toNat + 20) s))

/-- LEN (R311): one C symbol of length `k`. -/
def execLen (k : BitVec 5) (s : State) : Host.Outcome State Fault Refusal := .next (listTurn (putLen k.toNat s))

end Sys2Proof.Machine
end

