-- ==== Sys2Proof/Machine/Dispatch.lean ====
section
/-!
DEFINITION. One arm per instruction: each calls that instruction's meaning.
-/

namespace Sys2Proof.Machine

def exec (i : Instr) (s : State) : Host.Outcome State Fault Refusal :=
  match i with
  | .compress fmt => Sys2Proof.Machine.execCompress fmt s
  | .decompress fmt => Sys2Proof.Machine.execDecompress fmt s
  | .illegalCmd w => Sys2Proof.Machine.execIllegalCmd w s
  | .streamHeader l o => Sys2Proof.Machine.execStreamHeader l o s
  | .block size => Sys2Proof.Machine.execBlock size s
  | .lit b => Sys2Proof.Machine.execLit b s
  | .matchCopy m => Sys2Proof.Machine.execMatchCopy m s
  | .pos c e => Sys2Proof.Machine.execPos c e s
  | .zrun1 => Sys2Proof.Machine.execZrun1 s
  | .zrunM r => Sys2Proof.Machine.execZrunM r s
  | .zrunL r => Sys2Proof.Machine.execZrunL r s
  | .len k => Sys2Proof.Machine.execLen k s
  | .lencode k => Sys2Proof.Machine.execLencode k s

end Sys2Proof.Machine
end

