-- ==== Sys2Proof/Machine/Fetch.lean ====
section
/-!
DEFINITION. What the decoder reads next, by the place in the command where it stands: the bytes of the header, SIZE, a C, P or T symbol through its
table with the extension bits that follow it, or a LENCODE.
-/

namespace Sys2Proof.Machine

/-- What a read of the stream gives. -/
inductive Fetched where
  /-- instruction `i` is next, read; the state has moved past its bits -/
  | run (i : Instr) (s : State)
  /-- a match symbol has been read; its position comes before it is executed -/
  | await (s : State)
  /-- nothing can be read -/
  | stop (f : Fault)
  deriving DecidableEq, Repr

/-- Decode `pre` (a symbol's number) followed by the next `n` unread bits, and move past the bits used of them. -/
def fetchBits (k : Kind) (pre : List Bool) (n : Nat) (s : State) : Fetched :=
  match decode k (pre ++ peekBits s n) with
  | .ok i rest => .run i (skipBits (n - rest.length) s)
  | .bad _ => .stop .noSymbol

/-- The bits of the 8 header bytes (R331). -/
def headerBits (s : State) : List Bool := (List.range 8).flatMap fun i => natToBits 8 (srcGet s i).toNat

/-- The header (R331): `MemRead(SRC_ADDR, 8)`. -/
def fetchHeader (s : State) : Fetched :=
  match decode .header (headerBits s) with
  | .ok i _ => .run i (engineReads s.srcAddr.toNat 8 s)
  | .bad _ => .stop .noSymbol

/-- Read a match symbol: it waits for its position (R320). -/
def awaitPosition (m : BitVec 9) (s : State) : State :=
  { s with dec := { s.dec with sym := m }, phase := .pos }

/-- `blocksize <- blocksize - 1` (R318). -/
def takeOfBlock (s : State) : State := { s with dec := { s.dec with blocksize := s.dec.blocksize - 1#16 } }

/-- DecodeC (R318): SIZE when the current block is exhausted, else the next C symbol. -/
def fetchSym (s : State) : Fetched :=
  if s.dec.blocksize = 0#16 then fetchBits .block [] 16 s
  else
    match decodeSymbol Config.NC s.dec.cTab (takeOfBlock s) with
    | none => .stop .noSymbol
    | some (σ, s) =>
      match fetchBits .csym (natToBits 9 σ) 0 s with
      | .run (.matchCopy m) s => .await (awaitPosition m s)
      | r => r

/-- DecodeP (R319): a P symbol and its extra bits. -/
def fetchPos (s : State) : Fetched :=
  match decodeSymbol Config.NPD s.dec.pTab s with
  | none => .stop .noSymbol
  | some (c, s) => fetchBits .psym (natToBits 5 c) 29 s

/-- A T symbol of the C list and its extension bits (R310). -/
def fetchT (s : State) : Fetched :=
  match decodeSymbol Config.NT s.dec.tTab s with
  | none => .stop .noSymbol
  | some (t, s) => fetchBits .tsym (natToBits 5 t) 9 s

/-- ReadLencode (R306): at most 13 bits. -/
def fetchLencode (s : State) : Fetched := fetchBits .lencode [] 13 s

/-- Run what has been fetched. -/
def runFetched (f : Fetched) : Host.Outcome State Fault Refusal :=
  match f with
  | .run i s => exec i s
  | .await s => .next s
  | .stop f => .fault f

end Sys2Proof.Machine
end

