-- ==== Sys2Proof/Machine/Engine.lean ====
section
/-!
DEFINITION. One step of the engine and one access of the host (20_memory.md, 70_reset_and_hazards.md).
-/

namespace Sys2Proof.Machine

/-- The engine's step, by the place where it stands. Idle, it does nothing (R364). -/
def engineTurn (s : State) : Host.Outcome State Fault Refusal :=
  match s.phase with
  | .idle => .next s
  | .encFirst => stepEncFirst s
  | .encLoop => stepEncLoop s
  | .encEnd => stepEncEnd s
  | .header => runFetched (fetchHeader s)
  | .sym => runFetched (fetchSym s)
  | .count => .next (readCount s)
  | .ptLen => runFetched (fetchLencode s)
  | .cLen => runFetched (fetchT s)
  | .pos => runFetched (fetchPos s)
  | .copy => exec (.matchCopy s.dec.sym) s

/-- The engine's step. A running command whose buffers do not lie in host memory, which R92 rules out, stops. -/
def engineStep (s : State) : Host.Outcome State Fault Refusal :=
  if s.phase ≠ .idle ∧ buffersFit s = false then .fault .outsideAddressSpace else engineTurn s

/-! ## The host's accesses -/

/-- The interface registers (10_state.md section 1). -/
inductive Reg where
  | cmd | status | srcAddr | srcLen | dstAddr | dstLen | resultLen
  deriving DecidableEq, Repr

/-- The register an access of `width` bits at offset `off` from BASE reaches whole (R82, R88). -/
def regAt (off width : Nat) : Option Reg :=
  if off = 0x00 ∧ width = 32 then some .cmd
  else if off = 0x04 ∧ width = 32 then some .status
  else if off = 0x08 ∧ width = 64 then some .srcAddr
  else if off = 0x10 ∧ width = 64 then some .srcLen
  else if off = 0x18 ∧ width = 64 then some .dstAddr
  else if off = 0x20 ∧ width = 64 then some .dstLen
  else if off = 0x28 ∧ width = 64 then some .resultLen
  else none

/-- The value of a register. -/
def regGet (s : State) : Reg → Word64
  | .cmd => s.cmd.setWidth 64
  | .status => s.status.setWidth 64
  | .srcAddr => s.srcAddr
  | .srcLen => s.srcLen
  | .dstAddr => s.dstAddr
  | .dstLen => s.dstLen
  | .resultLen => s.resultLen

/-- An operand register takes `v`; it is a host error while BUSY = 1 (R392). -/
def writeOperand (s t : State) : Host.Outcome State Fault Refusal :=
  if busy s then .refused .operandWriteWhileBusy else .next t

/-- A host write to a register: CMD starts a command (R32); STATUS and RESULT_LEN ignore it (R392). -/
def hostRegWrite (r : Reg) (v : Word64) (s : State) : Host.Outcome State Fault Refusal :=
  match r with
  | .cmd => exec (decodeCmd (v.setWidth 32)) s
  | .status => .next s
  | .resultLen => .next s
  | .srcAddr => writeOperand s { s with srcAddr := v }
  | .srcLen => writeOperand s { s with srcLen := v }
  | .dstAddr => writeOperand s { s with dstAddr := v }
  | .dstLen => writeOperand s { s with dstLen := v }

/-- The data of a host read. -/
def deliver (v : Word64) (s : State) : State := { s with busData := v }

/-- Deliver a free value. -/
def deliverFree (s : State) : State :=
  let (v, s) := drawFree s
  deliver v s

/-- A host read of STATUS; with DONE = 1 it makes the command's results visible (R95). -/
def readStatus (s : State) : State :=
  deliver (s.status.setWidth 64) (if done s then { s with unacquired := [] } else s)

/-- A host read of a register. Only STATUS may be read while BUSY = 1 (R96, R386); RESULT_LEN is not valid before the host
has read DONE = 1 for the command (R393). -/
def hostRegRead (r : Reg) (s : State) : Host.Outcome State Fault Refusal :=
  match r with
  | .status => .next (readStatus s)
  | .resultLen =>
    if busy s then .refused .registerReadWhileBusy
    else if s.unacquired.isEmpty then .next (deliver s.resultLen s) else .next (deliverFree s)
  | r => if busy s then .refused .registerReadWhileBusy else .next (deliver (regGet s r) s)

/-- A host access at `addr` of the register space: no register is decoded from BASE + 0x30 on, where `above` is what becomes of it
(R82), nor below BASE, where `below` is; and a register is accessed whole (R88). An access is placed by its first byte alone: one that begins below BASE
is `below` even when it is wide enough to reach into the block, such as 64 bits at BASE - 4 (DESIGN CHOICE, log entry 23). -/
def onRegister (s : State) (addr width : Nat) (below above : State) (k : Reg → Host.Outcome State Fault Refusal) :
    Host.Outcome State Fault Refusal :=
  if addr < s.base then .next below
  else if s.base + 0x30 ≤ addr then .next above
  else
    match regAt (addr - s.base) width with
    | none => .refused .partialRegisterAccess
    | some r => k r

/-- A host write of a byte of host memory (R80); the buffers of a running command are the engine's (R96). -/
def hostMemWrite (a : Nat) (b : Byte) (s : State) : Host.Outcome State Fault Refusal :=
  if !inSpace s a then .fault .outsideAddressSpace
  else if busy s && inBuffers s a then .refused .bufferWriteWhileBusy
  else .next (memSet s a b)

/-- A byte of host memory that a command may have written and whose DONE the host has not read (R95, R393; DEDUCED, log
entry 8). -/
def notYetVisible (s : State) (a : Nat) : Bool := s.unacquired.any fun r => inRange r.1 r.2 a

/-- A host read of a byte of host memory: a free value where the spec does not say which write it sees. -/
def hostMemRead (a : Nat) (s : State) : Host.Outcome State Fault Refusal :=
  if !inSpace s a then .fault .outsideAddressSpace
  else if notYetVisible s a then .next (deliverFree s)
  else .next (deliver ((memGet s a).setWidth 64) s)

/-- The host's poll of DONE: a read of STATUS, and, when DONE = 0, a turn of the engine and another one (DESIGN CHOICE, log
entry 7). -/
def hostPoll (s : State) : State :=
  if done s then readStatus s else { readStatus s with agenda := .engine :: .host .pollDone :: s.agenda }

/-- A reset of the engine (R380, R383): a running command is abandoned, and host memory keeps what was written. What else
becomes of the state is log entry 17's (DESIGN CHOICE). -/
def hostReset (s : State) : State :=
  { State.reset with
    mem := s.mem, addrW := s.addrW, base := s.base, accesses := s.accesses, agenda := s.agenda, busData := s.busData
    freeCtr := s.freeCtr }

/-- One access of the host. Below BASE a write does nothing to the engine, and what a read delivers is not the engine's to say: a free
value (DEDUCED, log entry 23). -/
def hostStep (op : HostOp) (s : State) : Host.Outcome State Fault Refusal :=
  match op with
  | .regWrite addr width v => onRegister s addr width s s fun r => hostRegWrite r v s
  | .regRead addr width => onRegister s addr width (deliverFree s) (deliver 0#64 s) fun r => hostRegRead r s
  | .memWrite a b => hostMemWrite a b s
  | .memRead a => hostMemRead a s
  | .pollDone => .next (hostPoll s)
  | .reset => .next (hostReset s)

/-! ## Placing an instruction where the next step runs it -/

/-- Put a host write of command word `w` first on the agenda. -/
def placeCommand (w : Nat) (s : State) : State :=
  { s with agenda := .host (.regWrite s.base 32 (BitVec.ofNat 64 (w % 2 ^ 32))) :: s.agenda }

/-- The engine moves next and stands at `p` of a running command. -/
def placePhase (p : Phase) (s : State) : State :=
  { s with agenda := .engine :: s.agenda, status := statusBusy, phase := p }

/-- The C symbol `v` is what the decoder executes next: a literal through a degenerate C table, a match with its
position value 0. -/
def placeCSym (v : Nat) (s : State) : State :=
  if v < 256 then
    placePhase .sym { s with dec := { s.dec with cTab := .degenerate v, blocksize := 1#16 } }
  else placePhase .copy { s with dec := { s.dec with sym := BitVec.ofNat 9 v, pval := 0 } }

/-- The T symbol `t` is what the decoder reads next, through a degenerate T table; its extension bits are read past the end
of the stream, where they are 0. -/
def placeTSym (t : Nat) (s : State) : State :=
  placePhase .cLen { s with dec := { s.dec with
    tTab := .degenerate t, list := .cList, rpos := 8 * s.dec.compsizeIn } }

/-- The 8 header bytes at SRC_ADDR, byte `i` being bits 8i+7 .. 8i of `w`. -/
def placeHeader (w : Nat) (s : State) : State :=
  (List.range 8).foldl (fun s i => memSet s (s.srcAddr.toNat + i) (leByte w i)) (placePhase .header s)

end Sys2Proof.Machine
end

