-- ==== Sys2Proof/Machine/Step.lean ====
section
/-!
DEFINITION. The step: the agenda says who moves, the host with one access or the engine with one step of the running command; with an empty agenda
the engine moves (DESIGN CHOICE, log entry 7).
-/

namespace Sys2Proof.Machine

/-- One step of the machine. -/
def step (s : State) : Host.Outcome State Fault Refusal :=
  match s.agenda with
  | [] => engineStep s
  | .engine :: rest => engineStep { s with agenda := rest }
  | .host op :: rest => hostStep op { s with agenda := rest }

/-- `s` with the instruction of `nbits` bits `w` placed so that the next step runs it (log entry 9). -/
def State.withFetchWord (s : State) (nbits w : Nat) : State :=
  if nbits = 32 then placeCommand w s
  else if nbits = 16 then placeCSym w s
  else if nbits = 8 then placeTSym w s
  else if nbits = 64 then placeHeader w s
  else s

end Sys2Proof.Machine
end

