-- ==== Sys2Proof/Safety.lean ====
section
/-!
DEFINITION. What counts as a safe run: the invariants of the machine, each a condition on one state. Every step keeps them (the statements of
Certificates/Slice0), and they rule out the states in which an engine access would leave the buffers or a decode table
would give no symbol.
-/

namespace Sys2Proof.Machine

/-- STATUS holds only values the spec gives it: while no command runs, the reset value or that of an ended command
(R33, R356, R380); while one runs, BUSY alone (R291, R331). -/
def ControlInv (s : State) : Prop :=
  if s.phase = .idle then
    s.status = 0#32 ∨ ∃ c : Code, c ≠ .outOfMemory ∧ s.status = statusEnded c
  else s.status = statusBusy

/-- The operands of a running command have passed the buffer checks (R92). -/
def BuffersInv (s : State) : Prop := s.phase ≠ .idle → buffersBad s = false

/-- The engine stands inside Decode (R320). -/
def decoding : Phase → Bool
  | .sym => true
  | .count => true
  | .ptLen => true
  | .cLen => true
  | .pos => true
  | .copy => true
  | .idle => false
  | .encFirst => false
  | .encLoop => false
  | .encEnd => false
  | .header => false

/-- The header about to be read lies in the source buffer. Inside Decode the output owed is the destination buffer, not all of it is
written, and the stated stream lies in the source buffer (R330, R324). -/
def DecodeInv (s : State) : Prop :=
  (s.phase = .header → 8 ≤ s.srcLen.toNat) ∧
  (decoding s.phase = true →
    s.dec.origsize = s.dstLen.toNat ∧ s.dec.out < s.dec.origsize ∧ 8 + s.dec.compsizeIn ≤ s.srcLen.toNat)

/-- No length of the array exceeds 16 (R306, R311). -/
def lensBounded (len : List Nat) : Prop := ∀ l ∈ len, l ≤ Config.codeBit

/-- A decode table over `nn` symbols that has passed the checks of R314. -/
def TableOk (nn : Nat) : Table → Prop
  | .degenerate σ => σ < nn
  | .regular len => len.length = nn ∧ kraftComplete len = true ∧ lensBounded len

/-- The list being read is one of the block's and not yet complete (R305, R310). -/
def ListOk (d : Dec) : Prop :=
  d.lens.length = listSize d.list ∧ lensBounded d.lens ∧ d.idx < d.count ∧ d.count ≤ listSize d.list

/-- The tables and lists that the engine's place in Decode is about to use have passed their checks. -/
def TablesInv (s : State) : Prop :=
  match s.phase with
  | .count => (s.dec.list = .cList → TableOk Config.NT s.dec.tTab) ∧ (s.dec.list = .pList → TableOk Config.NC s.dec.cTab)
  | .ptLen => s.dec.list ≠ .cList ∧ ListOk s.dec ∧ (s.dec.list = .pList → TableOk Config.NC s.dec.cTab)
  | .cLen => s.dec.list = .cList ∧ ListOk s.dec ∧ TableOk Config.NT s.dec.tTab
  | .sym => s.dec.blocksize ≠ 0#16 → TableOk Config.NC s.dec.cTab ∧ TableOk Config.NPD s.dec.pTab
  | .pos => TableOk Config.NC s.dec.cTab ∧ TableOk Config.NPD s.dec.pTab ∧ WellFormed (.matchCopy s.dec.sym) = true
  | .copy => TableOk Config.NC s.dec.cTab ∧ TableOk Config.NPD s.dec.pTab ∧ WellFormed (.matchCopy s.dec.sym) = true
  | .idle => True
  | .encFirst => True
  | .encLoop => True
  | .encEnd => True
  | .header => True

/-- The bit writer between two PutBits (R51): 1 to 8 slots are free, and the free slots hold 0. -/
def WriterInv (e : Enc) : Prop := 1 ≤ e.bitcount ∧ e.bitcount ≤ 8 ∧ e.subbitbuf.toNat % 2 ^ e.bitcount = 0

/-- The token buffer between two tokens (R47, R256, R257): nothing is in it, or the last token is number `k` of its group, and the
group's bytes end below BUF_SIZE. -/
def TokenInv (e : Enc) : Prop :=
  (e.outputmask = 0#8 ∧ e.outputpos = 0) ∨
    ∃ k, k < 8 ∧ e.outputmask = 0x80#8 >>> k ∧ e.outputpos ≤ Config.bufSize - Config.flushMargin + 5 * (k + 1)

/-- The engine stands inside COMPRESS (R291). -/
def compressing : Phase → Bool
  | .encFirst => true
  | .encLoop => true
  | .encEnd => true
  | .idle => false
  | .header => false
  | .sym => false
  | .count => false
  | .ptLen => false
  | .cLen => false
  | .pos => false
  | .copy => false

/-- While a COMPRESS runs, its token buffer holds what R257 lets it hold. -/
def TokensInv (s : State) : Prop := compressing s.phase = true → TokenInv s.enc

/-- All of it but the token buffer's and the accesses'. -/
def SafeInv (s : State) : Prop :=
  Memory.wf s.mem = true ∧ ControlInv s ∧ BuffersInv s ∧ DecodeInv s ∧ TablesInv s

/-! ## The sequence of host-memory accesses (R390) -/

/-- The address of a read. -/
def readAddr : Access → Option Nat
  | .read a _ => some a
  | .write _ _ => none

/-- The address of a write. -/
def writeAddr : Access → Option Nat
  | .read _ _ => none
  | .write a _ => some a

/-- The addresses inside the source buffer that the command has read, in order. -/
def sourceReads (s : State) : List Nat :=
  ((s.accesses.filterMap readAddr).filter (inRange s.srcAddr.toNat s.srcLen.toNat)).reverse

/-- The addresses that the command has written, in order. -/
def writtenAddrs (s : State) : List Nat := (s.accesses.filterMap writeAddr).reverse

/-- The `k` addresses from `a` on. -/
def addrsFrom (a k : Nat) : List Nat := (List.range k).map (a + ·)

/-- What the running command has accessed so far (R89, R90). COMPRESS has read the source bytes below `srcpos`, in increasing address order,
each once. DECOMPRESS has accessed nothing before its header; inside Decode it has read the header and the stream bytes that the bits below `rpos`
reach into, in increasing address order, each once, and has written the destination bytes below `out`, in order, each once. -/
def AccessInv (s : State) : Prop :=
  if compressing s.phase then sourceReads s = addrsFrom s.srcAddr.toNat s.enc.srcpos
  else if s.phase = .header then s.accesses = []
  else if decoding s.phase then
    sourceReads s = addrsFrom s.srcAddr.toNat (8 + bytesReached s.dec s.dec.rpos) ∧
    writtenAddrs s = addrsFrom s.dstAddr.toNat s.dec.out
  else True

/-- Every read of `new` is of a byte of the two buffers, every write of a byte of the destination (R80). -/
def StaysInBuffers (s : State) (new : List Access) : Prop :=
  (∀ a b, .read a b ∈ new → inBuffers s a = true) ∧
  ∀ a b, .write a b ∈ new → inRange s.dstAddr.toNat s.dstLen.toNat a = true

/-- The accesses of a match of `n` bytes from destination index `i` on with position value `p`, newest first: each byte is read `p + 1` before where it
is written; `t` is the state after (R322). -/
def copyAccesses (t : State) (i p n : Nat) : List Access :=
  ((List.range n).flatMap fun j =>
    [.read (dstAt t (i + j - p - 1)) (dstGet t (i + j)), .write (dstAt t (i + j)) (dstGet t (i + j))]).reverse

/-- The byte that the accesses `l`, newest first, wrote at `a` last. -/
def lastWritten (a : Nat) : List Access → Option Byte
  | [] => none
  | .read _ _ :: l => lastWritten a l
  | .write a' b :: l => if a' = a then some b else lastWritten a l

/-! ## Terms of the statements -/

/-- The engine moves in the next step of `s`, from state `s0`. -/
def EngineMoves (s s0 : State) : Prop :=
  (s.agenda = [] ∧ s0 = s) ∨ ∃ rest, s.agenda = .engine :: rest ∧ s0 = { s with agenda := rest }

/-- The command has ended with `c` and RESULT_LEN = n (R356). -/
def Ended (c : Code) (n : Nat) (t : State) : Prop :=
  t.phase = .idle ∧ t.status = statusEnded c ∧ t.resultLen = BitVec.ofNat 64 n

/-- What follows a length of the list that `u` holds: the list goes on; or its table is complete and the next list, or after the P list
the symbols, are due; or the table is incomplete or oversubscribed and the command ends with INVALID_DATA (R305, R310, R312,
R300, R328). -/
def ListTurnSpec (u t : State) : Prop :=
  if u.dec.idx < u.dec.count then t = u
  else if kraftSum u.dec.lens = 2 ^ 16 then
    match u.dec.list with
    | .tList => t = { u with dec := { u.dec with tTab := .regular u.dec.lens, list := .cList }, phase := .count }
    | .cList => t = { u with dec := { u.dec with cTab := .regular u.dec.lens, list := .pList }, phase := .count }
    | .pList => t = { u with dec := { u.dec with pTab := .regular u.dec.lens }, phase := .sym }
  else
    t = { u with
      dec := { u.dec with bad := true }, phase := .idle, status := statusEnded .invalidData
      resultLen := BitVec.ofNat 64 u.dec.out }

/-- Instruction `i` appends `z` C symbols of length `l`, stopping at the end of the alphabet (R311, R313). -/
def AppendsLengths (i : Instr) (z l : Nat) (s : State) : Prop :=
  ∃ t u, exec i s = .next t ∧
    u = { s with dec := { s.dec with idx := min (s.dec.idx + z) Config.NC, lens := u.dec.lens } } ∧
    u.dec.lens.length = s.dec.lens.length ∧
    (∀ j, j < Config.NC → u.dec.lens.getD j 0
      = if s.dec.idx ≤ j ∧ j < s.dec.idx + z then l else s.dec.lens.getD j 0) ∧
    ListTurnSpec u t

/-- The bits written so far (R161): those of the destination bytes from offset 8 on, then those of the partial byte. -/
def streamBits (s : State) : List Bool :=
  ((List.range s.enc.compsize).flatMap fun i => natToBits 8 (dstGet s (8 + i)).toNat)
    ++ (natToBits 8 s.enc.subbitbuf.toNat).take (8 - s.enc.bitcount)

/-- Two states in which the running COMPRESS has read, and will read, the same source. -/
def SameSource (s t : State) : Prop :=
  t.enc = s.enc ∧ t.phase = s.phase ∧ t.srcLen = s.srcLen ∧ ∀ i, i < s.srcLen.toNat → srcGet t i = srcGet s i

/-- Where both capacities hold the bytes produced, the terminator to come included, the two states hold the same bit stream (R295). -/
def SameStream (s t : State) : Prop :=
  8 + s.enc.compsize < s.dstLen.toNat → 8 + s.enc.compsize < t.dstLen.toNat → streamBits t = streamBits s

/-- The byte of a bit-stream number (R83): byte `i` of `v`. -/
def byteOf (v i : Nat) : Byte := BitVec.ofNat 8 (v / 256 ^ i)

/-- `t` is `u`, whose group is open, after the token of symbol `c` and position value `p`: its bytes stand at outputpos, its flag bit is set for
a match, its symbols are counted, and nothing else has changed (R256, R257). -/
def TokenStored (c p : Nat) (u t : State) : Prop :=
  t = { u with enc := { u.enc with
    buf := t.enc.buf, cfreq := t.enc.cfreq, pfreq := t.enc.pfreq
    outputpos := u.enc.outputpos + (if 256 ≤ c then 5 else 1) } } ∧
  bufAt t.enc u.enc.outputpos = BitVec.ofNat 8 c ∧
  bufAt t.enc u.enc.cpos = (if 256 ≤ c then bufAt u.enc u.enc.cpos ||| u.enc.outputmask else bufAt u.enc u.enc.cpos) ∧
  (256 ≤ c → ∀ i, i < 4 → bufAt t.enc (u.enc.outputpos + 1 + i) = byteOf p (3 - i)) ∧
  (∀ i, i ≠ u.enc.cpos → i < u.enc.outputpos → bufAt t.enc i = bufAt u.enc i) ∧
  (∀ i, freqAt t.enc.cfreq i = if i = c then (freqAt u.enc.cfreq c + 1) % 2 ^ 16 else freqAt u.enc.cfreq i) ∧
  ∀ i, freqAt t.enc.pfreq i
    = if 256 ≤ c ∧ i = bitlen p then (freqAt u.enc.pfreq i + 1) % 2 ^ 16 else freqAt u.enc.pfreq i

end Sys2Proof.Machine
end

