-- ==== Sys2Proof/Certificates/Slice0/Obligations.lean ====
section
/-!
DEFINITION. The statements for the provers. Each names the rules of spec/ it formalises.
-/

open Sys2Proof Sys2Proof.Machine

/-! ## Encodings -/

/-- Every instruction is read back from its bits, whatever bits follow (R110 to R126). -/
def Obligations.DecodeEncodeRoundTrip : Prop :=
  ∀ (i : Instr) (rest : List Bool), WellFormed i = true → decode (kindOf i) (encode i ++ rest) = .ok i rest

/-- Words decode to the instructions they stand for. The command words, the stream header, SIZE and the LENCODE field are written out from the spec's
encodings (R111, R112, R114, R116, R118). A symbol stands in the stream as the block's canonical code (R122, R127): that C, T and P symbols are given as
plain numbers here, in 16, 8 and 5 bits, is log entry 16's choice, and the spec gives what each number means and a position's extra bits (R121, R122, R124,
R125). -/
def Obligations.SpecWordsDecode : Prop :=
  decodeTableWord 32 0x00000001 = some (.compress 0#8) ∧ decodeTableWord 32 0x00000202 = some (.decompress 2#8) ∧
  decodeTableWord 32 0x00010002 = some (.illegalCmd 0x00010002#32) ∧ decodeTableWord 16 0x041 = some (.lit 0x41#8) ∧
  decodeTableWord 16 0x106 = some (.matchCopy 262#9) ∧ decodeTableWord 16 0x1FE = none ∧
  decodeTableWord 8 0 = some .zrun1 ∧ decodeTableWord 8 1 = some (.zrunM 0#4) ∧ decodeTableWord 8 2 = some (.zrunL 0#9) ∧
  decodeTableWord 8 18 = some (.len 16#5) ∧ decodeTableWord 8 19 = none ∧
  decodeTableWord 64 0x0000000A0000000B = some (.streamHeader 11#32 10#32) ∧
  decode .block [false, false, false, false, false, false, false, false, false, false, false, false, false, false, true, false]
    = .ok (.block 2#16) [] ∧
  decode .psym [false, false, true, false, false, true, true, true] = .ok (.pos 4#5 7#29) [] ∧
  decode .lencode [true, true, true, true, false] = .ok (.lencode 8#5) []

/-- An illegal CMD value starts no operation and ends at once (R112); CMD holds it (R32). That no destination byte is then withheld from the host
is log entry 8's inference, that the working state keeps its values is log entry 21's choice, and that the command's sequence of accesses is empty is
the model's record (log entry 19). -/
def Obligations.IllegalCommandEndsAtOnce : Prop :=
  ∀ (w : Word32) (s : State),
    ((w.extractLsb' 0 8 ≠ 1#8 ∧ w.extractLsb' 0 8 ≠ 2#8) ∨ w.extractLsb' 16 16 ≠ 0#16) → busy s = false →
    decodeCmd w = .illegalCmd w ∧
    exec (.illegalCmd w) s = .next { s with
      cmd := w, status := 0x32#32, resultLen := 0#64, phase := .idle, accesses := []
      unacquired := (s.dstAddr.toNat, 0) :: s.unacquired }

/-- A host write to CMD is stored, legal or not, while BUSY = 0, and neither stored nor run while BUSY = 1 (R32, R392). -/
def Obligations.CommandWordStoredUnlessBusy : Prop :=
  ∀ (s : State) (v : Word64) (rest : List Turn), s.agenda = .host (.regWrite s.base 32 v) :: rest →
    (busy s = false → ∃ t, step s = .next t ∧ t.cmd = v.setWidth 32) ∧
    (busy s = true → step s = .next { s with agenda := rest })

/-! ## The commands -/

/-- COMPRESS starts: what its body initialises (R290, R291, R182, R255, R160). That the step ends before MatchLoop is log entry 1's cut, and the
destination range withheld from the host is log entry 8's inference. -/
def Obligations.CompressStarts : Prop :=
  ∀ (fmt : BitVec 8) (s : State), busy s = false → buffersBad s = false → s.srcLen.toNat ≤ 2 ^ 32 - 1 →
    ∃ t, exec (.compress fmt) s = .next t ∧
      t = { s with
        cmd := 0#16 ++ fmt ++ 1#8, status := 1#32, phase := .encFirst, enc := t.enc, mem := t.mem
        accesses := ((List.range (min 8 s.dstLen.toNat)).map fun i => .write (dstAt s i) 0#8).reverse
        unacquired := (s.dstAddr.toNat, s.dstLen.toNat) :: s.unacquired } ∧
      (∀ a, memGet t a = if inRange s.dstAddr.toNat (min 8 s.dstLen.toNat) a then 0#8 else memGet s a) ∧
      (∀ i, textAt t.enc.finder i = 0#8 ∧ bufAt t.enc i = 0#8 ∧ childcountAt t.enc.finder i = 0 ∧
        positionAt t.enc.finder i = 0#32 ∧ parentAt t.enc.finder i = 0 ∧ prevAt t.enc.finder i = 0 ∧
        levelAt t.enc.finder i = (if 2 ^ 19 ≤ i ∧ i ≤ 2 ^ 19 + 255 then 1 else 0) ∧
        nextAt t.enc.finder i = (if 1 ≤ i ∧ i ≤ 2 ^ 19 - 2 then i + 1 else 0)) ∧
      (∀ i, i < 510 → freqAt t.enc.cfreq i = 0) ∧ (∀ i, i < 20 → freqAt t.enc.pfreq i = 0) ∧
      t.enc.finder.avail = 1 ∧ t.enc.srcpos = 0 ∧ t.enc.origsize = 0 ∧ t.enc.outputpos = 0 ∧ t.enc.outputmask = 0#8 ∧
      t.enc.bitcount = 8 ∧ t.enc.subbitbuf = 0#8 ∧ t.enc.compsize = 0

/-- COMPRESS of a source longer than the header can state ends with INVALID_PARAMETER, nothing accessed (R290). That the destination range is
withheld from the host until it reads DONE is log entry 8's inference; that the working state keeps its values is log entry 21's choice. -/
def Obligations.CompressRejectsLongSource : Prop :=
  ∀ (fmt : BitVec 8) (s : State), busy s = false → 2 ^ 32 - 1 < s.srcLen.toNat →
    exec (.compress fmt) s = .next { s with
      cmd := 0#16 ++ fmt ++ 1#8, status := 0x32#32, resultLen := 0#64, phase := .idle, accesses := []
      unacquired := (s.dstAddr.toNat, s.dstLen.toNat) :: s.unacquired }

/-- DECOMPRESS starts: the header is read next (R330, R331). That the header is read in a step of its own is log entry 1's cut, that the bad-table
flag is cleared here is log entry 18's inference, and the destination range withheld from the host is log entry 8's. -/
def Obligations.DecompressStarts : Prop :=
  ∀ (fmt : BitVec 8) (s : State), busy s = false → fmt = 1#8 ∨ fmt = 2#8 → buffersBad s = false → 8 ≤ s.srcLen.toNat →
    exec (.decompress fmt) s = .next { s with
      cmd := 0#16 ++ fmt ++ 2#8, status := 1#32, phase := .header, dec := { s.dec with bad := false }, accesses := []
      unacquired := (s.dstAddr.toNat, s.dstLen.toNat) :: s.unacquired }

/-- DECOMPRESS of an unknown format version or of a source without a whole header ends with INVALID_PARAMETER (R330, checks 1 and
3). That the destination range is withheld from the host until it reads DONE is log entry 8's inference; that the working state keeps its values is log
entry 21's choice. -/
def Obligations.DecompressRejectsParameters : Prop :=
  ∀ (fmt : BitVec 8) (s : State), busy s = false → (fmt ≠ 1#8 ∧ fmt ≠ 2#8) ∨ s.srcLen.toNat < 8 →
    exec (.decompress fmt) s = .next { s with
      cmd := 0#16 ++ fmt ++ 2#8, status := 0x32#32, resultLen := 0#64, phase := .idle, accesses := []
      unacquired := (s.dstAddr.toNat, s.dstLen.toNat) :: s.unacquired }

/-- The buffer checks: a buffer that leaves the address space, a null buffer of nonzero length or a source that overlaps the
destination makes a command end with INVALID_PARAMETER before any memory access (R92). -/
def Obligations.BadBuffersEndTheCommand : Prop :=
  ∀ (s : State) (i : Instr), (∃ fmt, i = .compress fmt) ∨ (∃ fmt, i = .decompress fmt) → busy s = false →
    (2 ^ s.addrW.val < s.srcAddr.toNat + s.srcLen.toNat ∨ 2 ^ s.addrW.val < s.dstAddr.toNat + s.dstLen.toNat ∨
      (s.srcLen ≠ 0#64 ∧ s.srcAddr = 0#64) ∨ (s.dstLen ≠ 0#64 ∧ s.dstAddr = 0#64) ∨
      (∃ a, inRange s.srcAddr.toNat s.srcLen.toNat a = true ∧ inRange s.dstAddr.toNat s.dstLen.toNat a = true)) →
    ∃ t, exec i s = .next t ∧ Ended .invalidParameter 0 t ∧ t.accesses = [] ∧ t.mem = s.mem

/-- What a command word leaves alone: every register but CMD, STATUS and RESULT_LEN, and all of memory but the 8 header bytes that COMPRESS
zeroes (R291, R331, R112). That the working state keeps its values is log entry 21's choice. -/
def Obligations.CommandFrame : Prop :=
  (∀ fmt s t, exec (.compress fmt) s = .next t →
    t = { s with
      cmd := t.cmd, status := t.status, resultLen := t.resultLen, phase := t.phase, enc := t.enc, mem := t.mem
      unacquired := t.unacquired, accesses := t.accesses } ∧
    ∀ a, inRange s.dstAddr.toNat (min 8 s.dstLen.toNat) a = false → memGet t a = memGet s a) ∧
  (∀ fmt s t, exec (.decompress fmt) s = .next t →
    t = { s with
      cmd := t.cmd, status := t.status, resultLen := t.resultLen, phase := t.phase, unacquired := t.unacquired
      accesses := t.accesses, dec := { s.dec with bad := t.dec.bad } }) ∧
  (∀ w s t, exec (.illegalCmd w) s = .next t →
    t = { s with
      cmd := t.cmd, status := t.status, resultLen := t.resultLen, phase := t.phase, unacquired := t.unacquired
      accesses := t.accesses })

/-! ## The stream header and the lists of a block header -/

/-- The two header fields are little-endian: byte offset 0 of a field holds bits 7..0 (R83, R331). -/
def Obligations.HeaderFieldsLittleEndian : Prop :=
  ∀ s : State, ∃ l o : Word32, fetchHeader s = .run (.streamHeader l o) (engineReads s.srcAddr.toNat 8 s) ∧
    l.toNat = (srcGet s 0).toNat + (srcGet s 1).toNat * 2 ^ 8 + (srcGet s 2).toNat * 2 ^ 16 + (srcGet s 3).toNat * 2 ^ 24 ∧
    o.toNat = (srcGet s 4).toNat + (srcGet s 5).toNat * 2 ^ 8 + (srcGet s 6).toNat * 2 ^ 16 + (srcGet s 7).toNat * 2 ^ 24

/-- STREAM_HEADER: checks 4 and 5, an empty stream, or the start of Decode with the width of the P list's count (R330, R331, R320). -/
def Obligations.StreamHeaderOutcome : Prop :=
  ∀ (l o : Word32) (s : State), ∃ t, exec (.streamHeader l o) s = .next t ∧
    if s.srcLen.toNat < 8 + l.toNat ∨ s.dstLen.toNat ≠ o.toNat then
      t = { s with
        dec := { s.dec with compsizeIn := l.toNat, origsize := o.toNat }
        status := 0x32#32, resultLen := 0#64, phase := .idle }
    else if o = 0#32 then
      t = { s with
        dec := { s.dec with
          compsizeIn := l.toNat, origsize := 0, pbit := if s.cmd.extractLsb' 8 8 = 1#8 then 4 else 5 }
        status := 0x02#32, resultLen := 0#64, phase := .idle }
    else
      t = { s with
        dec := { s.dec with
          compsizeIn := l.toNat, origsize := o.toNat, pbit := if s.cmd.extractLsb' 8 8 = 1#8 then 4 else 5
          blocksize := 0#16, out := 0, rpos := 0 }
        phase := .sym }

/-- BLOCK: a SIZE of 0 is INVALID_DATA; any other starts the T list (R300, R328). -/
def Obligations.BlockStartsLists : Prop :=
  ∀ (size : Half) (s : State), exec (.block size) s = .next
    (if size = 0#16 then { s with
      dec := { s.dec with bad := true }, status := 0x22#32, resultLen := BitVec.ofNat 64 s.dec.out, phase := .idle }
    else { s with dec := { s.dec with blocksize := size, list := .tList }, phase := .count })

/-- The count field of a list: a count above the alphabet size and a degenerate symbol outside the alphabet are INVALID_DATA; a
degenerate table is stored; else the lengths are read, all 0 so far (R305, R310, R314). That the count field, and the symbol of a degenerate table, are
read in one step of the engine is log entry 1's cut. -/
def Obligations.ListCountOutcome : Prop :=
  ∀ s : State, s.phase = .count → buffersFit s = true →
    ∃ count s1, getBits (listCountWidth s.dec s.dec.list) s = (count, s1) ∧ ∃ t, engineStep s = .next t ∧
      if count = 0 then
        ∃ σ s2, getBits (listCountWidth s.dec s.dec.list) s1 = (σ, s2) ∧
          if σ < listSize s.dec.list then
            match s.dec.list with
            | .tList => t = { s2 with dec := { s2.dec with tTab := .degenerate σ, list := .cList }, phase := .count }
            | .cList => t = { s2 with dec := { s2.dec with cTab := .degenerate σ, list := .pList }, phase := .count }
            | .pList => t = { s2 with dec := { s2.dec with pTab := .degenerate σ }, phase := .sym }
          else Ended .invalidData s.dec.out t ∧ t.dec.bad = true ∧ t.mem = s.mem
      else if listSize s.dec.list < count then Ended .invalidData s.dec.out t ∧ t.dec.bad = true ∧ t.mem = s.mem
      else
        t = { s1 with
          dec := { s1.dec with count := count, idx := 0, lens := List.replicate (listSize s.dec.list) 0 }
          phase := if s.dec.list = .cList then .cLen else .ptLen }

/-- The T symbols of the C list: symbols 0, 1, 2 and 3 to 18 are ZRUN1, ZRUN_M, ZRUN_L and LEN, which append 1, r + 3, r + 20 lengths 0
and one length t - 2 (R311), a zero run stopping at the end of the alphabet (R313); then the list goes on, or its table is stored, or the code fails its
check (R310, R312, R300, R328). The decoder is given a T symbol as its number in 5 bits, which is log entry 16's choice. -/
def Obligations.TSymbolsAppendLengths : Prop :=
  (∀ rest, decode .tsym (natToBits 5 0 ++ rest) = .ok .zrun1 rest ∧
    (∀ r, decode .tsym (natToBits 5 1 ++ natToBits 4 r.toNat ++ rest) = .ok (.zrunM r) rest) ∧
    (∀ r, decode .tsym (natToBits 5 2 ++ natToBits 9 r.toNat ++ rest) = .ok (.zrunL r) rest) ∧
    ∀ t, 3 ≤ t → t ≤ 18 → decode .tsym (natToBits 5 t ++ rest) = .ok (.len (BitVec.ofNat 5 (t - 2))) rest) ∧
  ∀ s : State, s.dec.list = .cList → s.dec.lens.length = 510 → s.dec.idx < 510 →
    AppendsLengths .zrun1 1 0 s ∧ (∀ r : BitVec 4, AppendsLengths (.zrunM r) (r.toNat + 3) 0 s) ∧
    (∀ r : BitVec 9, AppendsLengths (.zrunL r) (r.toNat + 20) 0 s) ∧ ∀ k : BitVec 5, AppendsLengths (.len k) 1 k.toNat s

/-- LENCODE appends one length to a PT list; after the third of the T list, the 2-bit field skips up to three more (R305). Only
that field is read of the stream. -/
def Obligations.LencodeAppendsLength : Prop :=
  ∀ (k : BitVec 5) (s : State), k.toNat ≤ 16 → s.dec.list ≠ .cList → s.dec.lens.length = listSize s.dec.list →
    s.dec.idx < listSize s.dec.list →
    ∃ t u z n, exec (.lencode k) s = .next t ∧
      (if s.dec.list = .tList ∧ s.dec.idx = 2 then z = (getBits 2 s).1 ∧ n = 2 else z = 0 ∧ n = 0) ∧
      u = { skipBits n s with dec := { s.dec with idx := s.dec.idx + 1 + z, rpos := s.dec.rpos + n, lens := u.dec.lens } } ∧
      u.dec.lens.length = s.dec.lens.length ∧
      (∀ j, j < listSize s.dec.list → u.dec.lens.getD j 0
        = if j = s.dec.idx then k.toNat else if s.dec.idx < j ∧ j ≤ s.dec.idx + z then 0 else s.dec.lens.getD j 0) ∧
      ListTurnSpec u t

/-- A LENCODE above 16 ends the command with INVALID_DATA and RESULT_LEN = out (R306, R328); its field is found over-long at
the thirteenth one bit, before any further bit is read. -/
def Obligations.LencodeAboveSixteenIsInvalid : Prop :=
  (∀ (k : BitVec 5) (s : State), 16 < k.toNat → exec (.lencode k) s = .next { s with
    dec := { s.dec with bad := true }, status := 0x22#32, resultLen := BitVec.ofNat 64 s.dec.out, phase := .idle }) ∧
  ∀ rest, decode .lencode (List.replicate 13 true ++ rest) = .ok (.lencode 17#5) rest

/-- What the header and the list instructions leave alone: every register but STATUS and RESULT_LEN, all of memory, the encoder, and of
the decoder what is not named (R331, R300, R305, R310, R319). Of memory they read at most the 2-bit field of a LENCODE. -/
def Obligations.TableInstructionFrame : Prop :=
  (∀ l o s t, exec (.streamHeader l o) s = .next t →
    t = { s with
      status := t.status, resultLen := t.resultLen, phase := t.phase
      dec := { s.dec with
        compsizeIn := t.dec.compsizeIn, origsize := t.dec.origsize, pbit := t.dec.pbit, blocksize := t.dec.blocksize
        out := t.dec.out, rpos := t.dec.rpos } }) ∧
  (∀ size s t, exec (.block size) s = .next t →
    t = { s with
      status := t.status, resultLen := t.resultLen, phase := t.phase
      dec := { s.dec with blocksize := t.dec.blocksize, list := t.dec.list, bad := t.dec.bad } }) ∧
  (∀ c e s t, exec (.pos c e) s = .next t →
    t = { s with phase := t.phase, dec := { s.dec with pval := t.dec.pval } }) ∧
  ∀ i s t, (i = .zrun1 ∨ (∃ r, i = .zrunM r) ∨ (∃ r, i = .zrunL r) ∨ (∃ k, i = .len k) ∨ ∃ k, i = .lencode k) →
    exec i s = .next t → (t.accesses = s.accesses ∨ ((∃ k, i = .lencode k) ∧ t.accesses = (skipBits 2 s).accesses)) ∧
    t = { s with
      status := t.status, resultLen := t.resultLen, phase := t.phase, accesses := t.accesses
      dec := { s.dec with
        rpos := t.dec.rpos, idx := t.dec.idx, lens := t.dec.lens, list := t.dec.list, bad := t.dec.bad
        tTab := t.dec.tTab, cTab := t.dec.cTab, pTab := t.dec.pTab } }

/-- DecodeSymbol: a degenerate table gives its symbol and reads no bit; a regular table that has passed the completeness check gives the one
symbol whose canonical code the next bits are, and reads that code (R168, R233, R312). Which stream bytes those bits read is recorded as log entry 19
infers. -/
def Obligations.CheckedTableDecodesOneSymbol : Prop :=
  ∀ (nn : Nat) (t : Table) (s : State), TableOk nn t → ∃ σ n, decodeSymbol nn t s = some (σ, skipBits n s) ∧ σ < nn ∧
    match t with
    | .degenerate d => σ = d ∧ n = 0
    | .regular len =>
      1 ≤ n ∧ n ≤ 16 ∧ len.getD σ 0 = n ∧ canonCode len σ = (getBits n s).1 ∧
      ∀ τ, τ < nn → 1 ≤ len.getD τ 0 → canonCode len τ = (getBits (len.getD τ 0) s).1 → τ = σ

/-! ## The symbols -/

/-- LIT writes its byte at destination index out, and out grows by 1 (R321); the command ends as soon as out = origsize, and else the next symbol is
due (R324, R320). That an address outside host memory, which R92 rules out, faults is log entry 13's choice. -/
def Obligations.LitWritesByte : Prop :=
  ∀ (b : Byte) (s : State),
    (dstAt s s.dec.out < 2 ^ s.addrW.val → ∃ t, exec (.lit b) s = .next t ∧
      t = { s with
        mem := t.mem, accesses := .write (dstAt s s.dec.out) b :: s.accesses, dec := { s.dec with out := s.dec.out + 1 }
        phase := t.phase, status := t.status, resultLen := t.resultLen } ∧
      (∀ a, memGet t a = if a = dstAt s s.dec.out then b else memGet s a) ∧
      if s.dec.out + 1 = s.dec.origsize then Ended .success s.dec.origsize t
      else t.phase = .sym ∧ t.status = s.status ∧ t.resultLen = s.resultLen) ∧
    (2 ^ s.addrW.val ≤ dstAt s s.dec.out → exec (.lit b) s = .fault .outsideAddressSpace)

/-- MATCH copies its length of bytes from output index out - p - 1, each read after the earlier ones of the match are written, and is cut off
at origsize; a source before the start of the output ends the command with INVALID_DATA, nothing of the match written
(R322, R323, R324, R328). That the position value stands in dec.pval, where an earlier step has put it, is log entry 1's cut; that an address outside
host memory, which R92 rules out, faults is log entry 13's choice. -/
def Obligations.MatchCopiesEarlierOutput : Prop :=
  ∀ (m : BitVec 9) (s : State),
    (s.dec.out < s.dec.pval + 1 → exec (.matchCopy m) s = .next { s with
      dec := { s.dec with bad := true }, status := 0x22#32, resultLen := BitVec.ofNat 64 s.dec.out, phase := .idle }) ∧
    (s.dec.pval + 1 ≤ s.dec.out → s.dec.out ≤ s.dec.origsize →
    ∃ n, n = min (m.toNat - 253) (s.dec.origsize - s.dec.out) ∧
      (n = 0 ∨ dstAt s (s.dec.out + n) ≤ 2 ^ s.addrW.val → ∃ t, exec (.matchCopy m) s = .next t ∧
        t = { s with
          mem := t.mem, accesses := copyAccesses t s.dec.out s.dec.pval n ++ s.accesses
          dec := { s.dec with out := s.dec.out + n }, phase := t.phase, status := t.status, resultLen := t.resultLen } ∧
        (∀ j, j < n → dstGet t (s.dec.out + j) = dstGet t (s.dec.out + j - s.dec.pval - 1)) ∧
        (∀ a, inRange (dstAt s s.dec.out) n a = false → memGet t a = memGet s a) ∧
        if s.dec.out + n = s.dec.origsize then Ended .success s.dec.origsize t
        else t.phase = .sym ∧ t.status = s.status ∧ t.resultLen = s.resultLen) ∧
      (n ≠ 0 → 2 ^ s.addrW.val < dstAt s (s.dec.out + n) → exec (.matchCopy m) s = .fault .outsideAddressSpace))

/-- What LIT and MATCH leave alone: every register but STATUS and RESULT_LEN, the encoder, the decoder but out and the bad-table flag, and
every byte of memory but the destination bytes from out on that the instruction writes (R321, R322). -/
def Obligations.SymbolFrame : Prop :=
  ∀ i s t, ((∃ b, i = .lit b) ∨ ∃ m, i = .matchCopy m) → exec i s = .next t →
    t = { s with
      mem := t.mem, accesses := t.accesses, dec := { s.dec with out := t.dec.out, bad := t.dec.bad }, phase := t.phase
      status := t.status, resultLen := t.resultLen } ∧
    s.dec.out ≤ t.dec.out ∧ ∀ a, inRange (dstAt s s.dec.out) (t.dec.out - s.dec.out) a = false → memGet t a = memGet s a

/-- POS: the position value is c for c ≤ 1 and 2^(c-1) + e for c ≥ 2, so that c is its bit length (R122, R319). -/
def Obligations.PosGivesPositionValue : Prop :=
  ∀ (c : BitVec 5) (e : BitVec 29) (s : State), WellFormed (.pos c e) = true →
    ∃ p, exec (.pos c e) s = .next { s with dec := { s.dec with pval := p }, phase := .copy } ∧
      p = (if c.toNat ≤ 1 then c.toNat else 2 ^ (c.toNat - 1) + e.toNat) ∧ bitlen p = c.toNat

/-- The fields that EncodeP sends for a position value: the code of P symbol c = bitlen(p), and for c ≥ 2 one field of c - 1 extra bits, from which the
decoder computes p back (R280, R122); and for every symbol of the decoder's alphabet those bits, read after the symbol, are the POS of that value. That the
symbol is given as a 5-bit number is log entry 16's choice. -/
def Obligations.PositionCodingInverts : Prop :=
  ∀ (e : Enc) (p : Nat), ∃ ext : List Field,
    encodeP e p = codeField e.ptlen e.ptcode (bitlen p) :: ext ∧ p < 2 ^ bitlen p ∧
    (if bitlen p ≤ 1 then ext = [] ∧ posValue (bitlen p) 0 = p
      else ∃ v, ext = [(bitlen p - 1, v)] ∧ v < 2 ^ (bitlen p - 1) ∧ posValue (bitlen p) v = p) ∧
    (bitlen p ≤ 30 → ∀ rest, ∃ c x,
      decode .psym (natToBits 5 (bitlen p) ++ (ext.flatMap fun f => natToBits f.1 f.2) ++ rest) = .ok (.pos c x) rest ∧
      c.toNat = bitlen p ∧ posValue c.toNat x.toNat = p)

/-! ## Bit streams -/

/-- GetBits: the first bit read is the most significant, and rpos advances by the width (R167). That a byte of the stream is read when the first of its
bits is, is log entry 19's inference. -/
def Obligations.GetBitsMsbFirst : Prop :=
  ∀ (n : Nat) (s : State), getBits 0 s = (0, s) ∧
    (getBits n s).2 = { s with dec := { s.dec with rpos := s.dec.rpos + n }, accesses := (skipBits n s).accesses } ∧
    (getBits (n + 1) s).1 = 2 * (getBits n s).1 + (inBit s (s.dec.rpos + n)).toNat

/-- The reader sees nothing of memory but the L bytes after the header, and zeros past them (R166, R325). -/
def Obligations.ReaderSeesOnlyTheStream : Prop :=
  ∀ (n : Nat) (s t : State), t.dec = s.dec → t.srcAddr = s.srcAddr →
    (∀ a, inRange (s.srcAddr.toNat + 8) s.dec.compsizeIn a = true → memGet t a = memGet s a) →
    (getBits n t).1 = (getBits n s).1 ∧ (8 * s.dec.compsizeIn ≤ s.dec.rpos → (getBits n s).1 = 0)

/-- EmitByte: a destination that is full only suppresses the memory write (R162). -/
def Obligations.EmitByteCountsPastCapacity : Prop :=
  ∀ (x : Byte) (s : State), emitByte x s = { s with
    enc := { s.enc with compsize := s.enc.compsize + 1 }
    mem := if 8 + s.enc.compsize < s.dstLen.toNat then (memSet s (dstAt s (8 + s.enc.compsize)) x).mem else s.mem
    accesses := if 8 + s.enc.compsize < s.dstLen.toNat then .write (dstAt s (8 + s.enc.compsize)) x :: s.accesses else s.accesses }

/-- PutBits appends the low n bits of v to the bit stream, most-significant first (R161). -/
def Obligations.PutBitsAppends : Prop :=
  ∀ (n v : Nat) (s : State), WriterInv s.enc → 8 + (putBits n v s).enc.compsize ≤ s.dstLen.toNat →
    streamBits (putBits n v s) = streamBits s ++ natToBits n v ∧ WriterInv (putBits n v s).enc

/-- FlushBits is PutBits(7, 0): it emits the partial byte, its unused low bits zero, and emits nothing when no byte is pending; the bits it
leaves pending are zeros (R163). -/
def Obligations.FlushBitsCompletesByte : Prop :=
  ∀ s : State, WriterInv s.enc → flushBits s = putBits 7 0 s ∧
    (s.enc.bitcount = 8 → flushBits s = { s with enc := { s.enc with bitcount := 1, subbitbuf := 0#8 } }) ∧
    (s.enc.bitcount < 8 → flushBits s = { emitByte s.enc.subbitbuf s with
      enc := { (emitByte s.enc.subbitbuf s).enc with bitcount := s.enc.bitcount + 1, subbitbuf := 0#8 } })

/-! ## The Huffman builder -/

/-- Fewer than two used symbols: every length is 0, the code of the returned symbol is 0, and that symbol is the used one, or 0 (R223). -/
def Obligations.DegenerateTree : Prop :=
  ∀ (a b n : Nat) (freq : Arr a Half) (len : Arr b Nat) (code : Arr b Half) (h : Huff),
    (∀ i j, i < n → j < n → freqAt freq i ≠ 0 → freqAt freq j ≠ 0 → i = j) →
    (∀ i, i < n → arrGet zeroNat (makeTree n freq len code h).len i = 0) ∧
    (∀ i, i < n → freqAt freq i ≠ 0 → (makeTree n freq len code h).root = i) ∧
    ((∀ i, i < n → freqAt freq i = 0) → (makeTree n freq len code h).root = 0) ∧
    arrGet (zeroBits 16) (makeTree n freq len code h).code (makeTree n freq len code h).root = 0#16

/-- After MakeTree answers a root outside the alphabet, every used symbol has a length of 1 to 16, every other symbol has length 0, and the
Kraft sum at 16 bits is exactly 2^16 (R226). The tables are as large as R48 and R49 make them for the alphabet. -/
def Obligations.BuiltLengthsAreComplete : Prop :=
  ∀ (a b n : Nat) (freq : Arr a Half) (len : Arr b Nat) (code : Arr b Half) (h : Huff), 1 ≤ n → n ≤ 510 → 2 * n - 1 ≤ a → n ≤ b →
    n ≤ (makeTree n freq len code h).root →
    (∀ σ, σ < n → if freqAt freq σ = 0 then arrGet zeroNat (makeTree n freq len code h).len σ = 0
      else 1 ≤ arrGet zeroNat (makeTree n freq len code h).len σ ∧ arrGet zeroNat (makeTree n freq len code h).len σ ≤ 16) ∧
    kraftSum ((List.range n).map (arrGet zeroNat (makeTree n freq len code h).len)) = 2 ^ 16

/-- Each pass of the length adjustment lowers the Kraft sum by exactly 1 (R225). -/
def Obligations.AdjustmentLowersKraftByOne : Prop :=
  ∀ c : Lencnt, 0 < lencntAt c 16 → (∃ i, 1 ≤ i ∧ i ≤ 15 ∧ lencntAt c i ≠ 0) → lencntKraft (rebalance 1 c) + 1 = lencntKraft c

/-- MakeCode computes exactly the canonical code of the lengths (R229, R233), and 0 for a symbol of length 0. -/
def Obligations.MakeCodeIsCanonical : Prop :=
  ∀ (b n : Nat) (lencnt : Lencnt) (len : Arr b Nat) (code : Arr b Half) (dense : List Nat),
    dense = (List.range n).map (arrGet zeroNat len) → lensBounded dense → kraftComplete dense = true →
    (∀ l, 1 ≤ l → l ≤ 16 → lencntAt lencnt l = dense.count l) →
    ∀ σ, σ < n → (arrGet (zeroBits 16) (makeCode n lencnt len code) σ).toNat
      = if arrGet zeroNat len σ = 0 then 0 else canonCode dense σ

/-! ## The match finder and the block encoder -/

/-- The string hash's range, and distinct buckets for distinct bytes of one node (R181). MakeChild puts the child at the head of its bucket, and
Child finds it there; an empty bucket gives NIL (R184, R185). -/
def Obligations.ChildFindsMadeChild : Prop :=
  (∀ (q : Nat) (c : Byte), 1 ≤ q → q ≤ 2 ^ 19 + 255 →
    hash q c = q + 1024 * c.toNat + 2 ^ 20 ∧ 2 ^ 20 ≤ hash q c ∧ hash q c ≤ 1834239 ∧
    ∀ c' : Byte, hash q c = hash q c' → c = c') ∧
  ∀ (q r : Nat) (c : Byte) (f : Finder),
    (1 ≤ r → r < 2 ^ 20 → q ≤ 2 ^ 19 + 255 → child q c (makeChild q c r f) = some (r, setParent 0 q (makeChild q c r f))) ∧
    (nextAt f (hash q c) = 0 → child q c f = some (0, setParent 0 q f)) ∧
    ∀ r' f', child q c f = some (r', f') → f' = setParent 0 q f ∧ parentAt f' r' = q

/-- The comparison of InsertNode: the bytes passed agree, and it stops at the first that differ (R187, R188). -/
def Obligations.CompareRunFindsCommonBytes : Prop :=
  ∀ (k : Nat) (f f' : Finder) (differ : Bool), compareRun k f = (differ, f') →
    f' = { f with matchlen := f'.matchlen } ∧ f.matchlen ≤ f'.matchlen ∧
    (∀ i, f.matchlen ≤ i → i < f'.matchlen → textAt f (f.pos + i) = textAt f (f.matchpos + i)) ∧
    if differ then f'.matchlen < f.matchlen + k ∧ textAt f (f.pos + f'.matchlen) ≠ textAt f (f.matchpos + f'.matchlen)
    else f'.matchlen = f.matchlen + k

/-- ReadInput reads up to n further source bytes, in source order, copies them into the window, whose size is 2W + M (R37), and counts them (R198). -/
def Obligations.ReadInputCopiesSource : Prop :=
  ∀ (d n : Nat) (s : State), ∃ k t, readInput d n s = (k, t) ∧ k = min n (s.srcLen.toNat - s.enc.srcpos) ∧
    t = { engineReads (s.srcAddr.toNat + s.enc.srcpos) k s with enc := { s.enc with
      srcpos := s.enc.srcpos + k, origsize := s.enc.origsize + k
      finder := { s.enc.finder with text := t.enc.finder.text } } } ∧
    ∀ i, textAt t.enc.finder i
      = if d ≤ i ∧ i < d + k ∧ i < 2 ^ 20 + 256 then srcGet s (s.enc.srcpos + (i - d)) else textAt s.enc.finder i

/-- The window shift: text[0 .. W+M) <- text[W .. 2W+M), the bytes from W + M on kept (R199). -/
def Obligations.WindowShiftsByW : Prop :=
  ∀ (f : Finder) (i : Nat), textAt (shiftText f) i
    = if i < 2 ^ 19 + 256 then textAt f (i + 2 ^ 19) else textAt f i

/-- The position value of a match is its back distance less one, below W - 1, before and after a window shift (R209). -/
def Obligations.MatchPositionIsDistance : Prop :=
  ∀ pos lastpos : Nat, lastpos < pos - 1 → pos - 1 - lastpos ≤ 2 ^ 19 - 1 →
    matchPosition pos lastpos = pos - 1 - lastpos - 1 ∧ matchPosition pos lastpos ≤ 2 ^ 19 - 2 ∧
    (2 ^ 19 ≤ pos → matchPosition (pos - 2 ^ 19) lastpos = pos - 1 - lastpos - 1)

/-- One turn of MatchLoop emits a literal when the match at the next position is longer, the last one is below THRESHOLD, or it is of exactly THRESHOLD
bytes and farther than BIAS_LIMIT; else it emits the last match and steps over its bytes (R205 to R208). -/
def Obligations.LazyMatchDecision : Prop :=
  ∀ s u : State, getNextMatch s = some u → ∃ ml p,
    ml = min u.enc.finder.matchlen u.enc.finder.remainder ∧
    p = matchPosition u.enc.finder.pos s.enc.finder.matchpos ∧
    matchLoopTurn s =
      if s.enc.finder.matchlen < ml ∨ s.enc.finder.matchlen < 3 ∨ (s.enc.finder.matchlen = 3 ∧ 2048 < p) then
        some (output (textAt u.enc.finder (u.enc.finder.pos - 1)).toNat 0 (capMatch u))
      else (getNextMatches (s.enc.finder.matchlen - 1) (output (s.enc.finder.matchlen + 253) p (capMatch u))).map capMatch

/-- Output stores the token's bytes, sets its flag bit for a match, and counts its symbols (R256, R257). Inside a group the mask moves on. The first token
of a group gets the mask 0x80 and, after the block has been sent when 16344 bytes or more are in the buffer, a new flag byte at outputpos, which cpos
names. The buffer has room for every token (TokenBufferBounded). -/
def Obligations.OutputStoresToken : Prop :=
  ∀ (c p : Nat) (s : State), c < 510 → p < 2 ^ 19 →
    (s.enc.outputmask >>> 1 ≠ 0#8 → s.enc.cpos < s.enc.outputpos → s.enc.outputpos + (if 256 ≤ c then 5 else 1) ≤ 16384 →
      TokenStored c p { s with enc := { s.enc with outputmask := s.enc.outputmask >>> 1 } } (output c p s)) ∧
    (s.enc.outputmask >>> 1 = 0#8 → ∃ m v u : State,
      m = { s with enc := { s.enc with outputmask := 0x80#8 } } ∧
      v = (if s.enc.outputpos < 16344 then m else { sendBlock m with enc := { (sendBlock m).enc with outputpos := 0 } }) ∧
      u = { v with enc := { v.enc with cpos := v.enc.outputpos, outputpos := v.enc.outputpos + 1, buf := u.enc.buf } } ∧
      v.enc.outputmask = 0x80#8 ∧
      (∀ i, bufAt u.enc i = if i = v.enc.outputpos then 0#8 else bufAt v.enc i) ∧
      TokenStored c p u (output c p s))

/-- The zero-run policy: the T symbols of a run of 1 to 509 zeros stand for exactly that many zeros, each extension fits its field, and a
run of 19 takes two symbols (R273, R311). -/
def Obligations.ZeroRunPolicy : Prop :=
  ∀ count : Nat, 1 ≤ count → count ≤ 509 →
    ((runSyms (0, count)).map fun x => if x.1 = 0 then 1 else if x.1 = 1 then x.2.2 + 3 else x.2.2 + 20).sum = count ∧
    (∀ x ∈ runSyms (0, count), x.1 ≤ 2 ∧ x.2.2 < 2 ^ x.2.1 ∧ x.2.1 = (if x.1 = 0 then 0 else if x.1 = 1 then 4 else 9)) ∧
    (count = 19 → (runSyms (0, count)).length = 2)

/-- COMPRESS ends: RESULT_LEN is the required size, CODE says whether it fits, and then the header, patched, the bit stream and the terminator
stand in the destination; no byte outside the destination is written (R291 to R293, R296). A length the header cannot state is refused (R292), at the end,
by log entry 15's inference. That all this is one step of the engine is log entry 1's cut, and that the working state keeps its values is log entry
21's choice. -/
def Obligations.CompressEnds : Prop :=
  ∀ s : State, s.phase = .encEnd → buffersFit s = true →
    if 2 ^ 32 - 1 < (hufEncodeEnd s).enc.compsize + 1 then engineStep s = .refused .headerOverflow
    else ∃ t r, engineStep s = .next t ∧ r = 8 + (hufEncodeEnd s).enc.compsize + 1 ∧
      t = { s with
        enc := (hufEncodeEnd s).enc, mem := t.mem, phase := .idle, status := t.status, resultLen := BitVec.ofNat 64 r
        freeCtr := t.freeCtr, accesses := t.accesses } ∧
      (∀ a, inRange s.dstAddr.toNat s.dstLen.toNat a = false → memGet t a = memGet s a) ∧
      if r ≤ s.dstLen.toNat then
        t.status = 0x02#32 ∧ dstGet t (r - 1) = 0#8 ∧
        (∀ i, i < 4 → dstGet t i = byteOf (r - 8) i ∧ dstGet t (4 + i) = byteOf s.enc.origsize i) ∧
        ∀ i, 8 ≤ i → i ≠ r - 1 → i < s.dstLen.toNat → dstGet t i = dstGet (hufEncodeEnd s) i
      else t.status = 0x12#32

/-- The token buffer never exceeds BUF_SIZE: its invariant is kept by every step (R257). -/
def Obligations.TokenBufferBounded : Prop :=
  (∀ s t : State, TokensInv s → step s = .next t → TokensInv t) ∧ ∀ e : Enc, TokenInv e → e.outputpos ≤ 16384

/-- The bit stream, compsize and the required size depend only on the source bytes, never on the destination or other memory
(R295): two runs of COMPRESS over the same source keep the same encoder state, hold the same bit stream where both capacities hold its bytes, and end
with the same RESULT_LEN. -/
def Obligations.EncoderIgnoresDestination : Prop :=
  ∀ s t s' : State, compressing s.phase = true → buffersBad s = false → buffersBad t = false → SameSource s t →
    engineStep s = .next s' → ∃ t', engineStep t = .next t' ∧ SameSource s' t' ∧ (SameStream s t → SameStream s' t') ∧
      (s'.phase = .idle → t'.resultLen = s'.resultLen)

/-! ## The registers and the host -/

/-- Reset values of the interface registers, and an idle engine (R380). -/
def Obligations.ResetRegisterValues : Prop :=
  State.reset.cmd = 0#32 ∧ State.reset.status = 0#32 ∧ State.reset.srcAddr = 0#64 ∧ State.reset.srcLen = 0#64 ∧
  State.reset.dstAddr = 0#64 ∧ State.reset.dstLen = 0#64 ∧ State.reset.resultLen = 0#64 ∧ State.reset.phase = .idle

/-- A reset abandons a running command: the destination bytes it had written stay, every other byte is unchanged, and the registers take their
reset values (R383). That the host's agenda, ADDR_W and BASE are kept is log entry 17's choice. -/
def Obligations.ResetAbandonsCommand : Prop :=
  ∀ (s : State) (rest : List Turn), s.agenda = .host .reset :: rest → ∃ t, step s = .next t ∧
    (∀ a, memGet t a = memGet s a) ∧ t.cmd = 0#32 ∧ t.status = 0#32 ∧ t.srcAddr = 0#64 ∧ t.srcLen = 0#64 ∧
    t.dstAddr = 0#64 ∧ t.dstLen = 0#64 ∧ t.resultLen = 0#64 ∧ t.phase = .idle ∧ t.agenda = rest ∧ t.addrW = s.addrW ∧
    t.base = s.base

/-- Accesses while BUSY = 1: a write to CMD is ignored, one to an operand register or into a buffer and a read of a register other than STATUS are
refused (R392, R96, R386): that each is refused at the access is log entry 12's inference. Writes to STATUS and RESULT_LEN are ignored at all times
(R392). -/
def Obligations.AccessesWhileBusy : Prop :=
  (∀ (s : State) (v : Word64) (off width : Nat), (off = 0x04 ∧ width = 32) ∨ (off = 0x28 ∧ width = 64) →
    hostStep (.regWrite (s.base + off) width v) s = .next s) ∧
  ∀ (s : State) (v : Word64) (off width : Nat), busy s = true →
    (off = 0x00 → width = 32 → hostStep (.regWrite (s.base + off) width v) s = .next s) ∧
    ((off = 0x08 ∨ off = 0x10 ∨ off = 0x18 ∨ off = 0x20) → width = 64 →
      hostStep (.regWrite (s.base + off) width v) s = .refused .operandWriteWhileBusy) ∧
    ((off = 0x00 ∧ width = 32) ∨ ((off = 0x08 ∨ off = 0x10 ∨ off = 0x18 ∨ off = 0x20 ∨ off = 0x28) ∧ width = 64) →
      hostStep (.regRead (s.base + off) width) s = .refused .registerReadWhileBusy) ∧
    ∀ (a : Nat) (b : Byte), a < 2 ^ s.addrW.val → inBuffers s a = true →
      hostStep (.memWrite a b) s = .refused .bufferWriteWhileBusy

/-- Every bit of SRC_ADDR, SRC_LEN, DST_ADDR and DST_LEN is writable and reads back as written (R34, R35). -/
def Obligations.OperandRegistersReadBack : Prop :=
  ∀ (s : State) (v : Word64) (off : Nat), busy s = false → off = 0x08 ∨ off = 0x10 ∨ off = 0x18 ∨ off = 0x20 →
    ∃ t, hostStep (.regWrite (s.base + off) 64 v) s = .next t ∧
      hostStep (.regRead (s.base + off) 64) t = .next { t with busData := v } ∧
      t = { s with
        srcAddr := if off = 0x08 then v else s.srcAddr, srcLen := if off = 0x10 then v else s.srcLen
        dstAddr := if off = 0x18 then v else s.dstAddr, dstLen := if off = 0x20 then v else s.dstLen }

/-- Registers are accessed whole, and nothing is decoded from BASE + 0x30 on, nor below BASE (R82, R88). That an access wider than the register is
refused too is log entry 10's inference, and what a read below BASE delivers, a free value, is log entry 23's. That an access which begins below BASE and
reaches into the block passes like any other there is log entry 23's choice. -/
def Obligations.RegisterAccessesAreWhole : Prop :=
  ∀ (s : State) (v : Word64) (off width : Nat),
    (off < 0x30 → ¬ ((off = 0x00 ∨ off = 0x04) ∧ width = 32) →
      ¬ ((off = 0x08 ∨ off = 0x10 ∨ off = 0x18 ∨ off = 0x20 ∨ off = 0x28) ∧ width = 64) →
      hostStep (.regWrite (s.base + off) width v) s = .refused .partialRegisterAccess ∧
      hostStep (.regRead (s.base + off) width) s = .refused .partialRegisterAccess) ∧
    (0x30 ≤ off → hostStep (.regWrite (s.base + off) width v) s = .next s ∧
      hostStep (.regRead (s.base + off) width) s = .next { s with busData := 0#64 }) ∧
    (off < s.base → hostStep (.regWrite off width v) s = .next s ∧
      ∃ t, hostStep (.regRead off width) s = .next t ∧ t = { s with busData := t.busData, freeCtr := t.freeCtr })

/-- Once the host has read STATUS with DONE = 1, it reads RESULT_LEN and every byte of memory as the command left them (R95, R393). -/
def Obligations.ResultsVisibleAfterDone : Prop :=
  ∀ s : State, done s = true → busy s = false → ∃ t, hostStep (.regRead (s.base + 0x04) 32) s = .next t ∧
    t.busData = s.status.setWidth 64 ∧
    (∃ u, hostStep (.regRead (s.base + 0x28) 64) t = .next u ∧ u.busData = s.resultLen) ∧
    ∀ a, a < 2 ^ s.addrW.val → ∃ u, hostStep (.memRead a) t = .next u ∧ u.busData = (memGet s a).setWidth 64

/-! ## The machine -/

/-- A step runs the decoded instruction: a CMD write the command its word encodes, and the engine, at each place of Decode, the instruction that
the bits there decode to, past its bits (R32, R318 to R320, R305, R310, R331). -/
def Obligations.StepRunsDecodedInstruction : Prop :=
  (∀ s v rest, s.agenda = .host (.regWrite s.base 32 v) :: rest →
    step s = exec (decodeCmd (v.setWidth 32)) { s with agenda := rest }) ∧
  ∀ s s0 : State, EngineMoves s s0 → buffersFit s0 = true →
    (∀ i rest, s0.phase = .header → decode .header (headerBits s0) = .ok i rest →
      step s = exec i (engineReads s0.srcAddr.toNat 8 s0)) ∧
    (∀ i rest, s0.phase = .sym → s0.dec.blocksize = 0#16 → decode .block (peekBits s0 16) = .ok i rest →
      step s = exec i (skipBits (16 - rest.length) s0)) ∧
    (∀ σ u, s0.phase = .sym → s0.dec.blocksize ≠ 0#16 →
      decodeSymbol 510 s0.dec.cTab (takeOfBlock s0) = some (σ, u) →
      (∀ b, decode .csym (natToBits 9 σ) = .ok (.lit b) [] → step s = exec (.lit b) u) ∧
      (∀ m, decode .csym (natToBits 9 σ) = .ok (.matchCopy m) [] →
        step s = .next { u with dec := { u.dec with sym := m }, phase := .pos })) ∧
    (∀ i rest, s0.phase = .ptLen → decode .lencode (peekBits s0 13) = .ok i rest →
      step s = exec i (skipBits (13 - rest.length) s0)) ∧
    (∀ τ u i rest, s0.phase = .cLen → decodeSymbol 19 s0.dec.tTab s0 = some (τ, u) →
      decode .tsym (natToBits 5 τ ++ peekBits u 9) = .ok i rest → step s = exec i (skipBits (9 - rest.length) u)) ∧
    (∀ c u i rest, s0.phase = .pos → decodeSymbol 31 s0.dec.pTab s0 = some (c, u) →
      decode .psym (natToBits 5 c ++ peekBits u 29) = .ok i rest → step s = exec i (skipBits (29 - rest.length) u)) ∧
    (s0.phase = .copy → step s = exec (.matchCopy s0.dec.sym) s0)

/-- Canonical memories that read alike are equal data (20_memory.md section 1; the form is the model's, log entry 3). -/
def Obligations.CanonicalMemoryIsUnique : Prop :=
  ∀ m m' : List Host.Cell, Memory.wf m = true → Memory.wf m' = true → (∀ a, cellGet m a = cellGet m' a) → m = m'

/-- Every step keeps host memory in its canonical form (20_memory.md section 1; log entry 3). -/
def Obligations.MemoryFormKept : Prop :=
  ∀ s t : State, Memory.wf s.mem = true → step s = .next t → Memory.wf t.mem = true

/-- STATUS holds only the values the spec gives it, and BUSY = 1 exactly while a command runs: every step keeps this (R33, R350, R356). -/
def Obligations.StatusStaysLegal : Prop :=
  ∀ s t : State, ControlInv s → step s = .next t → ControlInv t

/-- Every step keeps the safety invariant (R92, R314, R320, R350), and the running command's sequence of host-memory accesses is the one of R89 and
R90: source bytes in increasing address order, each at most once, and DECOMPRESS's destination bytes in order, each once. That a byte of the stream is
read when the first of its bits is, is log entry 19's inference. -/
def Obligations.SafetyKept : Prop :=
  ∀ s t : State, SafeInv s → step s = .next t → SafeInv t ∧ (AccessInv s → AccessInv t)

/-- The safety invariant, the token buffer's and the accesses' hold at reset (R380). -/
def Obligations.ResetIsSafe : Prop := SafeInv State.reset ∧ TokensInv State.reset ∧ AccessInv State.reset

/-- From a safe state a running DECOMPRESS always takes its next step: no table lacks a symbol and no access leaves the buffers (R168, R314,
R324, R325). -/
def Obligations.DecoderNeverStops : Prop :=
  ∀ s s0 : State, EngineMoves s s0 → SafeInv s0 → (s0.phase = .header ∨ decoding s0.phase = true) → ∃ t, step s = .next t

/-- From a safe state a running DECOMPRESS ends after finitely many steps of the engine (R391, R324). -/
def Obligations.DecompressEnds : Prop :=
  ∀ s : State, s.agenda = [] → SafeInv s → (s.phase = .header ∨ decoding s.phase = true) →
    ∃ n t, Host.Core.run core n s = .next t ∧ t.phase = .idle ∧ done t = true

/-- From a safe state the engine reads only bytes of the source and the destination buffer and writes only bytes of the destination; it changes no byte
of host memory outside the destination, and every byte is what its sequence of accesses wrote last (R80, R90, R390), but for the unspecified
contents after BUFFER_TOO_SMALL (R293, log entry 5). -/
def Obligations.EngineWritesOnlyDestination : Prop :=
  ∀ s t : State, SafeInv s → engineStep s = .next t →
    (∀ a, inRange s.dstAddr.toNat s.dstLen.toNat a = false → memGet t a = memGet s a) ∧
    ∃ new, t.accesses = new ++ s.accesses ∧ StaysInBuffers s new ∧
      (t.status ≠ 0x12#32 → ∀ a, memGet t a = (lastWritten a new).getD (memGet s a))

/-- The engine never changes CMD, the operand registers, the address width, BASE, the host's agenda or what the host has read (R35, R356). -/
def Obligations.EngineKeepsOperands : Prop :=
  ∀ s t : State, engineStep s = .next t →
    t.cmd = s.cmd ∧ t.srcAddr = s.srcAddr ∧ t.srcLen = s.srcLen ∧ t.dstAddr = s.dstAddr ∧ t.dstLen = s.dstLen ∧
    t.addrW = s.addrW ∧ t.base = s.base ∧ t.agenda = s.agenda ∧ t.busData = s.busData ∧ t.unacquired = s.unacquired
end

