-- ==== Sys2Proof/Laws/Bits.lean ====
section
/-!
SUPPORT. Bits and numbers: the laws of `bitsToNat` and `natToBits`, and of a field taken off a list of bits.
-/

namespace Sys2Proof

theorem bitsToNat_acc (bs : List Bool) (v : Nat) :
    bs.foldl (fun v b => 2 * v + b.toNat) v = v * 2 ^ bs.length + bitsToNat bs := by
  unfold bitsToNat
  induction bs generalizing v with
  | nil => simp
  | cons b bs ih =>
    rw [List.foldl_cons, List.foldl_cons, ih (2 * v + b.toNat), ih (2 * 0 + b.toNat), List.length_cons, Nat.pow_succ]
    ring

theorem bitsToNat_nil : bitsToNat [] = 0 := rfl

theorem bitsToNat_cons (b : Bool) (bs : List Bool) : bitsToNat (b :: bs) = b.toNat * 2 ^ bs.length + bitsToNat bs := by
  rw [bitsToNat, List.foldl_cons, bitsToNat_acc]
  simp

theorem bitsToNat_append (as bs : List Bool) :
    bitsToNat (as ++ bs) = bitsToNat as * 2 ^ bs.length + bitsToNat bs := by
  rw [bitsToNat, List.foldl_append, bitsToNat_acc]
  rfl

theorem bitsToNat_lt (bs : List Bool) : bitsToNat bs < 2 ^ bs.length := by
  induction bs with
  | nil => simp [bitsToNat]
  | cons b bs ih =>
    rw [bitsToNat_cons, List.length_cons, Nat.pow_succ]
    have := Bool.toNat_le b
    nlinarith [Nat.two_pow_pos bs.length]

@[simp] theorem natToBits_length (n v : Nat) : (natToBits n v).length = n := by
  induction n with
  | zero => rfl
  | succ n ih => simp [natToBits, ih]

/-- The `n` bits of a number give it back, less what `n` bits do not hold. -/
theorem bitsToNat_natToBits (n v : Nat) : bitsToNat (natToBits n v) = v % 2 ^ n := by
  induction n with
  | zero => simp [natToBits, bitsToNat, Nat.mod_one]
  | succ n ih =>
    rw [natToBits, bitsToNat_cons, ih, natToBits_length, Nat.toNat_testBit, Nat.pow_succ, Nat.mod_mul]
    ring

theorem bitsToNat_natToBits_of_lt {n v : Nat} (h : v < 2 ^ n) : bitsToNat (natToBits n v) = v := by
  rw [bitsToNat_natToBits, Nat.mod_eq_of_lt h]

/-- A field of exactly its width, put before more bits, is taken off them. -/
theorem takeField_natToBits {n v : Nat} (h : v < 2 ^ n) (rest : List Bool) (k : Nat → List Bool → DecodeResult) :
    takeField n (natToBits n v ++ rest) k = k v rest := by
  unfold takeField
  rw [if_pos (by simp), List.take_append_of_le_length (by simp), List.drop_append_of_le_length (by simp)]
  rw [List.take_of_length_le (by simp), List.drop_of_length_le (by simp), bitsToNat_natToBits_of_lt h, List.nil_append]

theorem takeField_ok {n : Nat} {bs : List Bool} {k : Nat → List Bool → DecodeResult} (h : n ≤ bs.length) :
    takeField n bs k = k (bitsToNat (bs.take n)) (bs.drop n) := by
  simp [takeField, h]

end Sys2Proof
end

