-- ==== Sys2Proof/Laws/Arr.lean ====
section
/-!
SUPPORT. The laws of sparse lists and of arrays: a read after a write, and that a write keeps the canonical form.
-/

namespace Sys2Proof.Machine

variable {κ α : Type} {key : κ → Nat}

theorem sparseGet_of_absent (d : Nat → α) {l : List (κ × α)} {i : Nat} (h : ∀ p ∈ l, key p.1 ≠ i) :
    sparseGet key d l i = d i := by
  induction l with
  | nil => rfl
  | cons p t ih =>
    obtain ⟨k, v⟩ := p
    have hk : key k ≠ i := h (k, v) (by simp)
    simp only [sparseGet, hk, if_false]
    exact ih fun q hq => h q (by simp [hq])

theorem sparseGet_insert (d : Nat → α) {l : List (κ × α)} {i : κ} (v : α) (h : ∀ p ∈ l, key p.1 ≠ key i) (j : Nat) :
    sparseGet key d (sparseInsert key i v l) j = if j = key i then v else sparseGet key d l j := by
  induction l with
  | nil => simp only [sparseInsert, sparseGet, eq_comm]
  | cons p t ih =>
    obtain ⟨k, x⟩ := p
    have hk : key k ≠ key i := h (k, x) (by simp)
    have ih := ih fun q hq => h q (by simp [hq])
    by_cases hik : key i < key k
    · simp only [sparseInsert, hik, if_true, sparseGet, eq_comm (a := key i)]
    · simp only [sparseInsert, hik, if_false, sparseGet, ih]
      by_cases hkj : key k = j
      · subst hkj
        simp [hk]
      · simp [hkj]

theorem sparseGet_filter_ne (d : Nat → α) (l : List (κ × α)) (i j : Nat) :
    sparseGet key d (l.filter fun p => key p.1 != i) j = if j = i then d i else sparseGet key d l j := by
  induction l with
  | nil => by_cases h : j = i <;> simp [sparseGet, h]
  | cons p t ih =>
    obtain ⟨k, v⟩ := p
    by_cases hk : key k = i
    · subst hk
      simp only [List.filter_cons, bne_self_eq_false, Bool.false_eq_true, if_false, ih, sparseGet]
      by_cases hj : j = key k <;> simp [hj, eq_comm]
    · by_cases hj : j = i
      · subst hj
        simpa [List.filter_cons, hk, sparseGet] using ih
      · simp only [List.filter_cons, bne_iff_ne, ne_eq, hk, not_false_eq_true, if_true, sparseGet, hj, if_false]
        simp only [hj, if_false] at ih
        rw [ih]

theorem absent_of_filter_ne (key : κ → Nat) (l : List (κ × α)) (i : Nat) :
    ∀ p ∈ l.filter (fun p => key p.1 != i), key p.1 ≠ i := by
  intro p hp
  simpa using (List.mem_filter.mp hp).2

/-- A read after a write gives the value written, and every other key is left alone. -/
theorem sparseGet_set [DecidableEq α] (d : Nat → α) (l : List (κ × α)) (i : κ) (j : Nat) (v : α) :
    sparseGet key d (sparseSet key d l i v) j = if j = key i then v else sparseGet key d l j := by
  unfold sparseSet
  by_cases hv : v = d (key i)
  · simp only [hv, if_true, sparseGet_filter_ne]
  · simp only [hv, if_false]
    rw [sparseGet_insert d v (absent_of_filter_ne key l (key i)), sparseGet_filter_ne]
    by_cases hj : j = key i <;> simp [hj]

@[simp] theorem sparseGet_nil (d : Nat → α) (i : Nat) : sparseGet key d [] i = d i := rfl

/-! ## The canonical form -/

theorem sparseWf_cons [DecidableEq α] (d : Nat → α) (k : κ) (v : α) (t : List (κ × α)) :
    sparseWf key d ((k, v) :: t) = true ↔ (∀ p ∈ t, key k < key p.1) ∧ v ≠ d (key k) ∧ sparseWf key d t = true := by
  simp [sparseWf, List.all_eq_true, and_assoc]

theorem sparseWf_filter [DecidableEq α] (d : Nat → α) (f : κ × α → Bool) {l : List (κ × α)} (h : sparseWf key d l = true) :
    sparseWf key d (l.filter f) = true := by
  induction l with
  | nil => rfl
  | cons p t ih =>
    obtain ⟨k, v⟩ := p
    obtain ⟨h1, h2, h3⟩ := (sparseWf_cons d k v t).mp h
    by_cases hf : f (k, v)
    · rw [List.filter_cons_of_pos hf, sparseWf_cons]
      exact ⟨fun p hp => h1 p (List.mem_filter.mp hp).1, h2, ih h3⟩
    · rw [List.filter_cons_of_neg hf]
      exact ih h3

theorem mem_sparseInsert {i : κ} {v : α} {l : List (κ × α)} {p : κ × α} (h : p ∈ sparseInsert key i v l) :
    p = (i, v) ∨ p ∈ l := by
  induction l with
  | nil => simpa [sparseInsert] using h
  | cons q t ih =>
    obtain ⟨k, x⟩ := q
    by_cases hik : key i < key k
    · simpa [sparseInsert, hik] using h
    · simp only [sparseInsert, hik, if_false, List.mem_cons] at h ⊢
      rcases h with h | h
      · exact .inr (.inl h)
      · rcases ih h with h | h
        · exact .inl h
        · exact .inr (.inr h)

theorem sparseWf_insert [DecidableEq α] (d : Nat → α) {i : κ} {v : α} {l : List (κ × α)} (h : sparseWf key d l = true)
    (hi : ∀ p ∈ l, key p.1 ≠ key i) (hv : v ≠ d (key i)) : sparseWf key d (sparseInsert key i v l) = true := by
  induction l with
  | nil => simp [sparseInsert, sparseWf, hv]
  | cons q t ih =>
    obtain ⟨k, x⟩ := q
    obtain ⟨h1, h2, h3⟩ := (sparseWf_cons d k x t).mp h
    have hk : key k ≠ key i := hi (k, x) (by simp)
    by_cases hik : key i < key k
    · simp only [sparseInsert, hik, if_true]
      rw [sparseWf_cons]
      refine ⟨?_, hv, h⟩
      intro p hp
      rcases List.mem_cons.mp hp with rfl | hp
      · exact hik
      · exact hik.trans (h1 p hp)
    · simp only [sparseInsert, hik, if_false]
      rw [sparseWf_cons]
      refine ⟨?_, h2, ih h3 fun p hp => hi p (by simp [hp])⟩
      intro p hp
      rcases mem_sparseInsert hp with rfl | hp
      · simp only
        omega
      · exact h1 p hp

/-- A write keeps the canonical form. -/
theorem sparseWf_set [DecidableEq α] (d : Nat → α) {l : List (κ × α)} (h : sparseWf key d l = true) (i : κ) (v : α) :
    sparseWf key d (sparseSet key d l i v) = true := by
  unfold sparseSet
  have hr := sparseWf_filter d (fun p => key p.1 != key i) h
  by_cases hv : v = d (key i)
  · simpa [hv] using hr
  · simp only [hv, if_false]
    exact sparseWf_insert d hr (absent_of_filter_ne key l (key i)) hv

/-! ## Arrays -/

variable {n : Nat}

/-- A read after a write gives the value written if the array has the index, and every other index is left alone. -/
theorem arrGet_set [DecidableEq α] (d : Nat → α) (l : Arr n α) (i j : Nat) (v : α) :
    arrGet d (arrSet d l i v) j = if j = i ∧ i < n then v else arrGet d l j := by
  unfold arrGet arrSet
  by_cases h : i < n
  · rw [dif_pos h, sparseGet_set]
    simp [h]
  · rw [dif_neg h, if_neg fun hn => h hn.2]

theorem arrGet_set_lt [DecidableEq α] (d : Nat → α) (l : Arr n α) {i : Nat} (j : Nat) (v : α) (h : i < n) :
    arrGet d (arrSet d l i v) j = if j = i then v else arrGet d l j := by
  simp [arrGet_set, h]

theorem arrGet_set_same [DecidableEq α] (d : Nat → α) (l : Arr n α) {i : Nat} (v : α) (h : i < n) :
    arrGet d (arrSet d l i v) i = v := by
  simp [arrGet_set, h]

theorem arrGet_set_other [DecidableEq α] (d : Nat → α) (l : Arr n α) {i j : Nat} (v : α) (h : j ≠ i) :
    arrGet d (arrSet d l i v) j = arrGet d l j := by
  simp [arrGet_set, h]

@[simp] theorem arrGet_nil (d : Nat → α) (i : Nat) : arrGet d ([] : Arr n α) i = d i := rfl

/-- Nothing is written at or above an array's size. -/
theorem arrGet_of_le (d : Nat → α) (l : Arr n α) {i : Nat} (h : n ≤ i) : arrGet d l i = d i :=
  sparseGet_of_absent d fun p _ => Nat.ne_of_lt (Nat.lt_of_lt_of_le p.1.isLt h)

/-- `A[0 .. m) <- 0` (R281, R220). -/
theorem arrGet_clearBelow (d : Nat → α) (m : Nat) (l : Arr n α) (i : Nat) :
    arrGet d (arrClearBelow m l) i = if i < m then d i else arrGet d l i := by
  unfold arrGet arrClearBelow
  induction l with
  | nil => simp [sparseGet]
  | cons p t ih =>
    obtain ⟨k, v⟩ := p
    by_cases hk : m ≤ k.val
    · simp only [List.filter_cons, hk, decide_true, if_true, sparseGet, ih]
      by_cases hki : k.val = i
      · subst hki
        simp [Nat.not_lt.mpr hk]
      · simp [hki]
    · simp only [List.filter_cons, hk, decide_false, Bool.false_eq_true, if_false, ih, sparseGet]
      by_cases hki : k.val = i
      · subst hki
        simp [Nat.lt_of_not_le hk]
      · simp [hki]

end Sys2Proof.Machine
end

