-- ==== Sys2Proof/Laws/State.lean ====
section
/-!
SUPPORT. What each named update of the state gives field by field, so that no later proof unfolds a record update.
-/

namespace Sys2Proof.Machine

/-! ## memSet -/

@[simp] theorem memSet_cmd (s : State) (a : Nat) (b : Byte) : (memSet s a b).cmd = s.cmd := rfl
@[simp] theorem memSet_status (s : State) (a : Nat) (b : Byte) : (memSet s a b).status = s.status := rfl
@[simp] theorem memSet_srcAddr (s : State) (a : Nat) (b : Byte) : (memSet s a b).srcAddr = s.srcAddr := rfl
@[simp] theorem memSet_srcLen (s : State) (a : Nat) (b : Byte) : (memSet s a b).srcLen = s.srcLen := rfl
@[simp] theorem memSet_dstAddr (s : State) (a : Nat) (b : Byte) : (memSet s a b).dstAddr = s.dstAddr := rfl
@[simp] theorem memSet_dstLen (s : State) (a : Nat) (b : Byte) : (memSet s a b).dstLen = s.dstLen := rfl
@[simp] theorem memSet_resultLen (s : State) (a : Nat) (b : Byte) : (memSet s a b).resultLen = s.resultLen := rfl
@[simp] theorem memSet_phase (s : State) (a : Nat) (b : Byte) : (memSet s a b).phase = s.phase := rfl
@[simp] theorem memSet_enc (s : State) (a : Nat) (b : Byte) : (memSet s a b).enc = s.enc := rfl
@[simp] theorem memSet_dec (s : State) (a : Nat) (b : Byte) : (memSet s a b).dec = s.dec := rfl
@[simp] theorem memSet_mem (s : State) (a : Nat) (b : Byte) : (memSet s a b).mem = sparseSet id memInit s.mem a b := rfl
@[simp] theorem memSet_addrW (s : State) (a : Nat) (b : Byte) : (memSet s a b).addrW = s.addrW := rfl
@[simp] theorem memSet_base (s : State) (a : Nat) (b : Byte) : (memSet s a b).base = s.base := rfl
@[simp] theorem memSet_accesses (s : State) (a : Nat) (b : Byte) : (memSet s a b).accesses = s.accesses := rfl
@[simp] theorem memSet_agenda (s : State) (a : Nat) (b : Byte) : (memSet s a b).agenda = s.agenda := rfl
@[simp] theorem memSet_busData (s : State) (a : Nat) (b : Byte) : (memSet s a b).busData = s.busData := rfl
@[simp] theorem memSet_unacquired (s : State) (a : Nat) (b : Byte) : (memSet s a b).unacquired = s.unacquired := rfl
@[simp] theorem memSet_freeCtr (s : State) (a : Nat) (b : Byte) : (memSet s a b).freeCtr = s.freeCtr := rfl

/-! ## engineWrite -/

@[simp] theorem engineWrite_cmd (a : Nat) (b : Byte) (s : State) : (engineWrite a b s).cmd = s.cmd := rfl
@[simp] theorem engineWrite_status (a : Nat) (b : Byte) (s : State) : (engineWrite a b s).status = s.status := rfl
@[simp] theorem engineWrite_srcAddr (a : Nat) (b : Byte) (s : State) : (engineWrite a b s).srcAddr = s.srcAddr := rfl
@[simp] theorem engineWrite_srcLen (a : Nat) (b : Byte) (s : State) : (engineWrite a b s).srcLen = s.srcLen := rfl
@[simp] theorem engineWrite_dstAddr (a : Nat) (b : Byte) (s : State) : (engineWrite a b s).dstAddr = s.dstAddr := rfl
@[simp] theorem engineWrite_dstLen (a : Nat) (b : Byte) (s : State) : (engineWrite a b s).dstLen = s.dstLen := rfl
@[simp] theorem engineWrite_resultLen (a : Nat) (b : Byte) (s : State) : (engineWrite a b s).resultLen = s.resultLen := rfl
@[simp] theorem engineWrite_phase (a : Nat) (b : Byte) (s : State) : (engineWrite a b s).phase = s.phase := rfl
@[simp] theorem engineWrite_enc (a : Nat) (b : Byte) (s : State) : (engineWrite a b s).enc = s.enc := rfl
@[simp] theorem engineWrite_dec (a : Nat) (b : Byte) (s : State) : (engineWrite a b s).dec = s.dec := rfl
@[simp] theorem engineWrite_mem (a : Nat) (b : Byte) (s : State) : (engineWrite a b s).mem = sparseSet id memInit s.mem a b := rfl
@[simp] theorem engineWrite_addrW (a : Nat) (b : Byte) (s : State) : (engineWrite a b s).addrW = s.addrW := rfl
@[simp] theorem engineWrite_base (a : Nat) (b : Byte) (s : State) : (engineWrite a b s).base = s.base := rfl
@[simp] theorem engineWrite_accesses (a : Nat) (b : Byte) (s : State) : (engineWrite a b s).accesses = .write a b :: s.accesses := rfl
@[simp] theorem engineWrite_agenda (a : Nat) (b : Byte) (s : State) : (engineWrite a b s).agenda = s.agenda := rfl
@[simp] theorem engineWrite_busData (a : Nat) (b : Byte) (s : State) : (engineWrite a b s).busData = s.busData := rfl
@[simp] theorem engineWrite_unacquired (a : Nat) (b : Byte) (s : State) : (engineWrite a b s).unacquired = s.unacquired := rfl
@[simp] theorem engineWrite_freeCtr (a : Nat) (b : Byte) (s : State) : (engineWrite a b s).freeCtr = s.freeCtr := rfl

/-! ## engineReads -/

@[simp] theorem engineReads_cmd (a k : Nat) (s : State) : (engineReads a k s).cmd = s.cmd := rfl
@[simp] theorem engineReads_status (a k : Nat) (s : State) : (engineReads a k s).status = s.status := rfl
@[simp] theorem engineReads_srcAddr (a k : Nat) (s : State) : (engineReads a k s).srcAddr = s.srcAddr := rfl
@[simp] theorem engineReads_srcLen (a k : Nat) (s : State) : (engineReads a k s).srcLen = s.srcLen := rfl
@[simp] theorem engineReads_dstAddr (a k : Nat) (s : State) : (engineReads a k s).dstAddr = s.dstAddr := rfl
@[simp] theorem engineReads_dstLen (a k : Nat) (s : State) : (engineReads a k s).dstLen = s.dstLen := rfl
@[simp] theorem engineReads_resultLen (a k : Nat) (s : State) : (engineReads a k s).resultLen = s.resultLen := rfl
@[simp] theorem engineReads_phase (a k : Nat) (s : State) : (engineReads a k s).phase = s.phase := rfl
@[simp] theorem engineReads_enc (a k : Nat) (s : State) : (engineReads a k s).enc = s.enc := rfl
@[simp] theorem engineReads_dec (a k : Nat) (s : State) : (engineReads a k s).dec = s.dec := rfl
@[simp] theorem engineReads_mem (a k : Nat) (s : State) : (engineReads a k s).mem = s.mem := rfl
@[simp] theorem engineReads_addrW (a k : Nat) (s : State) : (engineReads a k s).addrW = s.addrW := rfl
@[simp] theorem engineReads_base (a k : Nat) (s : State) : (engineReads a k s).base = s.base := rfl
@[simp] theorem engineReads_accesses (a k : Nat) (s : State) : (engineReads a k s).accesses = 
    ((List.range k).map fun i => .read (a + i) (memGet s (a + i))).reverse ++ s.accesses := rfl
@[simp] theorem engineReads_agenda (a k : Nat) (s : State) : (engineReads a k s).agenda = s.agenda := rfl
@[simp] theorem engineReads_busData (a k : Nat) (s : State) : (engineReads a k s).busData = s.busData := rfl
@[simp] theorem engineReads_unacquired (a k : Nat) (s : State) : (engineReads a k s).unacquired = s.unacquired := rfl
@[simp] theorem engineReads_freeCtr (a k : Nat) (s : State) : (engineReads a k s).freeCtr = s.freeCtr := rfl

/-! ## skipBits -/

@[simp] theorem skipBits_cmd (n : Nat) (s : State) : (skipBits n s).cmd = s.cmd := rfl
@[simp] theorem skipBits_status (n : Nat) (s : State) : (skipBits n s).status = s.status := rfl
@[simp] theorem skipBits_srcAddr (n : Nat) (s : State) : (skipBits n s).srcAddr = s.srcAddr := rfl
@[simp] theorem skipBits_srcLen (n : Nat) (s : State) : (skipBits n s).srcLen = s.srcLen := rfl
@[simp] theorem skipBits_dstAddr (n : Nat) (s : State) : (skipBits n s).dstAddr = s.dstAddr := rfl
@[simp] theorem skipBits_dstLen (n : Nat) (s : State) : (skipBits n s).dstLen = s.dstLen := rfl
@[simp] theorem skipBits_resultLen (n : Nat) (s : State) : (skipBits n s).resultLen = s.resultLen := rfl
@[simp] theorem skipBits_phase (n : Nat) (s : State) : (skipBits n s).phase = s.phase := rfl
@[simp] theorem skipBits_enc (n : Nat) (s : State) : (skipBits n s).enc = s.enc := rfl
@[simp] theorem skipBits_mem (n : Nat) (s : State) : (skipBits n s).mem = s.mem := rfl
@[simp] theorem skipBits_addrW (n : Nat) (s : State) : (skipBits n s).addrW = s.addrW := rfl
@[simp] theorem skipBits_base (n : Nat) (s : State) : (skipBits n s).base = s.base := rfl
theorem skipBits_accesses (n : Nat) (s : State) : (skipBits n s).accesses
    = (engineReads (s.srcAddr.toNat + 8 + bytesReached s.dec s.dec.rpos)
        (bytesReached s.dec (s.dec.rpos + n) - bytesReached s.dec s.dec.rpos) s).accesses := rfl
@[simp] theorem skipBits_agenda (n : Nat) (s : State) : (skipBits n s).agenda = s.agenda := rfl
@[simp] theorem skipBits_busData (n : Nat) (s : State) : (skipBits n s).busData = s.busData := rfl
@[simp] theorem skipBits_unacquired (n : Nat) (s : State) : (skipBits n s).unacquired = s.unacquired := rfl
@[simp] theorem skipBits_freeCtr (n : Nat) (s : State) : (skipBits n s).freeCtr = s.freeCtr := rfl
@[simp] theorem skipBits_dec_rpos (n : Nat) (s : State) : (skipBits n s).dec.rpos = s.dec.rpos + n := rfl
@[simp] theorem skipBits_dec_compsizeIn (n : Nat) (s : State) : (skipBits n s).dec.compsizeIn = s.dec.compsizeIn := rfl
@[simp] theorem skipBits_dec_origsize (n : Nat) (s : State) : (skipBits n s).dec.origsize = s.dec.origsize := rfl
@[simp] theorem skipBits_dec_pbit (n : Nat) (s : State) : (skipBits n s).dec.pbit = s.dec.pbit := rfl
@[simp] theorem skipBits_dec_blocksize (n : Nat) (s : State) : (skipBits n s).dec.blocksize = s.dec.blocksize := rfl
@[simp] theorem skipBits_dec_tTab (n : Nat) (s : State) : (skipBits n s).dec.tTab = s.dec.tTab := rfl
@[simp] theorem skipBits_dec_cTab (n : Nat) (s : State) : (skipBits n s).dec.cTab = s.dec.cTab := rfl
@[simp] theorem skipBits_dec_pTab (n : Nat) (s : State) : (skipBits n s).dec.pTab = s.dec.pTab := rfl
@[simp] theorem skipBits_dec_out (n : Nat) (s : State) : (skipBits n s).dec.out = s.dec.out := rfl
@[simp] theorem skipBits_dec_bad (n : Nat) (s : State) : (skipBits n s).dec.bad = s.dec.bad := rfl
@[simp] theorem skipBits_dec_list (n : Nat) (s : State) : (skipBits n s).dec.list = s.dec.list := rfl
@[simp] theorem skipBits_dec_count (n : Nat) (s : State) : (skipBits n s).dec.count = s.dec.count := rfl
@[simp] theorem skipBits_dec_idx (n : Nat) (s : State) : (skipBits n s).dec.idx = s.dec.idx := rfl
@[simp] theorem skipBits_dec_lens (n : Nat) (s : State) : (skipBits n s).dec.lens = s.dec.lens := rfl
@[simp] theorem skipBits_dec_sym (n : Nat) (s : State) : (skipBits n s).dec.sym = s.dec.sym := rfl
@[simp] theorem skipBits_dec_pval (n : Nat) (s : State) : (skipBits n s).dec.pval = s.dec.pval := rfl

/-! ## acceptCmd -/

@[simp] theorem acceptCmd_cmd (w : Word32) (n : Nat) (s : State) : (acceptCmd w n s).cmd = w := rfl
@[simp] theorem acceptCmd_status (w : Word32) (n : Nat) (s : State) : (acceptCmd w n s).status = s.status := rfl
@[simp] theorem acceptCmd_srcAddr (w : Word32) (n : Nat) (s : State) : (acceptCmd w n s).srcAddr = s.srcAddr := rfl
@[simp] theorem acceptCmd_srcLen (w : Word32) (n : Nat) (s : State) : (acceptCmd w n s).srcLen = s.srcLen := rfl
@[simp] theorem acceptCmd_dstAddr (w : Word32) (n : Nat) (s : State) : (acceptCmd w n s).dstAddr = s.dstAddr := rfl
@[simp] theorem acceptCmd_dstLen (w : Word32) (n : Nat) (s : State) : (acceptCmd w n s).dstLen = s.dstLen := rfl
@[simp] theorem acceptCmd_resultLen (w : Word32) (n : Nat) (s : State) : (acceptCmd w n s).resultLen = s.resultLen := rfl
@[simp] theorem acceptCmd_phase (w : Word32) (n : Nat) (s : State) : (acceptCmd w n s).phase = s.phase := rfl
@[simp] theorem acceptCmd_enc (w : Word32) (n : Nat) (s : State) : (acceptCmd w n s).enc = s.enc := rfl
@[simp] theorem acceptCmd_dec (w : Word32) (n : Nat) (s : State) : (acceptCmd w n s).dec = s.dec := rfl
@[simp] theorem acceptCmd_mem (w : Word32) (n : Nat) (s : State) : (acceptCmd w n s).mem = s.mem := rfl
@[simp] theorem acceptCmd_addrW (w : Word32) (n : Nat) (s : State) : (acceptCmd w n s).addrW = s.addrW := rfl
@[simp] theorem acceptCmd_base (w : Word32) (n : Nat) (s : State) : (acceptCmd w n s).base = s.base := rfl
@[simp] theorem acceptCmd_accesses (w : Word32) (n : Nat) (s : State) : (acceptCmd w n s).accesses = [] := rfl
@[simp] theorem acceptCmd_agenda (w : Word32) (n : Nat) (s : State) : (acceptCmd w n s).agenda = s.agenda := rfl
@[simp] theorem acceptCmd_busData (w : Word32) (n : Nat) (s : State) : (acceptCmd w n s).busData = s.busData := rfl
@[simp] theorem acceptCmd_unacquired (w : Word32) (n : Nat) (s : State) : (acceptCmd w n s).unacquired = (s.dstAddr.toNat, n) :: s.unacquired := rfl
@[simp] theorem acceptCmd_freeCtr (w : Word32) (n : Nat) (s : State) : (acceptCmd w n s).freeCtr = s.freeCtr := rfl

/-! ## startCommand -/

@[simp] theorem startCommand_cmd (p : Phase) (s : State) : (startCommand p s).cmd = s.cmd := rfl
@[simp] theorem startCommand_status (p : Phase) (s : State) : (startCommand p s).status = statusBusy := rfl
@[simp] theorem startCommand_srcAddr (p : Phase) (s : State) : (startCommand p s).srcAddr = s.srcAddr := rfl
@[simp] theorem startCommand_srcLen (p : Phase) (s : State) : (startCommand p s).srcLen = s.srcLen := rfl
@[simp] theorem startCommand_dstAddr (p : Phase) (s : State) : (startCommand p s).dstAddr = s.dstAddr := rfl
@[simp] theorem startCommand_dstLen (p : Phase) (s : State) : (startCommand p s).dstLen = s.dstLen := rfl
@[simp] theorem startCommand_resultLen (p : Phase) (s : State) : (startCommand p s).resultLen = s.resultLen := rfl
@[simp] theorem startCommand_phase (p : Phase) (s : State) : (startCommand p s).phase = p := rfl
@[simp] theorem startCommand_enc (p : Phase) (s : State) : (startCommand p s).enc = s.enc := rfl
@[simp] theorem startCommand_dec (p : Phase) (s : State) : (startCommand p s).dec = s.dec := rfl
@[simp] theorem startCommand_mem (p : Phase) (s : State) : (startCommand p s).mem = s.mem := rfl
@[simp] theorem startCommand_addrW (p : Phase) (s : State) : (startCommand p s).addrW = s.addrW := rfl
@[simp] theorem startCommand_base (p : Phase) (s : State) : (startCommand p s).base = s.base := rfl
@[simp] theorem startCommand_accesses (p : Phase) (s : State) : (startCommand p s).accesses = s.accesses := rfl
@[simp] theorem startCommand_agenda (p : Phase) (s : State) : (startCommand p s).agenda = s.agenda := rfl
@[simp] theorem startCommand_busData (p : Phase) (s : State) : (startCommand p s).busData = s.busData := rfl
@[simp] theorem startCommand_unacquired (p : Phase) (s : State) : (startCommand p s).unacquired = s.unacquired := rfl
@[simp] theorem startCommand_freeCtr (p : Phase) (s : State) : (startCommand p s).freeCtr = s.freeCtr := rfl

/-! ## endCommand -/

@[simp] theorem endCommand_cmd (c : Code) (n : Nat) (s : State) : (endCommand c n s).cmd = s.cmd := rfl
@[simp] theorem endCommand_status (c : Code) (n : Nat) (s : State) : (endCommand c n s).status = statusEnded c := rfl
@[simp] theorem endCommand_srcAddr (c : Code) (n : Nat) (s : State) : (endCommand c n s).srcAddr = s.srcAddr := rfl
@[simp] theorem endCommand_srcLen (c : Code) (n : Nat) (s : State) : (endCommand c n s).srcLen = s.srcLen := rfl
@[simp] theorem endCommand_dstAddr (c : Code) (n : Nat) (s : State) : (endCommand c n s).dstAddr = s.dstAddr := rfl
@[simp] theorem endCommand_dstLen (c : Code) (n : Nat) (s : State) : (endCommand c n s).dstLen = s.dstLen := rfl
@[simp] theorem endCommand_resultLen (c : Code) (n : Nat) (s : State) : (endCommand c n s).resultLen = BitVec.ofNat 64 n := rfl
@[simp] theorem endCommand_phase (c : Code) (n : Nat) (s : State) : (endCommand c n s).phase = .idle := rfl
@[simp] theorem endCommand_enc (c : Code) (n : Nat) (s : State) : (endCommand c n s).enc = s.enc := rfl
@[simp] theorem endCommand_dec (c : Code) (n : Nat) (s : State) : (endCommand c n s).dec = s.dec := rfl
@[simp] theorem endCommand_mem (c : Code) (n : Nat) (s : State) : (endCommand c n s).mem = s.mem := rfl
@[simp] theorem endCommand_addrW (c : Code) (n : Nat) (s : State) : (endCommand c n s).addrW = s.addrW := rfl
@[simp] theorem endCommand_base (c : Code) (n : Nat) (s : State) : (endCommand c n s).base = s.base := rfl
@[simp] theorem endCommand_accesses (c : Code) (n : Nat) (s : State) : (endCommand c n s).accesses = s.accesses := rfl
@[simp] theorem endCommand_agenda (c : Code) (n : Nat) (s : State) : (endCommand c n s).agenda = s.agenda := rfl
@[simp] theorem endCommand_busData (c : Code) (n : Nat) (s : State) : (endCommand c n s).busData = s.busData := rfl
@[simp] theorem endCommand_unacquired (c : Code) (n : Nat) (s : State) : (endCommand c n s).unacquired = s.unacquired := rfl
@[simp] theorem endCommand_freeCtr (c : Code) (n : Nat) (s : State) : (endCommand c n s).freeCtr = s.freeCtr := rfl

/-! ## endBad -/

@[simp] theorem endBad_cmd (s : State) : (endBad s).cmd = s.cmd := rfl
@[simp] theorem endBad_status (s : State) : (endBad s).status = statusEnded .invalidData := rfl
@[simp] theorem endBad_srcAddr (s : State) : (endBad s).srcAddr = s.srcAddr := rfl
@[simp] theorem endBad_srcLen (s : State) : (endBad s).srcLen = s.srcLen := rfl
@[simp] theorem endBad_dstAddr (s : State) : (endBad s).dstAddr = s.dstAddr := rfl
@[simp] theorem endBad_dstLen (s : State) : (endBad s).dstLen = s.dstLen := rfl
@[simp] theorem endBad_resultLen (s : State) : (endBad s).resultLen = BitVec.ofNat 64 s.dec.out := rfl
@[simp] theorem endBad_phase (s : State) : (endBad s).phase = .idle := rfl
@[simp] theorem endBad_enc (s : State) : (endBad s).enc = s.enc := rfl
@[simp] theorem endBad_mem (s : State) : (endBad s).mem = s.mem := rfl
@[simp] theorem endBad_addrW (s : State) : (endBad s).addrW = s.addrW := rfl
@[simp] theorem endBad_base (s : State) : (endBad s).base = s.base := rfl
@[simp] theorem endBad_accesses (s : State) : (endBad s).accesses = s.accesses := rfl
@[simp] theorem endBad_agenda (s : State) : (endBad s).agenda = s.agenda := rfl
@[simp] theorem endBad_busData (s : State) : (endBad s).busData = s.busData := rfl
@[simp] theorem endBad_unacquired (s : State) : (endBad s).unacquired = s.unacquired := rfl
@[simp] theorem endBad_freeCtr (s : State) : (endBad s).freeCtr = s.freeCtr := rfl
@[simp] theorem endBad_dec_rpos (s : State) : (endBad s).dec.rpos = s.dec.rpos := rfl
@[simp] theorem endBad_dec_compsizeIn (s : State) : (endBad s).dec.compsizeIn = s.dec.compsizeIn := rfl
@[simp] theorem endBad_dec_origsize (s : State) : (endBad s).dec.origsize = s.dec.origsize := rfl
@[simp] theorem endBad_dec_pbit (s : State) : (endBad s).dec.pbit = s.dec.pbit := rfl
@[simp] theorem endBad_dec_blocksize (s : State) : (endBad s).dec.blocksize = s.dec.blocksize := rfl
@[simp] theorem endBad_dec_tTab (s : State) : (endBad s).dec.tTab = s.dec.tTab := rfl
@[simp] theorem endBad_dec_cTab (s : State) : (endBad s).dec.cTab = s.dec.cTab := rfl
@[simp] theorem endBad_dec_pTab (s : State) : (endBad s).dec.pTab = s.dec.pTab := rfl
@[simp] theorem endBad_dec_out (s : State) : (endBad s).dec.out = s.dec.out := rfl
@[simp] theorem endBad_dec_bad (s : State) : (endBad s).dec.bad = true := rfl
@[simp] theorem endBad_dec_list (s : State) : (endBad s).dec.list = s.dec.list := rfl
@[simp] theorem endBad_dec_count (s : State) : (endBad s).dec.count = s.dec.count := rfl
@[simp] theorem endBad_dec_idx (s : State) : (endBad s).dec.idx = s.dec.idx := rfl
@[simp] theorem endBad_dec_lens (s : State) : (endBad s).dec.lens = s.dec.lens := rfl
@[simp] theorem endBad_dec_sym (s : State) : (endBad s).dec.sym = s.dec.sym := rfl
@[simp] theorem endBad_dec_pval (s : State) : (endBad s).dec.pval = s.dec.pval := rfl

/-! ## drawFree -/

@[simp] theorem drawFree_cmd (s : State) : ((drawFree s).2).cmd = s.cmd := rfl
@[simp] theorem drawFree_status (s : State) : ((drawFree s).2).status = s.status := rfl
@[simp] theorem drawFree_srcAddr (s : State) : ((drawFree s).2).srcAddr = s.srcAddr := rfl
@[simp] theorem drawFree_srcLen (s : State) : ((drawFree s).2).srcLen = s.srcLen := rfl
@[simp] theorem drawFree_dstAddr (s : State) : ((drawFree s).2).dstAddr = s.dstAddr := rfl
@[simp] theorem drawFree_dstLen (s : State) : ((drawFree s).2).dstLen = s.dstLen := rfl
@[simp] theorem drawFree_resultLen (s : State) : ((drawFree s).2).resultLen = s.resultLen := rfl
@[simp] theorem drawFree_phase (s : State) : ((drawFree s).2).phase = s.phase := rfl
@[simp] theorem drawFree_enc (s : State) : ((drawFree s).2).enc = s.enc := rfl
@[simp] theorem drawFree_dec (s : State) : ((drawFree s).2).dec = s.dec := rfl
@[simp] theorem drawFree_mem (s : State) : ((drawFree s).2).mem = s.mem := rfl
@[simp] theorem drawFree_addrW (s : State) : ((drawFree s).2).addrW = s.addrW := rfl
@[simp] theorem drawFree_base (s : State) : ((drawFree s).2).base = s.base := rfl
@[simp] theorem drawFree_accesses (s : State) : ((drawFree s).2).accesses = s.accesses := rfl
@[simp] theorem drawFree_agenda (s : State) : ((drawFree s).2).agenda = s.agenda := rfl
@[simp] theorem drawFree_busData (s : State) : ((drawFree s).2).busData = s.busData := rfl
@[simp] theorem drawFree_unacquired (s : State) : ((drawFree s).2).unacquired = s.unacquired := rfl
@[simp] theorem drawFree_freeCtr (s : State) : ((drawFree s).2).freeCtr = s.freeCtr + 1 := rfl

/-! ## withFinder -/

@[simp] theorem withFinder_cmd (s : State) (f : Finder) : (withFinder s f).cmd = s.cmd := rfl
@[simp] theorem withFinder_status (s : State) (f : Finder) : (withFinder s f).status = s.status := rfl
@[simp] theorem withFinder_srcAddr (s : State) (f : Finder) : (withFinder s f).srcAddr = s.srcAddr := rfl
@[simp] theorem withFinder_srcLen (s : State) (f : Finder) : (withFinder s f).srcLen = s.srcLen := rfl
@[simp] theorem withFinder_dstAddr (s : State) (f : Finder) : (withFinder s f).dstAddr = s.dstAddr := rfl
@[simp] theorem withFinder_dstLen (s : State) (f : Finder) : (withFinder s f).dstLen = s.dstLen := rfl
@[simp] theorem withFinder_resultLen (s : State) (f : Finder) : (withFinder s f).resultLen = s.resultLen := rfl
@[simp] theorem withFinder_phase (s : State) (f : Finder) : (withFinder s f).phase = s.phase := rfl
@[simp] theorem withFinder_enc (s : State) (f : Finder) : (withFinder s f).enc = { s.enc with finder := f } := rfl
@[simp] theorem withFinder_dec (s : State) (f : Finder) : (withFinder s f).dec = s.dec := rfl
@[simp] theorem withFinder_mem (s : State) (f : Finder) : (withFinder s f).mem = s.mem := rfl
@[simp] theorem withFinder_addrW (s : State) (f : Finder) : (withFinder s f).addrW = s.addrW := rfl
@[simp] theorem withFinder_base (s : State) (f : Finder) : (withFinder s f).base = s.base := rfl
@[simp] theorem withFinder_accesses (s : State) (f : Finder) : (withFinder s f).accesses = s.accesses := rfl
@[simp] theorem withFinder_agenda (s : State) (f : Finder) : (withFinder s f).agenda = s.agenda := rfl
@[simp] theorem withFinder_busData (s : State) (f : Finder) : (withFinder s f).busData = s.busData := rfl
@[simp] theorem withFinder_unacquired (s : State) (f : Finder) : (withFinder s f).unacquired = s.unacquired := rfl
@[simp] theorem withFinder_freeCtr (s : State) (f : Finder) : (withFinder s f).freeCtr = s.freeCtr := rfl

/-! ## setOut -/

@[simp] theorem setOut_cmd (n : Nat) (s : State) : (setOut n s).cmd = s.cmd := rfl
@[simp] theorem setOut_status (n : Nat) (s : State) : (setOut n s).status = s.status := rfl
@[simp] theorem setOut_srcAddr (n : Nat) (s : State) : (setOut n s).srcAddr = s.srcAddr := rfl
@[simp] theorem setOut_srcLen (n : Nat) (s : State) : (setOut n s).srcLen = s.srcLen := rfl
@[simp] theorem setOut_dstAddr (n : Nat) (s : State) : (setOut n s).dstAddr = s.dstAddr := rfl
@[simp] theorem setOut_dstLen (n : Nat) (s : State) : (setOut n s).dstLen = s.dstLen := rfl
@[simp] theorem setOut_resultLen (n : Nat) (s : State) : (setOut n s).resultLen = s.resultLen := rfl
@[simp] theorem setOut_phase (n : Nat) (s : State) : (setOut n s).phase = s.phase := rfl
@[simp] theorem setOut_enc (n : Nat) (s : State) : (setOut n s).enc = s.enc := rfl
@[simp] theorem setOut_mem (n : Nat) (s : State) : (setOut n s).mem = s.mem := rfl
@[simp] theorem setOut_addrW (n : Nat) (s : State) : (setOut n s).addrW = s.addrW := rfl
@[simp] theorem setOut_base (n : Nat) (s : State) : (setOut n s).base = s.base := rfl
@[simp] theorem setOut_accesses (n : Nat) (s : State) : (setOut n s).accesses = s.accesses := rfl
@[simp] theorem setOut_agenda (n : Nat) (s : State) : (setOut n s).agenda = s.agenda := rfl
@[simp] theorem setOut_busData (n : Nat) (s : State) : (setOut n s).busData = s.busData := rfl
@[simp] theorem setOut_unacquired (n : Nat) (s : State) : (setOut n s).unacquired = s.unacquired := rfl
@[simp] theorem setOut_freeCtr (n : Nat) (s : State) : (setOut n s).freeCtr = s.freeCtr := rfl
@[simp] theorem setOut_dec_rpos (n : Nat) (s : State) : (setOut n s).dec.rpos = s.dec.rpos := rfl
@[simp] theorem setOut_dec_compsizeIn (n : Nat) (s : State) : (setOut n s).dec.compsizeIn = s.dec.compsizeIn := rfl
@[simp] theorem setOut_dec_origsize (n : Nat) (s : State) : (setOut n s).dec.origsize = s.dec.origsize := rfl
@[simp] theorem setOut_dec_pbit (n : Nat) (s : State) : (setOut n s).dec.pbit = s.dec.pbit := rfl
@[simp] theorem setOut_dec_blocksize (n : Nat) (s : State) : (setOut n s).dec.blocksize = s.dec.blocksize := rfl
@[simp] theorem setOut_dec_tTab (n : Nat) (s : State) : (setOut n s).dec.tTab = s.dec.tTab := rfl
@[simp] theorem setOut_dec_cTab (n : Nat) (s : State) : (setOut n s).dec.cTab = s.dec.cTab := rfl
@[simp] theorem setOut_dec_pTab (n : Nat) (s : State) : (setOut n s).dec.pTab = s.dec.pTab := rfl
@[simp] theorem setOut_dec_out (n : Nat) (s : State) : (setOut n s).dec.out = n := rfl
@[simp] theorem setOut_dec_bad (n : Nat) (s : State) : (setOut n s).dec.bad = s.dec.bad := rfl
@[simp] theorem setOut_dec_list (n : Nat) (s : State) : (setOut n s).dec.list = s.dec.list := rfl
@[simp] theorem setOut_dec_count (n : Nat) (s : State) : (setOut n s).dec.count = s.dec.count := rfl
@[simp] theorem setOut_dec_idx (n : Nat) (s : State) : (setOut n s).dec.idx = s.dec.idx := rfl
@[simp] theorem setOut_dec_lens (n : Nat) (s : State) : (setOut n s).dec.lens = s.dec.lens := rfl
@[simp] theorem setOut_dec_sym (n : Nat) (s : State) : (setOut n s).dec.sym = s.dec.sym := rfl
@[simp] theorem setOut_dec_pval (n : Nat) (s : State) : (setOut n s).dec.pval = s.dec.pval := rfl

/-! ## startDecode -/

@[simp] theorem startDecode_cmd (s : State) : (startDecode s).cmd = s.cmd := rfl
@[simp] theorem startDecode_status (s : State) : (startDecode s).status = s.status := rfl
@[simp] theorem startDecode_srcAddr (s : State) : (startDecode s).srcAddr = s.srcAddr := rfl
@[simp] theorem startDecode_srcLen (s : State) : (startDecode s).srcLen = s.srcLen := rfl
@[simp] theorem startDecode_dstAddr (s : State) : (startDecode s).dstAddr = s.dstAddr := rfl
@[simp] theorem startDecode_dstLen (s : State) : (startDecode s).dstLen = s.dstLen := rfl
@[simp] theorem startDecode_resultLen (s : State) : (startDecode s).resultLen = s.resultLen := rfl
@[simp] theorem startDecode_phase (s : State) : (startDecode s).phase = .sym := rfl
@[simp] theorem startDecode_enc (s : State) : (startDecode s).enc = s.enc := rfl
@[simp] theorem startDecode_mem (s : State) : (startDecode s).mem = s.mem := rfl
@[simp] theorem startDecode_addrW (s : State) : (startDecode s).addrW = s.addrW := rfl
@[simp] theorem startDecode_base (s : State) : (startDecode s).base = s.base := rfl
@[simp] theorem startDecode_accesses (s : State) : (startDecode s).accesses = s.accesses := rfl
@[simp] theorem startDecode_agenda (s : State) : (startDecode s).agenda = s.agenda := rfl
@[simp] theorem startDecode_busData (s : State) : (startDecode s).busData = s.busData := rfl
@[simp] theorem startDecode_unacquired (s : State) : (startDecode s).unacquired = s.unacquired := rfl
@[simp] theorem startDecode_freeCtr (s : State) : (startDecode s).freeCtr = s.freeCtr := rfl
@[simp] theorem startDecode_dec_rpos (s : State) : (startDecode s).dec.rpos = 0 := rfl
@[simp] theorem startDecode_dec_compsizeIn (s : State) : (startDecode s).dec.compsizeIn = s.dec.compsizeIn := rfl
@[simp] theorem startDecode_dec_origsize (s : State) : (startDecode s).dec.origsize = s.dec.origsize := rfl
@[simp] theorem startDecode_dec_pbit (s : State) : (startDecode s).dec.pbit = s.dec.pbit := rfl
@[simp] theorem startDecode_dec_blocksize (s : State) : (startDecode s).dec.blocksize = 0#16 := rfl
@[simp] theorem startDecode_dec_tTab (s : State) : (startDecode s).dec.tTab = s.dec.tTab := rfl
@[simp] theorem startDecode_dec_cTab (s : State) : (startDecode s).dec.cTab = s.dec.cTab := rfl
@[simp] theorem startDecode_dec_pTab (s : State) : (startDecode s).dec.pTab = s.dec.pTab := rfl
@[simp] theorem startDecode_dec_out (s : State) : (startDecode s).dec.out = 0 := rfl
@[simp] theorem startDecode_dec_bad (s : State) : (startDecode s).dec.bad = s.dec.bad := rfl
@[simp] theorem startDecode_dec_list (s : State) : (startDecode s).dec.list = s.dec.list := rfl
@[simp] theorem startDecode_dec_count (s : State) : (startDecode s).dec.count = s.dec.count := rfl
@[simp] theorem startDecode_dec_idx (s : State) : (startDecode s).dec.idx = s.dec.idx := rfl
@[simp] theorem startDecode_dec_lens (s : State) : (startDecode s).dec.lens = s.dec.lens := rfl
@[simp] theorem startDecode_dec_sym (s : State) : (startDecode s).dec.sym = s.dec.sym := rfl
@[simp] theorem startDecode_dec_pval (s : State) : (startDecode s).dec.pval = s.dec.pval := rfl

/-! ## startList -/

@[simp] theorem startList_cmd (k : ListKind) (s : State) : (startList k s).cmd = s.cmd := rfl
@[simp] theorem startList_status (k : ListKind) (s : State) : (startList k s).status = s.status := rfl
@[simp] theorem startList_srcAddr (k : ListKind) (s : State) : (startList k s).srcAddr = s.srcAddr := rfl
@[simp] theorem startList_srcLen (k : ListKind) (s : State) : (startList k s).srcLen = s.srcLen := rfl
@[simp] theorem startList_dstAddr (k : ListKind) (s : State) : (startList k s).dstAddr = s.dstAddr := rfl
@[simp] theorem startList_dstLen (k : ListKind) (s : State) : (startList k s).dstLen = s.dstLen := rfl
@[simp] theorem startList_resultLen (k : ListKind) (s : State) : (startList k s).resultLen = s.resultLen := rfl
@[simp] theorem startList_phase (k : ListKind) (s : State) : (startList k s).phase = .count := rfl
@[simp] theorem startList_enc (k : ListKind) (s : State) : (startList k s).enc = s.enc := rfl
@[simp] theorem startList_mem (k : ListKind) (s : State) : (startList k s).mem = s.mem := rfl
@[simp] theorem startList_addrW (k : ListKind) (s : State) : (startList k s).addrW = s.addrW := rfl
@[simp] theorem startList_base (k : ListKind) (s : State) : (startList k s).base = s.base := rfl
@[simp] theorem startList_accesses (k : ListKind) (s : State) : (startList k s).accesses = s.accesses := rfl
@[simp] theorem startList_agenda (k : ListKind) (s : State) : (startList k s).agenda = s.agenda := rfl
@[simp] theorem startList_busData (k : ListKind) (s : State) : (startList k s).busData = s.busData := rfl
@[simp] theorem startList_unacquired (k : ListKind) (s : State) : (startList k s).unacquired = s.unacquired := rfl
@[simp] theorem startList_freeCtr (k : ListKind) (s : State) : (startList k s).freeCtr = s.freeCtr := rfl
@[simp] theorem startList_dec_rpos (k : ListKind) (s : State) : (startList k s).dec.rpos = s.dec.rpos := rfl
@[simp] theorem startList_dec_compsizeIn (k : ListKind) (s : State) : (startList k s).dec.compsizeIn = s.dec.compsizeIn := rfl
@[simp] theorem startList_dec_origsize (k : ListKind) (s : State) : (startList k s).dec.origsize = s.dec.origsize := rfl
@[simp] theorem startList_dec_pbit (k : ListKind) (s : State) : (startList k s).dec.pbit = s.dec.pbit := rfl
@[simp] theorem startList_dec_blocksize (k : ListKind) (s : State) : (startList k s).dec.blocksize = s.dec.blocksize := rfl
@[simp] theorem startList_dec_tTab (k : ListKind) (s : State) : (startList k s).dec.tTab = s.dec.tTab := rfl
@[simp] theorem startList_dec_cTab (k : ListKind) (s : State) : (startList k s).dec.cTab = s.dec.cTab := rfl
@[simp] theorem startList_dec_pTab (k : ListKind) (s : State) : (startList k s).dec.pTab = s.dec.pTab := rfl
@[simp] theorem startList_dec_out (k : ListKind) (s : State) : (startList k s).dec.out = s.dec.out := rfl
@[simp] theorem startList_dec_bad (k : ListKind) (s : State) : (startList k s).dec.bad = s.dec.bad := rfl
@[simp] theorem startList_dec_list (k : ListKind) (s : State) : (startList k s).dec.list = k := rfl
@[simp] theorem startList_dec_count (k : ListKind) (s : State) : (startList k s).dec.count = s.dec.count := rfl
@[simp] theorem startList_dec_idx (k : ListKind) (s : State) : (startList k s).dec.idx = s.dec.idx := rfl
@[simp] theorem startList_dec_lens (k : ListKind) (s : State) : (startList k s).dec.lens = s.dec.lens := rfl
@[simp] theorem startList_dec_sym (k : ListKind) (s : State) : (startList k s).dec.sym = s.dec.sym := rfl
@[simp] theorem startList_dec_pval (k : ListKind) (s : State) : (startList k s).dec.pval = s.dec.pval := rfl

/-! ## putLen -/

@[simp] theorem putLen_cmd (k : Nat) (s : State) : (putLen k s).cmd = s.cmd := rfl
@[simp] theorem putLen_status (k : Nat) (s : State) : (putLen k s).status = s.status := rfl
@[simp] theorem putLen_srcAddr (k : Nat) (s : State) : (putLen k s).srcAddr = s.srcAddr := rfl
@[simp] theorem putLen_srcLen (k : Nat) (s : State) : (putLen k s).srcLen = s.srcLen := rfl
@[simp] theorem putLen_dstAddr (k : Nat) (s : State) : (putLen k s).dstAddr = s.dstAddr := rfl
@[simp] theorem putLen_dstLen (k : Nat) (s : State) : (putLen k s).dstLen = s.dstLen := rfl
@[simp] theorem putLen_resultLen (k : Nat) (s : State) : (putLen k s).resultLen = s.resultLen := rfl
@[simp] theorem putLen_phase (k : Nat) (s : State) : (putLen k s).phase = s.phase := rfl
@[simp] theorem putLen_enc (k : Nat) (s : State) : (putLen k s).enc = s.enc := rfl
@[simp] theorem putLen_mem (k : Nat) (s : State) : (putLen k s).mem = s.mem := rfl
@[simp] theorem putLen_addrW (k : Nat) (s : State) : (putLen k s).addrW = s.addrW := rfl
@[simp] theorem putLen_base (k : Nat) (s : State) : (putLen k s).base = s.base := rfl
@[simp] theorem putLen_accesses (k : Nat) (s : State) : (putLen k s).accesses = s.accesses := rfl
@[simp] theorem putLen_agenda (k : Nat) (s : State) : (putLen k s).agenda = s.agenda := rfl
@[simp] theorem putLen_busData (k : Nat) (s : State) : (putLen k s).busData = s.busData := rfl
@[simp] theorem putLen_unacquired (k : Nat) (s : State) : (putLen k s).unacquired = s.unacquired := rfl
@[simp] theorem putLen_freeCtr (k : Nat) (s : State) : (putLen k s).freeCtr = s.freeCtr := rfl
@[simp] theorem putLen_dec_rpos (k : Nat) (s : State) : (putLen k s).dec.rpos = s.dec.rpos := rfl
@[simp] theorem putLen_dec_compsizeIn (k : Nat) (s : State) : (putLen k s).dec.compsizeIn = s.dec.compsizeIn := rfl
@[simp] theorem putLen_dec_origsize (k : Nat) (s : State) : (putLen k s).dec.origsize = s.dec.origsize := rfl
@[simp] theorem putLen_dec_pbit (k : Nat) (s : State) : (putLen k s).dec.pbit = s.dec.pbit := rfl
@[simp] theorem putLen_dec_blocksize (k : Nat) (s : State) : (putLen k s).dec.blocksize = s.dec.blocksize := rfl
@[simp] theorem putLen_dec_tTab (k : Nat) (s : State) : (putLen k s).dec.tTab = s.dec.tTab := rfl
@[simp] theorem putLen_dec_cTab (k : Nat) (s : State) : (putLen k s).dec.cTab = s.dec.cTab := rfl
@[simp] theorem putLen_dec_pTab (k : Nat) (s : State) : (putLen k s).dec.pTab = s.dec.pTab := rfl
@[simp] theorem putLen_dec_out (k : Nat) (s : State) : (putLen k s).dec.out = s.dec.out := rfl
@[simp] theorem putLen_dec_bad (k : Nat) (s : State) : (putLen k s).dec.bad = s.dec.bad := rfl
@[simp] theorem putLen_dec_list (k : Nat) (s : State) : (putLen k s).dec.list = s.dec.list := rfl
@[simp] theorem putLen_dec_count (k : Nat) (s : State) : (putLen k s).dec.count = s.dec.count := rfl
@[simp] theorem putLen_dec_idx (k : Nat) (s : State) : (putLen k s).dec.idx = s.dec.idx + 1 := rfl
@[simp] theorem putLen_dec_lens (k : Nat) (s : State) : (putLen k s).dec.lens = s.dec.lens.set s.dec.idx k := rfl
@[simp] theorem putLen_dec_sym (k : Nat) (s : State) : (putLen k s).dec.sym = s.dec.sym := rfl
@[simp] theorem putLen_dec_pval (k : Nat) (s : State) : (putLen k s).dec.pval = s.dec.pval := rfl

/-! ## awaitPosition -/

@[simp] theorem awaitPosition_cmd (m : BitVec 9) (s : State) : (awaitPosition m s).cmd = s.cmd := rfl
@[simp] theorem awaitPosition_status (m : BitVec 9) (s : State) : (awaitPosition m s).status = s.status := rfl
@[simp] theorem awaitPosition_srcAddr (m : BitVec 9) (s : State) : (awaitPosition m s).srcAddr = s.srcAddr := rfl
@[simp] theorem awaitPosition_srcLen (m : BitVec 9) (s : State) : (awaitPosition m s).srcLen = s.srcLen := rfl
@[simp] theorem awaitPosition_dstAddr (m : BitVec 9) (s : State) : (awaitPosition m s).dstAddr = s.dstAddr := rfl
@[simp] theorem awaitPosition_dstLen (m : BitVec 9) (s : State) : (awaitPosition m s).dstLen = s.dstLen := rfl
@[simp] theorem awaitPosition_resultLen (m : BitVec 9) (s : State) : (awaitPosition m s).resultLen = s.resultLen := rfl
@[simp] theorem awaitPosition_phase (m : BitVec 9) (s : State) : (awaitPosition m s).phase = .pos := rfl
@[simp] theorem awaitPosition_enc (m : BitVec 9) (s : State) : (awaitPosition m s).enc = s.enc := rfl
@[simp] theorem awaitPosition_mem (m : BitVec 9) (s : State) : (awaitPosition m s).mem = s.mem := rfl
@[simp] theorem awaitPosition_addrW (m : BitVec 9) (s : State) : (awaitPosition m s).addrW = s.addrW := rfl
@[simp] theorem awaitPosition_base (m : BitVec 9) (s : State) : (awaitPosition m s).base = s.base := rfl
@[simp] theorem awaitPosition_accesses (m : BitVec 9) (s : State) : (awaitPosition m s).accesses = s.accesses := rfl
@[simp] theorem awaitPosition_agenda (m : BitVec 9) (s : State) : (awaitPosition m s).agenda = s.agenda := rfl
@[simp] theorem awaitPosition_busData (m : BitVec 9) (s : State) : (awaitPosition m s).busData = s.busData := rfl
@[simp] theorem awaitPosition_unacquired (m : BitVec 9) (s : State) : (awaitPosition m s).unacquired = s.unacquired := rfl
@[simp] theorem awaitPosition_freeCtr (m : BitVec 9) (s : State) : (awaitPosition m s).freeCtr = s.freeCtr := rfl
@[simp] theorem awaitPosition_dec_rpos (m : BitVec 9) (s : State) : (awaitPosition m s).dec.rpos = s.dec.rpos := rfl
@[simp] theorem awaitPosition_dec_compsizeIn (m : BitVec 9) (s : State) : (awaitPosition m s).dec.compsizeIn = s.dec.compsizeIn := rfl
@[simp] theorem awaitPosition_dec_origsize (m : BitVec 9) (s : State) : (awaitPosition m s).dec.origsize = s.dec.origsize := rfl
@[simp] theorem awaitPosition_dec_pbit (m : BitVec 9) (s : State) : (awaitPosition m s).dec.pbit = s.dec.pbit := rfl
@[simp] theorem awaitPosition_dec_blocksize (m : BitVec 9) (s : State) : (awaitPosition m s).dec.blocksize = s.dec.blocksize := rfl
@[simp] theorem awaitPosition_dec_tTab (m : BitVec 9) (s : State) : (awaitPosition m s).dec.tTab = s.dec.tTab := rfl
@[simp] theorem awaitPosition_dec_cTab (m : BitVec 9) (s : State) : (awaitPosition m s).dec.cTab = s.dec.cTab := rfl
@[simp] theorem awaitPosition_dec_pTab (m : BitVec 9) (s : State) : (awaitPosition m s).dec.pTab = s.dec.pTab := rfl
@[simp] theorem awaitPosition_dec_out (m : BitVec 9) (s : State) : (awaitPosition m s).dec.out = s.dec.out := rfl
@[simp] theorem awaitPosition_dec_bad (m : BitVec 9) (s : State) : (awaitPosition m s).dec.bad = s.dec.bad := rfl
@[simp] theorem awaitPosition_dec_list (m : BitVec 9) (s : State) : (awaitPosition m s).dec.list = s.dec.list := rfl
@[simp] theorem awaitPosition_dec_count (m : BitVec 9) (s : State) : (awaitPosition m s).dec.count = s.dec.count := rfl
@[simp] theorem awaitPosition_dec_idx (m : BitVec 9) (s : State) : (awaitPosition m s).dec.idx = s.dec.idx := rfl
@[simp] theorem awaitPosition_dec_lens (m : BitVec 9) (s : State) : (awaitPosition m s).dec.lens = s.dec.lens := rfl
@[simp] theorem awaitPosition_dec_sym (m : BitVec 9) (s : State) : (awaitPosition m s).dec.sym = m := rfl
@[simp] theorem awaitPosition_dec_pval (m : BitVec 9) (s : State) : (awaitPosition m s).dec.pval = s.dec.pval := rfl

/-! ## deliver -/

@[simp] theorem deliver_cmd (v : Word64) (s : State) : (deliver v s).cmd = s.cmd := rfl
@[simp] theorem deliver_status (v : Word64) (s : State) : (deliver v s).status = s.status := rfl
@[simp] theorem deliver_srcAddr (v : Word64) (s : State) : (deliver v s).srcAddr = s.srcAddr := rfl
@[simp] theorem deliver_srcLen (v : Word64) (s : State) : (deliver v s).srcLen = s.srcLen := rfl
@[simp] theorem deliver_dstAddr (v : Word64) (s : State) : (deliver v s).dstAddr = s.dstAddr := rfl
@[simp] theorem deliver_dstLen (v : Word64) (s : State) : (deliver v s).dstLen = s.dstLen := rfl
@[simp] theorem deliver_resultLen (v : Word64) (s : State) : (deliver v s).resultLen = s.resultLen := rfl
@[simp] theorem deliver_phase (v : Word64) (s : State) : (deliver v s).phase = s.phase := rfl
@[simp] theorem deliver_enc (v : Word64) (s : State) : (deliver v s).enc = s.enc := rfl
@[simp] theorem deliver_dec (v : Word64) (s : State) : (deliver v s).dec = s.dec := rfl
@[simp] theorem deliver_mem (v : Word64) (s : State) : (deliver v s).mem = s.mem := rfl
@[simp] theorem deliver_addrW (v : Word64) (s : State) : (deliver v s).addrW = s.addrW := rfl
@[simp] theorem deliver_base (v : Word64) (s : State) : (deliver v s).base = s.base := rfl
@[simp] theorem deliver_accesses (v : Word64) (s : State) : (deliver v s).accesses = s.accesses := rfl
@[simp] theorem deliver_agenda (v : Word64) (s : State) : (deliver v s).agenda = s.agenda := rfl
@[simp] theorem deliver_busData (v : Word64) (s : State) : (deliver v s).busData = v := rfl
@[simp] theorem deliver_unacquired (v : Word64) (s : State) : (deliver v s).unacquired = s.unacquired := rfl
@[simp] theorem deliver_freeCtr (v : Word64) (s : State) : (deliver v s).freeCtr = s.freeCtr := rfl

/-! ## placePhase -/

@[simp] theorem placePhase_cmd (p : Phase) (s : State) : (placePhase p s).cmd = s.cmd := rfl
@[simp] theorem placePhase_status (p : Phase) (s : State) : (placePhase p s).status = statusBusy := rfl
@[simp] theorem placePhase_srcAddr (p : Phase) (s : State) : (placePhase p s).srcAddr = s.srcAddr := rfl
@[simp] theorem placePhase_srcLen (p : Phase) (s : State) : (placePhase p s).srcLen = s.srcLen := rfl
@[simp] theorem placePhase_dstAddr (p : Phase) (s : State) : (placePhase p s).dstAddr = s.dstAddr := rfl
@[simp] theorem placePhase_dstLen (p : Phase) (s : State) : (placePhase p s).dstLen = s.dstLen := rfl
@[simp] theorem placePhase_resultLen (p : Phase) (s : State) : (placePhase p s).resultLen = s.resultLen := rfl
@[simp] theorem placePhase_phase (p : Phase) (s : State) : (placePhase p s).phase = p := rfl
@[simp] theorem placePhase_enc (p : Phase) (s : State) : (placePhase p s).enc = s.enc := rfl
@[simp] theorem placePhase_dec (p : Phase) (s : State) : (placePhase p s).dec = s.dec := rfl
@[simp] theorem placePhase_mem (p : Phase) (s : State) : (placePhase p s).mem = s.mem := rfl
@[simp] theorem placePhase_addrW (p : Phase) (s : State) : (placePhase p s).addrW = s.addrW := rfl
@[simp] theorem placePhase_base (p : Phase) (s : State) : (placePhase p s).base = s.base := rfl
@[simp] theorem placePhase_accesses (p : Phase) (s : State) : (placePhase p s).accesses = s.accesses := rfl
@[simp] theorem placePhase_agenda (p : Phase) (s : State) : (placePhase p s).agenda = .engine :: s.agenda := rfl
@[simp] theorem placePhase_busData (p : Phase) (s : State) : (placePhase p s).busData = s.busData := rfl
@[simp] theorem placePhase_unacquired (p : Phase) (s : State) : (placePhase p s).unacquired = s.unacquired := rfl
@[simp] theorem placePhase_freeCtr (p : Phase) (s : State) : (placePhase p s).freeCtr = s.freeCtr := rfl

end Sys2Proof.Machine
end

