-- ==== Sys2Proof/Laws/Ops.lean ====
section
/-!
SUPPORT. One law per shared operation: what it does to host memory and to the rest of the state.
-/

namespace Sys2Proof.Machine

/-! ## STATUS -/

@[simp] theorem busy_statusEnded (s : State) (c : Code) (h : s.status = statusEnded c) : busy s = false := by
  cases c <;> simp [busy, h, statusEnded, codeValue]

@[simp] theorem done_statusEnded (s : State) (c : Code) (h : s.status = statusEnded c) : done s = true := by
  cases c <;> simp [done, h, statusEnded, codeValue]

theorem statusCode_statusEnded (s : State) (c : Code) (h : s.status = statusEnded c) : statusCode s = codeValue c := by
  cases c <;> simp [statusCode, h, statusEnded, codeValue]

theorem busy_statusBusy (s : State) (h : s.status = statusBusy) : busy s = true := by
  simp [busy, h, statusBusy]

theorem ControlInv.busy_iff {s : State} (h : ControlInv s) : busy s = true ↔ s.phase ≠ .idle := by
  unfold ControlInv at h
  by_cases hp : s.phase = .idle
  · rw [if_pos hp] at h
    rcases h with h | ⟨c, -, h⟩
    · simp [busy, h, hp]
    · simp [busy_statusEnded s c h, hp]
  · rw [if_neg hp] at h
    simp [busy_statusBusy s h, hp]

/-! ## Host memory -/

theorem inRange_iff (base n a : Nat) : inRange base n a = true ↔ base ≤ a ∧ a < base + n := by
  simp [inRange]

theorem inRange_eq_false_iff (base n a : Nat) : inRange base n a = false ↔ a < base ∨ base + n ≤ a := by
  simp only [inRange, Bool.and_eq_false_iff, decide_eq_false_iff_not]
  omega

theorem memGet_memSet (s : State) (a b : Nat) (v : Byte) :
    memGet (memSet s a v) b = if b = a then v else memGet s b := sparseGet_set memInit s.mem a b v

@[simp] theorem memGet_memSet_same (s : State) (a : Nat) (v : Byte) : memGet (memSet s a v) a = v := by
  simp [memGet_memSet]

theorem memSet_wf {s : State} (h : Memory.wf s.mem = true) (a : Nat) (v : Byte) :
    Memory.wf (memSet s a v).mem = true := sparseWf_set memInit h a v

theorem memGet_congr {s t : State} (h : t.mem = s.mem) (a : Nat) : memGet t a = memGet s a := by
  simp [memGet, h]

theorem memGet_engineWrite (s : State) (a b : Nat) (v : Byte) :
    memGet (engineWrite a v s) b = if b = a then v else memGet s b := memGet_memSet s a b v

@[simp] theorem memGet_engineReads (s : State) (a k b : Nat) : memGet (engineReads a k s) b = memGet s b := rfl

@[simp] theorem engineReads_zero (a : Nat) (s : State) : engineReads a 0 s = s := rfl

/-- Reading on from where a read has ended. -/
theorem engineReads_add (a k m : Nat) (s : State) :
    engineReads (a + k) m (engineReads a k s) = engineReads a (k + m) s := by
  unfold engineReads
  simp [List.range_add, Nat.add_assoc, memGet]

/-! ## Sequences of accesses -/

theorem addrsFrom_add (a k m : Nat) : addrsFrom a (k + m) = addrsFrom a k ++ addrsFrom (a + k) m := by
  simp [addrsFrom, List.range_add, Nat.add_assoc, Function.comp_def]

@[simp] theorem addrsFrom_zero (a : Nat) : addrsFrom a 0 = [] := rfl

@[simp] theorem addrsFrom_one (a : Nat) : addrsFrom a 1 = [a] := rfl

theorem mem_addrsFrom {a k x : Nat} : x ∈ addrsFrom a k ↔ a ≤ x ∧ x < a + k := by
  simp only [addrsFrom, List.mem_map, List.mem_range]
  constructor
  · rintro ⟨i, hi, rfl⟩
    omega
  · rintro ⟨h1, h2⟩
    exact ⟨x - a, by omega, by omega⟩

theorem lastWritten_append (a : Nat) (l m : List Access) :
    lastWritten a (l ++ m) = (lastWritten a l).or (lastWritten a m) := by
  induction l with
  | nil => rfl
  | cons x l ih =>
    cases x with
    | read b v => exact ih
    | write b v =>
      simp only [List.cons_append, lastWritten]
      split_ifs
      · rfl
      · exact ih

theorem lastWritten_eq_none {a : Nat} {l : List Access} (h : ∀ b, .write a b ∉ l) : lastWritten a l = none := by
  induction l with
  | nil => rfl
  | cons x l ih =>
    have ih := ih fun b hb => h b (List.mem_cons_of_mem _ hb)
    cases x with
    | read b v => exact ih
    | write b v =>
      have hb : b ≠ a := by
        rintro rfl
        exact h v List.mem_cons_self
      simp only [lastWritten, if_neg hb, ih]

theorem StaysInBuffers.nil (s : State) : StaysInBuffers s [] := ⟨by simp, by simp⟩

theorem StaysInBuffers.append {s : State} {l m : List Access} (h : StaysInBuffers s l) (k : StaysInBuffers s m) :
    StaysInBuffers s (l ++ m) := by
  refine ⟨fun a b hab => ?_, fun a b hab => ?_⟩
  · rcases List.mem_append.mp hab with hab | hab
    · exact h.1 a b hab
    · exact k.1 a b hab
  · rcases List.mem_append.mp hab with hab | hab
    · exact h.2 a b hab
    · exact k.2 a b hab

theorem StaysInBuffers.congr {s t : State} {l : List Access} (h : StaysInBuffers s l)
    (e : t.srcAddr = s.srcAddr ∧ t.srcLen = s.srcLen ∧ t.dstAddr = s.dstAddr ∧ t.dstLen = s.dstLen) : StaysInBuffers t l := by
  obtain ⟨e1, e2, e3, e4⟩ := e
  simpa only [StaysInBuffers, inBuffers, e1, e2, e3, e4] using h

/-- Between `s` and `t` the engine has made the accesses `new`, newest first, all inside the buffers, and memory is what they wrote last. -/
structure Accessed (s t : State) (new : List Access) : Prop where
  accesses : t.accesses = new ++ s.accesses
  stays : StaysInBuffers s new
  mem : ∀ a, memGet t a = (lastWritten a new).getD (memGet s a)
  wf : Memory.wf s.mem = true → Memory.wf t.mem = true

theorem Accessed.none {s t : State} (h : t.accesses = s.accesses) (hm : t.mem = s.mem) : Accessed s t [] :=
  ⟨h, StaysInBuffers.nil s, fun a => memGet_congr hm a, fun hw => hm ▸ hw⟩

theorem Accessed.trans {s t u : State} {l m : List Access} (h : Accessed s t l) (k : Accessed t u m)
    (e : t.srcAddr = s.srcAddr ∧ t.srcLen = s.srcLen ∧ t.dstAddr = s.dstAddr ∧ t.dstLen = s.dstLen) : Accessed s u (m ++ l) := by
  refine ⟨?_, ?_, fun a => ?_, k.wf ∘ h.wf⟩
  · rw [k.accesses, h.accesses, List.append_assoc]
  · exact (k.stays.congr ⟨e.1.symm, e.2.1.symm, e.2.2.1.symm, e.2.2.2.symm⟩).append h.stays
  · rw [k.mem, h.mem, lastWritten_append]
    cases lastWritten a m <;> rfl

/-- No access writes outside the destination, so no byte there changes (R80, R90). -/
theorem Accessed.outside {s t : State} {new : List Access} (h : Accessed s t new) {a : Nat}
    (ha : inRange s.dstAddr.toNat s.dstLen.toNat a = false) : memGet t a = memGet s a := by
  rw [h.mem, lastWritten_eq_none]
  · rfl
  · intro b hb
    rw [h.stays.2 a b hb] at ha
    cases ha

/-- Reads of bytes of the buffers. -/
theorem engineReads_accessed (s : State) {a k : Nat} (h : ∀ x, a ≤ x → x < a + k → inBuffers s x = true) :
    ∃ new, Accessed s (engineReads a k s) new ∧ (new.filterMap readAddr).reverse = addrsFrom a k ∧
      new.filterMap writeAddr = [] := by
  refine ⟨_, ⟨rfl, ⟨fun x b hx => ?_, fun x b hx => ?_⟩, fun x => ?_, id⟩, ?_, ?_⟩
  · simp only [List.mem_reverse, List.mem_map, List.mem_range, Access.read.injEq] at hx
    obtain ⟨i, hi, rfl, -⟩ := hx
    exact h _ (by omega) (by omega)
  · simp at hx
  · rw [lastWritten_eq_none]
    · rfl
    · intro b hb
      simp at hb
  · rw [List.filterMap_reverse, List.reverse_reverse, List.filterMap_map]
    exact congrFun (List.filterMap_eq_map (f := (a + ·))) (List.range k)
  · rw [List.filterMap_reverse, List.filterMap_map, List.reverse_eq_nil_iff]
    exact List.filterMap_eq_nil_iff.mpr fun _ _ => rfl

/-- A write of a byte of the destination. -/
theorem engineWrite_accessed (s : State) {i : Nat} (b : Byte) (h : i < s.dstLen.toNat) :
    Accessed s (engineWrite (dstAt s i) b s) [.write (dstAt s i) b] := by
  refine ⟨rfl, ⟨by simp, fun x v hx => ?_⟩, fun x => ?_, fun hw => memSet_wf hw _ _⟩
  · simp only [List.mem_singleton, Access.write.injEq] at hx
    rw [hx.1, inRange_iff]
    simp only [dstAt]
    omega
  · rw [memGet_engineWrite]
    simp only [lastWritten]
    by_cases hx : x = dstAt s i
    · rw [if_pos hx, if_pos hx.symm]
      rfl
    · rw [if_neg hx, if_neg (Ne.symm hx)]
      rfl

/-! ## Writes to the destination -/

theorem dstPut_eq_some {s t : State} {i : Nat} {b : Byte} (h : dstPut s i b = some t) :
    dstAt s i < 2 ^ s.addrW.val ∧ t = engineWrite (dstAt s i) b s := by
  simp only [dstPut, inSpace, decide_eq_true_eq, Option.ite_none_right_eq_some, Option.some.injEq] at h
  exact ⟨h.1, h.2.symm⟩

theorem dstPut_of_lt {s : State} {i : Nat} (b : Byte) (h : dstAt s i < 2 ^ s.addrW.val) :
    dstPut s i b = some (engineWrite (dstAt s i) b s) := by
  simp [dstPut, inSpace, h]

/-- What COMPRESS's capped write can do: nothing, or one byte of the destination. -/
theorem dstPutCapped_cases (s : State) (i : Nat) (b : Byte) :
    (s.dstLen.toNat ≤ i ∧ dstPutCapped s i b = s) ∨
    (i < s.dstLen.toNat ∧ dstPutCapped s i b = engineWrite (dstAt s i) b s) := by
  unfold dstPutCapped
  by_cases h : i < s.dstLen.toNat
  · exact .inr ⟨h, by simp [h]⟩
  · exact .inl ⟨by omega, by simp [h]⟩

/-- `t` is `s` after writes to the destination buffer, and no reads (R80, R90). -/
structure WritesDst (s t : State) : Prop where
  rest : t = { s with mem := t.mem, accesses := t.accesses }
  traced : ∃ new, Accessed s t new ∧ new.filterMap readAddr = []

theorem WritesDst.outside {s t : State} (h : WritesDst s t) {a : Nat}
    (ha : inRange s.dstAddr.toNat s.dstLen.toNat a = false) : memGet t a = memGet s a := by
  obtain ⟨new, h, -⟩ := h.traced
  exact h.outside ha

theorem WritesDst.wf {s t : State} (h : WritesDst s t) : Memory.wf s.mem = true → Memory.wf t.mem = true := by
  obtain ⟨new, h, -⟩ := h.traced
  exact h.wf

theorem WritesDst.refl (s : State) : WritesDst s s := ⟨rfl, [], Accessed.none rfl rfl, rfl⟩

theorem WritesDst.buffers {s t : State} (h : WritesDst s t) :
    t.srcAddr = s.srcAddr ∧ t.srcLen = s.srcLen ∧ t.dstAddr = s.dstAddr ∧ t.dstLen = s.dstLen := by
  rw [h.rest]
  exact ⟨rfl, rfl, rfl, rfl⟩

theorem WritesDst.trans {s t u : State} (h : WritesDst s t) (k : WritesDst t u) : WritesDst s u := by
  obtain ⟨l, hl, hl'⟩ := h.traced
  obtain ⟨m, hm, hm'⟩ := k.traced
  refine ⟨?_, m ++ l, hl.trans hm h.buffers, ?_⟩
  · rw [k.rest, h.rest]
  · rw [List.filterMap_append, hl', hm']
    rfl

theorem dstPutCapped_writesDst (s : State) (i : Nat) (b : Byte) : WritesDst s (dstPutCapped s i b) := by
  rcases dstPutCapped_cases s i b with ⟨-, h⟩ | ⟨h, h'⟩
  · rw [h]
    exact WritesDst.refl s
  · rw [h']
    exact ⟨rfl, _, engineWrite_accessed s b h, rfl⟩

theorem foldl_writesDst {β : Type} (f : State → β → State) (hf : ∀ s b, WritesDst s (f s b)) (l : List β) (s : State) :
    WritesDst s (l.foldl f s) := by
  induction l generalizing s with
  | nil => exact WritesDst.refl s
  | cons b l ih => exact (hf s b).trans (ih _)

theorem writeHeader_writesDst (s : State) : WritesDst s (writeHeader s) := by
  unfold writeHeader
  exact (foldl_writesDst _ (fun s i => dstPutCapped_writesDst s i _) _ s).trans
    (foldl_writesDst _ (fun s i => dstPutCapped_writesDst s (4 + i) _) _ _)

theorem headerPlaceholder_writesDst (s : State) : WritesDst s (headerPlaceholder s) :=
  foldl_writesDst _ (fun s i => dstPutCapped_writesDst s i _) _ s

/-! ## The draws after BUFFER_TOO_SMALL -/

/-- The draws change the destination bytes below `n`, and count the free values used; they are no accesses. -/
theorem drawDst_spec (n : Nat) (s : State) (hn : n ≤ s.dstLen.toNat) :
    drawDst n s = { s with mem := (drawDst n s).mem, freeCtr := s.freeCtr + n } ∧
    (∀ a, inRange s.dstAddr.toNat s.dstLen.toNat a = false → memGet (drawDst n s) a = memGet s a) ∧
    (Memory.wf s.mem = true → Memory.wf (drawDst n s).mem = true) := by
  induction n with
  | zero => exact ⟨rfl, fun _ _ => rfl, id⟩
  | succ n ih =>
    obtain ⟨h1, h2, h3⟩ := ih (by omega)
    have hd : dstAt (drawFree (drawDst n s)).2 n = dstAt s n := by
      simp only [dstAt, drawFree_dstAddr]
      rw [h1]
    have e : drawDst (n + 1) s
        = memSet (drawFree (drawDst n s)).2 (dstAt s n) ((drawFree (drawDst n s)).1.setWidth 8) := by
      rw [← hd]
      rfl
    refine ⟨?_, ?_, ?_⟩
    · rw [e]
      conv_lhs => rw [memSet, drawFree, h1]
      have hf : (drawDst n s).freeCtr = s.freeCtr + n := by rw [h1]
      simp [memSet, drawFree, hf, Nat.add_assoc]
    · intro a ha
      rw [e, memGet_memSet, if_neg]
      · exact h2 a ha
      · rintro rfl
        simp [inRange, dstAt] at ha
        omega
    · intro hw
      rw [e]
      exact memSet_wf (h3 hw) _ _

/-! ## Fetching -/

@[simp] theorem peekBits_length (s : State) (n : Nat) : (peekBits s n).length = n := by
  have h : ∀ n k, (bitsFrom s n k).length = n := by
    intro n
    induction n with
    | zero => intro k; rfl
    | succ n ih => intro k; simp [bitsFrom, ih]
  exact h n _

end Sys2Proof.Machine
end

