-- ==== Sys2Proof/Laws/BitWriter.lean ====
section
/-!
SUPPORT. The bit writer: one law says everything PutBits can change.
-/

namespace Sys2Proof.Machine

/-- `t` is `s` after bits have been put: only the bit writer's three fields and the destination buffer differ. -/
structure PutsBits (s t : State) : Prop where
  enc : t.enc = { s.enc with subbitbuf := t.enc.subbitbuf, bitcount := t.enc.bitcount, compsize := t.enc.compsize }
  writes : WritesDst { s with enc := t.enc } t

theorem PutsBits.refl (s : State) : PutsBits s s := ⟨rfl, WritesDst.refl s⟩

/-- Writes to the destination do not depend on the encoder's state. -/
theorem WritesDst.setEnc {s t : State} (h : WritesDst s t) (e : Enc) : WritesDst { s with enc := e } { t with enc := e } := by
  obtain ⟨new, hn, hr⟩ := h.traced
  refine ⟨?_, new, ⟨hn.accesses, hn.stays.congr ⟨rfl, rfl, rfl, rfl⟩, hn.mem, hn.wf⟩, hr⟩
  conv_lhs => rw [h.rest]

theorem PutsBits.trans {s t u : State} (h : PutsBits s t) (k : PutsBits t u) : PutsBits s u := by
  refine ⟨by rw [k.enc, h.enc], ?_⟩
  exact (h.writes.setEnc u.enc).trans k.writes

theorem emitByte_putsBits (x : Byte) (s : State) : PutsBits s (emitByte x s) := by
  unfold emitByte
  have h := dstPutCapped_writesDst s (8 + s.enc.compsize) x
  generalize dstPutCapped s (8 + s.enc.compsize) x = t at h ⊢
  have he : t.enc = s.enc := by rw [h.rest]
  exact ⟨by simp only [he], h.setEnc _⟩

theorem setWriter_putsBits (s : State) (b : Byte) (n : Nat) :
    PutsBits s { s with enc := { s.enc with subbitbuf := b, bitcount := n } } := ⟨rfl, WritesDst.refl _⟩

theorem putBit_putsBits (b : Bool) (s : State) : PutsBits s (putBit b s) := by
  by_cases hb : s.enc.bitcount - 1 = 0
  · simp only [putBit, hb, if_true]
    exact (emitByte_putsBits _ s).trans (setWriter_putsBits _ _ _)
  · simp only [putBit, hb, if_false]
    exact setWriter_putsBits _ _ _

theorem putBits_putsBits (n v : Nat) (s : State) : PutsBits s (putBits n v s) := by
  unfold putBits
  generalize natToBits n v = bs
  induction bs generalizing s with
  | nil => exact PutsBits.refl s
  | cons b bs ih => exact (putBit_putsBits b s).trans (ih _)

theorem putFields_putsBits (fs : List Field) (s : State) : PutsBits s (putFields fs s) := by
  unfold putFields
  induction fs generalizing s with
  | nil => exact PutsBits.refl s
  | cons f fs ih => exact (putBits_putsBits f.1 f.2 s).trans (ih _)

theorem flushBits_putsBits (s : State) : PutsBits s (flushBits s) := putBits_putsBits 7 0 s

end Sys2Proof.Machine
end

