-- ==== Sys2Proof/Laws/Encoder.lean ====
section
/-!
SUPPORT. The encoder's operations: each changes only the encoder's state and the destination bytes, and which operations leave the token buffer alone.
-/

namespace Sys2Proof.Machine

/-- `t` is `s` but for the encoder's state and the destination buffer (R80, R90), and the engine has read the source bytes from the old `srcpos` up to
the new one, in increasing address order, each once (R89). -/
structure Encodes (s t : State) : Prop where
  rest : t = { s with enc := t.enc, mem := t.mem, accesses := t.accesses }
  traced : ∃ new k, Accessed s t new ∧ t.enc.srcpos = s.enc.srcpos + k ∧ (k = 0 ∨ s.enc.srcpos + k ≤ s.srcLen.toNat) ∧
    (new.filterMap readAddr).reverse = addrsFrom (s.srcAddr.toNat + s.enc.srcpos) k

theorem Encodes.outside {s t : State} (h : Encodes s t) {a : Nat}
    (ha : inRange s.dstAddr.toNat s.dstLen.toNat a = false) : memGet t a = memGet s a := by
  obtain ⟨new, k, h, -⟩ := h.traced
  exact h.outside ha

theorem Encodes.wf {s t : State} (h : Encodes s t) : Memory.wf s.mem = true → Memory.wf t.mem = true := by
  obtain ⟨new, k, h, -⟩ := h.traced
  exact h.wf

theorem Encodes.buffers {s t : State} (h : Encodes s t) :
    t.srcAddr = s.srcAddr ∧ t.srcLen = s.srcLen ∧ t.dstAddr = s.dstAddr ∧ t.dstLen = s.dstLen := by
  rw [h.rest]
  exact ⟨rfl, rfl, rfl, rfl⟩

theorem Encodes.trans {s t u : State} (h : Encodes s t) (k : Encodes t u) : Encodes s u := by
  obtain ⟨l, m, hl, h1, h2, h3⟩ := h.traced
  obtain ⟨l', m', hl', k1, k2, k3⟩ := k.traced
  have hb := h.buffers
  rw [hb.1, h1] at k3
  rw [hb.2.1, h1] at k2
  refine ⟨?_, l' ++ l, m + m', hl.trans hl' hb, by omega, by omega, ?_⟩
  · rw [k.rest, h.rest]
  · rw [List.filterMap_append, List.reverse_append, h3, k3, addrsFrom_add, Nat.add_assoc]

/-- A change of the encoder's state that consumes no source byte. -/
theorem encodes_setEnc (s : State) (e : Enc) (h : e.srcpos = s.enc.srcpos) : Encodes s { s with enc := e } :=
  ⟨rfl, [], 0, Accessed.none rfl rfl, h, .inl rfl, rfl⟩

theorem Encodes.refl (s : State) : Encodes s s := encodes_setEnc s s.enc rfl

/-- Writes to the destination beside such a change. -/
theorem WritesDst.encodes {s t : State} (h : WritesDst { s with enc := t.enc } t) (he : t.enc.srcpos = s.enc.srcpos) : Encodes s t := by
  obtain ⟨new, hn, hr⟩ := h.traced
  exact ⟨h.rest, new, 0, ⟨hn.accesses, hn.stays.congr ⟨rfl, rfl, rfl, rfl⟩, hn.mem, hn.wf⟩, he, .inl rfl, by rw [hr]; rfl⟩

theorem PutsBits.encodes {s t : State} (h : PutsBits s t) : Encodes s t := h.writes.encodes (by rw [h.enc])

theorem withFinder_encodes (s : State) (f : Finder) : Encodes s (withFinder s f) := encodes_setEnc s _ rfl

theorem readInput_encodes (d n : Nat) (s : State) : Encodes s (readInput d n s).2 := by
  obtain ⟨k, hk⟩ : ∃ k, k = min n (s.srcLen.toNat - s.enc.srcpos) := ⟨_, rfl⟩
  obtain ⟨new, hn, hr, -⟩ := engineReads_accessed s (a := s.srcAddr.toNat + s.enc.srcpos) (k := k) fun x h1 h2 => by
    simp only [inBuffers, Bool.or_eq_true, inRange_iff]
    omega
  refine ⟨rfl, new, k, ⟨?_, hn.stays, hn.mem, hn.wf⟩, ?_, by omega, hr⟩
  · rw [hk] at hn
    exact hn.accesses
  · rw [hk]
    rfl

theorem capMatch_encodes (s : State) : Encodes s (capMatch s) := encodes_setEnc s _ rfl

theorem refill_encodes (s : State) : Encodes s (refill s) :=
  (withFinder_encodes s _).trans ((readInput_encodes _ _ _).trans (withFinder_encodes _ _))

/-- The fields of a table: only the code tables and the builder's scratch change. -/
theorem buildC_spec (e : Enc) : (buildC e).2 = { e with
    cfreq := (buildC e).2.cfreq, clen := (buildC e).2.clen, ccode := (buildC e).2.ccode, huff := (buildC e).2.huff } := by
  obtain ⟨t, ht⟩ : ∃ t : TreeOut Config.cfreqSize Config.NC, buildC e
      = (t.root, { e with cfreq := t.freq, clen := t.len, ccode := t.code, huff := t.huff }) :=
    ⟨makeTree Config.NC e.cfreq e.clen e.ccode e.huff, by simp only [buildC]⟩
  rw [ht]

theorem buildT_spec (e : Enc) : (buildT e).2 = { e with
    tfreq := (buildT e).2.tfreq, ptlen := (buildT e).2.ptlen, ptcode := (buildT e).2.ptcode, huff := (buildT e).2.huff } := by
  obtain ⟨t, ht⟩ : ∃ t : TreeOut Config.tfreqSize Config.NPT, buildT e
      = (t.root, { e with tfreq := t.freq, ptlen := t.len, ptcode := t.code, huff := t.huff }) :=
    ⟨makeTree Config.NT e.tfreq e.ptlen e.ptcode e.huff, by simp only [buildT]⟩
  rw [ht]

theorem buildP_spec (e : Enc) : (buildP e).2 = { e with
    pfreq := (buildP e).2.pfreq, ptlen := (buildP e).2.ptlen, ptcode := (buildP e).2.ptcode, huff := (buildP e).2.huff } := by
  obtain ⟨t, ht⟩ : ∃ t : TreeOut Config.pfreqSize Config.NPT, buildP e
      = (t.root, { e with pfreq := t.freq, ptlen := t.len, ptcode := t.code, huff := t.huff }) :=
    ⟨makeTree Config.NP e.pfreq e.ptlen e.ptcode e.huff, by simp only [buildP]⟩
  rw [ht]

/-- Two encoder states that differ in nothing but frequencies, code tables and the builder's scratch. -/
def SameButTables (e e' : Enc) : Prop := e' = { e with
  cfreq := e'.cfreq, pfreq := e'.pfreq, tfreq := e'.tfreq, clen := e'.clen, ccode := e'.ccode, ptlen := e'.ptlen
  ptcode := e'.ptcode, huff := e'.huff }

theorem SameButTables.trans {e f g : Enc} (h : SameButTables e f) (k : SameButTables f g) : SameButTables e g := by
  unfold SameButTables at *
  rw [k, h]

theorem sendRegularC_spec (e : Enc) : SameButTables e (sendRegularC e).2 := by
  have h : (sendRegularC e).2 = (buildT (countTFreq e)).2 := by
    unfold sendRegularC
    rfl
  have h1 : SameButTables e (countTFreq e) := rfl
  have h2 : SameButTables (countTFreq e) (buildT (countTFreq e)).2 := by
    unfold SameButTables
    rw [buildT_spec]
  rw [h]
  exact h1.trans h2

/-- Sending a block changes nothing but the frequencies, the code tables and the builder's scratch, and puts the block's fields. -/
theorem blockFields_spec (e : Enc) : SameButTables e (blockFields e).2 := by
  have h : ∃ e1, SameButTables e e1 ∧ SameButTables (buildP e1).2 (blockFields e).2 := by
    have hc : SameButTables e (buildC e).2 := by
      unfold SameButTables
      rw [buildC_spec]
    by_cases hr : Config.NC ≤ (buildC e).1
    · refine ⟨(sendRegularC (buildC e).2).2, hc.trans (sendRegularC_spec _), ?_⟩
      have e2 : (blockFields e).2 = { (buildP (sendRegularC (buildC e).2).2).2 with
          cfreq := arrClearBelow Config.NC (buildP (sendRegularC (buildC e).2).2).2.cfreq
          pfreq := arrClearBelow Config.NP (buildP (sendRegularC (buildC e).2).2).2.pfreq } := by
        simp only [blockFields, if_pos hr, sendP]
      rw [e2]
      generalize (buildP (sendRegularC (buildC e).2).2).2 = y
      rfl
    · refine ⟨(buildC e).2, hc, ?_⟩
      have e2 : (blockFields e).2 = { (buildP (buildC e).2).2 with
          cfreq := arrClearBelow Config.NC (buildP (buildC e).2).2.cfreq
          pfreq := arrClearBelow Config.NP (buildP (buildC e).2).2.pfreq } := by
        simp only [blockFields, if_neg hr, sendP]
      rw [e2]
      generalize (buildP (buildC e).2).2 = y
      rfl
  obtain ⟨e1, h1, h2⟩ := h
  refine h1.trans (SameButTables.trans ?_ h2)
  unfold SameButTables
  rw [buildP_spec]

theorem sendBlock_eq (s : State) :
    sendBlock s = putFields (blockFields s.enc).1 { s with enc := (blockFields s.enc).2 } := by
  simp only [sendBlock]

theorem sendBlock_encodes (s : State) : Encodes s (sendBlock s) := by
  rw [sendBlock_eq]
  have h := blockFields_spec s.enc
  generalize blockFields s.enc = x at h ⊢
  refine (encodes_setEnc s x.2 ?_).trans (putFields_putsBits _ _).encodes
  rw [h]

/-- Sending a block leaves the window, the token buffer and the counts of source bytes alone. -/
theorem sendBlock_spec (s : State) :
    (sendBlock s).enc.finder = s.enc.finder ∧ (sendBlock s).enc.srcpos = s.enc.srcpos ∧
    (sendBlock s).enc.origsize = s.enc.origsize ∧ (sendBlock s).enc.buf = s.enc.buf ∧
    (sendBlock s).enc.outputpos = s.enc.outputpos ∧ (sendBlock s).enc.outputmask = s.enc.outputmask ∧
    (sendBlock s).enc.cpos = s.enc.cpos := by
  rw [sendBlock_eq]
  have h := blockFields_spec s.enc
  generalize blockFields s.enc = x at h ⊢
  have hp := (putFields_putsBits x.1 { s with enc := x.2 }).enc
  rw [hp]
  unfold SameButTables at h
  rw [h]
  exact ⟨rfl, rfl, rfl, rfl, rfl, rfl, rfl⟩

/-- Refilling the window changes only the match finder, the source cursor, the count of source bytes and the accesses. -/
theorem refill_rest (s : State) : refill s = { s with
    enc := { s.enc with
      finder := (refill s).enc.finder, srcpos := (refill s).enc.srcpos, origsize := (refill s).enc.origsize }
    accesses := (refill s).accesses } := rfl

/-- What GetNextMatch does: one byte on, a refill at the window's end, DeleteNode and InsertNode. -/
theorem getNextMatch_cases {s t : State} (h : getNextMatch s = some t) :
    ∃ u f g, u = withFinder s { s.enc.finder with remainder := s.enc.finder.remainder - 1, pos := s.enc.finder.pos + 1 } ∧
      deleteNode (if u.enc.finder.pos = 2 * Config.W then refill u else u).enc.finder = some f ∧ insertNode f = some g ∧
      t = withFinder (if u.enc.finder.pos = 2 * Config.W then refill u else u) g := by
  unfold getNextMatch at h
  simp only at h
  generalize withFinder s { s.enc.finder with remainder := s.enc.finder.remainder - 1, pos := s.enc.finder.pos + 1 } = u at h ⊢
  cases hd : deleteNode (if u.enc.finder.pos = 2 * Config.W then refill u else u).enc.finder with
  | none => simp [hd] at h
  | some f =>
    simp only [hd, Option.map_eq_some_iff] at h
    obtain ⟨g, hg, rfl⟩ := h
    exact ⟨u, f, g, rfl, hd, hg, rfl⟩

/-- GetNextMatch changes only the match finder, the source cursor, the count of source bytes and the accesses. -/
theorem getNextMatch_spec {s t : State} (h : getNextMatch s = some t) :
    t = { s with
      enc := { s.enc with finder := t.enc.finder, srcpos := t.enc.srcpos, origsize := t.enc.origsize }
      accesses := t.accesses } := by
  obtain ⟨u, f, g, rfl, -, -, rfl⟩ := getNextMatch_cases h
  split_ifs <;> rfl

theorem getNextMatches_spec {k : Nat} {s t : State} (h : getNextMatches k s = some t) :
    t = { s with
      enc := { s.enc with finder := t.enc.finder, srcpos := t.enc.srcpos, origsize := t.enc.origsize }
      accesses := t.accesses } := by
  induction k generalizing s with
  | zero =>
    cases h
    rfl
  | succ k ih =>
    cases hg : getNextMatch s with
    | none => simp [getNextMatches, hg] at h
    | some u =>
      simp only [getNextMatches, hg] at h
      rw [ih h]
      conv_lhs => rw [getNextMatch_spec hg]

theorem getNextMatch_encodes {s t : State} (h : getNextMatch s = some t) : Encodes s t := by
  obtain ⟨u, f, g, rfl, -, -, rfl⟩ := getNextMatch_cases h
  have h1 := withFinder_encodes s { s.enc.finder with remainder := s.enc.finder.remainder - 1, pos := s.enc.finder.pos + 1 }
  split_ifs
  · exact h1.trans ((refill_encodes _).trans (withFinder_encodes _ g))
  · exact h1.trans (withFinder_encodes _ g)

theorem getNextMatches_encodes {k : Nat} {s t : State} (h : getNextMatches k s = some t) : Encodes s t := by
  induction k generalizing s with
  | zero =>
    cases h
    exact Encodes.refl _
  | succ k ih =>
    cases hg : getNextMatch s with
    | none => simp [getNextMatches, hg] at h
    | some u =>
      simp only [getNextMatches, hg] at h
      exact (getNextMatch_encodes hg).trans (ih h)

/-! ## Output -/

/-- Output opens a group when the mask runs out, after sending the block when the buffer is near its capacity (R257). -/
theorem output_cases (c p : Nat) (s : State) :
    (s.enc.outputmask >>> 1 ≠ 0#8 ∧ output c p s
      = { s with enc := storeToken c p { s.enc with outputmask := s.enc.outputmask >>> 1 } }) ∨
    (s.enc.outputmask >>> 1 = 0#8 ∧ s.enc.outputpos < Config.bufSize - Config.flushMargin ∧ output c p s
      = { s with enc := storeToken c p (openGroup { s.enc with outputmask := 0x80#8 }) }) ∨
    (s.enc.outputmask >>> 1 = 0#8 ∧ Config.bufSize - Config.flushMargin ≤ s.enc.outputpos ∧
      ∃ u, u = sendBlock { s with enc := { s.enc with outputmask := 0x80#8 } } ∧ output c p s
        = { u with enc := storeToken c p (openGroup { u.enc with outputpos := 0 }) }) := by
  unfold output
  by_cases hm : s.enc.outputmask >>> 1 = 0#8
  · by_cases hp : Config.bufSize - Config.flushMargin ≤ s.enc.outputpos
    · refine .inr (.inr ⟨hm, hp, _, rfl, ?_⟩)
      simp only [hm, if_true, hp]
    · refine .inr (.inl ⟨hm, by omega, ?_⟩)
      simp only [hm, if_true, hp, if_false]
  · refine .inl ⟨hm, ?_⟩
    simp only [hm, if_false]

theorem storeToken_srcpos (c p : Nat) (e : Enc) : (storeToken c p e).srcpos = e.srcpos := by
  by_cases h : 256 ≤ c <;> simp [storeToken, h, pushBuf, setBuf]

theorem output_encodes (c p : Nat) (s : State) : Encodes s (output c p s) := by
  rcases output_cases c p s with ⟨-, h⟩ | ⟨-, -, h⟩ | ⟨-, -, u, hu, h⟩
  · rw [h]
    exact encodes_setEnc s _ (storeToken_srcpos c p _)
  · rw [h]
    exact encodes_setEnc s _ (storeToken_srcpos c p _)
  · rw [h]
    have h1 : Encodes s u := by
      rw [hu]
      exact (encodes_setEnc s _ (by rfl)).trans (sendBlock_encodes _)
    exact h1.trans (encodes_setEnc u _ (storeToken_srcpos c p _))

/-- A token takes one byte, or five when it is a match (R256). -/
theorem storeToken_outputpos (c p : Nat) (e : Enc) :
    (storeToken c p e).outputpos = e.outputpos + (if 256 ≤ c then 5 else 1) ∧
    (storeToken c p e).outputmask = e.outputmask := by
  by_cases h : 256 ≤ c <;> simp [storeToken, h, pushBuf, setBuf]

/-! ## The steps of COMPRESS -/

theorem matchLoopStart_encodes {s t : State} (h : matchLoopStart s = some t) : Encodes s t := by
  unfold matchLoopStart at h
  simp only [Option.map_eq_some_iff] at h
  obtain ⟨f, -, rfl⟩ := h
  exact (readInput_encodes _ _ s).trans ((withFinder_encodes _ _).trans ((withFinder_encodes _ _).trans (capMatch_encodes _)))

/-- One iteration of MatchLoop: GetNextMatch, then a literal, or a match and the steps over its bytes. -/
theorem matchLoopTurn_cases {s t : State} (h : matchLoopTurn s = some t) :
    ∃ u, getNextMatch s = some u ∧ ∃ c p, (t = output c p (capMatch u) ∨
      ∃ k v, getNextMatches k (output c p (capMatch u)) = some v ∧ t = capMatch v) := by
  unfold matchLoopTurn at h
  cases hg : getNextMatch s with
  | none => simp [hg] at h
  | some u =>
    simp only [hg] at h
    refine ⟨u, rfl, ?_⟩
    split_ifs at h
    · cases h
      exact ⟨_, _, .inl rfl⟩
    · rw [Option.map_eq_some_iff] at h
      obtain ⟨v, hv, rfl⟩ := h
      exact ⟨_, _, .inr ⟨_, v, hv, rfl⟩⟩

theorem matchLoopTurn_encodes {s t : State} (h : matchLoopTurn s = some t) : Encodes s t := by
  obtain ⟨u, hu, c, p, rfl | ⟨k, v, hv, rfl⟩⟩ := matchLoopTurn_cases h
  · exact (getNextMatch_encodes hu).trans ((capMatch_encodes u).trans (output_encodes c p _))
  · exact (getNextMatch_encodes hu).trans ((capMatch_encodes u).trans ((output_encodes c p _).trans
      ((getNextMatches_encodes hv).trans (capMatch_encodes v))))

theorem hufEncodeEnd_encodes (s : State) : Encodes s (hufEncodeEnd s) := by
  have e : hufEncodeEnd s
      = dstPutCapped (flushBits (sendBlock s)) (8 + (flushBits (sendBlock s)).enc.compsize) 0#8 := by
    simp only [hufEncodeEnd]
  rw [e]
  have h := (sendBlock_encodes s).trans (flushBits_putsBits (sendBlock s)).encodes
  generalize flushBits (sendBlock s) = t at h ⊢
  have h1 := dstPutCapped_writesDst t (8 + t.enc.compsize) 0#8
  have he : (dstPutCapped t (8 + t.enc.compsize) 0#8).enc = t.enc := by rw [h1.rest]
  exact h.trans (WritesDst.encodes (by rw [he]; exact h1) (by rw [he]))

end Sys2Proof.Machine
end

