-- ==== Sys2Proof/Laws/Stream.lean ====
section
/-!
SUPPORT. The decoder's shared operations: what reading bits, running zeros, ending a list, copying a match and ending a symbol can do.
-/

namespace Sys2Proof.Machine

/-! ## Reading bits -/

theorem bitsFrom_succ (s : State) (n k : Nat) : bitsFrom s (n + 1) k = bitsFrom s n k ++ [inBit s (k + n)] := by
  induction n generalizing k with
  | zero => simp [bitsFrom]
  | succ n ih => rw [bitsFrom, ih, bitsFrom]; simp [Nat.add_comm, Nat.add_left_comm]

theorem bitsFrom_add (s : State) (m n k : Nat) : bitsFrom s (m + n) k = bitsFrom s m k ++ bitsFrom s n (k + m) := by
  induction m generalizing k with
  | zero => simp [bitsFrom]
  | succ m ih =>
    rw [Nat.succ_add, bitsFrom, ih, bitsFrom, List.cons_append, Nat.add_assoc, Nat.add_comm 1 m]

@[simp] theorem bitsFrom_length (s : State) (n k : Nat) : (bitsFrom s n k).length = n := by
  induction n generalizing k with
  | zero => rfl
  | succ n ih => simp [bitsFrom, ih]

/-- The bits read depend on the source bytes, the stream's length and nothing else. -/
theorem inBit_congr {s t : State} (hc : t.dec.compsizeIn = s.dec.compsizeIn) (k : Nat)
    (h : k / 8 < s.dec.compsizeIn → srcGet t (8 + k / 8) = srcGet s (8 + k / 8)) : inBit t k = inBit s k := by
  unfold inBit
  rw [hc]
  by_cases hk : k / 8 < s.dec.compsizeIn
  · rw [if_pos hk, if_pos hk, h hk]
  · rw [if_neg hk, if_neg hk]

/-- Reading bits records the stream bytes they reach into, and moves the cursor (R167, R89). -/
theorem skipBits_rest (n : Nat) (s : State) : skipBits n s = { s with
    dec := { s.dec with rpos := s.dec.rpos + n }, accesses := (skipBits n s).accesses } := rfl

theorem bytesReached_mono (d : Dec) {r r' : Nat} (h : r ≤ r') : bytesReached d r ≤ bytesReached d r' := by
  unfold bytesReached
  omega

@[simp] theorem skipBits_zero (s : State) : skipBits 0 s = s := by
  simp [skipBits]

theorem skipBits_eq {n k : Nat} {s : State} (h : bytesReached s.dec (s.dec.rpos + n) = bytesReached s.dec s.dec.rpos + k) :
    skipBits n s = { engineReads (s.srcAddr.toNat + 8 + bytesReached s.dec s.dec.rpos) k s with
      dec := { s.dec with rpos := s.dec.rpos + n } } := by
  have hk : k = bytesReached s.dec (s.dec.rpos + n) - bytesReached s.dec s.dec.rpos := by omega
  subst hk
  rfl

/-- The bytes read up to one cursor and from there up to the next are those up to the next. -/
theorem skipBits_add (m n : Nat) (s : State) : skipBits n (skipBits m s) = skipBits (m + n) s := by
  obtain ⟨a, ha⟩ := Nat.exists_eq_add_of_le (bytesReached_mono s.dec (Nat.le_add_right s.dec.rpos m))
  obtain ⟨b, hb⟩ := Nat.exists_eq_add_of_le (bytesReached_mono s.dec (Nat.le_add_right (s.dec.rpos + m) n))
  have hab : bytesReached s.dec (s.dec.rpos + (m + n)) = bytesReached s.dec s.dec.rpos + (a + b) := by
    rw [← Nat.add_assoc, hb, ha, Nat.add_assoc]
  obtain ⟨c, hc⟩ : ∃ c, c = s.srcAddr.toNat + 8 + bytesReached s.dec (s.dec.rpos + m) := ⟨_, rfl⟩
  have h : skipBits n (skipBits m s) = { engineReads c b (skipBits m s) with
      dec := { s.dec with rpos := s.dec.rpos + m + n } } := by
    rw [hc]
    exact skipBits_eq (s := skipBits m s) hb
  have hc' : c = s.srcAddr.toNat + 8 + bytesReached s.dec s.dec.rpos + a := by omega
  rw [h, skipBits_eq ha, skipBits_eq hab, ← engineReads_add, hc', ← Nat.add_assoc s.dec.rpos]
  rfl

@[simp] theorem inBit_skipBits (n : Nat) (s : State) (k : Nat) : inBit (skipBits n s) k = inBit s k := rfl

theorem getBits_snd (n : Nat) (s : State) : (getBits n s).2 = skipBits n s := rfl

theorem getBits_lt (n : Nat) (s : State) : (getBits n s).1 < 2 ^ n := by
  have h := bitsToNat_lt (peekBits s n)
  rwa [peekBits_length] at h

/-! ## Lists -/

/-- A run of zeros stops at the end of the alphabet. -/
theorem zeroRun_spec (nn z i : Nat) (len : List Nat) (hl : len.length = nn) :
    (zeroRun nn z i len).1 = max i (min (i + z) nn) ∧ (zeroRun nn z i len).2.length = nn ∧
    ∀ j, (zeroRun nn z i len).2.getD j 0 = if i ≤ j ∧ j < i + z then 0 else len.getD j 0 := by
  induction z generalizing i len with
  | zero => exact ⟨by simp [zeroRun], hl, fun j => by rw [if_neg (by omega)]; rfl⟩
  | succ z ih =>
    by_cases h : i < nn
    · have e : zeroRun nn (z + 1) i len = zeroRun nn z (i + 1) (len.set i 0) := by simp [zeroRun, h]
      obtain ⟨h1, h2, h3⟩ := ih (i + 1) (len.set i 0) (by simpa using hl)
      rw [e]
      refine ⟨by rw [h1]; omega, h2, fun j => ?_⟩
      rw [h3]
      by_cases hj : j = i
      · subst hj
        rw [if_neg (by omega), if_pos (by omega)]
        simp [List.getD_eq_getElem?_getD, h, hl]
      · have : (len.set i 0).getD j 0 = len.getD j 0 := by
          simp [List.getD_eq_getElem?_getD, List.getElem?_set_ne (Ne.symm hj)]
        rw [this]
        by_cases hc : i + 1 ≤ j ∧ j < i + 1 + z
        · rw [if_pos hc, if_pos (by omega)]
        · rw [if_neg hc, if_neg (by omega)]
    · have e : zeroRun nn (z + 1) i len = (i, len) := by simp [zeroRun, h]
      rw [e]
      refine ⟨by simp only; omega, hl, fun j => ?_⟩
      by_cases hc : i ≤ j ∧ j < i + (z + 1)
      · rw [if_pos hc, List.getD_eq_default _ _ (show len.length ≤ j by omega)]
      · rw [if_neg hc]

theorem zeroRun_mem (nn z i : Nat) (len : List Nat) : ∀ l ∈ (zeroRun nn z i len).2, l = 0 ∨ l ∈ len := by
  induction z generalizing i len with
  | zero => exact fun l hl => .inr hl
  | succ z ih =>
    intro l hl
    by_cases h : i < nn
    · have e : zeroRun nn (z + 1) i len = zeroRun nn z (i + 1) (len.set i 0) := by simp [zeroRun, h]
      rw [e] at hl
      rcases ih _ _ l hl with h0 | h0
      · exact .inl h0
      · rcases List.mem_or_eq_of_mem_set h0 with h1 | h1
        · exact .inr h1
        · exact .inl h1
    · have e : zeroRun nn (z + 1) i len = (i, len) := by simp [zeroRun, h]
      rw [e] at hl
      exact .inr hl

/-- What follows a length: the list goes on, a table is stored, or the command ends. -/
theorem listTurn_spec (u : State) : ListTurnSpec u (listTurn u) := by
  unfold ListTurnSpec listTurn
  by_cases h : u.dec.idx < u.dec.count
  · rw [if_pos h, if_pos h]
  · rw [if_neg h, if_neg h, buildTable]
    by_cases hk : kraftSum u.dec.lens = 2 ^ 16
    · rw [if_pos hk, if_pos (show kraftComplete u.dec.lens = true from beq_iff_eq.mpr hk), storeTable]
      cases u.dec.list <;> rfl
    · rw [if_neg hk, if_neg (show ¬ kraftComplete u.dec.lens = true from fun h => hk (beq_iff_eq.mp h))]
      rfl

/-- What a stored list does (R300). -/
theorem storeTable_cases (t : Table) (s : State) :
    (s.dec.list = .tList ∧ storeTable t s = { s with dec := { s.dec with tTab := t, list := .cList }, phase := .count }) ∨
    (s.dec.list = .cList ∧ storeTable t s = { s with dec := { s.dec with cTab := t, list := .pList }, phase := .count }) ∨
    (s.dec.list = .pList ∧ storeTable t s = { s with dec := { s.dec with pTab := t }, phase := .sym }) := by
  unfold storeTable
  cases h : s.dec.list
  · exact .inl ⟨rfl, rfl⟩
  · exact .inr (.inl ⟨rfl, rfl⟩)
  · exact .inr (.inr ⟨rfl, rfl⟩)

/-! ## Symbols -/

/-- What follows a symbol: the command ends, or the next symbol is due. -/
theorem afterSymbol_cases (s : State) :
    (s.dec.out = s.dec.origsize ∧ afterSymbol s
      = { s with status := statusEnded .success, resultLen := BitVec.ofNat 64 s.dec.origsize, phase := .idle }) ∨
    (s.dec.out ≠ s.dec.origsize ∧ afterSymbol s = { s with phase := .sym }) := by
  unfold afterSymbol
  by_cases h : s.dec.out = s.dec.origsize
  · exact .inl ⟨h, by rw [if_pos h]; rfl⟩
  · exact .inr ⟨h, by rw [if_neg h]⟩

theorem putOut_of_lt {s : State} (b : Byte) (h : dstAt s s.dec.out < 2 ^ s.addrW.val) :
    putOut b s = some (setOut (s.dec.out + 1) (engineWrite (dstAt s s.dec.out) b s)) := by
  simp [putOut, dstPut_of_lt b h]

theorem putOut_of_le {s : State} (b : Byte) (h : 2 ^ s.addrW.val ≤ dstAt s s.dec.out) : putOut b s = none := by
  simp [putOut, dstPut, inSpace, h]

/-- One byte of a match: the byte `p + 1` before the cursor is read back and written at the cursor. -/
theorem copyLoop_succ {p k : Nat} {s : State} (hf : s.dec.out ≠ s.dec.origsize) (hd : dstAt s s.dec.out < 2 ^ s.addrW.val) :
    copyLoop p (k + 1) s = copyLoop p k (setOut (s.dec.out + 1)
      (engineWrite (dstAt s s.dec.out) (dstGet s (s.dec.out - p - 1)) (readBack (s.dec.out - p - 1) s))) := by
  have h : putOut (dstGet s (s.dec.out - p - 1)) (readBack (s.dec.out - p - 1) s) = some (setOut (s.dec.out + 1)
      (engineWrite (dstAt s s.dec.out) (dstGet s (s.dec.out - p - 1)) (readBack (s.dec.out - p - 1) s))) := putOut_of_lt _ hd
  simp only [copyLoop, if_neg hf, h]

theorem copyLoop_outside {p k : Nat} {s : State} (hf : s.dec.out ≠ s.dec.origsize) (hd : 2 ^ s.addrW.val ≤ dstAt s s.dec.out) :
    copyLoop p (k + 1) s = none := by
  have h : putOut (dstGet s (s.dec.out - p - 1)) (readBack (s.dec.out - p - 1) s) = none := putOut_of_le _ hd
  simp only [copyLoop, if_neg hf, h]

@[simp] theorem copyAccesses_zero (t : State) (i p : Nat) : copyAccesses t i p 0 = [] := rfl

/-- The first byte of a match is the oldest of its accesses. -/
theorem copyAccesses_succ (t : State) (i p n : Nat) : copyAccesses t i p (n + 1) = copyAccesses t (i + 1) p n ++
    [.write (dstAt t i) (dstGet t i), .read (dstAt t (i - p - 1)) (dstGet t i)] := by
  obtain ⟨g, hg⟩ : ∃ g : Nat → List Access, g = fun x => [.read (dstAt t (x - p - 1)) (dstGet t x), .write (dstAt t x) (dstGet t x)] :=
    ⟨_, rfl⟩
  have h : ∀ i n, copyAccesses t i p n = ((List.range n).flatMap fun j => g (i + j)).reverse := fun i n => by rw [hg]; rfl
  have hs : (fun j => g (i + Nat.succ j)) = fun j => g (i + 1 + j) := funext fun j => congrArg g (by omega)
  rw [h, h, List.range_succ_eq_map, List.flatMap_cons, List.flatMap_map, List.reverse_append, hs, hg]
  rfl

/-- What the copy of a match does: `n` bytes, each of them the byte `p + 1` before it, or a write outside host memory. -/
theorem copyLoop_spec (p k : Nat) (s : State) (hp : p + 1 ≤ s.dec.out) (ho : s.dec.out ≤ s.dec.origsize) (n : Nat)
    (hn : n = min k (s.dec.origsize - s.dec.out)) :
    (n = 0 ∨ dstAt s (s.dec.out + n) ≤ 2 ^ s.addrW.val → ∃ t, copyLoop p k s = some t ∧
      t = { s with
        mem := t.mem, accesses := copyAccesses t s.dec.out p n ++ s.accesses, dec := { s.dec with out := s.dec.out + n } } ∧
      (∀ j, j < n → dstGet t (s.dec.out + j) = dstGet t (s.dec.out + j - p - 1)) ∧
      (∀ a, inRange (dstAt s s.dec.out) n a = false → memGet t a = memGet s a) ∧
      (Memory.wf s.mem = true → Memory.wf t.mem = true)) ∧
    (n ≠ 0 → 2 ^ s.addrW.val < dstAt s (s.dec.out + n) → copyLoop p k s = none) := by
  induction k generalizing s n with
  | zero =>
    have hn0 : n = 0 := by omega
    subst hn0
    exact ⟨fun _ => ⟨s, rfl, rfl, by simp, fun _ _ => rfl, id⟩, fun h => absurd rfl h⟩
  | succ k ih =>
    by_cases hfull : s.dec.out = s.dec.origsize
    · have hn0 : n = 0 := by omega
      subst hn0
      have e : copyLoop p (k + 1) s = some s := by simp [copyLoop, hfull]
      exact ⟨fun _ => ⟨s, e, rfl, by simp, fun _ _ => rfl, id⟩, fun h => absurd rfl h⟩
    · by_cases hin : dstAt s s.dec.out < 2 ^ s.addrW.val
      · have e := copyLoop_succ (p := p) (k := k) hfull hin
        generalize hb : dstGet s (s.dec.out - p - 1) = b at e
        generalize hs' : setOut (s.dec.out + 1) (engineWrite (dstAt s s.dec.out) b (readBack (s.dec.out - p - 1) s)) = s' at e
        have h1 : s'.dec.out = s.dec.out + 1 := by rw [← hs']; rfl
        have h2 : s'.dec.origsize = s.dec.origsize := by rw [← hs']; rfl
        have h3 : s'.addrW = s.addrW := by rw [← hs']; rfl
        have h4 : ∀ i, dstAt s' i = dstAt s i := by rw [← hs']; intro i; rfl
        have h5 : s' = { s with
            mem := s'.mem, accesses := s'.accesses, dec := { s.dec with out := s.dec.out + 1 } } := by rw [← hs']; rfl
        have h6 : ∀ a, memGet s' a = if a = dstAt s s.dec.out then b else memGet s a := by
          intro a
          rw [← hs', ← memGet_memSet]
          rfl
        have h7 : Memory.wf s.mem = true → Memory.wf s'.mem = true := by
          intro hw
          rw [← hs']
          exact memSet_wf hw _ _
        have h8 : s'.dec.out ≤ s'.dec.origsize := by omega
        have h9 : s'.accesses = .write (dstAt s s.dec.out) b :: .read (dstAt s (s.dec.out - p - 1)) b :: s.accesses := by
          rw [← hs', ← hb]
          rfl
        obtain ⟨m, hm⟩ : ∃ m, m = min k (s'.dec.origsize - s'.dec.out) := ⟨_, rfl⟩
        obtain ⟨ih1, ih2⟩ := ih s' (by omega) h8 m hm
        rw [h1, h3] at ih1 ih2
        simp only [h4] at ih1 ih2
        have hnm : s.dec.out + n = s.dec.out + 1 + m := by omega
        have hn1 : n = m + 1 := by omega
        rw [e]
        refine ⟨fun h => ?_, fun h h' => ?_⟩
        · obtain ⟨t, ht, ht1, ht2, ht3, ht4⟩ := ih1 (.inr (by
            rw [← hnm]
            rcases h with h | h
            · omega
            · exact h))
          have hda : ∀ i, dstAt t i = dstAt s i := by
            intro i
            rw [dstAt, dstAt, ht1, h5]
          have hd : ∀ i, dstGet t i = memGet t (dstAt s i) := by
            intro i
            rw [dstGet, hda]
          have hl : ∀ i, i ≤ s.dec.out → dstGet t i = memGet s' (dstAt s i) := by
            intro i hi
            rw [hd, ht3 _ (by simp [inRange, dstAt]; omega)]
          have h0 : dstGet t s.dec.out = b := by rw [hl _ (le_refl _), h6, if_pos rfl]
          refine ⟨t, ht, ?_, ?_, ?_, ht4 ∘ h7⟩
          · have h10 : t.accesses = copyAccesses t (s.dec.out + 1) p m ++ s'.accesses := congrArg State.accesses ht1
            have h11 : t.accesses = copyAccesses t s.dec.out p n ++ s.accesses := by
              rw [hn1, copyAccesses_succ, h0, hda, hda, h10, h9]
              simp
            rw [← h10] at ht1
            rw [← h11, hnm]
            conv_lhs => rw [ht1, h5]
          · intro j hj
            cases j with
            | zero =>
              have hne : dstAt s (s.dec.out - p - 1) ≠ dstAt s s.dec.out := by
                simp only [dstAt]
                omega
              rw [Nat.add_zero, h0, hl (s.dec.out - p - 1) (by omega), h6, if_neg hne, ← hb]
              rfl
            | succ j =>
              have e1 : s.dec.out + (j + 1) = s.dec.out + 1 + j := by omega
              rw [e1]
              exact ht2 j (by omega)
          · intro a ha
            rw [inRange_eq_false_iff] at ha
            simp only [dstAt] at ha
            rw [ht3 a (by rw [inRange_eq_false_iff]; simp only [dstAt]; omega), h6, if_neg]
            simp only [dstAt]
            omega
        · by_cases hm0 : m = 0
          · exfalso
            have : dstAt s (s.dec.out + n) = dstAt s s.dec.out + 1 := by
              simp only [dstAt]
              omega
            omega
          · exact ih2 hm0 (by rw [← hnm]; exact h')
      · refine ⟨fun h => ?_, fun _ _ => copyLoop_outside hfull (Nat.le_of_not_lt hin)⟩
        exfalso
        rcases h with h | h
        · omega
        · simp only [dstAt] at h hin
          omega

end Sys2Proof.Machine
end

