-- ==== Sys2Proof/Laws/Fetch.lean ====
section
/-!
SUPPORT. What the decoder fetches at each place where it stands, and that fetching moves nothing but the bit cursor and the count of the block's symbols.
-/

namespace Sys2Proof.Machine

theorem takeField_peek {n m : Nat} (s : State) (k : Nat → List Bool → DecodeResult) (h : n ≤ m) :
    takeField n (peekBits s m) k = k (bitsToNat ((peekBits s m).take n)) ((peekBits s m).drop n) :=
  takeField_ok (by simpa using h)

/-- The header is always read (R331). -/
theorem fetchHeader_spec (s : State) :
    ∃ l o, fetchHeader s = .run (.streamHeader l o) (engineReads s.srcAddr.toNat 8 s) := by
  have hl : (headerBits s).length = 64 := by simp [headerBits]
  unfold fetchHeader
  simp only [decode]
  rw [takeField_ok (by omega), takeField_ok (by simp [hl])]
  exact ⟨_, _, rfl⟩

/-- SIZE is the next 16 bits (R300). -/
theorem fetchBlock_spec (s : State) :
    fetchBits .block [] 16 s = .run (.block (BitVec.ofNat 16 (getBits 16 s).1)) (skipBits 16 s) := by
  have ht : (peekBits s 16).take 16 = peekBits s 16 := List.take_of_length_le (by simp)
  have hd : (peekBits s 16).drop 16 = [] := List.drop_of_length_le (by simp)
  unfold fetchBits
  simp only [List.nil_append, decode]
  rw [takeField_peek s _ (le_refl 16), ht, hd]
  rfl

/-- The unary part of a LENCODE ends within its bits. -/
theorem lencodeUnary_spec (fuel k : Nat) (bs : List Bool) (hk : k + fuel + 1 ≤ 17) (h : fuel < bs.length) :
    ∃ v rest, lencodeUnary fuel k bs = .ok (.lencode v) rest ∧ v.toNat ≤ 17 ∧ rest.length < bs.length := by
  induction fuel generalizing k bs with
  | zero =>
    match bs, h with
    | false :: bs, _ =>
      refine ⟨_, bs, rfl, ?_, by simp⟩
      rw [BitVec.toNat_ofNat]
      exact le_trans (Nat.mod_le _ _) (by omega)
    | true :: bs, _ =>
      refine ⟨_, bs, rfl, ?_, by simp⟩
      rw [BitVec.toNat_ofNat]
      exact le_trans (Nat.mod_le _ _) (by omega)
  | succ fuel ih =>
    match bs, h with
    | false :: bs, _ =>
      refine ⟨_, bs, rfl, ?_, by simp⟩
      rw [BitVec.toNat_ofNat]
      exact le_trans (Nat.mod_le _ _) (by omega)
    | true :: bs, h =>
      obtain ⟨v, rest, h1, h2, h3⟩ := ih (k + 1) bs (by omega) (by simpa using h)
      exact ⟨v, rest, h1, h2, by simp; omega⟩

/-- A LENCODE of at most 17 is always read (R306). -/
theorem fetchLencode_spec (s : State) : ∃ v n, fetchLencode s = .run (.lencode v) (skipBits n s) ∧ v.toNat ≤ 17 := by
  unfold fetchLencode fetchBits
  simp only [List.nil_append, decode]
  rw [takeField_peek s _ (by omega : 3 ≤ 13)]
  by_cases h : bitsToNat ((peekBits s 13).take 3) < 7
  · simp only [if_pos h]
    refine ⟨_, _, rfl, ?_⟩
    rw [BitVec.toNat_ofNat]
    exact le_trans (Nat.mod_le _ _) (by omega)
  · simp only [if_neg h]
    obtain ⟨v, rest, h1, h2, -⟩ := lencodeUnary_spec 9 7 ((peekBits s 13).drop 3) (by omega) (by simp)
    rw [h1]
    exact ⟨v, _, rfl, h2⟩

/-- The C symbol `σ` is a literal or a match of the alphabet (R124). -/
theorem fetchCSym_spec (s : State) {σ : Nat} (h : σ < 510) :
    (∃ b, fetchBits .csym (natToBits 9 σ) 0 s = .run (.lit b) s) ∨
    ∃ m, fetchBits .csym (natToBits 9 σ) 0 s = .run (.matchCopy m) s ∧ WellFormed (.matchCopy m) = true := by
  have e : peekBits s 0 = [] := rfl
  unfold fetchBits
  simp only [decode]
  rw [e, takeField_natToBits (by omega)]
  unfold decodeCSym
  by_cases h1 : σ < 256
  · simp only [if_pos h1]
    exact .inl ⟨_, congrArg _ (skipBits_zero s)⟩
  · have h2 : σ < Config.NC := h
    simp only [if_neg h1, if_pos h2]
    refine .inr ⟨_, congrArg _ (skipBits_zero s), ?_⟩
    simp only [WellFormed, Bool.and_eq_true, decide_eq_true_eq, BitVec.toNat_ofNat]
    rw [Nat.mod_eq_of_lt (by omega)]
    exact ⟨by omega, h2⟩

/-- The P symbol `c` and its extra bits (R122). -/
theorem fetchPSym_spec (s : State) {c : Nat} (h : c < 31) :
    ∃ p e n, fetchBits .psym (natToBits 5 c) 29 s = .run (.pos p e) (skipBits n s) := by
  unfold fetchBits
  simp only [decode]
  have h1 : c < Config.NPD := h
  rw [takeField_natToBits (by omega), decodePSym, if_pos h1, takeField_peek s _ (by simp only [posExtra]; omega)]
  exact ⟨_, _, _, rfl⟩

/-- The T symbol `t` and its extension bits are one of the four T instructions (R125, R311). -/
theorem fetchTSym_spec (s : State) {t : Nat} (h : t < 19) :
    ∃ i n, fetchBits .tsym (natToBits 5 t) 9 s = .run i (skipBits n s) ∧
      (i = .zrun1 ∨ (∃ r, i = .zrunM r) ∨ (∃ r, i = .zrunL r) ∨ ∃ k, i = .len k ∧ 1 ≤ k.toNat ∧ k.toNat ≤ 16) := by
  unfold fetchBits
  simp only [decode]
  rw [takeField_natToBits (by omega), decodeTSym]
  by_cases h0 : t = 0
  · simp only [if_pos h0]
    exact ⟨_, _, rfl, .inl rfl⟩
  · by_cases h1 : t = 1
    · simp only [if_neg h0, if_pos h1]
      rw [takeField_peek s _ (by omega)]
      exact ⟨_, _, rfl, .inr (.inl ⟨_, rfl⟩)⟩
    · by_cases h2 : t = 2
      · simp only [if_neg h0, if_neg h1, if_pos h2]
        rw [takeField_peek s _ (le_refl 9)]
        exact ⟨_, _, rfl, .inr (.inr (.inl ⟨_, rfl⟩))⟩
      · have h3 : t < Config.NT := h
        simp only [if_neg h0, if_neg h1, if_neg h2, if_pos h3]
        refine ⟨_, _, rfl, .inr (.inr (.inr ⟨_, rfl, ?_⟩))⟩
        rw [BitVec.toNat_ofNat, Nat.mod_eq_of_lt (by omega)]
        omega

/-- A decoded symbol is one of the alphabet, and only the bit cursor has moved (R168). -/
theorem decodeSymbol_some {nn : Nat} {t : Table} {s u : State} {σ : Nat} (h : decodeSymbol nn t s = some (σ, u)) :
    σ < nn ∧ ∃ n, u = skipBits n s := by
  unfold decodeSymbol at h
  split at h
  · split_ifs at h with hd
    simp only [Option.some.injEq, Prod.mk.injEq] at h
    exact ⟨h.1 ▸ hd, 0, by rw [skipBits_zero, h.2]⟩
  · split at h
    · split_ifs at h with hd
      simp only [Option.some.injEq, Prod.mk.injEq] at h
      exact ⟨h.1 ▸ hd, _, h.2.symm⟩
    · cases h

end Sys2Proof.Machine
end

