-- ==== Sys2Proof/Laws/Engine.lean ====
section
/-!
SUPPORT. What a step of the engine can do, place by place: an inversion law that later proofs cite instead of unfolding the step.
-/

namespace Sys2Proof.Machine

/-! ## Inversion of the engine's step -/

theorem engineStep_idle {s : State} (h : s.phase = .idle) : engineStep s = .next s := by
  simp [engineStep, engineTurn, h]

theorem engineStep_fit {s : State} (h : buffersFit s = true) : engineStep s = engineTurn s := by
  simp [engineStep, h]

/-- The engine does nothing when idle; else its buffers fit. -/
theorem engineStep_cases {s t : State} (h : engineStep s = .next t) :
    (s.phase = .idle ∧ t = s) ∨ (s.phase ≠ .idle ∧ buffersFit s = true ∧ engineTurn s = .next t) := by
  by_cases hp : s.phase = .idle
  · rw [engineStep_idle hp] at h
    cases h
    exact .inl ⟨hp, rfl⟩
  · cases hb : buffersFit s with
    | false => simp [engineStep, hp, hb] at h
    | true => exact .inr ⟨hp, rfl, by rwa [engineStep_fit hb] at h⟩

theorem orEndless_next {o : Option State} {t : State} (h : orEndless o = .next t) : o = some t := by
  cases o with
  | none => cases h
  | some u =>
    cases h
    rfl

theorem engineTurn_encFirst {s t : State} (hp : s.phase = .encFirst) (h : engineTurn s = .next t) :
    ∃ u, matchLoopStart s = some u ∧ t = { u with phase := .encLoop } := by
  simp only [engineTurn, hp, stepEncFirst] at h
  have h1 := orEndless_next h
  rw [Option.map_eq_some_iff] at h1
  obtain ⟨u, hu, rfl⟩ := h1
  exact ⟨u, hu, rfl⟩

theorem engineTurn_encLoop {s t : State} (hp : s.phase = .encLoop) (h : engineTurn s = .next t) :
    (s.enc.finder.remainder = 0 ∧ t = { s with phase := .encEnd }) ∨
    (s.enc.finder.remainder ≠ 0 ∧ matchLoopTurn s = some t) := by
  simp only [engineTurn, hp, stepEncLoop] at h
  split_ifs at h with hr
  · cases h
    exact .inl ⟨hr, rfl⟩
  · exact .inr ⟨hr, orEndless_next h⟩

theorem engineTurn_encEnd {s t : State} (hp : s.phase = .encEnd) (h : engineTurn s = .next t) :
    (hufEncodeEnd s).enc.compsize + 1 ≤ 2 ^ 32 - 1 ∧ t = finishCompress (writeHeader (hufEncodeEnd s)) := by
  simp only [engineTurn, hp, stepEncEnd] at h
  generalize hufEncodeEnd s = u at h ⊢
  by_cases hr : headerOverflows u = true
  · rw [if_pos hr] at h
    cases h
  · rw [if_neg hr] at h
    refine ⟨?_, (Host.Outcome.next.inj h).symm⟩
    simpa only [headerOverflows, decide_eq_true_eq, not_lt] using hr

theorem engineTurn_header {s : State} (hp : s.phase = .header) :
    ∃ l o, engineTurn s = exec (.streamHeader l o) (engineReads s.srcAddr.toNat 8 s) := by
  obtain ⟨l, o, h⟩ := fetchHeader_spec s
  exact ⟨l, o, by simp only [engineTurn, hp, h, runFetched]⟩

theorem engineTurn_block {s : State} (hp : s.phase = .sym) (hb : s.dec.blocksize = 0#16) :
    ∃ size, engineTurn s = exec (.block size) (skipBits 16 s) :=
  ⟨BitVec.ofNat 16 (getBits 16 s).1, by simp only [engineTurn, hp, fetchSym, if_pos hb, fetchBlock_spec, runFetched]⟩

/-- One C symbol of a block that is not exhausted: a literal is executed, a match waits for its position. -/
theorem engineTurn_sym {s u : State} {σ : Nat} (hp : s.phase = .sym) (hb : s.dec.blocksize ≠ 0#16)
    (hd : decodeSymbol Config.NC s.dec.cTab (takeOfBlock s) = some (σ, u)) :
    (∃ b, engineTurn s = exec (.lit b) u) ∨
    ∃ m, WellFormed (.matchCopy m) = true ∧ engineTurn s = .next (awaitPosition m u) := by
  obtain ⟨hσ, -⟩ := decodeSymbol_some hd
  rcases fetchCSym_spec u hσ with ⟨b, h⟩ | ⟨m, h, hm⟩
  · exact .inl ⟨b, by simp only [engineTurn, hp, fetchSym, if_neg hb, hd, h, runFetched]⟩
  · exact .inr ⟨m, hm, by simp only [engineTurn, hp, fetchSym, if_neg hb, hd, h, runFetched]⟩

theorem engineTurn_sym_none {s : State} (hp : s.phase = .sym) (hb : s.dec.blocksize ≠ 0#16)
    (hd : decodeSymbol Config.NC s.dec.cTab (takeOfBlock s) = none) :
    engineTurn s = .fault .noSymbol := by
  simp only [engineTurn, hp, fetchSym, if_neg hb, hd, runFetched]

theorem engineTurn_count {s : State} (hp : s.phase = .count) : engineTurn s = .next (readCount s) := by
  simp only [engineTurn, hp]

theorem engineTurn_ptLen {s : State} (hp : s.phase = .ptLen) :
    ∃ k n, k.toNat ≤ 17 ∧ engineTurn s = exec (.lencode k) (skipBits n s) := by
  obtain ⟨k, n, h, hk⟩ := fetchLencode_spec s
  exact ⟨k, n, hk, by simp only [engineTurn, hp, h, runFetched]⟩

/-- One of the four T instructions. -/
def IsTSymbol (i : Instr) : Prop :=
  i = .zrun1 ∨ (∃ r, i = .zrunM r) ∨ (∃ r, i = .zrunL r) ∨ ∃ k, i = .len k ∧ 1 ≤ k.toNat ∧ k.toNat ≤ 16

theorem engineTurn_cLen {s u : State} {τ : Nat} (hp : s.phase = .cLen)
    (hd : decodeSymbol Config.NT s.dec.tTab s = some (τ, u)) :
    ∃ i n, IsTSymbol i ∧ engineTurn s = exec i (skipBits n u) := by
  obtain ⟨hσ, -⟩ := decodeSymbol_some hd
  obtain ⟨i, n, h, hi⟩ := fetchTSym_spec u hσ
  exact ⟨i, n, hi, by simp only [engineTurn, hp, fetchT, hd, h, runFetched]⟩

theorem engineTurn_cLen_none {s : State} (hp : s.phase = .cLen) (hd : decodeSymbol Config.NT s.dec.tTab s = none) :
    engineTurn s = .fault .noSymbol := by
  simp only [engineTurn, hp, fetchT, hd, runFetched]

theorem engineTurn_pos {s u : State} {c : Nat} (hp : s.phase = .pos)
    (hd : decodeSymbol Config.NPD s.dec.pTab s = some (c, u)) :
    ∃ p e n, engineTurn s = exec (.pos p e) (skipBits n u) := by
  obtain ⟨hσ, -⟩ := decodeSymbol_some hd
  obtain ⟨p, e, n, h⟩ := fetchPSym_spec u hσ
  exact ⟨p, e, n, by simp only [engineTurn, hp, fetchPos, hd, h, runFetched]⟩

theorem engineTurn_pos_none {s : State} (hp : s.phase = .pos) (hd : decodeSymbol Config.NPD s.dec.pTab s = none) :
    engineTurn s = .fault .noSymbol := by
  simp only [engineTurn, hp, fetchPos, hd, runFetched]

theorem engineTurn_copy {s : State} (hp : s.phase = .copy) : engineTurn s = exec (.matchCopy s.dec.sym) s := by
  simp only [engineTurn, hp]

/-! ## Inversion of the decoder's instructions -/

theorem exec_lit_next {b : Byte} {s t : State} (h : exec (.lit b) s = .next t) :
    dstAt s s.dec.out < 2 ^ s.addrW.val ∧
    t = afterSymbol (setOut (s.dec.out + 1) (engineWrite (dstAt s s.dec.out) b s)) := by
  simp only [exec, execLit] at h
  by_cases hd : dstAt s s.dec.out < 2 ^ s.addrW.val
  · rw [putOut_of_lt b hd] at h
    cases h
    exact ⟨hd, rfl⟩
  · rw [putOut_of_le b (Nat.le_of_not_lt hd)] at h
    cases h

/-- MATCH ends the command, or copies. -/
theorem exec_matchCopy_next {m : BitVec 9} {s t : State} (h : exec (.matchCopy m) s = .next t) :
    (s.dec.out < s.dec.pval + 1 ∧ t = endBad s) ∨
    (s.dec.pval + 1 ≤ s.dec.out ∧ ∃ u, copyLoop s.dec.pval (matchLength m) s = some u ∧ t = afterSymbol u) := by
  simp only [exec, execMatchCopy] at h
  by_cases hp : s.dec.out < s.dec.pval + 1
  · rw [if_pos hp] at h
    cases h
    exact .inl ⟨hp, rfl⟩
  · rw [if_neg hp] at h
    refine .inr ⟨by omega, ?_⟩
    cases hc : copyLoop s.dec.pval (matchLength m) s with
    | none =>
      rw [hc] at h
      cases h
    | some u =>
      rw [hc] at h
      cases h
      exact ⟨u, rfl, rfl⟩

/-- A decoder's step leaves everything alone but the decoder's state, host memory, the accesses, STATUS, RESULT_LEN and its place. -/
def DecodesOnly (s t : State) : Prop := t = { s with
  dec := t.dec, mem := t.mem, accesses := t.accesses, status := t.status, resultLen := t.resultLen, phase := t.phase }

theorem DecodesOnly.trans {s t u : State} (h : DecodesOnly s t) (k : DecodesOnly t u) : DecodesOnly s u := by
  unfold DecodesOnly at *
  rw [k, h]

theorem skipBits_only (n : Nat) (s : State) : DecodesOnly s (skipBits n s) := rfl
theorem endCommand_only (c : Code) (n : Nat) (s : State) : DecodesOnly s (endCommand c n s) := rfl
theorem endBad_only (s : State) : DecodesOnly s (endBad s) := rfl

theorem afterSymbol_only (s : State) : DecodesOnly s (afterSymbol s) := by
  rcases afterSymbol_cases s with ⟨-, h⟩ | ⟨-, h⟩ <;> rw [h] <;> rfl

theorem copyLoop_only {p k : Nat} {s t : State} (h : copyLoop p k s = some t) :
    DecodesOnly s t ∧ t.status = s.status ∧ t.resultLen = s.resultLen ∧ t.phase = s.phase ∧
    t.dec = { s.dec with out := t.dec.out } ∧ s.dec.out ≤ t.dec.out ∧
    (Memory.wf s.mem = true → Memory.wf t.mem = true) ∧
    ∀ a, inRange (dstAt s s.dec.out) (t.dec.out - s.dec.out) a = false → memGet t a = memGet s a := by
  induction k generalizing s with
  | zero =>
    cases h
    exact ⟨rfl, rfl, rfl, rfl, rfl, le_refl _, id, fun _ _ => rfl⟩
  | succ k ih =>
    by_cases hf : s.dec.out = s.dec.origsize
    · simp only [copyLoop, if_pos hf] at h
      cases h
      exact ⟨rfl, rfl, rfl, rfl, rfl, le_refl _, id, fun _ _ => rfl⟩
    · by_cases hd : dstAt s s.dec.out < 2 ^ s.addrW.val
      · rw [copyLoop_succ hf hd] at h
        generalize hb : dstGet s (s.dec.out - p - 1) = b at h
        generalize hu : setOut (s.dec.out + 1) (engineWrite (dstAt s s.dec.out) b (readBack (s.dec.out - p - 1) s)) = u at h
        obtain ⟨h1, h2, h3, h4, h5, h6, h7, h8⟩ := ih h
        have hs : DecodesOnly s u := by rw [← hu]; rfl
        have ho : u.dec.out = s.dec.out + 1 := by rw [← hu]; rfl
        have hw : Memory.wf s.mem = true → Memory.wf u.mem = true := by
          intro hw
          rw [← hu]
          exact memSet_wf hw _ _
        have hg : ∀ a, a ≠ dstAt s s.dec.out → memGet u a = memGet s a := by
          intro a ha
          have : memGet u a = memGet (memSet s (dstAt s s.dec.out) b) a := by rw [← hu]; rfl
          rw [this, memGet_memSet, if_neg ha]
        have hda : ∀ i, dstAt u i = dstAt s i := by rw [← hu]; intro i; rfl
        refine ⟨hs.trans h1, ?_, ?_, ?_, ?_, by omega, h7 ∘ hw, ?_⟩
        · rw [h2, ← hu]
          rfl
        · rw [h3, ← hu]
          rfl
        · rw [h4, ← hu]
          rfl
        · rw [h5]
          conv_lhs => rw [← hu]
          rfl
        · intro a ha
          rw [inRange_eq_false_iff] at ha
          simp only [dstAt] at ha
          rw [h8 a (by rw [inRange_eq_false_iff, hda]; simp only [dstAt]; omega), hg a]
          simp only [dstAt]
          omega
      · rw [copyLoop_outside hf (Nat.le_of_not_lt hd)] at h
        cases h

theorem storeTable_only (t : Table) (s : State) : DecodesOnly s (storeTable t s) := by
  rcases storeTable_cases t s with ⟨-, h⟩ | ⟨-, h⟩ | ⟨-, h⟩ <;> rw [h] <;> rfl

theorem listTurn_only (s : State) : DecodesOnly s (listTurn s) := by
  unfold listTurn buildTable
  split_ifs
  · rfl
  · exact storeTable_only _ s
  · rfl

/-- What the count field of a list leads to: the end of the command, a degenerate table, or the list. -/
theorem readCount_cases (s : State) :
    (∃ n, readCount s = endBad (skipBits n s)) ∨
    (∃ σ n, σ < listSize s.dec.list ∧ readCount s = storeTable (.degenerate σ) (skipBits n s)) ∨
    ∃ c n, 1 ≤ c ∧ c ≤ listSize s.dec.list ∧ readCount s = { skipBits n s with
      dec := { (skipBits n s).dec with count := c, idx := 0, lens := List.replicate (listSize s.dec.list) 0 }
      phase := if s.dec.list = .cList then .cLen else .ptLen } := by
  obtain ⟨w, hw⟩ : ∃ w, w = listCountWidth s.dec s.dec.list := ⟨_, rfl⟩
  obtain ⟨c, hc⟩ : ∃ c, c = (getBits w s).1 := ⟨_, rfl⟩
  obtain ⟨σ, hσ⟩ : ∃ σ, σ = (getBits w (skipBits w s)).1 := ⟨_, rfl⟩
  have e : readCount s = if c = 0 then
      (if listSize s.dec.list ≤ σ then endBad (skipBits w (skipBits w s))
        else storeTable (.degenerate σ) (skipBits w (skipBits w s)))
      else if listSize s.dec.list < c then endBad (skipBits w s)
      else { skipBits w s with
        dec := { (skipBits w s).dec with count := c, idx := 0, lens := List.replicate (listSize s.dec.list) 0 }
        phase := if s.dec.list = .cList then .cLen else .ptLen } := by
    subst hσ hc hw
    unfold readCount
    have hm : (match s.dec.list with | .cList => Phase.cLen | _ => Phase.ptLen)
        = if s.dec.list = .cList then .cLen else .ptLen := by cases s.dec.list <;> rfl
    rw [← hm]
    rfl
  rw [e]
  by_cases h1 : c = 0
  · rw [if_pos h1]
    by_cases h2 : listSize s.dec.list ≤ σ
    · rw [if_pos h2, skipBits_add]
      exact .inl ⟨w + w, rfl⟩
    · rw [if_neg h2, skipBits_add]
      exact .inr (.inl ⟨σ, w + w, by omega, rfl⟩)
  · rw [if_neg h1]
    by_cases h2 : listSize s.dec.list < c
    · rw [if_pos h2]
      exact .inl ⟨w, rfl⟩
    · rw [if_neg h2]
      exact .inr (.inr ⟨c, w, by omega, by omega, rfl⟩)

theorem startDecode_only (s : State) : DecodesOnly s (startDecode s) := rfl
theorem takeOfBlock_only (s : State) : DecodesOnly s (takeOfBlock s) := rfl
theorem awaitPosition_only (m : BitVec 9) (s : State) : DecodesOnly s (awaitPosition m s) := rfl
theorem putOut_only (s : State) (a : Nat) (b : Byte) (n : Nat) : DecodesOnly s (setOut n (engineWrite a b s)) := rfl
theorem engineReads_only (a k : Nat) (s : State) : DecodesOnly s (engineReads a k s) := rfl
theorem putZeros_only (z : Nat) (s : State) : DecodesOnly s (putZeros z s) := rfl
theorem putLen_only (k : Nat) (s : State) : DecodesOnly s (putLen k s) := rfl

/-- The special index reads its field and runs zeros; every other index does nothing. -/
theorem skipField_cases (s : State) :
    (listSpecial s.dec.list ≠ some s.dec.idx ∧ skipField s = s) ∨
    (listSpecial s.dec.list = some s.dec.idx ∧ skipField s = putZeros (getBits 2 s).1 (skipBits 2 s)) := by
  unfold skipField
  by_cases h : listSpecial s.dec.list = some s.dec.idx
  · rw [if_pos h]
    exact .inr ⟨h, rfl⟩
  · rw [if_neg h]
    exact .inl ⟨h, rfl⟩

theorem skipField_only (s : State) : DecodesOnly s (skipField s) := by
  rcases skipField_cases s with ⟨-, h⟩ | ⟨-, h⟩
  · rw [h]
    rfl
  · rw [h]
    exact (skipBits_only 2 s).trans (putZeros_only _ _)

/-- A T instruction appends zeros, or one length of 1 to 16, and the list goes on or ends. -/
theorem exec_tsym_next {i : Instr} (hi : IsTSymbol i) {s t : State} (h : exec i s = .next t) :
    (∃ z, t = listTurn (putZeros z s)) ∨ ∃ k, 1 ≤ k ∧ k ≤ 16 ∧ t = listTurn (putLen k s) := by
  rcases hi with rfl | ⟨r, rfl⟩ | ⟨r, rfl⟩ | ⟨k, rfl, h1, h2⟩
  · exact .inl ⟨1, (Host.Outcome.next.inj h).symm⟩
  · exact .inl ⟨r.toNat + 3, (Host.Outcome.next.inj h).symm⟩
  · exact .inl ⟨r.toNat + 20, (Host.Outcome.next.inj h).symm⟩
  · exact .inr ⟨k.toNat, h1, h2, (Host.Outcome.next.inj h).symm⟩

theorem exec_lencode_next {k : BitVec 5} {s t : State} (h : exec (.lencode k) s = .next t) :
    (16 < k.toNat ∧ t = endBad s) ∨ (k.toNat ≤ 16 ∧ t = listTurn (skipField (putLen k.toNat s))) := by
  simp only [exec, execLencode] at h
  by_cases hk : Config.codeBit < k.toNat
  · rw [if_pos hk] at h
    exact .inl ⟨hk, (Host.Outcome.next.inj h).symm⟩
  · rw [if_neg hk] at h
    exact .inr ⟨Nat.le_of_not_lt hk, (Host.Outcome.next.inj h).symm⟩

theorem exec_block_next {z : Half} {s t : State} (h : exec (.block z) s = .next t) :
    (z = 0#16 ∧ t = endBad s) ∨
    (z ≠ 0#16 ∧ t = { s with dec := { s.dec with blocksize := z, list := .tList }, phase := .count }) := by
  simp only [exec, execBlock] at h
  by_cases hk : z = 0#16
  · rw [if_pos hk] at h
    exact .inl ⟨hk, (Host.Outcome.next.inj h).symm⟩
  · rw [if_neg hk] at h
    exact .inr ⟨hk, (Host.Outcome.next.inj h).symm⟩

/-- STREAM_HEADER stores L and O, and ends the command or starts Decode (R330, R331). -/
theorem exec_streamHeader_next {l o : Word32} {s t : State} (h : exec (.streamHeader l o) s = .next t) :
    ∃ u, u = { s with dec := { s.dec with compsizeIn := l.toNat, origsize := o.toNat, pbit := u.dec.pbit } } ∧
      (t = endCommand .invalidParameter 0 u ∨ (8 + l.toNat ≤ s.srcLen.toNat ∧ s.dstLen.toNat = o.toNat ∧
        ((o.toNat = 0 ∧ t = endCommand .success 0 u) ∨ (o.toNat ≠ 0 ∧ t = startDecode u)))) := by
  simp only [exec, execStreamHeader] at h
  by_cases h1 : s.srcLen.toNat < 8 + l.toNat
  · rw [if_pos h1] at h
    exact ⟨_, rfl, .inl (Host.Outcome.next.inj h).symm⟩
  · rw [if_neg h1] at h
    by_cases h2 : s.dstLen.toNat ≠ o.toNat
    · rw [if_pos h2] at h
      exact ⟨_, rfl, .inl (Host.Outcome.next.inj h).symm⟩
    · rw [if_neg h2] at h
      by_cases h3 : o.toNat = 0
      · rw [if_pos h3] at h
        exact ⟨_, rfl, .inr ⟨by omega, by omega, .inl ⟨h3, (Host.Outcome.next.inj h).symm⟩⟩⟩
      · rw [if_neg h3] at h
        exact ⟨_, rfl, .inr ⟨by omega, by omega, .inr ⟨h3, (Host.Outcome.next.inj h).symm⟩⟩⟩

/-! ## The end of COMPRESS -/

theorem finishCompress_cases (s : State) :
    (8 + s.enc.compsize + 1 ≤ s.dstLen.toNat ∧ finishCompress s = endCommand .success (8 + s.enc.compsize + 1) s) ∨
    (s.dstLen.toNat < 8 + s.enc.compsize + 1 ∧
      finishCompress s = endCommand .bufferTooSmall (8 + s.enc.compsize + 1) (drawDst s.dstLen.toNat s)) := by
  unfold finishCompress
  by_cases h : 8 + s.enc.compsize + 1 ≤ s.dstLen.toNat
  · exact .inl ⟨h, by simp only [if_pos h]⟩
  · exact .inr ⟨by omega, by simp only [if_neg h]⟩

theorem writeHeader_encodes (s : State) : Encodes s (writeHeader s) := by
  have h := writeHeader_writesDst s
  have e : (writeHeader s).enc = s.enc := by rw [h.rest]
  exact WritesDst.encodes (by rw [e]; exact h) (by rw [e])

end Sys2Proof.Machine
end

