-- ==== Sys2Proof/Laws/Accesses.lean ====
section
/-!
SUPPORT. The decoder's host-memory accesses: what reading bits, writing a byte and copying a match access, and what a stretch of accesses adds to the
reads of the source and to the writes (R89, R90, R390).
-/

namespace Sys2Proof.Machine

/-- What accesses add to the reads of the source and to the writes of the command. -/
theorem Accessed.addrs {s t : State} {new : List Access} (h : Accessed s t new)
    (e : t.srcAddr = s.srcAddr ∧ t.srcLen = s.srcLen) :
    sourceReads t = sourceReads s ++ ((new.filterMap readAddr).reverse.filter (inRange s.srcAddr.toNat s.srcLen.toNat)) ∧
    writtenAddrs t = writtenAddrs s ++ (new.filterMap writeAddr).reverse := by
  unfold sourceReads writtenAddrs
  rw [h.accesses, e.1, e.2]
  simp [List.filter_reverse]

/-- Accesses that read source bytes alone. -/
theorem filter_addrsFrom_inside {b n a k : Nat} (h : k = 0 ∨ (b ≤ a ∧ a + k ≤ b + n)) :
    (addrsFrom a k).filter (inRange b n) = addrsFrom a k := by
  rw [List.filter_eq_self]
  intro x hx
  rw [mem_addrsFrom] at hx
  rw [inRange_iff]
  omega

/-- Reading bits reads the stream bytes that they reach into, which lie in the source buffer (R166, R89). -/
theorem skipBits_accessed (n : Nat) (s : State) (h : 8 + s.dec.compsizeIn ≤ s.srcLen.toNat) :
    ∃ new, Accessed s (skipBits n s) new ∧ new.filterMap writeAddr = [] ∧
      (new.filterMap readAddr).reverse = addrsFrom (s.srcAddr.toNat + 8 + bytesReached s.dec s.dec.rpos)
        (bytesReached s.dec (s.dec.rpos + n) - bytesReached s.dec s.dec.rpos) := by
  obtain ⟨k, hk⟩ : ∃ k, k = bytesReached s.dec (s.dec.rpos + n) - bytesReached s.dec s.dec.rpos := ⟨_, rfl⟩
  have h1 : bytesReached s.dec (s.dec.rpos + n) ≤ s.dec.compsizeIn := Nat.min_le_right _ _
  obtain ⟨new, hn, hr, hw⟩ := engineReads_accessed s (a := s.srcAddr.toNat + 8 + bytesReached s.dec s.dec.rpos) (k := k)
    fun x h2 h3 => by
      simp only [inBuffers, Bool.or_eq_true, inRange_iff]
      omega
  rw [← hk]
  refine ⟨new, ⟨?_, hn.stays, hn.mem, hn.wf⟩, hw, hr⟩
  rw [hk] at hn
  exact hn.accesses

/-- Reading bits keeps what the reads of the source are, up to the new cursor (R89). -/
theorem sourceReads_skipBits (n : Nat) {s : State} (h : 8 + s.dec.compsizeIn ≤ s.srcLen.toNat)
    (hs : sourceReads s = addrsFrom s.srcAddr.toNat (8 + bytesReached s.dec s.dec.rpos)) :
    sourceReads (skipBits n s) = addrsFrom s.srcAddr.toNat (8 + bytesReached s.dec (s.dec.rpos + n)) ∧
    writtenAddrs (skipBits n s) = writtenAddrs s := by
  obtain ⟨new, hn, hw, hr⟩ := skipBits_accessed n s h
  obtain ⟨h1, h2⟩ := hn.addrs ⟨rfl, rfl⟩
  have hm := bytesReached_mono s.dec (Nat.le_add_right s.dec.rpos n)
  have hl : bytesReached s.dec (s.dec.rpos + n) ≤ s.dec.compsizeIn := Nat.min_le_right _ _
  refine ⟨?_, by rw [h2, hw]; simp⟩
  rw [h1, hr, hs, filter_addrsFrom_inside (by omega), Nat.add_assoc, ← addrsFrom_add]
  congr 1
  omega

/-- What the copy of a match accesses: inside Decode only bytes of the destination, and its writes go on where the output ended (R90, R322). -/
theorem copyLoop_accessed {p k : Nat} {s t : State} (h : copyLoop p k s = some t) (hp : p + 1 ≤ s.dec.out)
    (ho : s.dec.out ≤ s.dec.origsize) (hl : s.dec.origsize = s.dstLen.toNat) :
    ∃ new, Accessed s t new ∧ (∀ a ∈ new.filterMap readAddr, inRange s.dstAddr.toNat s.dstLen.toNat a = true) ∧
      (new.filterMap writeAddr).reverse = addrsFrom (dstAt s s.dec.out) (t.dec.out - s.dec.out) := by
  induction k generalizing s with
  | zero =>
    cases h
    exact ⟨[], Accessed.none rfl rfl, by simp, by simp⟩
  | succ k ih =>
    by_cases hf : s.dec.out = s.dec.origsize
    · simp only [copyLoop, if_pos hf] at h
      cases h
      exact ⟨[], Accessed.none rfl rfl, by simp, by simp⟩
    · by_cases hd : dstAt s s.dec.out < 2 ^ s.addrW.val
      · rw [copyLoop_succ hf hd] at h
        have hr : inRange s.dstAddr.toNat s.dstLen.toNat (dstAt s (s.dec.out - p - 1)) = true := by
          rw [inRange_iff, dstAt]
          omega
        obtain ⟨l, hl1, hl2, hl3⟩ := engineReads_accessed s (a := dstAt s (s.dec.out - p - 1)) (k := 1) fun x h1 h2 => by
          have hx : x = dstAt s (s.dec.out - p - 1) := by omega
          rw [inBuffers, hx, hr, Bool.or_true]
        have hl4 : ∀ a ∈ l.filterMap readAddr, inRange s.dstAddr.toNat s.dstLen.toNat a = true := by
          intro a ha
          rw [← List.mem_reverse, hl2, addrsFrom_one, List.mem_singleton] at ha
          rw [ha, hr]
        have hw := engineWrite_accessed (readBack (s.dec.out - p - 1) s) (i := s.dec.out) (dstGet s (s.dec.out - p - 1))
          (show s.dec.out < s.dstLen.toNat by omega)
        have hone := hl1.trans hw ⟨rfl, rfl, rfl, rfl⟩
        generalize hu : setOut (s.dec.out + 1) (engineWrite (dstAt s s.dec.out) (dstGet s (s.dec.out - p - 1))
          (readBack (s.dec.out - p - 1) s)) = u at h
        have hu1 : u.dec.out = s.dec.out + 1 := by rw [← hu]; rfl
        have hu2 : u.dec.origsize = s.dec.origsize := by rw [← hu]; rfl
        have hu3 : u.srcAddr = s.srcAddr ∧ u.srcLen = s.srcLen ∧ u.dstAddr = s.dstAddr ∧ u.dstLen = s.dstLen := by
          rw [← hu]
          exact ⟨rfl, rfl, rfl, rfl⟩
        have hone' : Accessed s u ([.write (dstAt s s.dec.out) (dstGet s (s.dec.out - p - 1))] ++ l) := by
          rw [← hu]
          exact ⟨hone.accesses, hone.stays, hone.mem, hone.wf⟩
        obtain ⟨m, hm1, hm2, hm3⟩ := ih h (by omega) (by omega) (by rw [hu2, hl, hu3.2.2.2])
        have hout := (copyLoop_only h).2.2.2.2.2.1
        rw [hu3.2.2.1, hu3.2.2.2] at hm2
        refine ⟨_, hone'.trans hm1 hu3, ?_, ?_⟩
        · intro a ha
          simp only [List.filterMap_append, List.mem_append] at ha
          rcases ha with ha | ha | ha
          · exact hm2 a ha
          · simp [readAddr] at ha
          · exact hl4 a ha
        · have e1 : dstAt u u.dec.out = dstAt s s.dec.out + 1 := by
            rw [dstAt, hu3.2.2.1, hu1, dstAt, Nat.add_assoc]
          have e2 : t.dec.out - s.dec.out = 1 + (t.dec.out - u.dec.out) := by omega
          simp only [List.filterMap_append, List.reverse_append, hl3, hm3, e1, e2, addrsFrom_add, List.reverse_nil, List.nil_append]
          rfl
      · rw [copyLoop_outside hf (Nat.le_of_not_lt hd)] at h
        cases h

end Sys2Proof.Machine
end

