-- ==== Sys2Proof/Laws/Finder.lean ====
section
/-!
SUPPORT. The match finder's arrays: a read after a write of the same array, and that a write of one array leaves the others and the cursors alone.
-/

namespace Sys2Proof.Machine

/-! ## setText -/

theorem textAt_setText (f : Finder) (j : Nat) (b : Byte) (i : Nat) :
    textAt (setText j b f) i = if i = j ∧ j < Config.textSize then b else textAt f i := by
  simp [textAt, setText, arrGet_set]
@[simp] theorem levelAt_setText (f : Finder) (j : Nat) (b : Byte) (i : Nat) : levelAt (setText j b f) i = levelAt f i := rfl
@[simp] theorem childcountAt_setText (f : Finder) (j : Nat) (b : Byte) (i : Nat) : childcountAt (setText j b f) i = childcountAt f i := rfl
@[simp] theorem positionAt_setText (f : Finder) (j : Nat) (b : Byte) (i : Nat) : positionAt (setText j b f) i = positionAt f i := rfl
@[simp] theorem parentAt_setText (f : Finder) (j : Nat) (b : Byte) (i : Nat) : parentAt (setText j b f) i = parentAt f i := rfl
@[simp] theorem prevAt_setText (f : Finder) (j : Nat) (b : Byte) (i : Nat) : prevAt (setText j b f) i = prevAt f i := rfl
@[simp] theorem nextAt_setText (f : Finder) (j : Nat) (b : Byte) (i : Nat) : nextAt (setText j b f) i = nextAt f i := rfl
@[simp] theorem setText_avail (f : Finder) (j : Nat) (b : Byte) : (setText j b f).avail = f.avail := rfl
@[simp] theorem setText_pos (f : Finder) (j : Nat) (b : Byte) : (setText j b f).pos = f.pos := rfl
@[simp] theorem setText_matchlen (f : Finder) (j : Nat) (b : Byte) : (setText j b f).matchlen = f.matchlen := rfl
@[simp] theorem setText_matchpos (f : Finder) (j : Nat) (b : Byte) : (setText j b f).matchpos = f.matchpos := rfl
@[simp] theorem setText_remainder (f : Finder) (j : Nat) (b : Byte) : (setText j b f).remainder = f.remainder := rfl

/-! ## setChildcount -/

@[simp] theorem textAt_setChildcount (f : Finder) (j v : Nat) (i : Nat) : textAt (setChildcount j v f) i = textAt f i := rfl
@[simp] theorem levelAt_setChildcount (f : Finder) (j v : Nat) (i : Nat) : levelAt (setChildcount j v f) i = levelAt f i := rfl
theorem childcountAt_setChildcount (f : Finder) (j v : Nat) (i : Nat) :
    childcountAt (setChildcount j v f) i = if i = j ∧ j < Config.nodeSize then v else childcountAt f i := by
  simp [childcountAt, setChildcount, arrGet_set]
@[simp] theorem positionAt_setChildcount (f : Finder) (j v : Nat) (i : Nat) : positionAt (setChildcount j v f) i = positionAt f i := rfl
@[simp] theorem parentAt_setChildcount (f : Finder) (j v : Nat) (i : Nat) : parentAt (setChildcount j v f) i = parentAt f i := rfl
@[simp] theorem prevAt_setChildcount (f : Finder) (j v : Nat) (i : Nat) : prevAt (setChildcount j v f) i = prevAt f i := rfl
@[simp] theorem nextAt_setChildcount (f : Finder) (j v : Nat) (i : Nat) : nextAt (setChildcount j v f) i = nextAt f i := rfl
@[simp] theorem setChildcount_avail (f : Finder) (j v : Nat) : (setChildcount j v f).avail = f.avail := rfl
@[simp] theorem setChildcount_pos (f : Finder) (j v : Nat) : (setChildcount j v f).pos = f.pos := rfl
@[simp] theorem setChildcount_matchlen (f : Finder) (j v : Nat) : (setChildcount j v f).matchlen = f.matchlen := rfl
@[simp] theorem setChildcount_matchpos (f : Finder) (j v : Nat) : (setChildcount j v f).matchpos = f.matchpos := rfl
@[simp] theorem setChildcount_remainder (f : Finder) (j v : Nat) : (setChildcount j v f).remainder = f.remainder := rfl

/-! ## setParent -/

@[simp] theorem textAt_setParent (f : Finder) (j v : Nat) (i : Nat) : textAt (setParent j v f) i = textAt f i := rfl
@[simp] theorem levelAt_setParent (f : Finder) (j v : Nat) (i : Nat) : levelAt (setParent j v f) i = levelAt f i := rfl
@[simp] theorem childcountAt_setParent (f : Finder) (j v : Nat) (i : Nat) : childcountAt (setParent j v f) i = childcountAt f i := rfl
@[simp] theorem positionAt_setParent (f : Finder) (j v : Nat) (i : Nat) : positionAt (setParent j v f) i = positionAt f i := rfl
theorem parentAt_setParent (f : Finder) (j v : Nat) (i : Nat) :
    parentAt (setParent j v f) i = if i = j ∧ j < Config.linkSize then v else parentAt f i := by
  simp [parentAt, setParent, arrGet_set]
@[simp] theorem prevAt_setParent (f : Finder) (j v : Nat) (i : Nat) : prevAt (setParent j v f) i = prevAt f i := rfl
@[simp] theorem nextAt_setParent (f : Finder) (j v : Nat) (i : Nat) : nextAt (setParent j v f) i = nextAt f i := rfl
@[simp] theorem setParent_avail (f : Finder) (j v : Nat) : (setParent j v f).avail = f.avail := rfl
@[simp] theorem setParent_pos (f : Finder) (j v : Nat) : (setParent j v f).pos = f.pos := rfl
@[simp] theorem setParent_matchlen (f : Finder) (j v : Nat) : (setParent j v f).matchlen = f.matchlen := rfl
@[simp] theorem setParent_matchpos (f : Finder) (j v : Nat) : (setParent j v f).matchpos = f.matchpos := rfl
@[simp] theorem setParent_remainder (f : Finder) (j v : Nat) : (setParent j v f).remainder = f.remainder := rfl

/-! ## setPrev -/

@[simp] theorem textAt_setPrev (f : Finder) (j v : Nat) (i : Nat) : textAt (setPrev j v f) i = textAt f i := rfl
@[simp] theorem levelAt_setPrev (f : Finder) (j v : Nat) (i : Nat) : levelAt (setPrev j v f) i = levelAt f i := rfl
@[simp] theorem childcountAt_setPrev (f : Finder) (j v : Nat) (i : Nat) : childcountAt (setPrev j v f) i = childcountAt f i := rfl
@[simp] theorem positionAt_setPrev (f : Finder) (j v : Nat) (i : Nat) : positionAt (setPrev j v f) i = positionAt f i := rfl
@[simp] theorem parentAt_setPrev (f : Finder) (j v : Nat) (i : Nat) : parentAt (setPrev j v f) i = parentAt f i := rfl
theorem prevAt_setPrev (f : Finder) (j v : Nat) (i : Nat) :
    prevAt (setPrev j v f) i = if i = j ∧ j < Config.linkSize then v else prevAt f i := by
  simp [prevAt, setPrev, arrGet_set]
@[simp] theorem nextAt_setPrev (f : Finder) (j v : Nat) (i : Nat) : nextAt (setPrev j v f) i = nextAt f i := rfl
@[simp] theorem setPrev_avail (f : Finder) (j v : Nat) : (setPrev j v f).avail = f.avail := rfl
@[simp] theorem setPrev_pos (f : Finder) (j v : Nat) : (setPrev j v f).pos = f.pos := rfl
@[simp] theorem setPrev_matchlen (f : Finder) (j v : Nat) : (setPrev j v f).matchlen = f.matchlen := rfl
@[simp] theorem setPrev_matchpos (f : Finder) (j v : Nat) : (setPrev j v f).matchpos = f.matchpos := rfl
@[simp] theorem setPrev_remainder (f : Finder) (j v : Nat) : (setPrev j v f).remainder = f.remainder := rfl

/-! ## setNext -/

@[simp] theorem textAt_setNext (f : Finder) (j v : Nat) (i : Nat) : textAt (setNext j v f) i = textAt f i := rfl
@[simp] theorem levelAt_setNext (f : Finder) (j v : Nat) (i : Nat) : levelAt (setNext j v f) i = levelAt f i := rfl
@[simp] theorem childcountAt_setNext (f : Finder) (j v : Nat) (i : Nat) : childcountAt (setNext j v f) i = childcountAt f i := rfl
@[simp] theorem positionAt_setNext (f : Finder) (j v : Nat) (i : Nat) : positionAt (setNext j v f) i = positionAt f i := rfl
@[simp] theorem parentAt_setNext (f : Finder) (j v : Nat) (i : Nat) : parentAt (setNext j v f) i = parentAt f i := rfl
@[simp] theorem prevAt_setNext (f : Finder) (j v : Nat) (i : Nat) : prevAt (setNext j v f) i = prevAt f i := rfl
theorem nextAt_setNext (f : Finder) (j v : Nat) (i : Nat) :
    nextAt (setNext j v f) i = if i = j ∧ j < Config.nextSize then v else nextAt f i := by
  simp [nextAt, setNext, arrGet_set]
@[simp] theorem setNext_avail (f : Finder) (j v : Nat) : (setNext j v f).avail = f.avail := rfl
@[simp] theorem setNext_pos (f : Finder) (j v : Nat) : (setNext j v f).pos = f.pos := rfl
@[simp] theorem setNext_matchlen (f : Finder) (j v : Nat) : (setNext j v f).matchlen = f.matchlen := rfl
@[simp] theorem setNext_matchpos (f : Finder) (j v : Nat) : (setNext j v f).matchpos = f.matchpos := rfl
@[simp] theorem setNext_remainder (f : Finder) (j v : Nat) : (setNext j v f).remainder = f.remainder := rfl

/-! ## setLevel -/

@[simp] theorem textAt_setLevel (f : Finder) (j v : Nat) (i : Nat) : textAt (setLevel j v f) i = textAt f i := rfl
theorem levelAt_setLevel (f : Finder) (j v : Nat) (i : Nat) :
    levelAt (setLevel j v f) i = if i = j ∧ j < Config.nodeSize then v % 2 ^ 8 else levelAt f i := by
  unfold levelAt setLevel
  rw [arrGet_set]
  split_ifs <;> simp
@[simp] theorem childcountAt_setLevel (f : Finder) (j v : Nat) (i : Nat) : childcountAt (setLevel j v f) i = childcountAt f i := rfl
@[simp] theorem positionAt_setLevel (f : Finder) (j v : Nat) (i : Nat) : positionAt (setLevel j v f) i = positionAt f i := rfl
@[simp] theorem parentAt_setLevel (f : Finder) (j v : Nat) (i : Nat) : parentAt (setLevel j v f) i = parentAt f i := rfl
@[simp] theorem prevAt_setLevel (f : Finder) (j v : Nat) (i : Nat) : prevAt (setLevel j v f) i = prevAt f i := rfl
@[simp] theorem nextAt_setLevel (f : Finder) (j v : Nat) (i : Nat) : nextAt (setLevel j v f) i = nextAt f i := rfl
@[simp] theorem setLevel_avail (f : Finder) (j v : Nat) : (setLevel j v f).avail = f.avail := rfl
@[simp] theorem setLevel_pos (f : Finder) (j v : Nat) : (setLevel j v f).pos = f.pos := rfl
@[simp] theorem setLevel_matchlen (f : Finder) (j v : Nat) : (setLevel j v f).matchlen = f.matchlen := rfl
@[simp] theorem setLevel_matchpos (f : Finder) (j v : Nat) : (setLevel j v f).matchpos = f.matchpos := rfl
@[simp] theorem setLevel_remainder (f : Finder) (j v : Nat) : (setLevel j v f).remainder = f.remainder := rfl

/-! ## setPosition -/

@[simp] theorem textAt_setPosition (f : Finder) (j : Nat) (b : Bool) (p : Nat) (i : Nat) : textAt (setPosition j b p f) i = textAt f i := rfl
@[simp] theorem levelAt_setPosition (f : Finder) (j : Nat) (b : Bool) (p : Nat) (i : Nat) : levelAt (setPosition j b p f) i = levelAt f i := rfl
@[simp] theorem childcountAt_setPosition (f : Finder) (j : Nat) (b : Bool) (p : Nat) (i : Nat) : childcountAt (setPosition j b p f) i = childcountAt f i := rfl
theorem positionAt_setPosition (f : Finder) (j : Nat) (b : Bool) (p : Nat) (i : Nat) :
    positionAt (setPosition j b p f) i = if i = j ∧ j < Config.nodeSize then percCell b p else positionAt f i := by
  simp [positionAt, setPosition, arrGet_set]
@[simp] theorem parentAt_setPosition (f : Finder) (j : Nat) (b : Bool) (p : Nat) (i : Nat) : parentAt (setPosition j b p f) i = parentAt f i := rfl
@[simp] theorem prevAt_setPosition (f : Finder) (j : Nat) (b : Bool) (p : Nat) (i : Nat) : prevAt (setPosition j b p f) i = prevAt f i := rfl
@[simp] theorem nextAt_setPosition (f : Finder) (j : Nat) (b : Bool) (p : Nat) (i : Nat) : nextAt (setPosition j b p f) i = nextAt f i := rfl
@[simp] theorem setPosition_avail (f : Finder) (j : Nat) (b : Bool) (p : Nat) : (setPosition j b p f).avail = f.avail := rfl
@[simp] theorem setPosition_pos (f : Finder) (j : Nat) (b : Bool) (p : Nat) : (setPosition j b p f).pos = f.pos := rfl
@[simp] theorem setPosition_matchlen (f : Finder) (j : Nat) (b : Bool) (p : Nat) : (setPosition j b p f).matchlen = f.matchlen := rfl
@[simp] theorem setPosition_matchpos (f : Finder) (j : Nat) (b : Bool) (p : Nat) : (setPosition j b p f).matchpos = f.matchpos := rfl
@[simp] theorem setPosition_remainder (f : Finder) (j : Nat) (b : Bool) (p : Nat) : (setPosition j b p f).remainder = f.remainder := rfl

/-! ## ReadInput's copy -/

/-- `m` source bytes from index `i` on stand in the window from `d` on; the rest of the window and the finder are as before. -/
theorem readLoop_spec (s : State) (m i d : Nat) (f : Finder) :
    readLoop s m i d f = { f with text := (readLoop s m i d f).text } ∧
    ∀ j, textAt (readLoop s m i d f) j
      = if d ≤ j ∧ j < d + m ∧ j < Config.textSize then srcGet s (i + (j - d)) else textAt f j := by
  induction m generalizing i d f with
  | zero => exact ⟨rfl, fun j => by rw [if_neg (by omega)]; rfl⟩
  | succ m ih =>
    obtain ⟨h1, h2⟩ := ih (i + 1) (d + 1) (setText d (srcGet s i) f)
    refine ⟨h1, fun j => ?_⟩
    rw [readLoop, h2, textAt_setText]
    generalize Config.textSize = z
    by_cases hj : j = d
    · subst hj
      rw [if_neg (by omega)]
      by_cases hz : j < z
      · rw [if_pos ⟨rfl, hz⟩, if_pos (by omega), Nat.sub_self, Nat.add_zero]
      · rw [if_neg (by omega), if_neg (by omega)]
    · by_cases hc : d + 1 ≤ j ∧ j < d + 1 + m ∧ j < z
      · have e : i + 1 + (j - (d + 1)) = i + (j - d) := by omega
        rw [if_pos hc, if_pos (by omega), e]
      · rw [if_neg hc, if_neg (by omega), if_neg (by omega)]

end Sys2Proof.Machine
end

