-- ==== Sys2Proof/Laws/PerInstr.lean ====
section
/-!
SUPPORT. Per instruction: how many bits its encoding takes (R110, R114, R116 to R119, R122, R124 to R127).
-/

namespace Sys2Proof.Laws.Width

/-- The width that 30_encoding.md gives an instruction, a symbol counted by its number. -/
def bitCount : Instr → Nat
  | .compress _ => 32
  | .decompress _ => 32
  | .illegalCmd _ => 32
  | .streamHeader _ _ => 64
  | .block _ => 16
  | .lit _ => 9
  | .matchCopy _ => 9
  | .pos c _ => 5 + (c.toNat - 1)
  | .zrun1 => 5
  | .zrunM _ => 9
  | .zrunL _ => 14
  | .len _ => 5
  | .lencode k => if k.toNat ≤ 6 then 3 else min (k.toNat - 3) 13

/-- A well-formed instruction is encoded in exactly its width, at most 64 bits. -/
def Statement (i : Instr) : Prop := WellFormed i = true → (encode i).length = bitCount i ∧ bitCount i ≤ 64

theorem compress (fmt : BitVec 8) : Statement (.compress fmt) := by
  intro _
  simp [encode, bitCount]

theorem decompress (fmt : BitVec 8) : Statement (.decompress fmt) := by
  intro _
  simp [encode, bitCount]

theorem illegalCmd (w : Word32) : Statement (.illegalCmd w) := by
  intro _
  simp [encode, bitCount]

theorem streamHeader (l o : Word32) : Statement (.streamHeader l o) := by
  intro _
  simp [encode, bitCount]

theorem block (size : Half) : Statement (.block size) := by
  intro _
  simp [encode, bitCount]

theorem lit (b : Byte) : Statement (.lit b) := by
  intro _
  simp [encode, bitCount]

theorem matchCopy (s : BitVec 9) : Statement (.matchCopy s) := by
  intro _
  simp [encode, bitCount]

theorem pos (c : BitVec 5) (e : BitVec 29) : Statement (.pos c e) := by
  intro _
  have hc : c.toNat < 32 := c.isLt
  refine ⟨by simp [encode, bitCount, posExtra], ?_⟩
  show 5 + (c.toNat - 1) ≤ 64
  omega

theorem zrun1 : Statement .zrun1 := by
  intro _
  simp [encode, bitCount]

theorem zrunM (r : BitVec 4) : Statement (.zrunM r) := by
  intro _
  simp [encode, bitCount]

theorem zrunL (r : BitVec 9) : Statement (.zrunL r) := by
  intro _
  simp [encode, bitCount]

theorem len (k : BitVec 5) : Statement (.len k) := by
  intro _
  simp [encode, bitCount]

theorem lencode (k : BitVec 5) : Statement (.lencode k) := by
  intro h
  have hk : k.toNat ≤ 17 := by simpa [WellFormed] using h
  simp only [encode, bitCount, Config.codeBit]
  split_ifs <;> simp <;> omega

end Sys2Proof.Laws.Width
end

