-- ==== Sys2Proof/Laws/Step.lean ====
section
/-!
SUPPORT. What a step of the machine can do: the engine's step, or one access of the host, and what each access and each command word leaves.
-/

namespace Sys2Proof.Machine

/-- A step is the engine's, or an access of the host, on the state less the turn taken. -/
theorem step_next {s t : State} (h : step s = .next t) :
    ∃ ag, engineStep { s with agenda := ag } = .next t ∨ ∃ op, hostStep op { s with agenda := ag } = .next t := by
  unfold step at h
  cases ha : s.agenda with
  | nil =>
    rw [ha] at h
    exact ⟨s.agenda, .inl h⟩
  | cons x rest =>
    rw [ha] at h
    cases x with
    | engine => exact ⟨rest, .inl h⟩
    | host op => exact ⟨rest, .inr ⟨op, h⟩⟩

theorem headerPlaceholder_rest (s : State) : headerPlaceholder s = { s with
    mem := (headerPlaceholder s).mem, accesses := (headerPlaceholder s).accesses } :=
  (headerPlaceholder_writesDst s).rest

theorem startCompress_rest (s : State) : startCompress s = { s with
    status := statusBusy, phase := .encFirst, enc := encStart s.enc, mem := (startCompress s).mem
    accesses := (startCompress s).accesses } := by
  unfold startCompress
  generalize encStart s.enc = e
  have h := headerPlaceholder_rest ({ startCommand .encFirst s with enc := e })
  generalize headerPlaceholder _ = t at h ⊢
  rw [h]
  rfl

/-- A command word is ignored while BUSY = 1; else it ends at once or starts its command. -/
theorem exec_decodeCmd_next {w : Word32} {s t : State} (h : exec (decodeCmd w) s = .next t) :
    (busy s = true ∧ t = s) ∨ (busy s = false ∧
      ((∃ c n, t = endCommand .invalidParameter 0 (acceptCmd c n s)) ∨
       (∃ c n, buffersBad s = false ∧ t = startCompress (acceptCmd c n s)) ∨
       (∃ c n u, buffersBad s = false ∧ u = startCommand .header (acceptCmd c n s) ∧
         t = { u with dec := { u.dec with bad := false } }))) := by
  have key : ∀ i, ((∃ fmt, i = .compress fmt) ∨ (∃ fmt, i = .decompress fmt) ∨ ∃ w, i = .illegalCmd w) →
      exec i s = .next t → (busy s = true ∧ t = s) ∨ (busy s = false ∧
      ((∃ c n, t = endCommand .invalidParameter 0 (acceptCmd c n s)) ∨
       (∃ c n, buffersBad s = false ∧ t = startCompress (acceptCmd c n s)) ∨
       (∃ c n u, buffersBad s = false ∧ u = startCommand .header (acceptCmd c n s) ∧
         t = { u with dec := { u.dec with bad := false } }))) := by
    intro i hi h
    cases hb : busy s with
    | true =>
      refine .inl ⟨rfl, ?_⟩
      rcases hi with ⟨f, rfl⟩ | ⟨f, rfl⟩ | ⟨w, rfl⟩
      · simp only [exec, execCompress, if_pos hb] at h
        exact (Host.Outcome.next.inj h).symm
      · simp only [exec, execDecompress, if_pos hb] at h
        exact (Host.Outcome.next.inj h).symm
      · simp only [exec, execIllegalCmd, if_pos hb] at h
        exact (Host.Outcome.next.inj h).symm
    | false =>
      have hn : ¬ busy s = true := by simp [hb]
      refine .inr ⟨rfl, ?_⟩
      rcases hi with ⟨f, rfl⟩ | ⟨f, rfl⟩ | ⟨w, rfl⟩
      · simp only [exec, execCompress, if_neg hn] at h
        split_ifs at h with hbad
        · exact .inl ⟨_, _, (Host.Outcome.next.inj h).symm⟩
        · have : buffersBad s = false := by
            simp only [Bool.or_eq_true, not_or, Bool.not_eq_true] at hbad
            exact hbad.1
          exact .inr (.inl ⟨_, _, this, (Host.Outcome.next.inj h).symm⟩)
      · simp only [exec, execDecompress, if_neg hn] at h
        split_ifs at h with hbad
        · exact .inl ⟨_, _, (Host.Outcome.next.inj h).symm⟩
        · have : buffersBad s = false := by
            simp only [decompressBad, Bool.or_eq_true, not_or, Bool.not_eq_true] at hbad
            exact hbad.1.2
          exact .inr (.inr ⟨_, _, _, this, rfl, (Host.Outcome.next.inj h).symm⟩)
      · simp only [exec, execIllegalCmd, if_neg hn] at h
        exact .inl ⟨_, _, (Host.Outcome.next.inj h).symm⟩
  refine key _ ?_ h
  unfold decodeCmd
  split_ifs
  · exact .inl ⟨_, rfl⟩
  · exact .inr (.inl ⟨_, rfl⟩)
  · exact .inr (.inr ⟨_, rfl⟩)
  · exact .inr (.inr ⟨_, rfl⟩)

/-- An access of the host changes its own fields, an operand register while BUSY = 0 or a byte of memory, resets, or writes a command word. -/
theorem host_next {op : HostOp} {s t : State} (h : hostStep op s = .next t) :
    (∃ ag bd un fc, t = { s with agenda := ag, busData := bd, unacquired := un, freeCtr := fc }) ∨
    (busy s = false ∧ ∃ a b c d, t = { s with srcAddr := a, srcLen := b, dstAddr := c, dstLen := d }) ∨
    (∃ a b, t = memSet s a b) ∨ t = hostReset s ∨ ∃ w, exec (decodeCmd w) s = .next t := by
  cases op with
  | regWrite addr width v =>
    simp only [hostStep, onRegister] at h
    split_ifs at h
    · cases h; exact .inl ⟨_, _, _, _, rfl⟩
    · cases h; exact .inl ⟨_, _, _, _, rfl⟩
    · cases hr : regAt (addr - s.base) width with
      | none => rw [hr] at h; cases h
      | some r =>
        rw [hr] at h
        cases r <;> simp only [hostRegWrite, writeOperand] at h
        · exact .inr (.inr (.inr (.inr ⟨_, h⟩)))
        · cases h
          exact .inl ⟨_, _, _, _, rfl⟩
        all_goals first
          | (cases h; exact .inl ⟨_, _, _, _, rfl⟩)
          | (split_ifs at h with hb
             cases h
             exact .inr (.inl ⟨by simpa using hb, _, _, _, _, rfl⟩))
  | regRead addr width =>
    simp only [hostStep, onRegister] at h
    split_ifs at h
    · cases h; exact .inl ⟨_, _, _, _, rfl⟩
    · cases h; exact .inl ⟨_, _, _, _, rfl⟩
    · cases hr : regAt (addr - s.base) width with
      | none => rw [hr] at h; cases h
      | some r =>
        rw [hr] at h
        have hrs : ∃ ag bd un fc, readStatus s = { s with agenda := ag, busData := bd, unacquired := un, freeCtr := fc } := by
          unfold readStatus deliver
          split_ifs <;> exact ⟨_, _, _, _, rfl⟩
        cases r <;> simp only [hostRegRead] at h
        all_goals first
          | (cases h; exact .inl hrs)
          | (split_ifs at h <;> cases h <;> exact .inl ⟨_, _, _, _, rfl⟩)
  | memWrite a b =>
    simp only [hostStep, hostMemWrite] at h
    split_ifs at h
    cases h; exact .inr (.inr (.inl ⟨_, _, rfl⟩))
  | memRead a =>
    simp only [hostStep, hostMemRead] at h
    split_ifs at h <;> cases h <;> exact .inl ⟨_, _, _, _, rfl⟩
  | pollDone =>
    simp only [hostStep, hostPoll] at h
    refine .inl ?_
    split_ifs at h with hd <;> cases h
    · simp only [readStatus, hd, if_true]; exact ⟨_, _, _, _, rfl⟩
    · simp only [readStatus, hd]; exact ⟨_, _, _, _, rfl⟩
  | reset =>
    simp only [hostStep] at h
    cases h; exact .inr (.inr (.inr (.inl rfl)))


end Sys2Proof.Machine
end

