-- ==== Sys2Proof/Laws/Tokens.lean ====
section
/-!
SUPPORT. The token buffer: what storing a token does to its bytes and to the frequencies (R256, R257).
-/

namespace Sys2Proof.Machine

/-- A write to the token buffer; one outside it does nothing. -/
theorem bufAt_setBuf (i : Nat) (b : Byte) (e : Enc) (j : Nat) :
    bufAt (setBuf i b e) j = if j = i ∧ i < Config.bufSize then b else bufAt e j := arrGet_set _ _ _ _ _

/-- The byte put at the end of the token buffer. -/
theorem bufAt_pushBuf (b : Byte) (e : Enc) (j : Nat) :
    bufAt (pushBuf b e) j = if j = e.outputpos ∧ e.outputpos < Config.bufSize then b else bufAt e j := arrGet_set _ _ _ _ _

/-- Counting a symbol adds 1 to its 16-bit frequency. -/
theorem freqAt_countSym {a : Nat} (freq : Arr a Half) {i : Nat} (j : Nat) (h : i < a) :
    freqAt (countSym freq i) j = if j = i then (freqAt freq i + 1) % 2 ^ 16 else freqAt freq j := by
  unfold freqAt countSym
  rw [arrGet_set_lt _ _ _ _ h]
  split_ifs
  · exact BitVec.toNat_add _ _
  · rfl

/-- A literal takes one byte of the buffer. -/
theorem storeToken_lit {c : Nat} (p : Nat) (e : Enc) (h : c < 256) :
    storeToken c p e = { pushBuf (BitVec.ofNat 8 c) e with cfreq := countSym e.cfreq c } := by
  simp only [storeToken, if_neg (Nat.not_le.mpr h)]
  rfl

/-- The bytes of a match in the buffer: its length, its flag and its position value. -/
def matchBytes (c p : Nat) (e : Enc) : Enc :=
  pushBuf (BitVec.ofNat 8 p) (pushBuf (BitVec.ofNat 8 (p / 2 ^ 8)) (pushBuf (BitVec.ofNat 8 (p / 2 ^ 16))
    (pushBuf (BitVec.ofNat 8 (p / 2 ^ 24)) (setBuf e.cpos (bufAt (pushBuf (BitVec.ofNat 8 c) e) e.cpos ||| e.outputmask)
      (pushBuf (BitVec.ofNat 8 c) e)))))

/-- A match takes five bytes and counts two symbols. -/
theorem storeToken_match {c : Nat} (p : Nat) (e : Enc) (h : 256 ≤ c) :
    storeToken c p e = { matchBytes c p e with cfreq := countSym e.cfreq c, pfreq := countSym e.pfreq (bitlen p) } := by
  simp only [storeToken, if_pos h, matchBytes, pushBuf, setBuf, bufAt]

/-- Nothing else changes. -/
theorem matchBytes_only (c p : Nat) (e : Enc) :
    matchBytes c p e = { e with buf := (matchBytes c p e).buf, outputpos := e.outputpos + 5 } := by
  simp only [matchBytes, pushBuf, setBuf]

/-- Byte `i` of a number, as a shift by bits. -/
theorem byteOf_eq (v i : Nat) : byteOf v i = BitVec.ofNat 8 (v / 2 ^ (8 * i)) := by
  rw [byteOf, Nat.pow_mul]

/-- Every byte of the buffer after a match. -/
theorem matchBytes_spec (c p : Nat) (e : Enc) (h1 : e.cpos < e.outputpos) (h2 : e.outputpos + 5 ≤ Config.bufSize) (j : Nat) :
    bufAt (matchBytes c p e) j
      = if j = e.outputpos then BitVec.ofNat 8 c
        else if j = e.cpos then bufAt e e.cpos ||| e.outputmask
        else if e.outputpos < j ∧ j < e.outputpos + 5 then byteOf p (3 - (j - (e.outputpos + 1)))
        else bufAt e j := by
  have e1 : ∀ b e, (pushBuf b e).outputpos = e.outputpos + 1 := fun _ _ => rfl
  have e2 : ∀ i b e, (setBuf i b e).outputpos = e.outputpos := fun _ _ _ => rfl
  unfold matchBytes
  simp only [bufAt_pushBuf, bufAt_setBuf, e1, e2, byteOf_eq]
  generalize Config.bufSize = z at h2 ⊢
  rw [if_neg (show ¬ (e.cpos = e.outputpos ∧ e.outputpos < z) by omega)]
  by_cases h4 : j = e.outputpos + 4
  · rw [if_pos (by omega), if_neg (by omega), if_neg (by omega), if_pos (by omega), show 3 - (j - (e.outputpos + 1)) = 0 by omega]
    simp
  · rw [if_neg (by omega)]
    by_cases h5 : j = e.outputpos + 3
    · rw [if_pos (by omega), if_neg (by omega), if_neg (by omega), if_pos (by omega), show 3 - (j - (e.outputpos + 1)) = 1 by omega]
    · rw [if_neg (by omega)]
      by_cases h6 : j = e.outputpos + 2
      · rw [if_pos (by omega), if_neg (by omega), if_neg (by omega), if_pos (by omega), show 3 - (j - (e.outputpos + 1)) = 2 by omega]
      · rw [if_neg (by omega)]
        by_cases h7 : j = e.outputpos + 1
        · rw [if_pos (by omega), if_neg (by omega), if_neg (by omega), if_pos (by omega), show 3 - (j - (e.outputpos + 1)) = 3 by omega]
        · rw [if_neg (by omega)]
          by_cases h8 : j = e.cpos
          · rw [if_pos (by omega), if_neg (by omega), if_pos h8]
          · rw [if_neg (by omega)]
            by_cases h9 : j = e.outputpos
            · rw [if_pos (by omega), if_pos h9]
            · rw [if_neg (by omega), if_neg h9, if_neg h8, if_neg (by omega)]

/-- The P symbol of a position value is one of the alphabet. -/
theorem bitlen_lt {p : Nat} (h : p < 2 ^ 19) : bitlen p < Config.pfreqSize := by
  have : bitlen p ≤ 19 := by
    unfold bitlen
    split_ifs with h0
    · omega
    · have := (Nat.log2_lt h0).mpr h
      omega
  exact Nat.lt_of_le_of_lt this (by decide)

/-- Storing a match, where the buffer has room for it. -/
theorem tokenStored_match {c p : Nat} {s : State} (h : 256 ≤ c) (hc : c < 510) (hp : p < 2 ^ 19) (h1 : s.enc.cpos < s.enc.outputpos)
    (h2 : s.enc.outputpos + 5 ≤ Config.bufSize) : TokenStored c p s { s with enc := storeToken c p s.enc } := by
  have hcf : c < Config.cfreqSize := Nat.lt_of_lt_of_le hc (by decide)
  have hm := matchBytes_only c p s.enc
  have hb := matchBytes_spec c p s.enc h1 h2
  rw [storeToken_match p s.enc h]
  generalize matchBytes c p s.enc = m at hm hb
  rw [hm]
  unfold TokenStored
  simp only [if_pos h, bufAt]
  simp only [bufAt] at hb
  refine ⟨trivial, ?_, ?_, fun _ i hi => ?_, fun i h3 h4 => ?_, fun i => freqAt_countSym _ _ hcf, fun i => ?_⟩
  · rw [hb, if_pos rfl]
  · rw [hb, if_neg (Nat.ne_of_lt h1), if_pos rfl]
  · rw [hb, if_neg (by omega), if_neg (by omega), if_pos (by omega)]
    congr 1
    omega
  · rw [hb, if_neg (by omega), if_neg h3, if_neg (by omega)]
  · rw [freqAt_countSym _ _ (bitlen_lt hp)]
    by_cases hi : i = bitlen p
    · rw [if_pos hi, if_pos ⟨h, hi⟩, hi]
    · rw [if_neg hi, if_neg fun h => hi h.2]

/-- Storing a literal, where the buffer has room for it. -/
theorem tokenStored_lit {c : Nat} (p : Nat) {s : State} (h : c < 256) (h1 : s.enc.cpos < s.enc.outputpos)
    (h2 : s.enc.outputpos + 1 ≤ Config.bufSize) : TokenStored c p s { s with enc := storeToken c p s.enc } := by
  have hn : ¬ 256 ≤ c := Nat.not_le.mpr h
  have hcf : c < Config.cfreqSize := Nat.lt_of_lt_of_le h (by decide)
  have hb := bufAt_pushBuf (BitVec.ofNat 8 c) s.enc
  rw [storeToken_lit p s.enc h]
  unfold TokenStored
  simp only [if_neg hn, pushBuf, setBuf]
  simp only [pushBuf, setBuf, bufAt] at hb
  simp only [bufAt]
  refine ⟨trivial, ?_, ?_, fun h' => absurd h' hn, fun i h3 h4 => ?_, fun i => freqAt_countSym _ _ hcf, fun i => ?_⟩
  · rw [hb, if_pos ⟨rfl, by omega⟩]
  · rw [hb, if_neg (by omega)]
  · rw [hb, if_neg (by omega)]
  · rw [if_neg fun h' => hn h'.1]
end Sys2Proof.Machine
end

