-- ==== Sys2Proof/Tests/Slice0.lean ====
section
/-!
SUPPORT. The model's own tests: ill-formed terms, words written out from the spec's encodings, one small step per instruction with results from
95_test_vectors.md or worked out from the rule, and for each statement with hypotheses a witness that meets them.
-/

namespace Sys2Proof.Tests

open Sys2Proof Sys2Proof.Machine

/-! ## Small states -/

/-- Idle, with a source of 16 bytes at 0x1000 and a destination of 16 bytes at 0x2000. -/
def idle16 : State :=
  { State.reset with srcAddr := 0x1000#64, srcLen := 16#64, dstAddr := 0x2000#64, dstLen := 16#64 }

/-- A DECOMPRESS that stands at `p`: 4 of 16 bytes are written, the last of them 0x41, and the stream has 4 bytes. -/
def dec16 (p : Phase) : State :=
  { idle16 with
    status := statusBusy, phase := p, cmd := 0x202#32
    dec := { Dec.reset with origsize := 16, compsizeIn := 4, out := 4, blocksize := 5#16 }
    mem := [(0x2003, 0x41#8)] }

/-- The same with the bytes of a stream that starts with 0xB4 0x00. -/
def decB4 (p : Phase) : State := { dec16 p with mem := [(0x1008, 0xB4#8), (0x1009, 0x00#8), (0x2003, 0x41#8)] }

/-- The same, reading list `k` of which `i` of `c` lengths are known, all 0. -/
def decList (p : Phase) (k : ListKind) (i c : Nat) : State :=
  { decB4 p with dec := { (decB4 p).dec with list := k, idx := i, count := c, lens := List.replicate (listSize k) 0 } }

/-- A running COMPRESS at `p` with encoder state `e`. -/
def enc16 (p : Phase) (e : Enc) : State := { idle16 with status := statusBusy, phase := p, cmd := 1#32, enc := e }

/-- The status of the next state, if there is one. -/
def statusOf : Host.Outcome State Fault Refusal → Option Word32
  | .next t => some t.status
  | .fault _ => none
  | .refused _ => none

/-- The array with the given listed entries. -/
def arrOf {n : Nat} {α : Type} (l : List (Nat × α)) : Arr n α :=
  l.filterMap fun p => if h : p.1 < n then some (⟨p.1, h⟩, p.2) else none

/-- The listed entries of an array. -/
def listed {n : Nat} {α : Type} (l : Arr n α) : List (Nat × α) := l.map fun p => (p.1.val, p.2)

/-- A field of the next state, if there is one. -/
def fieldOf {α : Type} (f : State → α) : Host.Outcome State Fault Refusal → Option α
  | .next t => some (f t)
  | .fault _ => none
  | .refused _ => none

/-! ## The sizes of the internal storage -/

/-- R23: 2W + M = 1,048,832 and MAX_HASH_VAL = 1,834,239. -/
theorem test_sizes : Config.textSize = 1048832 ∧ Config.nextSize = 1834239 + 1 ∧ Config.NPT = 20 := by decide

/-- R37: the last byte of the window is one, and the index above it is none. -/
theorem test_window_end :
    textAt (setText 1048831 0x61#8 Finder.reset) 1048831 = 0x61#8 ∧ setText 1048832 0x61#8 Finder.reset = Finder.reset := by decide

/-! ## WellFormed refuses -/

theorem test_wf_illegal_cmd_is_not_legal : WellFormed (.illegalCmd 0x00000202#32) = false := by decide
theorem test_wf_match_below : WellFormed (.matchCopy 255#9) = false := by decide
theorem test_wf_match_above : WellFormed (.matchCopy 510#9) = false := by decide
theorem test_wf_pos_symbol : WellFormed (.pos 31#5 0#29) = false := by decide
theorem test_wf_pos_extra : WellFormed (.pos 3#5 4#29) = false := by decide
theorem test_wf_len_low : WellFormed (.len 0#5) = false := by decide
theorem test_wf_len_high : WellFormed (.len 17#5) = false := by decide
theorem test_wf_lencode : WellFormed (.lencode 18#5) = false := by decide

/-! ## Decoding: words written out from 30_encoding.md -/

/-- R111: OP = 0x01, FMT = 0xA5 ignored. -/
theorem test_decode_compress : decodeCmd 0x0000A501#32 = .compress 0xA5#8 := by decide

/-- R111: OP = 0x02, FMT = 2. -/
theorem test_decode_decompress : decodeCmd 0x00000202#32 = .decompress 2#8 := by decide

/-- R112 and vectors P5, P6: OP = 3; RSVD = 1. -/
theorem test_decode_illegal : decodeCmd 3#32 = .illegalCmd 3#32 ∧ decodeCmd 0x00010002#32 = .illegalCmd 0x00010002#32 := by
  decide

/-- Section 1's header bytes 0B 00 00 00 0A 00 00 00: L = 11, O = 10. -/
theorem test_decode_header :
    decode .header ([false, false, false, false, true, false, true, true] ++ List.replicate 24 false
      ++ [false, false, false, false, true, false, true, false] ++ List.replicate 24 false) = .ok (.streamHeader 11#32 10#32) [] := by
  decide

/-- R116: SIZE is 16 bits, most significant first. -/
theorem test_decode_block :
    decode .block ([true] ++ List.replicate 14 false ++ [false, true]) = .ok (.block 0x8000#16) [true] := by decide

/-- R124: C symbol 001000001 is the literal 0x41. -/
theorem test_decode_lit :
    decode .csym [false, false, true, false, false, false, false, false, true] = .ok (.lit 0x41#8) [] := by decide

/-- R124: C symbol 100000110 = 262; 111111101 = 509 is the last match; 111111110 = 510 is none. -/
theorem test_decode_match :
    decode .csym [true, false, false, false, false, false, true, true, false] = .ok (.matchCopy 262#9) [] ∧
    decode .csym [true, true, true, true, true, true, true, false, true] = .ok (.matchCopy 509#9) [] ∧
    decode .csym [true, true, true, true, true, true, true, true, false] = .bad .cSymbolOutside := by decide

/-- 95 section 2.1: p = 7 is P symbol 3 with extra bits 11; P symbol 31 is none. -/
theorem test_decode_pos :
    decode .psym [false, false, false, true, true, true, true, false] = .ok (.pos 3#5 3#29) [false] ∧
    decode .psym [true, true, true, true, true] = .bad .pSymbolOutside := by decide

/-- R125: T symbols 0, 1 (4 bits), 2 (9 bits), 18 and 19. -/
theorem test_decode_t :
    decode .tsym [false, false, false, false, false] = .ok .zrun1 [] ∧
    decode .tsym [false, false, false, false, true, false, true, false, true] = .ok (.zrunM 5#4) [] ∧
    decode .tsym [false, false, false, true, false, false, false, false, true, false, true, true, false, true] = .ok (.zrunL 45#9) [] ∧
    decode .tsym [true, false, false, true, false] = .ok (.len 16#5) [] ∧
    decode .tsym [true, false, false, true, true] = .bad .tSymbolOutside := by decide

/-- R118 and 95 section 2.1: 6 is 110, 7 is 1110, 16 is 1111111111110; thirteen ones are over-long (R306). -/
theorem test_decode_lencode :
    decode .lencode [true, true, false, true] = .ok (.lencode 6#5) [true] ∧
    decode .lencode [true, true, true, false] = .ok (.lencode 7#5) [] ∧
    decode .lencode (List.replicate 12 true ++ [false]) = .ok (.lencode 16#5) [] ∧
    decode .lencode (List.replicate 13 true) = .ok (.lencode 17#5) [] := by decide

/-! ## The commands -/

/-- R291 and program 4.1: STATUS reads 0x01, and the header placeholder is written. -/
theorem test_compress_starts :
    fieldOf (fun t => (t.status, t.phase, t.cmd, memGet t 0x2000, memGet t 0x2007, memGet t 0x2008)) (exec (.compress 0#8) idle16)
      = some (1#32, .encFirst, 1#32, 0#8, 0#8, 0xEE#8) := by decide

/-- R92: a source that touches the destination is none that overlaps it; one byte more overlaps. -/
theorem test_compress_overlap :
    statusOf (exec (.compress 0#8) { idle16 with dstAddr := 0x1010#64 }) = some 1#32 ∧
    statusOf (exec (.compress 0#8) { idle16 with dstAddr := 0x100F#64 }) = some 0x32#32 := by decide

/-- Vector P1 and P2. -/
theorem test_decompress_parameters :
    fieldOf (fun t => (t.status, t.cmd, t.resultLen)) (exec (.decompress 3#8) idle16) = some (0x32#32, 0x302#32, 0#64) ∧
    statusOf (exec (.decompress 2#8) { idle16 with srcLen := 7#64 }) = some 0x32#32 := by decide

/-- R331: the header is read next. -/
theorem test_decompress_starts :
    fieldOf (fun t => (t.status, t.phase, t.cmd)) (exec (.decompress 1#8) { idle16 with srcLen := 8#64 })
      = some (1#32, .header, 0x102#32) := by decide

/-- Program 4.4: STATUS 0x32 at once, RESULT_LEN 0, CMD reads 3. -/
theorem test_illegal_ends :
    fieldOf (fun t => (t.status, t.resultLen, t.cmd)) (exec (.illegalCmd 3#32) { idle16 with resultLen := 9#64 })
      = some (0x32#32, 0#64, 3#32) := by decide

/-! ## The header and the lists -/

/-- R330: check 4 passes at 8 + L = SRC_LEN and fails one above (vector P3); check 5 is vector P4. -/
theorem test_header_checks :
    fieldOf (fun t => (t.status, t.phase)) (exec (.streamHeader 8#32 16#32) (dec16 .header)) = some (1#32, .sym) ∧
    statusOf (exec (.streamHeader 9#32 16#32) (dec16 .header)) = some 0x32#32 ∧
    statusOf (exec (.streamHeader 8#32 15#32) (dec16 .header)) = some 0x32#32 := by decide

/-- Vector S4: O = 0 ends with SUCCESS and RESULT_LEN 0. -/
theorem test_header_empty :
    fieldOf (fun t => (t.status, t.resultLen)) (exec (.streamHeader 8#32 0#32) { dec16 .header with dstLen := 0#64 })
      = some (0x02#32, 0#64) := by decide

/-- Vector E1: SIZE = 0 is INVALID_DATA; RESULT_LEN is out. -/
theorem test_block_zero :
    fieldOf (fun t => (t.status, t.resultLen, t.dec.bad)) (exec (.block 0#16) (dec16 .sym)) = some (0x22#32, 4#64, true) := by
  decide

/-- R300: the T list comes first. -/
theorem test_block_lists :
    fieldOf (fun t => (t.phase, t.dec.list, t.dec.blocksize)) (exec (.block 0x8000#16) (dec16 .sym))
      = some (.count, .tList, 0x8000#16) := by decide

/-- Vector E5: the bits 10110 give a T count of 22 > 19; as a 4-bit P count 1011 they give 11 lengths to read. -/
theorem test_count_above :
    (readCount (decList .count .tList 0 0)).status = 0x22#32 ∧
    (readCount { decList .count .pList 0 0 with dec := { (decList .count .pList 0 0).dec with pbit := 4 } }).phase = .ptLen := by
  decide

/-- R311: one zero; the list goes on. -/
theorem test_zrun1 :
    fieldOf (fun t => (t.dec.idx, t.phase)) (exec .zrun1 (decList .cLen .cList 7 9)) = some (8, .cLen) := by decide

/-- R311 and 95 section 2.5: extension 5 is a run of 8. -/
theorem test_zrunM :
    fieldOf (fun t => (t.dec.idx, t.phase)) (exec (.zrunM 5#4) (decList .cLen .cList 7 16)) = some (15, .cLen) := by decide

/-- R311, R313: extension 45 is a run of 65; a run past symbol 509 stops at 510, and all lengths 0 are incomplete. -/
theorem test_zrunL :
    fieldOf (fun t => t.dec.idx) (exec (.zrunL 45#9) (decList .cLen .cList 0 263)) = some 65 ∧
    fieldOf (fun t => (t.dec.idx, t.status)) (exec (.zrunL 511#9) (decList .cLen .cList 500 510)) = some (510, 0x22#32) := by
  decide +kernel

/-- R311: the length is stored at i. -/
theorem test_len :
    fieldOf (fun t => (t.dec.idx, t.dec.lens.getD 65 0)) (exec (.len 16#5) (decList .cLen .cList 65 263)) = some (66, 16) := by decide

/-- R305, R312: [1, 1] is complete, and the T table is stored; vector E2: [1] is not. -/
theorem test_lencode_ends_list :
    fieldOf (fun t => (t.phase, t.dec.list, t.dec.tTab)) (exec (.lencode 1#5) { decList .ptLen .tList 1 2 with
      dec := { (decList .ptLen .tList 1 2).dec with lens := (List.replicate 19 0).set 0 1 } })
      = some (.count, .cList, .regular (1 :: 1 :: List.replicate 17 0)) ∧
    statusOf (exec (.lencode 1#5) (decList .ptLen .tList 0 1)) = some 0x22#32 := by decide

/-- R305: after index 2 of the T list the field 10 skips two; R306: 17 is INVALID_DATA. -/
theorem test_lencode_skip :
    fieldOf (fun t => (t.dec.idx, t.dec.rpos)) (exec (.lencode 2#5) (decList .ptLen .tList 2 8)) = some (5, 2) ∧
    fieldOf (fun t => (t.dec.idx, t.dec.rpos)) (exec (.lencode 2#5) (decList .ptLen .pList 2 8)) = some (3, 0) ∧
    statusOf (exec (.lencode 17#5) (decList .ptLen .tList 2 8)) = some 0x22#32 := by decide

/-! ## The symbols -/

/-- R321: byte 0x42 at destination index 4. -/
theorem test_lit :
    fieldOf (fun t => (memGet t 0x2004, t.dec.out, t.phase)) (exec (.lit 0x42#8) (dec16 .sym)) = some (0x42#8, 5, .sym) := by decide

/-- R390: the write is recorded; R89: the header's bytes are read in order. -/
theorem test_accesses :
    fieldOf (fun t => t.accesses) (exec (.lit 0x42#8) (dec16 .sym)) = some [.write 0x2004 0x42#8] ∧
    (match fetchHeader (decB4 .header) with | .run _ t => t.accesses.map readAddr | _ => [])
      = [some 0x1007, some 0x1006, some 0x1005, some 0x1004, some 0x1003, some 0x1002, some 0x1001, some 0x1000] := by decide

/-- R166, R89: the first bit of a byte reads it, the others do not read it again; past the stream's end nothing is read. -/
theorem test_stream_reads :
    (skipBits 1 (decB4 .sym)).accesses = [.read 0x1008 0xB4#8] ∧ (skipBits 7 (skipBits 1 (decB4 .sym))).accesses = [.read 0x1008 0xB4#8] ∧
    (skipBits 9 (decB4 .sym)).accesses = [.read 0x1009 0x00#8, .read 0x1008 0xB4#8] ∧ (skipBits 99 (decB4 .sym)).accesses.length = 4 := by
  decide

/-- R324: the last byte ends the command. -/
theorem test_lit_last :
    fieldOf (fun t => (t.status, t.resultLen, t.phase)) (exec (.lit 0x42#8) { dec16 .sym with
      dec := { (dec16 .sym).dec with origsize := 5 } }) = some (0x02#32, 5#64, .idle) := by decide

/-- R322: p = 0 repeats the byte 0x41; R323 and S1: the match is cut off at origsize. -/
theorem test_match :
    fieldOf (fun t => (memGet t 0x2004, memGet t 0x200C, memGet t 0x200D, t.dec.out)) (exec (.matchCopy 262#9) (dec16 .copy))
      = some (0x41#8, 0x41#8, 0xEE#8, 13) ∧
    fieldOf (fun t => (t.status, t.resultLen)) (exec (.matchCopy 509#9) (dec16 .copy)) = some (0x02#32, 16#64) := by decide

/-- Vector E7: a source before the start of the output, here out - p - 1 = 4 - 4 - 1. -/
theorem test_match_before_start :
    fieldOf (fun t => (t.status, t.resultLen, memGet t 0x2004)) (exec (.matchCopy 262#9) { dec16 .copy with
      dec := { (dec16 .copy).dec with pval := 4 } }) = some (0x22#32, 4#64, 0xEE#8) := by decide

/-- 95 section 2.1: c = 12 with extra bits 0 is 2048; c = 1 is 1. -/
theorem test_pos :
    fieldOf (fun t => (t.dec.pval, t.phase)) (exec (.pos 12#5 0#29) (dec16 .pos)) = some (2048, .copy) ∧
    fieldOf (fun t => t.dec.pval) (exec (.pos 1#5 0#29) (dec16 .pos)) = some 1 := by decide

/-! ## The codecs' parts -/

/-- R167: 0xB4 0x00 read as 5 bits, then 3. -/
theorem test_get_bits :
    (getBits 5 (decB4 .sym)).1 = 22 ∧ (getBits 3 (getBits 5 (decB4 .sym)).2).1 = 4 := by decide

/-- R168 and R335: lengths 1 and 1 give the first symbol on bit 0 and the second on bit 1; 0xB4 starts with a 1. -/
theorem test_decode_symbol :
    (decodeSymbol 4 (.regular [0, 1, 0, 1]) (decB4 .sym)).map (fun x => (x.1, x.2.dec.rpos)) = some (3, 1) := by decide

/-- 40_bitstream.md R161: PutBits(16, 2), PutBits(5, 4) emit 00 02 and leave 0b00100000 with 3 slots free. -/
theorem test_put_bits :
    let t := putBits 5 4 (putBits 16 2 (enc16 .encEnd Enc.reset))
    (memGet t 0x2008, memGet t 0x2009, t.enc.subbitbuf, t.enc.bitcount, t.enc.compsize) = (0#8, 2#8, 0x20#8, 3, 2) := by
  decide

/-- 95 section 2.1: PutBits(3, 5), PutBits(7, 0x7F), PutBits(1, 1), FlushBits emit BF E0. -/
theorem test_flush_bits :
    let t := flushBits (putBits 1 1 (putBits 7 0x7F (putBits 3 5 (enc16 .encEnd Enc.reset))))
    (memGet t 0x2008, memGet t 0x2009, t.enc.compsize) = (0xBF#8, 0xE0#8, 2) := by decide

/-- 95 section 2.2.1. -/
theorem test_hash :
    hash 1 0#8 = 0x100001 ∧ hash 0x80041 0x42#8 = 0x190841 ∧ hash 0x800FF 0xFF#8 = 0x1BFCFF := by decide

/-- The frequency table with the given nonzero entries. -/
def freqOf {n : Nat} (l : List (Nat × Nat)) : Arr n Half := arrOf (l.map fun x => (x.1, BitVec.ofNat 16 x.2))

/-- 95 section 2.3: five equal frequencies (the tie rule). -/
theorem test_tree_ties :
    let t : TreeOut Config.tfreqSize Config.NPT := makeTree 19 (freqOf [(0, 1), (1, 1), (2, 1), (3, 1), (4, 1)]) [] [] Huff.reset
    (t.root, listed t.len, listed t.code, t.huff.sortorder)
      = (22, [(0, 3), (1, 2), (2, 2), (3, 2), (4, 3)], [(0, 6#16), (2, 1#16), (3, 2#16), (4, 7#16)], [0, 4, 1, 3, 2]) := by
  decide +kernel

/-- 95 section 2.3: the degenerate alphabet {300: 7}. -/
theorem test_tree_degenerate :
    let t : TreeOut Config.cfreqSize Config.NC := makeTree 510 (freqOf [(300, 7)]) (arrOf [(300, 5)]) [] Huff.reset
    (t.root, t.len) = (300, []) := by decide +kernel

/-- 95 section 2.1: WritePTLen of [2, 2, 1] is 00011 010 010 001 11. -/
theorem test_write_pt_len :
    writePTLen (arrOf (n := Config.NPT) [(0, 2), (1, 2), (2, 1)]) 19 5 (some 3) = [(5, 3), (3, 2), (3, 2), (3, 1), (2, 3)] := by decide

/-- R273 and 95 section 2.1: runs of 2, 18, 19 and 300 zeros. -/
theorem test_zero_runs :
    runSyms (0, 2) = [(0, (0, 0)), (0, (0, 0))] ∧ runSyms (0, 18) = [(1, (4, 15))] ∧
    runSyms (0, 19) = [(0, (0, 0)), (1, (4, 15))] ∧ runSyms (0, 300) = [(2, (9, 280))] := by decide

/-! ## The host -/

/-- Program 4.1's first write, and 93 U2: a 32-bit access to a 64-bit register. -/
theorem test_register_write :
    fieldOf (fun t => t.srcAddr) (hostStep (.regWrite 8 64 0x1000#64) State.reset) = some 0x1000#64 ∧
    hostStep (.regWrite 8 32 0x1000#64) State.reset = .refused .partialRegisterAccess := ⟨by decide, rfl⟩

/-- R393: RESULT_LEN is read as the command left it once DONE has been read. -/
theorem test_result_after_done :
    (fieldOf (fun t => t.unacquired) (exec (.illegalCmd 3#32) idle16)) = some [(0x2000, 0)] ∧
    fieldOf (fun t => (t.busData, t.unacquired)) (hostStep (.regRead 4 32) { idle16 with
      status := 0x32#32, unacquired := [(0x2000, 0)] }) = some (0x32#64, []) := by decide

/-- R82: registers stand at BASE; nothing is decoded at BASE + 0x30 or below BASE. -/
theorem test_base :
    fieldOf (fun t => t.srcLen) (hostStep (.regWrite 0x4010 64 5#64) { State.reset with base := 0x4000 }) = some 5#64 ∧
    fieldOf (fun t => t.busData) (hostStep (.regRead 0x4030 64) { idle16 with base := 0x4000 }) = some 0#64 ∧
    fieldOf (fun t => t.freeCtr) (hostStep (.regRead 0x3FFF 64) { idle16 with base := 0x4000 }) = some 1 := by decide

/-- Placed words run as the first instruction after reset: P5, R321, R322, R311, R114. -/
theorem test_fetch_word :
    statusOf (step (State.reset.withFetchWord 32 3)) = some 0x32#32 ∧
    fieldOf (fun t => memGet t 0) (step (State.reset.withFetchWord 16 0x41)) = some 0x41#8 ∧
    statusOf (step (State.reset.withFetchWord 16 0x106)) = some 0x22#32 ∧
    fieldOf (fun t => t.dec.idx) (step (State.reset.withFetchWord 8 1)) = some 3 ∧
    fieldOf (fun t => t.dec.compsizeIn) (step (State.reset.withFetchWord 64 0x0000000A0000000B)) = some 11 := by decide

/-! ## Witnesses: states and operands that meet the hypotheses of the statements -/

theorem witness_DecodeEncodeRoundTrip :
    WellFormed (.illegalCmd 0xFFFFFFFF#32) = true ∧ WellFormed (.matchCopy 509#9) = true ∧
    WellFormed (.pos 30#5 0x1FFFFFFF#29) = true ∧ WellFormed (.len 16#5) = true ∧ WellFormed (.lencode 17#5) = true := by decide

theorem witness_IllegalCommandEndsAtOnce :
    ((0#32).extractLsb' 0 8 ≠ 1#8 ∧ (0#32).extractLsb' 0 8 ≠ 2#8) ∧ (0x00010001#32).extractLsb' 16 16 ≠ 0#16 ∧ busy idle16 = false := by
  decide

theorem witness_CommandWordStoredUnlessBusy :
    (placeCommand 0x202 idle16).agenda = .host (.regWrite 0 32 0x202#64) :: [] ∧ busy (placeCommand 0x202 idle16) = false ∧
    busy (placeCommand 3 (dec16 .sym)) = true := by decide

/-- An idle engine with a source of `n` bytes at 0x1000 and an empty destination above it. -/
def longSource (n : Nat) : State := { idle16 with srcLen := BitVec.ofNat 64 n, dstAddr := 0x200000000#64, dstLen := 0#64 }

theorem witness_CompressStarts :
    busy (longSource (2 ^ 32 - 1)) = false ∧ buffersBad (longSource (2 ^ 32 - 1)) = false ∧
    (longSource (2 ^ 32 - 1)).srcLen.toNat ≤ 2 ^ 32 - 1 := by decide

theorem witness_CompressRejectsLongSource :
    busy (longSource (2 ^ 32)) = false ∧ 2 ^ 32 - 1 < (longSource (2 ^ 32)).srcLen.toNat := by decide

theorem witness_DecompressStarts : busy (longSource 8) = false ∧ buffersBad (longSource 8) = false ∧ 8 ≤ (longSource 8).srcLen.toNat := by
  decide

theorem witness_DecompressRejectsParameters :
    busy (longSource 7) = false ∧ (longSource 7).srcLen.toNat < 8 ∧ (0#8 ≠ 1#8 ∧ 0#8 ≠ 2#8) ∧ (3#8 ≠ 1#8 ∧ 3#8 ≠ 2#8) := by decide

theorem witness_BadBuffersEndTheCommand :
    busy idle16 = false ∧
    2 ^ ({ idle16 with addrW := ⟨12, by decide⟩ } : State).addrW.val < (0xFFF#64).toNat + (2#64).toNat ∧
    (idle16.srcLen ≠ 0#64 ∧ ({ idle16 with srcAddr := 0#64 } : State).srcAddr = 0#64) ∧
    (idle16.dstLen ≠ 0#64 ∧ ({ idle16 with dstAddr := 0#64 } : State).dstAddr = 0#64) ∧
    (inRange 0x1000 16 0x100F = true ∧ inRange 0x100F 16 0x100F = true) := by decide

/-- Whether an outcome is a next state, as data. -/
def isNext (o : Host.Outcome State Fault Refusal) : Bool :=
  match o with
  | .next _ => true
  | _ => false

theorem next_of_isNext {o : Host.Outcome State Fault Refusal} (h : isNext o = true) : ∃ t, o = .next t := by
  cases o with
  | next t => exact ⟨t, rfl⟩
  | _ => cases h

theorem witness_CommandFrame :
    (∃ t, exec (.compress 0#8) idle16 = .next t) ∧ (∃ t, exec (.decompress 2#8) idle16 = .next t) ∧
    ∃ t, exec (.illegalCmd 0#32) idle16 = .next t := ⟨⟨_, rfl⟩, ⟨_, rfl⟩, ⟨_, rfl⟩⟩

/-- Check 4 holds and fails at its boundary, check 5 fails, O = 0, and the start of Decode. -/
theorem witness_StreamHeaderOutcome :
    (idle16.srcLen.toNat < 8 + (9#32).toNat) ∧ (¬ idle16.srcLen.toNat < 8 + (8#32).toNat ∧ idle16.dstLen.toNat ≠ (17#32).toNat) ∧
    (longSource 16).dstLen.toNat = (0#32).toNat ∧ idle16.dstLen.toNat = (16#32).toNat ∧ (16#32) ≠ 0#32 := by decide +kernel

/-- The decoder at a count field of the T list, the first bytes of its stream being `b0` and `b1`. -/
def countBits (b0 b1 : Byte) : State :=
  { decList .count .tList 0 0 with mem := [(0x1008, b0), (0x1009, b1), (0x2003, 0x41#8)] }

/-- The boundaries of a count field of the T list, from the bits 10011 and 00000 10010 and 00000 10011: a count of 19, the alphabet size; and a count of
0 with the symbol 18, the last of the alphabet, and with 19, the alphabet size. -/
theorem witness_ListCountOutcome_boundaries :
    (getBits 5 (countBits 0x98#8 0#8)).1 = 19 ∧
    ((getBits 5 (countBits 0x04#8 0x80#8)).1 = 0 ∧ (getBits 5 (getBits 5 (countBits 0x04#8 0x80#8)).2).1 = 18) ∧
    ((getBits 5 (countBits 0x04#8 0xC0#8)).1 = 0 ∧ (getBits 5 (getBits 5 (countBits 0x04#8 0xC0#8)).2).1 = 19) ∧
    (countBits 0#8 0#8).phase = .count ∧ buffersFit (countBits 0#8 0#8) = true := by decide +kernel

/-- Counts: 29 and 22 above 19, 11 for a P list of version 1, and 0. -/
theorem witness_ListCountOutcome :
    (dec16 .count).phase = .count ∧ buffersFit (dec16 .count) = true ∧ (getBits 5 (dec16 .count)).1 = 29 ∧
    (decList .count .tList 0 0).phase = .count ∧ (getBits 5 (decList .count .tList 0 0)).1 = 22 ∧
    (getBits 4 (decList .count .pList 0 0)).1 = 11 ∧
    (getBits 5 { decList .count .tList 0 0 with dec := { (decList .count .tList 0 0).dec with rpos := 6 } }).1 = 0 := by decide +kernel

theorem witness_TSymbolsAppendLengths :
    ((3 ≤ 3 ∧ 3 ≤ 18) ∧ (3 ≤ 18 ∧ 18 ≤ 18)) ∧
    (decList .cLen .cList 509 510).dec.list = .cList ∧ (decList .cLen .cList 509 510).dec.lens.length = 510 ∧
    (decList .cLen .cList 509 510).dec.idx < 510 := ⟨by decide, rfl, List.length_replicate, by decide⟩

theorem witness_LencodeAppendsLength :
    (16#5).toNat ≤ 16 ∧ (decList .ptLen .tList 2 19).dec.list = .tList ∧ (decList .ptLen .tList 2 19).dec.idx = 2 ∧
    (decList .ptLen .tList 2 19).dec.lens.length = listSize .tList ∧ (decList .ptLen .tList 18 19).dec.idx < listSize .tList ∧
    (decList .ptLen .pList 30 31).dec.list ≠ .cList ∧ (decList .ptLen .pList 30 31).dec.lens.length = listSize .pList ∧
    (decList .ptLen .pList 30 31).dec.idx < listSize .pList := by decide +kernel

theorem witness_LencodeAboveSixteenIsInvalid : 16 < (17#5).toNat := by decide +kernel

theorem witness_TableInstructionFrame :
    (∃ t, exec (.streamHeader 8#32 16#32) (dec16 .header) = .next t) ∧ (∃ t, exec (.block 1#16) (dec16 .sym) = .next t) ∧
    (∃ t, exec (.pos 3#5 3#29) (dec16 .pos) = .next t) ∧ (∃ t, exec .zrun1 (decList .cLen .cList 7 9) = .next t) ∧
    (∃ t, exec (.zrunM 5#4) (decList .cLen .cList 7 16) = .next t) ∧ (∃ t, exec (.zrunL 5#9) (decList .cLen .cList 7 99) = .next t) ∧
    (∃ t, exec (.len 16#5) (decList .cLen .cList 7 16) = .next t) ∧ ∃ t, exec (.lencode 2#5) (decList .ptLen .tList 2 8) = .next t :=
  ⟨⟨_, rfl⟩, ⟨_, rfl⟩, ⟨_, rfl⟩, ⟨_, rfl⟩, ⟨_, rfl⟩, ⟨_, rfl⟩, ⟨_, rfl⟩, ⟨_, rfl⟩⟩

/-- A degenerate table, and the regular table of 95 section 2.3 with lengths 1, 2, 3, 3. -/
theorem witness_CheckedTableDecodesOneSymbol : TableOk 19 (.degenerate 18) ∧ TableOk 4 (.regular [1, 2, 3, 3]) :=
  ⟨(by decide : 18 < 19), rfl, by decide, by unfold lensBounded; decide⟩

/-- The last byte of a 16-bit address space, and the first address above it. -/
theorem witness_LitWritesByte :
    (dstAt (dec16 .sym) (dec16 .sym).dec.out < 2 ^ (dec16 .sym).addrW.val) ∧
    (dstAt { dec16 .sym with addrW := ⟨16, by decide⟩, dstAddr := 0xFFFB#64 } 4 < 2 ^ 16) ∧
    2 ^ ({ dec16 .sym with addrW := ⟨16, by decide⟩, dstAddr := 0xFFFC#64 } : State).addrW.val ≤ dstAt { dec16 .sym with addrW := ⟨16, by decide⟩, dstAddr := 0xFFFC#64 } 4 := by
  decide +kernel

/-- Of 12 bytes owed a match of 3 fits; its copy ends at the top of a 16-bit address space, or one above it; and a match whose
source lies one byte before the output. -/
theorem witness_MatchCopiesEarlierOutput :
    (dec16 .copy).dec.out < ({ dec16 .copy with dec := { (dec16 .copy).dec with pval := 4 } } : State).dec.pval + 1 ∧
    (dec16 .copy).dec.pval + 1 ≤ (dec16 .copy).dec.out ∧ (dec16 .copy).dec.out ≤ (dec16 .copy).dec.origsize ∧
    min ((256#9).toNat - 253) (16 - 4) = 3 ∧ min ((509#9).toNat - 253) (16 - 4) = 12 ∧
    dstAt { dec16 .copy with addrW := ⟨16, by decide⟩, dstAddr := 0xFFF9#64 } (4 + 3) ≤ 2 ^ 16 ∧
    2 ^ 16 < dstAt { dec16 .copy with addrW := ⟨16, by decide⟩, dstAddr := 0xFFFA#64 } (4 + 3) := by decide +kernel

theorem witness_SymbolFrame :
    (∃ t, exec (.lit 0x42#8) (dec16 .sym) = .next t) ∧ ∃ t, exec (.matchCopy 256#9) (dec16 .copy) = .next t :=
  ⟨next_of_isNext (by decide +kernel), next_of_isNext (by decide +kernel)⟩

theorem witness_PosGivesPositionValue :
    WellFormed (.pos 0#5 0#29) = true ∧ WellFormed (.pos 1#5 0#29) = true ∧ WellFormed (.pos 2#5 1#29) = true ∧
    WellFormed (.pos 30#5 0x1FFFFFFF#29) = true := by decide +kernel

/-- The position values at the ends of the decoder's alphabet. -/
theorem witness_PositionCodingInverts :
    bitlen 0 ≤ 1 ∧ bitlen 1 ≤ 1 ∧ ¬ bitlen 2 ≤ 1 ∧ bitlen (2 ^ 30 - 1) ≤ 30 ∧ ¬ bitlen (2 ^ 30) ≤ 30 := by decide +kernel

/-- Two memories that differ in the byte after the stream; and a cursor at the stream's end. -/
theorem witness_ReaderSeesOnlyTheStream :
    ({ decB4 .sym with mem := (0x100C, 1#8) :: (decB4 .sym).mem } : State).dec = (decB4 .sym).dec ∧
    (∀ a, inRange ((decB4 .sym).srcAddr.toNat + 8) (decB4 .sym).dec.compsizeIn a = true →
      memGet { decB4 .sym with mem := (0x100C, 1#8) :: (decB4 .sym).mem } a = memGet (decB4 .sym) a) ∧
    8 * (decB4 .sym).dec.compsizeIn ≤ 32 := by
  refine ⟨rfl, fun a ha => ?_, by decide⟩
  have h : a < 0x100C := by
    simp only [inRange, Bool.and_eq_true, decide_eq_true_eq] at ha
    exact ha.2
  have h' : 0x100C ≠ a := by omega
  simp only [memGet, cellGet, sparseGet, id_eq, if_neg h']

/-- An encoder that has put 6 bits: 2 slots are free. -/
def sixBits : Enc := { Enc.reset with bitcount := 2, subbitbuf := 0xA4#8 }

theorem witness_PutBitsAppends :
    (1 ≤ sixBits.bitcount ∧ sixBits.bitcount ≤ 8 ∧ sixBits.subbitbuf.toNat % 2 ^ sixBits.bitcount = 0) ∧
    8 + (putBits 16 2 (enc16 .encEnd sixBits)).enc.compsize ≤ (enc16 .encEnd sixBits).dstLen.toNat := by decide +kernel

theorem witness_FlushBitsCompletesByte :
    WriterInv Enc.reset ∧ Enc.reset.bitcount = 8 ∧ WriterInv sixBits ∧ sixBits.bitcount < 8 :=
  ⟨⟨by decide, by decide, by decide⟩, rfl, ⟨by decide, by decide, by decide⟩, by decide⟩

/-- No symbol is used, or one. -/
theorem witness_DegenerateTree :
    (∀ i j, i < 19 → j < 19 → freqAt ([] : Arr 37 Half) i ≠ 0 → freqAt ([] : Arr 37 Half) j ≠ 0 → i = j) ∧
    (∀ i, i < 19 → ∀ j, j < 19 →
      freqAt (freqOf (n := 37) [(3, 7)]) i ≠ 0 → freqAt (freqOf (n := 37) [(3, 7)]) j ≠ 0 → i = j) ∧
    freqAt (freqOf (n := 37) [(3, 7)]) 3 ≠ 0 := by
  refine ⟨fun i j _ _ h => absurd rfl h, by decide, by decide⟩

/-- R234's two symbols over the C alphabet with tables of its sizes, and the least tree. -/
theorem witness_BuiltLengthsAreComplete :
    (2 * 510 - 1 ≤ 1019 ∧ 510 ≤ 510) ∧
    510 ≤ (makeTree 510 (freqOf (n := 1019) [(65, 1), (262, 1)]) ([] : Arr 510 Nat) [] Huff.reset).root ∧
    2 ≤ (makeTree 2 (freqOf (n := 3) [(0, 1), (1, 1)]) ([] : Arr 2 Nat) [] Huff.reset).root := by decide +kernel

/-- 95 section 2.3's 19-level tree lumps two leaves at 16. -/
theorem witness_AdjustmentLowersKraftByOne :
    0 < lencntAt (arrOf [(15, 1), (16, 3)]) 16 ∧ 1 ≤ 15 ∧ lencntAt (arrOf [(15, 1), (16, 3)]) 15 ≠ 0 := by decide +kernel

/-- 95 section 2.3: lengths 1, 2, 3, 3. -/
theorem witness_MakeCodeIsCanonical :
    [1, 2, 3, 3] = (List.range 4).map (arrGet zeroNat (arrOf (n := 20) [(0, 1), (1, 2), (2, 3), (3, 3)])) ∧
    (∀ l ∈ [1, 2, 3, 3], l ≤ Config.codeBit) ∧ kraftComplete [1, 2, 3, 3] = true ∧
    ∀ l, l < 17 → 1 ≤ l → lencntAt (arrOf [(1, 1), (2, 1), (3, 2)]) l = [1, 2, 3, 3].count l := by decide +kernel

theorem witness_ChildFindsMadeChild :
    1 ≤ 2 ^ 19 + 255 ∧ (1 ≤ 2 ^ 20 - 1 ∧ 2 ^ 20 - 1 < 2 ^ 20) ∧ nextAt Finder.reset (hash 1 0#8) = 0 ∧
    (child 1 0#8 Finder.reset).isSome = true := by decide +kernel

/-- The text "aba" at window positions 2^19 and 0: two bytes agree, or one differs at once. -/
def abaFinder : Finder := { Finder.reset with text := arrOf [(0, 0x61#8), (1, 0x62#8), (524288, 0x61#8), (524289, 0x62#8), (524290, 0x61#8)] }

theorem witness_CompareRunFindsCommonBytes :
    (∃ f, compareRun 2 abaFinder = (false, f)) ∧ ∃ f, compareRun 3 abaFinder = (true, f) := by
  refine ⟨⟨_, Prod.ext ?_ rfl⟩, ⟨_, Prod.ext ?_ rfl⟩⟩ <;> decide

/-- A source one byte back, and one W - 1 bytes back. -/
theorem witness_MatchPositionIsDistance :
    ((524288 : Nat) < 524290 - 1 ∧ 524290 - 1 - 524288 ≤ 2 ^ 19 - 1) ∧ ((1 : Nat) < 524289 - 1 ∧ 524289 - 1 - 1 ≤ 2 ^ 19 - 1) ∧
    2 ^ 19 ≤ 524289 := by decide +kernel

/-- A COMPRESS of two equal bytes that has made its first insertion. -/
def secondByte : State :=
  enc16 .encLoop { Enc.reset with
    origsize := 2, srcpos := 2
    finder := { Finder.reset with text := arrOf [(524288, 0x61#8), (524289, 0x61#8)], remainder := 2, matchlen := 1 } }

theorem witness_LazyMatchDecision : (getNextMatch secondByte).isSome = true := by decide +kernel

/-- Inside a group: its second token, and its last match at the top of the buffer. The first token of a group: with no token before, one byte below
the flush point, and at it. -/
theorem witness_OutputStoresToken :
    (509 < 510 ∧ 255 < 510 ∧ 2 ^ 19 - 1 < 2 ^ 19) ∧ (0x80#8 >>> 1 ≠ 0#8 ∧ 0x02#8 >>> 1 ≠ 0#8) ∧
    ({ Enc.reset with outputmask := 0x80#8, outputpos := 2 } : Enc).cpos < 2 ∧ 2 + 1 ≤ 16384 ∧ 16379 + 5 ≤ 16384 ∧
    (Enc.reset.outputmask >>> 1 = 0#8 ∧ (0x01#8 : Byte) >>> 1 = 0#8) ∧ (16343 < 16344 ∧ ¬ 16344 < 16344) := by decide +kernel

/-- R257: the first token of a group opens it; at the flush point the block is sent first, and the buffer is empty again. -/
theorem test_output_opens_group :
    (let e := (output 0x41 0 (enc16 .encLoop { Enc.reset with outputmask := 1#8, outputpos := 16343 })).enc
     (e.cpos, e.outputpos, e.outputmask, bufAt e 16344)) = (16343, 16345, 0x80#8, 0x41#8) ∧
    (let e := (output 0x41 0 (enc16 .encLoop { Enc.reset with outputmask := 1#8, outputpos := 16344 })).enc
     (e.cpos, e.outputpos, e.outputmask, bufAt e 1)) = (0, 2, 0x80#8, 0x41#8) := by decide +kernel

theorem witness_ZeroRunPolicy : (1 ≤ 1 ∧ 1 ≤ 509) ∧ (1 ≤ 19 ∧ 19 ≤ 509) ∧ (1 ≤ 509 ∧ 509 ≤ 509) := by decide +kernel

/-- The end of an empty stream: 7 bytes, so that 16 are needed; and a count at which L fits its field, or just does not. -/
theorem witness_CompressEnds :
    (enc16 .encEnd Enc.reset).phase = .encEnd ∧ buffersFit (enc16 .encEnd Enc.reset) = true ∧
    (hufEncodeEnd (enc16 .encEnd Enc.reset)).enc.compsize = 7 ∧ 8 + 7 + 1 ≤ (enc16 .encEnd Enc.reset).dstLen.toNat ∧
    (hufEncodeEnd (enc16 .encEnd { Enc.reset with compsize := 2 ^ 32 - 9 })).enc.compsize + 1 = 2 ^ 32 - 1 ∧
    (hufEncodeEnd (enc16 .encEnd { Enc.reset with compsize := 2 ^ 32 - 8 })).enc.compsize + 1 = 2 ^ 32 := by decide +kernel

theorem tokenInv_reset : TokenInv Enc.reset := .inl ⟨rfl, rfl⟩

theorem witness_TokenBufferBounded :
    TokensInv (enc16 .encLoop Enc.reset) ∧ (∃ t, step (enc16 .encLoop Enc.reset) = .next t) ∧
    TokenInv { Enc.reset with outputmask := 1#8, outputpos := 16384 } :=
  ⟨fun _ => tokenInv_reset, ⟨_, rfl⟩, .inr ⟨7, by decide, rfl, by decide⟩⟩

/-- Two runs whose destinations lie and read differently. -/
theorem witness_EncoderIgnoresDestination :
    compressing (enc16 .encLoop Enc.reset).phase = true ∧ buffersBad (enc16 .encLoop Enc.reset) = false ∧
    buffersBad { enc16 .encLoop Enc.reset with dstAddr := 0x3000#64, dstLen := 0#64 } = false ∧
    SameSource (enc16 .encLoop Enc.reset) { enc16 .encLoop Enc.reset with dstAddr := 0x3000#64, dstLen := 0#64 } ∧
    SameStream (enc16 .encLoop Enc.reset) { enc16 .encLoop Enc.reset with dstAddr := 0x3000#64, dstLen := 9#64 } ∧
    (8 + Enc.reset.compsize < 9) ∧ ∃ t, engineStep (enc16 .encLoop Enc.reset) = .next t :=
  ⟨rfl, by decide, by decide, ⟨rfl, rfl, rfl, fun _ _ => rfl⟩, fun _ _ => by decide, by decide, ⟨_, rfl⟩⟩

theorem witness_ResetAbandonsCommand :
    ({ dec16 .sym with agenda := [.host .reset] } : State).agenda = .host .reset :: [] ∧ busy (dec16 .sym) = true := by decide +kernel

theorem witness_AccessesWhileBusy :
    busy (dec16 .sym) = true ∧ ((0x2000 : Nat) < 2 ^ (dec16 .sym).addrW.val ∧ inBuffers (dec16 .sym) 0x2000 = true) ∧
    inBuffers (dec16 .sym) 0x100F = true ∧ inBuffers (dec16 .sym) 0x1010 = false := by decide +kernel

theorem witness_OperandRegistersReadBack : busy idle16 = false := by decide +kernel

theorem witness_RegisterAccessesAreWhole :
    (0x2F < 0x30 ∧ ¬ ((0x2F = 0x00 ∨ 0x2F = 0x04) ∧ 32 = 32) ∧
      ¬ ((0x2F = 0x08 ∨ 0x2F = 0x10 ∨ 0x2F = 0x18 ∨ 0x2F = 0x20 ∨ 0x2F = 0x28) ∧ 32 = 64)) ∧
    ¬ ((0x28 = 0x00 ∨ 0x28 = 0x04) ∧ 32 = 32) ∧ 0x30 ≤ 0x30 ∧ 0x3FFF < ({ idle16 with base := 0x4000 } : State).base := by
  decide +kernel

theorem witness_ResultsVisibleAfterDone :
    done { idle16 with status := 0x02#32, unacquired := [(0x2000, 16)] } = true ∧
    busy { idle16 with status := 0x02#32, unacquired := [(0x2000, 16)] } = false ∧ 2 ^ 64 - 1 < 2 ^ idle16.addrW.val := by decide +kernel

/-- Each place of Decode with bits that decode: the header, SIZE, a literal, a match, a LENCODE, a T symbol and a position. -/
theorem witness_StepRunsDecodedInstruction :
    (placeCommand 0x202 idle16).agenda = .host (.regWrite 0 32 0x202#64) :: [] ∧
    EngineMoves (dec16 .header) (dec16 .header) ∧ buffersFit (dec16 .header) = true ∧
    decode .header (headerBits (dec16 .header)) = .ok (.streamHeader 0xEEEEEEEE#32 0xEEEEEEEE#32) [] ∧
    decode .block (peekBits (decB4 .sym) 16) = .ok (.block 0xB400#16) [] ∧
    (decodeSymbol 510 (.degenerate 0x41) (takeOfBlock (decB4 .sym))).map (fun x => x.1) = some 0x41 ∧
    decode .csym (natToBits 9 0x41) = .ok (.lit 0x41#8) [] ∧ decode .csym (natToBits 9 509) = .ok (.matchCopy 509#9) [] ∧
    decode .lencode (peekBits (decB4 .ptLen) 13) = .ok (.lencode 5#5) ((peekBits (decB4 .ptLen) 13).drop 3) ∧
    decode .tsym (natToBits 5 2 ++ peekBits (decB4 .cLen) 9) = .ok (.zrunL 360#9) [] ∧
    decode .psym (natToBits 5 30 ++ peekBits (decB4 .pos) 29) = .ok (.pos 30#5 0x16801DDD#29) [] :=
  ⟨rfl, .inl ⟨rfl, rfl⟩, by decide, by decide, by decide, by decide, by decide, by decide, by decide, by decide, by decide⟩

theorem witness_CanonicalMemoryIsUnique :
    Memory.wf [(0, 1#8), (1, 0#8)] = true ∧ ∀ a, cellGet [(0, 1#8), (1, 0#8)] a = cellGet [(0, 1#8), (1, 0#8)] a :=
  ⟨by decide, fun _ => rfl⟩

theorem witness_MemoryFormKept : Memory.wf (dec16 .sym).mem = true ∧ ∃ t, step (dec16 .sym) = .next t := ⟨by decide, ⟨_, rfl⟩⟩

/-- Idle after reset, idle after a command, and busy. -/
theorem witness_StatusStaysLegal :
    ControlInv State.reset ∧ ControlInv { idle16 with status := 0x32#32 } ∧ ControlInv (dec16 .sym) ∧
    ∃ t, step (dec16 .sym) = .next t :=
  ⟨.inl rfl, .inr ⟨.invalidParameter, by decide, rfl⟩, rfl, ⟨_, rfl⟩⟩

theorem safeInv_dec16 : SafeInv (dec16 .sym) :=
  ⟨by decide, rfl, fun _ => by decide, ⟨fun h => (nomatch h), fun _ => ⟨rfl, by decide, by decide⟩⟩,
    fun _ => ⟨(by decide : 0 < 510), (by decide : 0 < 31)⟩⟩

/-- The same at the start of its stream, its header read and nothing written. -/
def decStart : State :=
  { dec16 .sym with
    dec := { (dec16 .sym).dec with out := 0 }
    accesses := ((List.range 8).map fun i => .read (0x1000 + i) 0xEE#8).reverse }

theorem witness_SafetyKept :
    (SafeInv (dec16 .sym) ∧ ∃ t, step (dec16 .sym) = .next t) ∧
    (SafeInv decStart ∧ AccessInv decStart ∧ ∃ t, step decStart = .next t) ∧ AccessInv (enc16 .encFirst Enc.reset) :=
  ⟨⟨safeInv_dec16, ⟨_, rfl⟩⟩,
    ⟨⟨by decide, rfl, fun _ => by decide, ⟨fun h => (nomatch h), fun _ => ⟨rfl, by decide, by decide⟩⟩,
      fun _ => ⟨(by decide : 0 < 510), (by decide : 0 < 31)⟩⟩, ⟨by decide, by decide⟩, ⟨_, rfl⟩⟩,
    (by decide : sourceReads (enc16 .encFirst Enc.reset) = addrsFrom 0x1000 0)⟩

theorem witness_DecoderNeverStops :
    EngineMoves (dec16 .sym) (dec16 .sym) ∧ SafeInv (dec16 .sym) ∧ decoding (dec16 .sym).phase = true ∧
    EngineMoves { dec16 .sym with agenda := [.engine] } (dec16 .sym) :=
  ⟨.inl ⟨rfl, rfl⟩, safeInv_dec16, rfl, .inr ⟨[], rfl, rfl⟩⟩

theorem witness_DecompressEnds : (dec16 .sym).agenda = [] ∧ SafeInv (dec16 .sym) ∧ decoding (dec16 .sym).phase = true :=
  ⟨rfl, safeInv_dec16, rfl⟩

theorem witness_EngineWritesOnlyDestination :
    SafeInv (dec16 .sym) ∧ (∃ t, engineStep (dec16 .sym) = .next t ∧ t.status ≠ 0x12#32) ∧
    inRange (dec16 .sym).dstAddr.toNat (dec16 .sym).dstLen.toNat 0x2010 = false := ⟨safeInv_dec16, ⟨_, rfl, by decide⟩, by decide⟩

theorem witness_EngineKeepsOperands : ∃ t, engineStep (dec16 .sym) = .next t := ⟨_, rfl⟩

end Sys2Proof.Tests
end

section
/-!
PROOFS. Registers, STATUS and the machine's step: the statements of 10_state.md. A write to CMD runs the command of its word. A turn of the
engine is work on the engine's own fields, and then a place of the same command or the command's end (`Turned`); that it keeps the host's fields
and `ControlInv` follows from this alone.
-/

namespace Sys2Proof.Machine

/-! ## Register accesses -/

/-- Every register stands below BASE + 0x30 (R82). -/
theorem regAt_lt {off width : Nat} {r : Reg} (h : regAt off width = some r) : off < 0x30 := by
  unfold regAt at h
  split_ifs at h <;> omega

theorem onRegister_of_regAt {s below above : State} {off width : Nat} {r : Reg} (h : regAt off width = some r)
    (k : Reg → Host.Outcome State Fault Refusal) : onRegister s (s.base + off) width below above k = k r := by
  have hlt := regAt_lt h
  rw [onRegister, if_neg (by omega), if_neg (by omega), Nat.add_sub_cancel_left, h]

theorem hostStep_regWrite {s : State} {off width : Nat} {r : Reg} (h : regAt off width = some r) (v : Word64) :
    hostStep (.regWrite (s.base + off) width v) s = hostRegWrite r v s := onRegister_of_regAt h _

theorem hostStep_regRead {s : State} {off width : Nat} {r : Reg} (h : regAt off width = some r) :
    hostStep (.regRead (s.base + off) width) s = hostRegRead r s := onRegister_of_regAt h _

theorem writeOperand_of_idle {s : State} (h : busy s = false) (t : State) : writeOperand s t = .next t := by
  simp [writeOperand, h]

/-- While BUSY = 0 a register reads as it stands (R386); what reads of STATUS and RESULT_LEN do besides is R95's and R393's. -/
theorem hostRegRead_of_idle {s : State} {r : Reg} (hs : r ≠ .status) (hl : r ≠ .resultLen) (h : busy s = false) :
    hostRegRead r s = .next (deliver (regGet s r) s) := by
  cases r with
  | status => exact absurd rfl hs
  | resultLen => exact absurd rfl hl
  | cmd | srcAddr | srcLen | dstAddr | dstLen => simp [hostRegRead, h]

/-- A write of `v` to an operand register that leads to `t`, and the read of that register from there. -/
theorem operand_readBack {s t : State} {off : Nat} {r : Reg} {v : Word64} (hr : regAt off 64 = some r)
    (hs : r ≠ .status) (hl : r ≠ .resultLen) (hb : busy s = false) (hw : hostRegWrite r v s = writeOperand s t)
    (hstatus : t.status = s.status) (hbase : t.base = s.base) (hv : regGet t r = v) :
    hostStep (.regWrite (s.base + off) 64 v) s = .next t ∧
    hostStep (.regRead (s.base + off) 64) t = .next { t with busData := v } := by
  have hbt : busy t = false := by rwa [busy, hstatus]
  refine ⟨?_, ?_⟩
  · rw [hostStep_regWrite hr, hw, writeOperand_of_idle hb]
  · rw [← hbase, hostStep_regRead hr, hostRegRead_of_idle hs hl hbt, hv]
    rfl

/-- The turn of a host write to CMD runs the command of the word written (R32). -/
theorem step_writeCmd {s : State} {v : Word64} {rest : List Turn} (h : s.agenda = .host (.regWrite s.base 32 v) :: rest) :
    step s = exec (decodeCmd (v.setWidth 32)) { s with agenda := rest } := by
  unfold step
  rw [h]
  exact hostStep_regWrite (s := { s with agenda := rest }) (off := 0) (r := .cmd) rfl v

/-! ## Command words -/

/-- A command word stands for COMPRESS, DECOMPRESS or ILLEGAL_CMD. -/
theorem decodeCmd_cases (w : Word32) :
    (∃ fmt, decodeCmd w = .compress fmt) ∨ (∃ fmt, decodeCmd w = .decompress fmt) ∨ decodeCmd w = .illegalCmd w := by
  unfold decodeCmd
  split_ifs
  · exact .inl ⟨_, rfl⟩
  · exact .inr (.inl ⟨_, rfl⟩)
  · exact .inr (.inr rfl)
  · exact .inr (.inr rfl)

/-- A word is its three fields OP, FMT and the reserved half (R32). -/
theorem word_of_fields (w : Word32) : w.extractLsb' 16 16 ++ w.extractLsb' 8 8 ++ w.extractLsb' 0 8 = w := by
  have hhigh : w.extractLsb' 16 16 ++ w.extractLsb' 8 8 = w.extractLsb' 8 24 :=
    BitVec.extractLsb'_append_extractLsb'_eq_extractLsb' rfl
  have hall : w.extractLsb' 8 24 ++ w.extractLsb' 0 8 = w.extractLsb' 0 32 :=
    BitVec.extractLsb'_append_extractLsb'_eq_extractLsb' rfl
  rw [hhigh, hall, BitVec.extractLsb'_eq_self]

/-- The command that a word decodes to has that word (R110 to R112). -/
theorem encodeCmd_decodeCmd (w : Word32) : encodeCmd (decodeCmd w) = w := by
  have hw := word_of_fields w
  unfold decodeCmd
  split_ifs with hres hc hd
  · rwa [hres, hc] at hw
  · rwa [hres, hd] at hw
  · rfl
  · rfl

theorem exec_decodeCmd_of_busy {s : State} (h : busy s = true) (w : Word32) : exec (decodeCmd w) s = .next s := by
  rcases decodeCmd_cases w with ⟨fmt, hd⟩ | ⟨fmt, hd⟩ | hd <;> rw [hd] <;> exact if_pos h

theorem startCompress_cmd (s : State) : (startCompress s).cmd = s.cmd := by rw [startCompress_rest]

theorem startCompress_status (s : State) : (startCompress s).status = statusBusy := by rw [startCompress_rest]

theorem startCompress_phase (s : State) : (startCompress s).phase = .encFirst := by rw [startCompress_rest]

theorem exec_compress_cmd {s : State} (h : busy s = false) (fmt : BitVec 8) :
    ∃ t, exec (.compress fmt) s = .next t ∧ t.cmd = encodeCmd (.compress fmt) := by
  simp only [exec, execCompress, h, Bool.false_eq_true, if_false]
  split_ifs
  · exact ⟨_, rfl, rfl⟩
  · exact ⟨_, rfl, startCompress_cmd _⟩

theorem exec_decompress_cmd {s : State} (h : busy s = false) (fmt : BitVec 8) :
    ∃ t, exec (.decompress fmt) s = .next t ∧ t.cmd = encodeCmd (.decompress fmt) := by
  simp only [exec, execDecompress, h, Bool.false_eq_true, if_false]
  split_ifs <;> exact ⟨_, rfl, rfl⟩

theorem exec_illegalCmd_cmd {s : State} (h : busy s = false) (w : Word32) :
    ∃ t, exec (.illegalCmd w) s = .next t ∧ t.cmd = encodeCmd (.illegalCmd w) := by
  simp only [exec, execIllegalCmd, h, Bool.false_eq_true, if_false]
  exact ⟨_, rfl, rfl⟩

/-- While BUSY = 0 a command word is stored, legal or not (R32). -/
theorem exec_decodeCmd_cmd {s : State} (h : busy s = false) (w : Word32) :
    ∃ t, exec (decodeCmd w) s = .next t ∧ t.cmd = w := by
  obtain ⟨t, ht, hc⟩ : ∃ t, exec (decodeCmd w) s = .next t ∧ t.cmd = encodeCmd (decodeCmd w) := by
    rcases decodeCmd_cases w with ⟨fmt, hd⟩ | ⟨fmt, hd⟩ | hd <;> rw [hd]
    · exact exec_compress_cmd h fmt
    · exact exec_decompress_cmd h fmt
    · exact exec_illegalCmd_cmd h w
  exact ⟨t, ht, hc.trans (encodeCmd_decodeCmd w)⟩

/-! ## What a turn of the engine can do -/

/-- `t` is `s` after work inside a step: only the working state, host memory, the accesses and the count of free values differ. -/
def WorksOn (s t : State) : Prop :=
  t = { s with enc := t.enc, dec := t.dec, mem := t.mem, accesses := t.accesses, freeCtr := t.freeCtr }

theorem WorksOn.refl (s : State) : WorksOn s s := rfl

theorem WorksOn.trans {s t u : State} (h : WorksOn s t) (k : WorksOn t u) : WorksOn s u := by
  unfold WorksOn at *
  rw [k, h]

theorem WorksOn.phase {s t : State} (h : WorksOn s t) : t.phase = s.phase := by rw [h]

theorem Encodes.worksOn {s t : State} (h : Encodes s t) : WorksOn s t := by
  unfold WorksOn
  rw [h.rest]

theorem setDec_worksOn (s : State) (d : Dec) : WorksOn s { s with dec := d } := rfl

theorem engineReads_worksOn (a k : Nat) (s : State) : WorksOn s (engineReads a k s) := rfl

theorem skipBits_worksOn (n : Nat) (s : State) : WorksOn s (skipBits n s) := rfl

theorem putZeros_worksOn (z : Nat) (s : State) : WorksOn s (putZeros z s) := rfl

theorem putLen_worksOn (k : Nat) (s : State) : WorksOn s (putLen k s) := rfl

theorem takeOfBlock_worksOn (s : State) : WorksOn s (takeOfBlock s) := rfl

theorem putOut_worksOn (a n : Nat) (b : Byte) (s : State) : WorksOn s (setOut n (engineWrite a b s)) := rfl

theorem skipField_worksOn (s : State) : WorksOn s (skipField s) := by
  rcases skipField_cases s with ⟨-, h⟩ | ⟨-, h⟩ <;> rw [h]
  · exact WorksOn.refl s
  · exact (skipBits_worksOn 2 s).trans (putZeros_worksOn _ _)

theorem copyLoop_worksOn {p k : Nat} {s t : State} (h : copyLoop p k s = some t) : WorksOn s t := by
  obtain ⟨honly, hstatus, hresult, hphase, -⟩ := copyLoop_only h
  unfold WorksOn
  rw [honly, hstatus, hresult, hphase]

theorem drawDst_worksOn (s : State) : WorksOn s (drawDst s.dstLen.toNat s) := by
  unfold WorksOn
  rw [(drawDst_spec _ s le_rfl).1]

/-- A turn of the engine from `s` to `t`: after its work the engine stands at a place of the same command, or the command ends with one
of the codes that this engine gives (R350, R356). -/
def Turned (s t : State) : Prop :=
  ∃ u, WorksOn s u ∧
    ((∃ p, p ≠ .idle ∧ t = { u with phase := p }) ∨ ∃ c n, c ≠ .outOfMemory ∧ t = endCommand c n u)

theorem WorksOn.turned {s u t : State} (h : WorksOn s u) (k : Turned u t) : Turned s t := by
  obtain ⟨v, hv, ht⟩ := k
  exact ⟨v, h.trans hv, ht⟩

theorem WorksOn.goesTo {s u : State} (h : WorksOn s u) {p : Phase} (hp : p ≠ .idle) : Turned s { u with phase := p } :=
  ⟨u, h, .inl ⟨p, hp, rfl⟩⟩

theorem WorksOn.ends {s u : State} (h : WorksOn s u) {c : Code} (n : Nat) (hc : c ≠ .outOfMemory) : Turned s (endCommand c n u) :=
  ⟨u, h, .inr ⟨c, n, hc, rfl⟩⟩

theorem WorksOn.stays {s u : State} (h : WorksOn s u) (hp : s.phase ≠ .idle) : Turned s u :=
  h.goesTo (p := u.phase) (by rwa [h.phase])

theorem setDec_goesTo (s : State) (d : Dec) {p : Phase} (hp : p ≠ .idle) : Turned s { s with dec := d, phase := p } :=
  (setDec_worksOn s d).goesTo hp

theorem endBad_turned (s : State) : Turned s (endBad s) :=
  (setDec_worksOn s _).ends s.dec.out (by decide)

theorem storeTable_turned (t : Table) (s : State) : Turned s (storeTable t s) := by
  rcases storeTable_cases t s with ⟨-, h⟩ | ⟨-, h⟩ | ⟨-, h⟩ <;> rw [h]
  · exact setDec_goesTo s _ (by decide)
  · exact setDec_goesTo s _ (by decide)
  · exact setDec_goesTo s _ (by decide)

theorem listTurn_turned {s : State} (hp : s.phase ≠ .idle) : Turned s (listTurn s) := by
  unfold listTurn buildTable
  split_ifs
  · exact (WorksOn.refl s).stays hp
  · exact storeTable_turned _ s
  · exact endBad_turned s

theorem afterSymbol_turned (s : State) : Turned s (afterSymbol s) := by
  unfold afterSymbol
  split_ifs
  · exact (WorksOn.refl s).ends _ (by decide)
  · exact (WorksOn.refl s).goesTo (by decide)

theorem readCount_turned (s : State) : Turned s (readCount s) := by
  rcases readCount_cases s with ⟨n, h⟩ | ⟨σ, n, -, h⟩ | ⟨c, n, -, -, h⟩ <;> rw [h]
  · exact (skipBits_worksOn n s).turned (endBad_turned _)
  · exact (skipBits_worksOn n s).turned (storeTable_turned _ _)
  · exact (skipBits_worksOn n s).turned (setDec_goesTo _ _ (by split_ifs <;> decide))

theorem finishCompress_turned (s : State) : Turned s (finishCompress s) := by
  rcases finishCompress_cases s with ⟨-, h⟩ | ⟨-, h⟩ <;> rw [h]
  · exact (WorksOn.refl s).ends _ (by decide)
  · exact (drawDst_worksOn s).ends _ (by decide)

/-! ## The decoder's instructions turn -/

theorem exec_streamHeader_turned {l o : Word32} {s t : State} (h : exec (.streamHeader l o) s = .next t) : Turned s t := by
  obtain ⟨u, hu, hend⟩ := exec_streamHeader_next h
  have hw : WorksOn s u := by
    unfold WorksOn
    rw [hu]
  rcases hend with rfl | ⟨-, -, ⟨-, rfl⟩ | ⟨-, rfl⟩⟩
  · exact hw.ends 0 (by decide)
  · exact hw.ends 0 (by decide)
  · exact hw.turned (setDec_goesTo u _ (by decide))

theorem exec_block_turned {z : Half} {s t : State} (h : exec (.block z) s = .next t) : Turned s t := by
  rcases exec_block_next h with ⟨-, rfl⟩ | ⟨-, rfl⟩
  · exact endBad_turned s
  · exact setDec_goesTo s _ (by decide)

theorem exec_lit_turned {b : Byte} {s t : State} (h : exec (.lit b) s = .next t) : Turned s t := by
  obtain ⟨-, rfl⟩ := exec_lit_next h
  exact (putOut_worksOn _ _ b s).turned (afterSymbol_turned _)

theorem exec_matchCopy_turned {m : BitVec 9} {s t : State} (h : exec (.matchCopy m) s = .next t) : Turned s t := by
  rcases exec_matchCopy_next h with ⟨-, rfl⟩ | ⟨-, u, hu, rfl⟩
  · exact endBad_turned s
  · exact (copyLoop_worksOn hu).turned (afterSymbol_turned u)

theorem exec_pos_turned {c : BitVec 5} {e : BitVec 29} {s t : State} (h : exec (.pos c e) s = .next t) : Turned s t := by
  cases h
  exact setDec_goesTo s _ (by decide)

theorem exec_tsym_turned {i : Instr} (hi : IsTSymbol i) {s t : State} (hp : s.phase ≠ .idle) (h : exec i s = .next t) :
    Turned s t := by
  rcases exec_tsym_next hi h with ⟨z, rfl⟩ | ⟨k, -, -, rfl⟩
  · exact (putZeros_worksOn z s).turned (listTurn_turned hp)
  · exact (putLen_worksOn k s).turned (listTurn_turned hp)

theorem exec_lencode_turned {k : BitVec 5} {s t : State} (hp : s.phase ≠ .idle) (h : exec (.lencode k) s = .next t) :
    Turned s t := by
  rcases exec_lencode_next h with ⟨-, rfl⟩ | ⟨-, rfl⟩
  · exact endBad_turned s
  · have hw : WorksOn s (skipField (putLen k.toNat s)) :=
      (putLen_worksOn _ s).trans (skipField_worksOn _)
    exact hw.turned (listTurn_turned (by rwa [hw.phase]))

/-! ## The engine's turn, place by place -/

theorem engineTurn_sym_turned {s t : State} (hp : s.phase = .sym) (h : engineTurn s = .next t) : Turned s t := by
  by_cases hb : s.dec.blocksize = 0#16
  · obtain ⟨size, e⟩ := engineTurn_block hp hb
    exact (skipBits_worksOn 16 s).turned (exec_block_turned (e ▸ h))
  · cases hd : decodeSymbol Config.NC s.dec.cTab (takeOfBlock s) with
    | none =>
      rw [engineTurn_sym_none hp hb hd] at h
      cases h
    | some x =>
      obtain ⟨σ, u⟩ := x
      obtain ⟨-, n, rfl⟩ := decodeSymbol_some hd
      have hw : WorksOn s (skipBits n (takeOfBlock s)) := (takeOfBlock_worksOn s).trans (skipBits_worksOn n _)
      rcases engineTurn_sym hp hb hd with ⟨b, e⟩ | ⟨m, -, e⟩
      · exact hw.turned (exec_lit_turned (e ▸ h))
      · obtain rfl := Host.Outcome.next.inj (e.symm.trans h)
        exact hw.turned (setDec_goesTo _ _ (by decide))

theorem engineTurn_cLen_turned {s t : State} (hp : s.phase = .cLen) (h : engineTurn s = .next t) : Turned s t := by
  cases hd : decodeSymbol Config.NT s.dec.tTab s with
  | none =>
    rw [engineTurn_cLen_none hp hd] at h
    cases h
  | some x =>
    obtain ⟨τ, u⟩ := x
    obtain ⟨-, m, rfl⟩ := decodeSymbol_some hd
    obtain ⟨i, n, hi, e⟩ := engineTurn_cLen hp hd
    have hw : WorksOn s (skipBits n (skipBits m s)) := (skipBits_worksOn m s).trans (skipBits_worksOn n _)
    exact hw.turned (exec_tsym_turned hi (by rw [hw.phase, hp]; decide) (e ▸ h))

theorem engineTurn_pos_turned {s t : State} (hp : s.phase = .pos) (h : engineTurn s = .next t) : Turned s t := by
  cases hd : decodeSymbol Config.NPD s.dec.pTab s with
  | none =>
    rw [engineTurn_pos_none hp hd] at h
    cases h
  | some x =>
    obtain ⟨c, u⟩ := x
    obtain ⟨-, m, rfl⟩ := decodeSymbol_some hd
    obtain ⟨p, x, n, e⟩ := engineTurn_pos hp hd
    exact ((skipBits_worksOn m s).trans (skipBits_worksOn n _)).turned (exec_pos_turned (e ▸ h))

theorem engineTurn_encEnd_turned {s t : State} (hp : s.phase = .encEnd) (h : engineTurn s = .next t) : Turned s t := by
  obtain ⟨-, ht⟩ := engineTurn_encEnd hp h
  have hw := ((hufEncodeEnd_encodes s).trans (writeHeader_encodes _)).worksOn
  rw [ht]
  exact hw.turned (finishCompress_turned _)

/-- Every turn of a running command works, and then stays in the command or ends it. -/
theorem engineTurn_turned {s t : State} (hrun : s.phase ≠ .idle) (h : engineTurn s = .next t) : Turned s t := by
  cases hp : s.phase with
  | idle => exact absurd hp hrun
  | encFirst =>
    obtain ⟨u, hu, rfl⟩ := engineTurn_encFirst hp h
    exact (matchLoopStart_encodes hu).worksOn.goesTo (by decide)
  | encLoop =>
    rcases engineTurn_encLoop hp h with ⟨-, rfl⟩ | ⟨-, ht⟩
    · exact (WorksOn.refl s).goesTo (by decide)
    · exact (matchLoopTurn_encodes ht).worksOn.stays hrun
  | encEnd => exact engineTurn_encEnd_turned hp h
  | header =>
    obtain ⟨l, o, e⟩ := engineTurn_header hp
    exact (engineReads_worksOn _ 8 s).turned (exec_streamHeader_turned (e ▸ h))
  | sym => exact engineTurn_sym_turned hp h
  | count =>
    obtain rfl := Host.Outcome.next.inj ((engineTurn_count hp).symm.trans h)
    exact readCount_turned s
  | ptLen =>
    obtain ⟨k, n, -, e⟩ := engineTurn_ptLen hp
    exact (skipBits_worksOn n s).turned (exec_lencode_turned hrun (e ▸ h))
  | cLen => exact engineTurn_cLen_turned hp h
  | pos => exact engineTurn_pos_turned hp h
  | copy => exact exec_matchCopy_turned (engineTurn_copy hp ▸ h)

/-- An engine step leaves an idle engine as it is, or is a turn of the running command. -/
theorem engineStep_turned {s t : State} (h : engineStep s = .next t) : t = s ∨ (s.phase ≠ .idle ∧ Turned s t) := by
  rcases engineStep_cases h with ⟨-, rfl⟩ | ⟨hrun, -, ht⟩
  · exact .inl rfl
  · exact .inr ⟨hrun, engineTurn_turned hrun ht⟩

/-! ## What a turn keeps -/

/-- `t` is `s` but for STATUS, RESULT_LEN and what is the engine's own. -/
def EngineOnly (s t : State) : Prop := t = { s with
  status := t.status, resultLen := t.resultLen, phase := t.phase, enc := t.enc, dec := t.dec, mem := t.mem
  accesses := t.accesses, freeCtr := t.freeCtr }

theorem Turned.engineOnly {s t : State} (h : Turned s t) : EngineOnly s t := by
  obtain ⟨u, hu, ⟨p, -, rfl⟩ | ⟨c, n, -, rfl⟩⟩ := h
  · unfold EngineOnly
    rw [hu]
  · unfold EngineOnly endCommand
    rw [hu]

theorem engineStep_engineOnly {s t : State} (h : engineStep s = .next t) : EngineOnly s t := by
  rcases engineStep_turned h with rfl | ⟨-, ht⟩
  · rfl
  · exact ht.engineOnly

theorem ControlInv.of_running {s : State} {p : Phase} (e : s.phase = p) (hp : p ≠ .idle) (h : s.status = statusBusy) :
    ControlInv s := by
  rw [ControlInv, e, if_neg hp]
  exact h

theorem ControlInv.status_of_running {s : State} (h : ControlInv s) (hp : s.phase ≠ .idle) : s.status = statusBusy := by
  rwa [ControlInv, if_neg hp] at h

theorem controlInv_endCommand {c : Code} (n : Nat) (s : State) (hc : c ≠ .outOfMemory) : ControlInv (endCommand c n s) :=
  .inr ⟨c, hc, rfl⟩

theorem ControlInv.congr {s t : State} (h : ControlInv s) (hs : t.status = s.status) (hp : t.phase = s.phase) : ControlInv t := by
  rwa [ControlInv, hs, hp]

theorem Turned.controlInv {s t : State} (h : Turned s t) (hs : s.status = statusBusy) : ControlInv t := by
  obtain ⟨u, hu, ⟨p, hp, rfl⟩ | ⟨c, n, hc, rfl⟩⟩ := h
  · refine ControlInv.of_running rfl hp ?_
    rw [hu]
    exact hs
  · exact controlInv_endCommand n u hc

theorem engineStep_controlInv {s t : State} (hi : ControlInv s) (h : engineStep s = .next t) : ControlInv t := by
  rcases engineStep_turned h with rfl | ⟨hrun, ht⟩
  · exact hi
  · exact ht.controlInv (hi.status_of_running hrun)

/-- A command word is ignored, ends its command at once, or starts it with STATUS = BUSY. -/
theorem exec_decodeCmd_controlInv {w : Word32} {s t : State} (hi : ControlInv s) (h : exec (decodeCmd w) s = .next t) :
    ControlInv t := by
  rcases exec_decodeCmd_next h with ⟨-, ht⟩ | ⟨-, ⟨c, n, ht⟩ | ⟨c, n, -, ht⟩ | ⟨c, n, u, -, hu, ht⟩⟩
  · rwa [ht]
  · rw [ht]
    exact controlInv_endCommand 0 _ (by decide)
  · refine ControlInv.of_running (p := .encFirst) ?_ (by decide) ?_ <;> rw [ht]
    · exact startCompress_phase _
    · exact startCompress_status _
  · refine ControlInv.of_running (p := .header) ?_ (by decide) ?_ <;> rw [ht, hu]
    · exact startCommand_phase .header (acceptCmd c n s)
    · exact startCommand_status .header (acceptCmd c n s)

theorem hostStep_controlInv {op : HostOp} {s t : State} (hi : ControlInv s) (h : hostStep op s = .next t) : ControlInv t := by
  rcases host_next h with ⟨ag, bd, un, fc, rfl⟩ | ⟨-, a, b, c, d, rfl⟩ | ⟨a, b, rfl⟩ | rfl | ⟨w, hw⟩
  · exact hi.congr rfl rfl
  · exact hi.congr rfl rfl
  · exact hi.congr rfl rfl
  · exact .inl rfl
  · exact exec_decodeCmd_controlInv hi hw

/-! ## The step at each place of Decode -/

/-- When the engine moves and its buffers lie in memory, the step is its turn. -/
theorem step_of_engineMoves {s s0 : State} (h : EngineMoves s s0) (hf : buffersFit s0 = true) : step s = engineTurn s0 := by
  rw [← engineStep_fit hf]
  unfold step
  rcases h with ⟨ha, rfl⟩ | ⟨rest, ha, rfl⟩ <;> rw [ha]

theorem fetchBits_ok {k : Kind} {pre rest : List Bool} {n : Nat} {i : Instr} {s : State}
    (h : decode k (pre ++ peekBits s n) = .ok i rest) : fetchBits k pre n s = .run i (skipBits (n - rest.length) s) := by
  rw [fetchBits, h]

theorem engineTurn_header_of_decode {s : State} {i : Instr} {rest : List Bool} (hp : s.phase = .header)
    (h : decode .header (headerBits s) = .ok i rest) : engineTurn s = exec i (engineReads s.srcAddr.toNat 8 s) := by
  simp only [engineTurn, hp, fetchHeader, h, runFetched]

theorem engineTurn_block_of_decode {s : State} {i : Instr} {rest : List Bool} (hp : s.phase = .sym) (hb : s.dec.blocksize = 0#16)
    (h : decode .block (peekBits s 16) = .ok i rest) : engineTurn s = exec i (skipBits (16 - rest.length) s) := by
  have hf := fetchBits_ok (k := .block) (pre := []) (n := 16) (s := s) h
  simp only [engineTurn, hp, fetchSym, if_pos hb, hf, runFetched]

/-- A C symbol has no bits of its own behind its code, so nothing but the code is skipped (R124). -/
theorem fetchCSym_ok {σ : Nat} {i : Instr} (u : State) (h : decode .csym (natToBits 9 σ) = .ok i []) :
    fetchBits .csym (natToBits 9 σ) 0 u = .run i u := by
  have hp : natToBits 9 σ ++ peekBits u 0 = natToBits 9 σ := List.append_nil _
  rw [fetchBits_ok (by rw [hp]; exact h)]
  exact congrArg _ (skipBits_zero u)

theorem engineTurn_lit_of_decode {s u : State} {σ : Nat} {b : Byte} (hp : s.phase = .sym) (hb : s.dec.blocksize ≠ 0#16)
    (hd : decodeSymbol Config.NC s.dec.cTab (takeOfBlock s) = some (σ, u))
    (h : decode .csym (natToBits 9 σ) = .ok (.lit b) []) : engineTurn s = exec (.lit b) u := by
  simp only [engineTurn, hp, fetchSym, if_neg hb, hd, fetchCSym_ok u h, runFetched]

theorem engineTurn_match_of_decode {s u : State} {σ : Nat} {m : BitVec 9} (hp : s.phase = .sym) (hb : s.dec.blocksize ≠ 0#16)
    (hd : decodeSymbol Config.NC s.dec.cTab (takeOfBlock s) = some (σ, u))
    (h : decode .csym (natToBits 9 σ) = .ok (.matchCopy m) []) : engineTurn s = .next (awaitPosition m u) := by
  simp only [engineTurn, hp, fetchSym, if_neg hb, hd, fetchCSym_ok u h, runFetched]

theorem engineTurn_ptLen_of_decode {s : State} {i : Instr} {rest : List Bool} (hp : s.phase = .ptLen)
    (h : decode .lencode (peekBits s 13) = .ok i rest) : engineTurn s = exec i (skipBits (13 - rest.length) s) := by
  have hf := fetchBits_ok (k := .lencode) (pre := []) (n := 13) (s := s) h
  simp only [engineTurn, hp, fetchLencode, hf, runFetched]

theorem engineTurn_cLen_of_decode {s u : State} {τ : Nat} {i : Instr} {rest : List Bool} (hp : s.phase = .cLen)
    (hd : decodeSymbol Config.NT s.dec.tTab s = some (τ, u))
    (h : decode .tsym (natToBits 5 τ ++ peekBits u 9) = .ok i rest) : engineTurn s = exec i (skipBits (9 - rest.length) u) := by
  simp only [engineTurn, hp, fetchT, hd, fetchBits_ok h, runFetched]

theorem engineTurn_pos_of_decode {s u : State} {c : Nat} {i : Instr} {rest : List Bool} (hp : s.phase = .pos)
    (hd : decodeSymbol Config.NPD s.dec.pTab s = some (c, u))
    (h : decode .psym (natToBits 5 c ++ peekBits u 29) = .ok i rest) : engineTurn s = exec i (skipBits (29 - rest.length) u) := by
  simp only [engineTurn, hp, fetchPos, hd, fetchBits_ok h, runFetched]

/-! ## The statements -/

/-- Settles O54: the engine's turn and every access of the host keep `ControlInv`. -/
theorem statusStaysLegal : Obligations.StatusStaysLegal := by
  intro s t hi h
  obtain ⟨ag, he | ⟨op, ho⟩⟩ := step_next h
  · exact engineStep_controlInv (s := { s with agenda := ag }) hi he
  · exact hostStep_controlInv (s := { s with agenda := ag }) hi ho

/-- Settles O4: the write runs the command of its word, which stores that word while BUSY = 0 and does nothing while BUSY = 1. -/
theorem commandWordStoredUnlessBusy : Obligations.CommandWordStoredUnlessBusy := by
  intro s v rest ha
  rw [step_writeCmd ha]
  have hbusy : busy { s with agenda := rest } = busy s := rfl
  rw [← hbusy]
  exact ⟨fun hb => exec_decodeCmd_cmd hb _, fun hb => exec_decodeCmd_of_busy hb _⟩

/-- Settles O60: none of these fields is among those that a turn of the engine changes. -/
theorem engineKeepsOperands : Obligations.EngineKeepsOperands := by
  intro s t h
  rw [engineStep_engineOnly h]
  exact ⟨rfl, rfl, rfl, rfl, rfl, rfl, rfl, rfl, rfl, rfl⟩

/-- Settles O48: the access at each of the four offsets reaches its register whole, and BUSY stays 0 after the write. -/
theorem operandRegistersReadBack : Obligations.OperandRegistersReadBack := by
  intro s v off hb hoff
  rcases hoff with rfl | rfl | rfl | rfl
  · obtain ⟨hw, hr⟩ := operand_readBack (off := 0x08) (r := .srcAddr) (t := { s with srcAddr := v }) rfl (by decide) (by decide) hb
      rfl rfl rfl (rfl : _ = v)
    exact ⟨_, hw, hr, rfl⟩
  · obtain ⟨hw, hr⟩ := operand_readBack (off := 0x10) (r := .srcLen) (t := { s with srcLen := v }) rfl (by decide) (by decide) hb
      rfl rfl rfl (rfl : _ = v)
    exact ⟨_, hw, hr, rfl⟩
  · obtain ⟨hw, hr⟩ := operand_readBack (off := 0x18) (r := .dstAddr) (t := { s with dstAddr := v }) rfl (by decide) (by decide) hb
      rfl rfl rfl (rfl : _ = v)
    exact ⟨_, hw, hr, rfl⟩
  · obtain ⟨hw, hr⟩ := operand_readBack (off := 0x20) (r := .dstLen) (t := { s with dstLen := v }) rfl (by decide) (by decide) hb
      rfl rfl rfl (rfl : _ = v)
    exact ⟨_, hw, hr, rfl⟩

/-- Settles O51: the turn of the host or of the engine, and at each place of Decode what is fetched there. -/
theorem stepRunsDecodedInstruction : Obligations.StepRunsDecodedInstruction := by
  refine ⟨fun s v rest ha => step_writeCmd ha, fun s s0 hm hf => ?_⟩
  rw [step_of_engineMoves hm hf]
  exact ⟨fun _ _ => engineTurn_header_of_decode, fun _ _ => engineTurn_block_of_decode,
    fun _ _ hp hb hd => ⟨fun _ => engineTurn_lit_of_decode hp hb hd, fun _ => engineTurn_match_of_decode hp hb hd⟩,
    fun _ _ => engineTurn_ptLen_of_decode, fun _ _ _ _ => engineTurn_cLen_of_decode,
    fun _ _ _ _ => engineTurn_pos_of_decode, engineTurn_copy⟩

end Sys2Proof.Machine
end

section
/-!
PROOFS. The host's side of 20_memory.md: accesses to the register space, the results a host sees, the buffer checks, and the header's
byte order.
-/

namespace Sys2Proof.Machine

/-! ## Accesses to the register space -/

/-- Where no register stands whole, an access in the register block is refused (R88). -/
theorem onRegister_of_regAt_none {s below above : State} {off width : Nat} (hoff : off < 0x30) (h : regAt off width = none)
    (k : Reg → Host.Outcome State Fault Refusal) :
    onRegister s (s.base + off) width below above k = .refused .partialRegisterAccess := by
  rw [onRegister, if_neg (by omega), if_neg (by omega), Nat.add_sub_cancel_left, h]

/-- From BASE + 0x30 on no register is decoded (R82). -/
theorem onRegister_above {s below above : State} {off width : Nat} (hoff : 0x30 ≤ off)
    (k : Reg → Host.Outcome State Fault Refusal) : onRegister s (s.base + off) width below above k = .next above := by
  rw [onRegister, if_neg (by omega), if_pos (by omega)]

theorem onRegister_below {s below above : State} {addr width : Nat} (h : addr < s.base)
    (k : Reg → Host.Outcome State Fault Refusal) : onRegister s addr width below above k = .next below := by
  rw [onRegister, if_pos h]

/-- CMD and STATUS are the 32-bit registers and the other five the 64-bit ones; nothing else is a whole register (R82, R88). -/
theorem regAt_eq_none {off width : Nat} (h32 : ¬ ((off = 0x00 ∨ off = 0x04) ∧ width = 32))
    (h64 : ¬ ((off = 0x08 ∨ off = 0x10 ∨ off = 0x18 ∨ off = 0x20 ∨ off = 0x28) ∧ width = 64)) : regAt off width = none := by
  rw [Option.eq_none_iff_forall_ne_some]
  intro r h
  unfold regAt at h
  split_ifs at h <;> omega

/-- Settles O49: the three places of an access are the three branches of `onRegister`. -/
theorem registerAccessesAreWhole : Obligations.RegisterAccessesAreWhole := by
  intro s v off width
  refine ⟨fun hoff h32 h64 => ?_, fun hoff => ?_, fun hoff => ?_⟩
  · have hr := regAt_eq_none h32 h64
    exact ⟨onRegister_of_regAt_none hoff hr _, onRegister_of_regAt_none hoff hr _⟩
  · exact ⟨onRegister_above hoff _, onRegister_above hoff _⟩
  · exact ⟨onRegister_below hoff _, _, onRegister_below hoff _, rfl⟩

/-! ## Results -/

/-- With DONE = 1 a read of STATUS makes every result visible (R95). -/
theorem readStatus_of_done {s : State} (h : done s = true) :
    readStatus s = { s with unacquired := [], busData := s.status.setWidth 64 } := by
  simp [readStatus, h, deliver]

/-- With no result withheld RESULT_LEN reads as it stands (R393). -/
theorem hostRegRead_resultLen {s : State} (hb : busy s = false) (hu : s.unacquired = []) :
    hostRegRead .resultLen s = .next (deliver s.resultLen s) := by
  simp [hostRegRead, hb, hu]

/-- With no result withheld a byte of host memory reads as it stands (R95). -/
theorem hostMemRead_of_visible {s : State} {a : Nat} (ha : a < 2 ^ s.addrW.val) (hu : s.unacquired = []) :
    hostMemRead a s = .next (deliver ((memGet s a).setWidth 64) s) := by
  simp [hostMemRead, inSpace, ha, notYetVisible, hu]

/-- Settles O50: the read of STATUS empties the list of withheld results. -/
theorem resultsVisibleAfterDone : Obligations.ResultsVisibleAfterDone := by
  intro s hd hb
  have hread : hostStep (.regRead (s.base + 0x04) 32) s = .next { s with unacquired := [], busData := s.status.setWidth 64 } := by
    rw [hostStep_regRead (r := .status) rfl, ← readStatus_of_done hd]
    rfl
  exact ⟨_, hread, rfl, ⟨_, (hostStep_regRead (off := 0x28) rfl).trans (hostRegRead_resultLen hb rfl), rfl⟩,
    fun a ha => ⟨_, hostMemRead_of_visible ha rfl, rfl⟩⟩

/-! ## The buffer checks -/

/-- Two ranges meet exactly when neither is empty and each begins before the other ends. -/
theorem ranges_meet_iff (a m b n : Nat) :
    (∃ x, inRange a m x = true ∧ inRange b n x = true) ↔ m ≠ 0 ∧ n ≠ 0 ∧ a < b + n ∧ b < a + m := by
  simp only [inRange_iff]
  constructor
  · rintro ⟨x, hx, hy⟩
    omega
  · intro h
    exact ⟨max a b, by omega, by omega⟩

/-- The buffer checks fail exactly when a buffer leaves the address space, is null or meets the other one (R92). -/
theorem buffersBad_iff (s : State) : buffersBad s = true ↔
    2 ^ s.addrW.val < s.srcAddr.toNat + s.srcLen.toNat ∨ 2 ^ s.addrW.val < s.dstAddr.toNat + s.dstLen.toNat ∨
      (s.srcLen ≠ 0#64 ∧ s.srcAddr = 0#64) ∨ (s.dstLen ≠ 0#64 ∧ s.dstAddr = 0#64) ∨
      ∃ a, inRange s.srcAddr.toNat s.srcLen.toNat a = true ∧ inRange s.dstAddr.toNat s.dstLen.toNat a = true := by
  have hzero (x : Word64) : x = 0#64 ↔ x.toNat = 0 := BitVec.toNat_inj.symm
  rw [ranges_meet_iff]
  simp only [buffersBad, ne_eq, hzero, Bool.or_eq_true, Bool.and_eq_true, bne_iff_ne, beq_iff_eq, decide_eq_true_eq, or_assoc, and_assoc]

/-- The checks read only the operand registers and ADDR_W, which accepting a command keeps. -/
theorem buffersBad_acceptCmd (w : Word32) (n : Nat) (s : State) : buffersBad (acceptCmd w n s) = buffersBad s := rfl

theorem exec_compress_of_buffersBad {s : State} (hb : busy s = false) (h : buffersBad s = true) (fmt : BitVec 8) :
    exec (.compress fmt) s
      = .next (endCommand .invalidParameter 0 (acceptCmd (encodeCmd (.compress fmt)) s.dstLen.toNat s)) := by
  simp only [exec, execCompress, hb, buffersBad_acceptCmd, h, Bool.true_or, Bool.false_eq_true, if_false, if_true]

theorem exec_decompress_of_buffersBad {s : State} (hb : busy s = false) (h : buffersBad s = true) (fmt : BitVec 8) :
    exec (.decompress fmt) s
      = .next (endCommand .invalidParameter 0 (acceptCmd (encodeCmd (.decompress fmt)) s.dstLen.toNat s)) := by
  simp only [exec, execDecompress, decompressBad, hb, buffersBad_acceptCmd, h, Bool.true_or, Bool.or_true, Bool.false_eq_true,
    if_false, if_true]

/-- Settles O9: the failed check ends the command at once, before anything is accessed. -/
theorem badBuffersEndTheCommand : Obligations.BadBuffersEndTheCommand := by
  intro s i hi hidle hbad
  rw [← buffersBad_iff] at hbad
  rcases hi with ⟨fmt, rfl⟩ | ⟨fmt, rfl⟩
  · exact ⟨_, exec_compress_of_buffersBad hidle hbad fmt, ⟨rfl, rfl, rfl⟩, rfl, rfl⟩
  · exact ⟨_, exec_decompress_of_buffersBad hidle hbad fmt, ⟨rfl, rfl, rfl⟩, rfl, rfl⟩

/-! ## The header -/

theorem takeField_append {n : Nat} {bs : List Bool} (h : bs.length = n) (rest : List Bool)
    (k : Nat → List Bool → DecodeResult) : takeField n (bs ++ rest) k = k (bitsToNat bs) rest := by
  subst h
  rw [takeField_ok (by simp), List.take_left, List.drop_left]

/-- The bits of the four bytes of a header field, in stream order. -/
def fieldBits (s : State) (i : Nat) : List Bool := (List.range 4).flatMap fun j => natToBits 8 (srcGet s (i + j)).toNat

theorem fieldBits_length (s : State) (i : Nat) : (fieldBits s i).length = 32 := by
  simp [fieldBits]

theorem headerBits_eq (s : State) : headerBits s = fieldBits s 0 ++ fieldBits s 4 := by
  simp [headerBits, fieldBits, List.range_succ]

/-- The four bytes of a field, the first in the highest place. -/
theorem bitsToNat_fieldBits (s : State) (i : Nat) : bitsToNat (fieldBits s i)
    = (((srcGet s i).toNat * 2 ^ 8 + (srcGet s (i + 1)).toNat) * 2 ^ 8 + (srcGet s (i + 2)).toNat) * 2 ^ 8
      + (srcGet s (i + 3)).toNat := by
  have hbyte (b : Byte) : bitsToNat (natToBits 8 b.toNat) = b.toNat := bitsToNat_natToBits_of_lt b.isLt
  simp only [fieldBits, List.range_succ, List.range_zero, List.nil_append, List.cons_append, List.flatMap_cons,
    List.flatMap_nil, List.append_nil, ← List.append_assoc, bitsToNat_append, natToBits_length, hbyte, Nat.add_zero]

/-- The bytes of a field the other way round, so that the first is the lowest (R83). -/
theorem toNat_leWord32 (n : Nat) : (leWord32 n).toNat
    = n / 2 ^ 24 % 2 ^ 8 + n / 2 ^ 16 % 2 ^ 8 * 2 ^ 8 + n / 2 ^ 8 % 2 ^ 8 * 2 ^ 16 + n % 2 ^ 8 * 2 ^ 24 := by
  have happ {w : Nat} (x : BitVec w) (y : Byte) : (x ++ y).toNat = x.toNat * 2 ^ 8 + y.toNat := by
    rw [BitVec.toNat_append, ← Nat.shiftLeft_add_eq_or_of_lt y.isLt, Nat.shiftLeft_eq]
  have h0 : n % 2 ^ 32 / 2 ^ 0 % 2 ^ 8 = n % 2 ^ 8 := by omega
  have h1 : n % 2 ^ 32 / 2 ^ 8 % 2 ^ 8 = n / 2 ^ 8 % 2 ^ 8 := by omega
  have h2 : n % 2 ^ 32 / 2 ^ 16 % 2 ^ 8 = n / 2 ^ 16 % 2 ^ 8 := by omega
  have h3 : n % 2 ^ 32 / 2 ^ 24 % 2 ^ 8 = n / 2 ^ 24 % 2 ^ 8 := by omega
  simp only [leWord32, happ, BitVec.extractLsb'_toNat, BitVec.toNat_ofNat, Nat.shiftRight_eq_div_pow, h0, h1, h2, h3]
  ring

/-- A header field as a number: its first byte is the lowest (R83). -/
theorem toNat_leWord32_fieldBits (s : State) (i : Nat) : (leWord32 (bitsToNat (fieldBits s i))).toNat
    = (srcGet s i).toNat + (srcGet s (i + 1)).toNat * 2 ^ 8 + (srcGet s (i + 2)).toNat * 2 ^ 16
      + (srcGet s (i + 3)).toNat * 2 ^ 24 := by
  have h0 := (srcGet s i).isLt
  have h1 := (srcGet s (i + 1)).isLt
  have h2 := (srcGet s (i + 2)).isLt
  have h3 := (srcGet s (i + 3)).isLt
  rw [toNat_leWord32, bitsToNat_fieldBits]
  omega

/-- Settles O11: the 64 bits are the two fields, and each field's number turns its bytes round. -/
theorem headerFieldsLittleEndian : Obligations.HeaderFieldsLittleEndian := by
  intro s
  have hfetch : fetchHeader s = .run (.streamHeader (leWord32 (bitsToNat (fieldBits s 0))) (leWord32 (bitsToNat (fieldBits s 4))))
      (engineReads s.srcAddr.toNat 8 s) := by
    have hlast := takeField_append (fieldBits_length s 4) []
    rw [List.append_nil] at hlast
    rw [fetchHeader, headerBits_eq]
    simp only [decode]
    rw [takeField_append (fieldBits_length s 0), hlast]
  exact ⟨_, _, hfetch, toNat_leWord32_fieldBits s 0, toNat_leWord32_fieldBits s 4⟩

end Sys2Proof.Machine
end

section
/-!
PROOFS. What Decode reads, writes and needs from one turn to the next: every turn reads the stream on and appends output (`Decodes`), and then
the command has ended or Decode goes on with the tables that its place uses (`Resumes`).
-/

namespace Sys2Proof.Machine

/-! ## Stretches of Decode -/

theorem DecodesOnly.buffers {s t : State} (h : DecodesOnly s t) :
    t.srcAddr = s.srcAddr ∧ t.srcLen = s.srcLen ∧ t.dstAddr = s.dstAddr ∧ t.dstLen = s.dstLen := by
  rw [h]
  exact ⟨rfl, rfl, rfl, rfl⟩

theorem bytesReached_congr {d d' : Dec} (h : d'.compsizeIn = d.compsizeIn) (r : Nat) : bytesReached d' r = bytesReached d r := by
  rw [bytesReached, h, bytesReached]

/-- The addresses from one place to a second and from there to a third. -/
theorem addrsFrom_join (a : Nat) {i j k : Nat} (hij : i ≤ j) (hjk : j ≤ k) :
    addrsFrom (a + i) (j - i) ++ addrsFrom (a + j) (k - j) = addrsFrom (a + i) (k - i) := by
  have hj : a + j = a + i + (j - i) := by omega
  have hk : k - i = j - i + (k - j) := by omega
  rw [hj, hk, addrsFrom_add]

/-- The accesses up to a state are those up to any other with its memory and its accesses. -/
theorem Accessed.congr {s t u : State} {new : List Access} (h : Accessed s t new) (hm : u.mem = t.mem)
    (ha : u.accesses = t.accesses) : Accessed s u new :=
  ⟨ha.trans h.accesses, h.stays, fun a => (memGet_congr hm a).trans (h.mem a), fun hw => hm ▸ h.wf hw⟩

/-- From `s` to `t` Decode has read the stream on to the new cursor and appended output: of the source it has read the bytes newly
reached, and it has written the destination bytes from the old `out` up to the new one, each once and in order (R89, R90). -/
structure Decodes (s t : State) : Prop where
  only : DecodesOnly s t
  compsizeIn : t.dec.compsizeIn = s.dec.compsizeIn
  origsize : t.dec.origsize = s.dec.origsize
  rpos : s.dec.rpos ≤ t.dec.rpos
  out : s.dec.out ≤ t.dec.out
  traced : ∃ new, Accessed s t new ∧
    (new.filterMap readAddr).reverse.filter (inRange s.srcAddr.toNat s.srcLen.toNat)
      = addrsFrom (s.srcAddr.toNat + 8 + bytesReached s.dec s.dec.rpos)
          (bytesReached s.dec t.dec.rpos - bytesReached s.dec s.dec.rpos) ∧
    (new.filterMap writeAddr).reverse = addrsFrom (s.dstAddr.toNat + s.dec.out) (t.dec.out - s.dec.out)

theorem Decodes.trans {s t u : State} (h : Decodes s t) (k : Decodes t u) : Decodes s u := by
  obtain ⟨l, hl, hlr, hlw⟩ := h.traced
  obtain ⟨m, hm, hmr, hmw⟩ := k.traced
  obtain ⟨hsa, hsl, hda, -⟩ := h.only.buffers
  have hb := bytesReached_congr h.compsizeIn
  rw [hsa, hsl, hb, hb] at hmr
  rw [hda] at hmw
  refine ⟨h.only.trans k.only, k.compsizeIn.trans h.compsizeIn, k.origsize.trans h.origsize, h.rpos.trans k.rpos,
    h.out.trans k.out, m ++ l, hl.trans hm h.only.buffers, ?_, ?_⟩
  · rw [List.filterMap_append, List.reverse_append, List.filter_append, hlr, hmr]
    exact addrsFrom_join _ (bytesReached_mono _ h.rpos) (bytesReached_mono _ k.rpos)
  · rw [List.filterMap_append, List.reverse_append, hlw, hmw]
    exact addrsFrom_join _ h.out k.out

/-- `t` is `s` but for tables, lists, STATUS, RESULT_LEN and the place: the stream has been read as far and the output written as far. -/
structure SameCursors (s t : State) : Prop where
  rest : t = { s with dec := t.dec, status := t.status, resultLen := t.resultLen, phase := t.phase }
  compsizeIn : t.dec.compsizeIn = s.dec.compsizeIn
  origsize : t.dec.origsize = s.dec.origsize
  rpos : t.dec.rpos = s.dec.rpos
  out : t.dec.out = s.dec.out

theorem decodes_of_sameCursors {s t : State} (h : SameCursors s t) : Decodes s t := by
  obtain ⟨hrest, hc, ho, hr, hout⟩ := h
  have hacc : Accessed s t [] := Accessed.none (by rw [hrest]) (by rw [hrest])
  refine ⟨?_, hc, ho, hr.ge, hout.ge, [], hacc, ?_, ?_⟩
  · unfold DecodesOnly
    rw [hrest]
  · simp [hr]
  · simp [hout]

theorem Decodes.refl (s : State) : Decodes s s := decodes_of_sameCursors ⟨rfl, rfl, rfl, rfl, rfl⟩

theorem skipBits_decodes (n : Nat) {s : State} (h : 8 + s.dec.compsizeIn ≤ s.srcLen.toNat) : Decodes s (skipBits n s) := by
  obtain ⟨new, hn, hw, hr⟩ := skipBits_accessed n s h
  have hlast : bytesReached s.dec (s.dec.rpos + n) ≤ s.dec.compsizeIn := Nat.min_le_right _ _
  have hmono := bytesReached_mono s.dec (Nat.le_add_right s.dec.rpos n)
  refine ⟨skipBits_only n s, rfl, rfl, Nat.le_add_right _ _, le_rfl, new, hn, ?_, ?_⟩
  · rw [hr, filter_addrsFrom_inside (by omega)]
    rfl
  · simp [hw]

theorem takeOfBlock_decodes (s : State) : Decodes s (takeOfBlock s) := decodes_of_sameCursors ⟨rfl, rfl, rfl, rfl, rfl⟩

theorem putLen_decodes (k : Nat) (s : State) : Decodes s (putLen k s) := decodes_of_sameCursors ⟨rfl, rfl, rfl, rfl, rfl⟩

theorem putZeros_decodes (z : Nat) (s : State) : Decodes s (putZeros z s) := decodes_of_sameCursors ⟨rfl, rfl, rfl, rfl, rfl⟩

theorem skipField_decodes {s : State} (h : 8 + s.dec.compsizeIn ≤ s.srcLen.toNat) : Decodes s (skipField s) := by
  rcases skipField_cases s with ⟨-, e⟩ | ⟨-, e⟩ <;> rw [e]
  · exact Decodes.refl s
  · exact (skipBits_decodes 2 h).trans (putZeros_decodes _ _)

theorem putOut_decodes (b : Byte) {s : State} (h : s.dec.out < s.dstLen.toNat) :
    Decodes s (setOut (s.dec.out + 1) (engineWrite (dstAt s s.dec.out) b s)) := by
  refine ⟨putOut_only _ _ _ _, rfl, rfl, le_rfl, Nat.le_succ _, _, (engineWrite_accessed s b h).congr rfl rfl, ?_, ?_⟩
  · simp [readAddr]
  · simp [writeAddr, dstAt]

/-- Buffers that pass the checks have no address in common (R92). -/
theorem not_inSource_of_inDestination {s : State} (hb : buffersBad s = false) {a : Nat}
    (ha : inRange s.dstAddr.toNat s.dstLen.toNat a = true) : inRange s.srcAddr.toNat s.srcLen.toNat a = false := by
  by_contra hs
  have hbad : buffersBad s = true :=
    (buffersBad_iff s).mpr (.inr (.inr (.inr (.inr ⟨a, by simpa using hs, ha⟩))))
  simp [hb] at hbad

/-- A match reads its bytes back from the destination, never from the source (R322). -/
theorem copyLoop_decodes {p k : Nat} {s t : State} (h : copyLoop p k s = some t) (hp : p + 1 ≤ s.dec.out)
    (ho : s.dec.out ≤ s.dec.origsize) (hl : s.dec.origsize = s.dstLen.toNat) (hb : buffersBad s = false) : Decodes s t := by
  obtain ⟨new, hn, hr, hw⟩ := copyLoop_accessed h hp ho hl
  obtain ⟨honly, -, -, -, hdec, hout, -, -⟩ := copyLoop_only h
  have hrpos : t.dec.rpos = s.dec.rpos := by rw [hdec]
  refine ⟨honly, by rw [hdec], by rw [hdec], hrpos.ge, hout, new, hn, ?_, hw⟩
  have hnone : (new.filterMap readAddr).reverse.filter (inRange s.srcAddr.toNat s.srcLen.toNat) = [] := by
    rw [List.filter_eq_nil_iff]
    intro a ha
    simp [not_inSource_of_inDestination hb (hr a (List.mem_reverse.mp ha))]
  rw [hnone, hrpos, Nat.sub_self, addrsFrom_zero]

/-- A match stops at the end of the output (R323). -/
theorem copyLoop_out_le {p k : Nat} {s t : State} (h : copyLoop p k s = some t) (hp : p + 1 ≤ s.dec.out)
    (ho : s.dec.out ≤ s.dec.origsize) : t.dec.out ≤ t.dec.origsize := by
  obtain ⟨hin, hoff⟩ := copyLoop_spec p k s hp ho _ rfl
  by_cases hfit : min k (s.dec.origsize - s.dec.out) = 0 ∨
      dstAt s (s.dec.out + min k (s.dec.origsize - s.dec.out)) ≤ 2 ^ s.addrW.val
  · obtain ⟨u, hu, e, -⟩ := hin hfit
    obtain rfl := Option.some.inj (hu.symm.trans h)
    rw [e]
    show s.dec.out + min k (s.dec.origsize - s.dec.out) ≤ s.dec.origsize
    omega
  · rw [not_or, not_le] at hfit
    rw [hoff hfit.1 hfit.2] at h
    cases h

/-! ## Where Decode goes on -/

/-- The tables of the block that stand before its list `d.list`. -/
def EarlierTables (d : Dec) : Prop :=
  (d.list = .cList → TableOk Config.NT d.tTab) ∧ (d.list = .pList → TableOk Config.NC d.cTab)

/-- The tables that a block's symbols use. -/
def SymbolTables (d : Dec) : Prop := TableOk Config.NC d.cTab ∧ TableOk Config.NPD d.pTab

/-- The command has ended, or Decode goes on: output is owed, and the tables that its place uses are checked. -/
def Resumes (t : State) : Prop :=
  t.phase = .idle ∨ (decoding t.phase = true ∧ t.dec.out < t.dec.origsize ∧ TablesInv t)

/-- A turn of Decode from `s` to `t`. -/
def DecodeTurned (s t : State) : Prop := Decodes s t ∧ Resumes t

theorem Decodes.turned {s u t : State} (h : Decodes s u) (k : DecodeTurned u t) : DecodeTurned s t :=
  ⟨h.trans k.1, k.2⟩

theorem endBad_decodeTurned (s : State) : DecodeTurned s (endBad s) :=
  ⟨decodes_of_sameCursors ⟨rfl, rfl, rfl, rfl, rfl⟩, .inl rfl⟩

/-- After a checked table the next list, or the symbols, find the tables they need. -/
theorem storeTable_decodeTurned {T : Table} {s : State} (ho : s.dec.out < s.dec.origsize) (hT : TableOk (listSize s.dec.list) T)
    (hl : EarlierTables s.dec) : DecodeTurned s (storeTable T s) := by
  rcases storeTable_cases T s with ⟨hlist, e⟩ | ⟨hlist, e⟩ | ⟨hlist, e⟩ <;> rw [e] <;> rw [hlist] at hT
  · exact ⟨decodes_of_sameCursors ⟨rfl, rfl, rfl, rfl, rfl⟩, .inr ⟨rfl, ho, fun _ => hT, fun h => (nomatch h)⟩⟩
  · exact ⟨decodes_of_sameCursors ⟨rfl, rfl, rfl, rfl, rfl⟩, .inr ⟨rfl, ho, fun h => (nomatch h), fun _ => hT⟩⟩
  · exact ⟨decodes_of_sameCursors ⟨rfl, rfl, rfl, rfl, rfl⟩, .inr ⟨rfl, ho, fun _ => ⟨hl.2 hlist, hT⟩⟩⟩

/-- Decode stands at the lengths of a list, some of them read; `idx` may have reached `count`. -/
structure ReadingList (s : State) : Prop where
  place : (s.phase = .ptLen ∧ s.dec.list ≠ .cList) ∨ (s.phase = .cLen ∧ s.dec.list = .cList)
  earlier : EarlierTables s.dec
  length : s.dec.lens.length = listSize s.dec.list
  bounded : lensBounded s.dec.lens
  count : s.dec.count ≤ listSize s.dec.list
  owed : s.dec.out < s.dec.origsize

theorem ReadingList.setLens {s : State} (h : ReadingList s) (i : Nat) {l : List Nat} (hl : l.length = listSize s.dec.list)
    (hb : lensBounded l) : ReadingList { s with dec := { s.dec with idx := i, lens := l } } :=
  ⟨h.place, h.earlier, hl, hb, h.count, h.owed⟩

theorem ReadingList.skipBits {s : State} (h : ReadingList s) (n : Nat) : ReadingList (skipBits n s) :=
  ⟨h.place, h.earlier, h.length, h.bounded, h.count, h.owed⟩

theorem ReadingList.putLen {s : State} (h : ReadingList s) {k : Nat} (hk : k ≤ Config.codeBit) : ReadingList (putLen k s) := by
  refine h.setLens _ (by simpa using h.length) fun l hl => ?_
  rcases List.mem_or_eq_of_mem_set hl with hl | rfl
  · exact h.bounded l hl
  · exact hk

theorem ReadingList.putZeros {s : State} (h : ReadingList s) (z : Nat) : ReadingList (putZeros z s) := by
  obtain ⟨-, hlen, -⟩ := zeroRun_spec (listSize s.dec.list) z s.dec.idx s.dec.lens h.length
  refine h.setLens _ hlen fun l hl => ?_
  rcases zeroRun_mem _ _ _ _ l hl with rfl | hl
  · exact Nat.zero_le _
  · exact h.bounded l hl

theorem ReadingList.skipField {s : State} (h : ReadingList s) : ReadingList (skipField s) := by
  rcases skipField_cases s with ⟨-, e⟩ | ⟨-, e⟩ <;> rw [e]
  · exact h
  · exact (h.skipBits 2).putZeros _

theorem ReadingList.resumes {s : State} (h : ReadingList s) (hi : s.dec.idx < s.dec.count) : Resumes s := by
  have hlist : ListOk s.dec := ⟨h.length, h.bounded, hi, h.count⟩
  rcases h.place with ⟨hp, hk⟩ | ⟨hp, hk⟩
  · refine .inr ⟨by rw [hp]; rfl, h.owed, ?_⟩
    rw [TablesInv, hp]
    exact ⟨hk, hlist, h.earlier.2⟩
  · refine .inr ⟨by rw [hp]; rfl, h.owed, ?_⟩
    rw [TablesInv, hp]
    exact ⟨hk, hlist, h.earlier.1 hk⟩

/-- After a length the list goes on, its checked table is stored, or the command ends (R305, R310, R312). -/
theorem ReadingList.decodeTurned {s : State} (h : ReadingList s) : DecodeTurned s (listTurn s) := by
  unfold listTurn buildTable
  split_ifs with hi hk
  · exact ⟨Decodes.refl s, h.resumes hi⟩
  · exact storeTable_decodeTurned h.owed ⟨h.length, hk, h.bounded⟩ h.earlier
  · exact endBad_decodeTurned s

/-- A place at the lengths of a list whose tables and list are checked. -/
theorem readingList_of_ptLen {s : State} (hp : s.phase = .ptLen) (hT : TablesInv s) (ho : s.dec.out < s.dec.origsize) :
    ReadingList s := by
  rw [TablesInv, hp] at hT
  obtain ⟨hk, ⟨hlen, hb, -, hc⟩, hC⟩ := hT
  exact ⟨.inl ⟨hp, hk⟩, ⟨fun h => absurd h hk, hC⟩, hlen, hb, hc, ho⟩

theorem readingList_of_cLen {s : State} (hp : s.phase = .cLen) (hT : TablesInv s) (ho : s.dec.out < s.dec.origsize) :
    ReadingList s := by
  rw [TablesInv, hp] at hT
  obtain ⟨hk, ⟨hlen, hb, -, hc⟩, hN⟩ := hT
  exact ⟨.inr ⟨hp, hk⟩, ⟨fun _ => hN, fun h => by rw [hk] at h; cases h⟩, hlen, hb, hc, ho⟩

/-- A symbol that leaves output owed leads to the next one, with the same tables (R320, R324). -/
theorem afterSymbol_decodeTurned {s : State} (ho : s.dec.out ≤ s.dec.origsize) (hT : SymbolTables s.dec) :
    DecodeTurned s (afterSymbol s) := by
  rcases afterSymbol_cases s with ⟨-, e⟩ | ⟨hne, e⟩ <;> rw [e]
  · exact ⟨decodes_of_sameCursors ⟨rfl, rfl, rfl, rfl, rfl⟩, .inl rfl⟩
  · exact ⟨decodes_of_sameCursors ⟨rfl, rfl, rfl, rfl, rfl⟩, .inr ⟨rfl, lt_of_le_of_ne ho hne, fun _ => hT⟩⟩

/-! ## The instructions of Decode -/

/-- The destination is as long as the output, output is owed, and the stated stream lies in the source (R330, R324). -/
def InDecode (s : State) : Prop :=
  s.dec.origsize = s.dstLen.toNat ∧ s.dec.out < s.dec.origsize ∧ 8 + s.dec.compsizeIn ≤ s.srcLen.toNat

theorem InDecode.owed {s : State} (h : InDecode s) : s.dec.out < s.dec.origsize := h.2.1

theorem InDecode.stream {s : State} (h : InDecode s) : 8 + s.dec.compsizeIn ≤ s.srcLen.toNat := h.2.2

theorem InDecode.out_lt {s : State} (h : InDecode s) : s.dec.out < s.dstLen.toNat := h.1 ▸ h.2.1

theorem Decodes.inDecode {s t : State} (h : Decodes s t) (hd : InDecode s) (ho : t.dec.out < t.dec.origsize) : InDecode t := by
  obtain ⟨-, hsl, -, hdl⟩ := h.only.buffers
  obtain ⟨horig, -, hstream⟩ := hd
  exact ⟨by rw [h.origsize, hdl, horig], ho, by rw [h.compsizeIn, hsl]; exact hstream⟩

theorem exec_block_decodeTurned {z : Half} {s t : State} (ho : s.dec.out < s.dec.origsize) (h : exec (.block z) s = .next t) :
    DecodeTurned s t := by
  rcases exec_block_next h with ⟨-, rfl⟩ | ⟨-, rfl⟩
  · exact endBad_decodeTurned s
  · exact ⟨decodes_of_sameCursors ⟨rfl, rfl, rfl, rfl, rfl⟩, .inr ⟨rfl, ho, fun h => (nomatch h), fun h => (nomatch h)⟩⟩

theorem exec_lit_decodeTurned {b : Byte} {s t : State} (hd : InDecode s) (hT : SymbolTables s.dec)
    (h : exec (.lit b) s = .next t) : DecodeTurned s t := by
  obtain ⟨-, rfl⟩ := exec_lit_next h
  exact (putOut_decodes b hd.out_lt).turned (afterSymbol_decodeTurned hd.owed hT)

theorem exec_matchCopy_decodeTurned {m : BitVec 9} {s t : State} (hd : InDecode s) (hT : SymbolTables s.dec)
    (hb : buffersBad s = false) (h : exec (.matchCopy m) s = .next t) : DecodeTurned s t := by
  rcases exec_matchCopy_next h with ⟨-, rfl⟩ | ⟨hp, u, hu, rfl⟩
  · exact endBad_decodeTurned s
  · have hTu : SymbolTables u.dec := by
      obtain ⟨-, -, -, -, hdec, -⟩ := copyLoop_only hu
      rw [hdec]
      exact hT
    exact (copyLoop_decodes hu hp hd.owed.le hd.1 hb).turned (afterSymbol_decodeTurned (copyLoop_out_le hu hp hd.owed.le) hTu)

theorem exec_tsym_decodeTurned {i : Instr} (hi : IsTSymbol i) {s t : State} (hl : ReadingList s) (h : exec i s = .next t) :
    DecodeTurned s t := by
  rcases exec_tsym_next hi h with ⟨z, rfl⟩ | ⟨k, -, hk, rfl⟩
  · exact (putZeros_decodes z s).turned (hl.putZeros z).decodeTurned
  · exact (putLen_decodes k s).turned (hl.putLen hk).decodeTurned

theorem exec_lencode_decodeTurned {k : BitVec 5} {s t : State} (hs : 8 + s.dec.compsizeIn ≤ s.srcLen.toNat) (hl : ReadingList s)
    (h : exec (.lencode k) s = .next t) : DecodeTurned s t := by
  rcases exec_lencode_next h with ⟨-, rfl⟩ | ⟨hk, rfl⟩
  · exact endBad_decodeTurned s
  · exact ((putLen_decodes _ s).trans (skipField_decodes hs)).turned (hl.putLen hk).skipField.decodeTurned

/-! ## The turns of Decode, place by place -/

theorem engineTurn_sym_decodeTurned {s t : State} (hp : s.phase = .sym) (hd : InDecode s) (hT : TablesInv s)
    (h : engineTurn s = .next t) : DecodeTurned s t := by
  rw [TablesInv, hp] at hT
  by_cases hz : s.dec.blocksize = 0#16
  · obtain ⟨size, e⟩ := engineTurn_block hp hz
    exact (skipBits_decodes 16 hd.stream).turned (exec_block_decodeTurned hd.owed (e ▸ h))
  · cases hc : decodeSymbol Config.NC s.dec.cTab (takeOfBlock s) with
    | none =>
      rw [engineTurn_sym_none hp hz hc] at h
      cases h
    | some x =>
      obtain ⟨σ, u⟩ := x
      obtain ⟨-, n, rfl⟩ := decodeSymbol_some hc
      have hread : Decodes s (skipBits n (takeOfBlock s)) :=
        (takeOfBlock_decodes s).trans (skipBits_decodes n hd.stream)
      rcases engineTurn_sym hp hz hc with ⟨b, e⟩ | ⟨m, hm, e⟩
      · exact hread.turned (exec_lit_decodeTurned hd (hT hz) (e ▸ h))
      · obtain rfl := Host.Outcome.next.inj (e.symm.trans h)
        exact hread.turned ⟨decodes_of_sameCursors ⟨rfl, rfl, rfl, rfl, rfl⟩, .inr ⟨rfl, hd.owed, (hT hz).1, (hT hz).2, hm⟩⟩

theorem readCount_decodeTurned {s : State} (hd : InDecode s) (hl : EarlierTables s.dec) : DecodeTurned s (readCount s) := by
  rcases readCount_cases s with ⟨n, e⟩ | ⟨σ, n, hσ, e⟩ | ⟨c, n, hpos, hc, e⟩ <;> rw [e]
  · exact (skipBits_decodes n hd.stream).turned (endBad_decodeTurned _)
  · exact (skipBits_decodes n hd.stream).turned (storeTable_decodeTurned hd.owed hσ hl)
  · refine (skipBits_decodes n hd.stream).turned ⟨decodes_of_sameCursors ⟨rfl, rfl, rfl, rfl, rfl⟩, ReadingList.resumes ?_ hpos⟩
    refine ⟨?_, hl, List.length_replicate, fun l hmem => ?_, hc, hd.owed⟩
    · by_cases hk : s.dec.list = .cList
      · exact .inr ⟨if_pos hk, hk⟩
      · exact .inl ⟨if_neg hk, hk⟩
    · rw [List.eq_of_mem_replicate hmem]
      exact Nat.zero_le _

theorem engineTurn_ptLen_decodeTurned {s t : State} (hp : s.phase = .ptLen) (hd : InDecode s) (hT : TablesInv s)
    (h : engineTurn s = .next t) : DecodeTurned s t := by
  obtain ⟨k, n, -, e⟩ := engineTurn_ptLen hp
  have hl := (readingList_of_ptLen hp hT hd.owed).skipBits n
  exact (skipBits_decodes n hd.stream).turned (exec_lencode_decodeTurned hd.stream hl (e ▸ h))

theorem engineTurn_cLen_decodeTurned {s t : State} (hp : s.phase = .cLen) (hd : InDecode s) (hT : TablesInv s)
    (h : engineTurn s = .next t) : DecodeTurned s t := by
  cases hc : decodeSymbol Config.NT s.dec.tTab s with
  | none =>
    rw [engineTurn_cLen_none hp hc] at h
    cases h
  | some x =>
    obtain ⟨τ, u⟩ := x
    obtain ⟨-, m, rfl⟩ := decodeSymbol_some hc
    obtain ⟨i, n, hi, e⟩ := engineTurn_cLen hp hc
    have hl := ((readingList_of_cLen hp hT hd.owed).skipBits m).skipBits n
    have hread : Decodes s (skipBits n (skipBits m s)) :=
      (skipBits_decodes m hd.stream).trans (skipBits_decodes n hd.stream)
    exact hread.turned (exec_tsym_decodeTurned hi hl (e ▸ h))

theorem engineTurn_pos_decodeTurned {s t : State} (hp : s.phase = .pos) (hd : InDecode s) (hT : TablesInv s)
    (h : engineTurn s = .next t) : DecodeTurned s t := by
  rw [TablesInv, hp] at hT
  cases hc : decodeSymbol Config.NPD s.dec.pTab s with
  | none =>
    rw [engineTurn_pos_none hp hc] at h
    cases h
  | some x =>
    obtain ⟨c, u⟩ := x
    obtain ⟨-, m, rfl⟩ := decodeSymbol_some hc
    obtain ⟨p, x, n, e⟩ := engineTurn_pos hp hc
    obtain rfl := Host.Outcome.next.inj (e.symm.trans h)
    have hread : Decodes s (skipBits n (skipBits m s)) :=
      (skipBits_decodes m hd.stream).trans (skipBits_decodes n hd.stream)
    exact hread.turned ⟨decodes_of_sameCursors ⟨rfl, rfl, rfl, rfl, rfl⟩, .inr ⟨rfl, hd.owed, hT⟩⟩

/-- Every turn of Decode reads the stream on, appends output, and ends the command or leaves its next place what it needs. -/
theorem engineTurn_decodeTurned {s t : State} (hdec : decoding s.phase = true) (hd : InDecode s) (hT : TablesInv s)
    (hb : buffersBad s = false) (h : engineTurn s = .next t) : DecodeTurned s t := by
  cases hp : s.phase with
  | idle | encFirst | encLoop | encEnd | header =>
    rw [hp] at hdec
    cases hdec
  | sym => exact engineTurn_sym_decodeTurned hp hd hT h
  | count =>
    obtain rfl := Host.Outcome.next.inj ((engineTurn_count hp).symm.trans h)
    rw [TablesInv, hp] at hT
    exact readCount_decodeTurned hd hT
  | ptLen => exact engineTurn_ptLen_decodeTurned hp hd hT h
  | cLen => exact engineTurn_cLen_decodeTurned hp hd hT h
  | pos => exact engineTurn_pos_decodeTurned hp hd hT h
  | copy =>
    rw [TablesInv, hp] at hT
    obtain ⟨hC, hP, -⟩ := hT
    exact exec_matchCopy_decodeTurned hd ⟨hC, hP⟩ hb (engineTurn_copy hp ▸ h)

end Sys2Proof.Machine
end

section
/-!
PROOFS. The safety invariant and the sequence of accesses: what a turn of COMPRESS, the reading of the header, a turn of Decode and an access of
the host leave of them, and what an engine step accesses and writes.
-/

namespace Sys2Proof.Machine

/-! ## The invariants by place -/

/-- A running command stands in COMPRESS, at its header, or in Decode. -/
theorem running_cases {p : Phase} (h : p ≠ .idle) : compressing p = true ∨ p = .header ∨ decoding p = true := by
  cases p with
  | idle => exact absurd rfl h
  | encFirst | encLoop | encEnd => exact .inl rfl
  | header => exact .inr (.inl rfl)
  | sym | count | ptLen | cLen | pos | copy => exact .inr (.inr rfl)

theorem not_decoding_of_compressing {p : Phase} (h : compressing p = true) : p ≠ .header ∧ decoding p = false := by
  cases p with
  | encFirst | encLoop | encEnd => exact ⟨by decide, rfl⟩
  | idle | header | sym | count | ptLen | cLen | pos | copy => cases h

theorem not_compressing_of_decoding {p : Phase} (h : decoding p = true) : p ≠ .header ∧ compressing p = false := by
  cases p with
  | sym | count | ptLen | cLen | pos | copy => exact ⟨by decide, rfl⟩
  | idle | encFirst | encLoop | encEnd | header => cases h

/-- Outside DECOMPRESS nothing is asked of the header and of Decode's sizes. -/
theorem decodeInv_of_not_decoding {s : State} (hh : s.phase ≠ .header) (hd : decoding s.phase = false) : DecodeInv s :=
  ⟨fun h => absurd h hh, fun h => by rw [hd] at h; cases h⟩

theorem decodeInv_of_inDecode {s : State} (hd : decoding s.phase = true) (h : InDecode s) : DecodeInv s :=
  ⟨fun hh => absurd hh (not_compressing_of_decoding hd).1, fun _ => h⟩

/-- Outside Decode no table is about to be used. -/
theorem tablesInv_of_not_decoding {s : State} (hd : decoding s.phase = false) : TablesInv s := by
  unfold TablesInv
  cases hp : s.phase with
  | idle | encFirst | encLoop | encEnd | header => trivial
  | sym | count | ptLen | cLen | pos | copy =>
    rw [hp] at hd
    cases hd

/-- What Decode has accessed so far (R89, R90). -/
def DecodeAccesses (s : State) : Prop :=
  sourceReads s = addrsFrom s.srcAddr.toNat (8 + bytesReached s.dec s.dec.rpos) ∧
  writtenAddrs s = addrsFrom s.dstAddr.toNat s.dec.out

theorem accessInv_of_idle {s : State} (h : s.phase = .idle) : AccessInv s := by
  simp [AccessInv, h, compressing, decoding]

theorem accessInv_iff_of_compressing {s : State} (h : compressing s.phase = true) :
    AccessInv s ↔ sourceReads s = addrsFrom s.srcAddr.toNat s.enc.srcpos := by
  rw [AccessInv, if_pos h]

theorem accessInv_iff_of_header {s : State} (h : s.phase = .header) : AccessInv s ↔ s.accesses = [] := by
  simp [AccessInv, h, compressing]

theorem accessInv_iff_of_decoding {s : State} (h : decoding s.phase = true) : AccessInv s ↔ DecodeAccesses s := by
  obtain ⟨hh, hc⟩ := not_compressing_of_decoding h
  rw [AccessInv, hc, if_neg (by decide), if_neg hh, if_pos h]
  rfl

/-! ## What a turn of the engine keeps -/

/-- What a turn from `s` leaves at `t`: host memory in its form, what the place of `t` needs, and the sequence of accesses in its order. STATUS
and the operands are `Turned`'s. -/
structure TurnKeeps (s t : State) : Prop where
  mem : Memory.wf s.mem = true → Memory.wf t.mem = true
  decode : DecodeInv t
  tables : TablesInv t
  accesses : AccessInv s → AccessInv t

theorem turnKeeps_of_idle {s t : State} (hw : Memory.wf s.mem = true → Memory.wf t.mem = true) (hp : t.phase = .idle) :
    TurnKeeps s t := by
  have hd : decoding t.phase = false := by rw [hp]; rfl
  exact ⟨hw, decodeInv_of_not_decoding (by rw [hp]; decide) hd, tablesInv_of_not_decoding hd, fun _ => accessInv_of_idle hp⟩

/-! ### COMPRESS -/

/-- A turn of COMPRESS encodes, and then COMPRESS goes on or finishes. -/
theorem engineTurn_compress_cases {s t : State} (hc : compressing s.phase = true) (h : engineTurn s = .next t) :
    ∃ u, Encodes s u ∧ ((∃ p, compressing p = true ∧ t = { u with phase := p }) ∨ t = finishCompress u) := by
  cases hp : s.phase with
  | encFirst =>
    obtain ⟨u, hu, rfl⟩ := engineTurn_encFirst hp h
    exact ⟨u, matchLoopStart_encodes hu, .inl ⟨.encLoop, rfl, rfl⟩⟩
  | encLoop =>
    rcases engineTurn_encLoop hp h with ⟨-, rfl⟩ | ⟨-, ht⟩
    · exact ⟨s, Encodes.refl s, .inl ⟨.encEnd, rfl, rfl⟩⟩
    · have he := matchLoopTurn_encodes ht
      exact ⟨t, he, .inl ⟨t.phase, by rw [he.worksOn.phase, hp]; rfl, rfl⟩⟩
  | encEnd =>
    obtain ⟨-, ht⟩ := engineTurn_encEnd hp h
    exact ⟨writeHeader (hufEncodeEnd s), (hufEncodeEnd_encodes s).trans (writeHeader_encodes _), .inr ht⟩
  | idle | header | sym | count | ptLen | cLen | pos | copy =>
    rw [hp] at hc
    cases hc

/-- COMPRESS reads on in the source where it stands (R89). -/
theorem Encodes.sourceReads_eq {s t : State} (h : Encodes s t)
    (hs : sourceReads s = addrsFrom s.srcAddr.toNat s.enc.srcpos) :
    sourceReads t = addrsFrom t.srcAddr.toNat t.enc.srcpos := by
  obtain ⟨new, k, hn, hpos, hin, hr⟩ := h.traced
  obtain ⟨hsa, hsl, -, -⟩ := h.buffers
  rw [(hn.addrs ⟨hsa, hsl⟩).1, hr, hs, filter_addrsFrom_inside (by omega), hsa, hpos, addrsFrom_add]

theorem finishCompress_phase (s : State) : (finishCompress s).phase = .idle := by
  rcases finishCompress_cases s with ⟨-, e⟩ | ⟨-, e⟩ <;> rw [e] <;> rfl

theorem finishCompress_wf {s : State} (h : Memory.wf s.mem = true) : Memory.wf (finishCompress s).mem = true := by
  rcases finishCompress_cases s with ⟨-, e⟩ | ⟨-, e⟩ <;> rw [e]
  · exact h
  · obtain ⟨-, -, hw⟩ := drawDst_spec _ s le_rfl
    exact hw h

theorem engineTurn_compress_keeps {s t : State} (hc : compressing s.phase = true) (h : engineTurn s = .next t) : TurnKeeps s t := by
  obtain ⟨u, he, ⟨p, hp, rfl⟩ | rfl⟩ := engineTurn_compress_cases hc h
  · obtain ⟨hh, hd⟩ := not_decoding_of_compressing hp
    exact ⟨he.wf, decodeInv_of_not_decoding hh hd, tablesInv_of_not_decoding hd, fun ha =>
      (accessInv_iff_of_compressing hp).mpr (he.sourceReads_eq ((accessInv_iff_of_compressing hc).mp ha))⟩
  · exact turnKeeps_of_idle (fun hw => finishCompress_wf (he.wf hw)) (finishCompress_phase u)

/-! ### The header -/

/-- The reading of the header accesses its eight bytes alone. -/
theorem engineTurn_header_accessed {s t : State} (hp : s.phase = .header) (h8 : 8 ≤ s.srcLen.toNat)
    (h : engineTurn s = .next t) : ∃ new, Accessed s t new ∧
      (new.filterMap readAddr).reverse = addrsFrom s.srcAddr.toNat 8 ∧ new.filterMap writeAddr = [] := by
  obtain ⟨new, hn, hr, hw⟩ := engineReads_accessed s (a := s.srcAddr.toNat) (k := 8) fun x h1 h2 => by
    simp only [inBuffers, Bool.or_eq_true, inRange_iff]
    omega
  obtain ⟨l, o, e⟩ := engineTurn_header hp
  obtain ⟨u, hu, ht⟩ := exec_streamHeader_next (e ▸ h)
  have hum : u.mem = s.mem := by rw [hu]; rfl
  have hua : u.accesses = (engineReads s.srcAddr.toNat 8 s).accesses := by rw [hu]
  refine ⟨new, ?_, hr, hw⟩
  rcases ht with rfl | ⟨-, -, ⟨-, rfl⟩ | ⟨-, rfl⟩⟩
  · exact hn.congr hum hua
  · exact hn.congr hum hua
  · exact hn.congr hum hua

/-- After the header the command has ended, or Decode starts. -/
theorem engineTurn_header_cases {s t : State} (hp : s.phase = .header) (h : engineTurn s = .next t) :
    t.phase = .idle ∨ ∃ u, t = startDecode u ∧ InDecode t := by
  obtain ⟨l, o, e⟩ := engineTurn_header hp
  obtain ⟨u, hu, ht⟩ := exec_streamHeader_next (e ▸ h)
  rcases ht with rfl | ⟨hl, ho, ⟨-, rfl⟩ | ⟨hpos, rfl⟩⟩
  · exact .inl rfl
  · exact .inl rfl
  · refine .inr ⟨u, rfl, ?_⟩
    rw [hu]
    exact ⟨ho.symm, Nat.pos_of_ne_zero hpos, hl⟩

theorem EngineOnly.buffers {s t : State} (h : EngineOnly s t) :
    t.srcAddr = s.srcAddr ∧ t.srcLen = s.srcLen ∧ t.dstAddr = s.dstAddr ∧ t.dstLen = s.dstLen := by
  rw [h]
  exact ⟨rfl, rfl, rfl, rfl⟩

theorem engineTurn_header_keeps {s t : State} (hp : s.phase = .header) (h8 : 8 ≤ s.srcLen.toNat) (h : engineTurn s = .next t) :
    TurnKeeps s t := by
  obtain ⟨new, hn, hr, hw⟩ := engineTurn_header_accessed hp h8 h
  obtain ⟨hsa, hsl, -, -⟩ := (engineTurn_turned (by rw [hp]; decide) h).engineOnly.buffers
  obtain ⟨hreads, hwrites⟩ := hn.addrs ⟨hsa, hsl⟩
  rcases engineTurn_header_cases hp h with hidle | ⟨u, rfl, hd⟩
  · exact turnKeeps_of_idle hn.wf hidle
  · refine ⟨hn.wf, decodeInv_of_inDecode rfl hd, fun hz => absurd rfl hz, fun ha => ?_⟩
    have hnone := (accessInv_iff_of_header hp).mp ha
    have hstart : bytesReached (startDecode u).dec (startDecode u).dec.rpos = 0 := by
      simp [bytesReached, startDecode]
    refine (accessInv_iff_of_decoding rfl).mpr ⟨?_, ?_⟩
    · rw [hreads, hr, filter_addrsFrom_inside (by omega), hstart, hsa]
      simp [sourceReads, hnone]
    · rw [hwrites, hw]
      simp [writtenAddrs, hnone]

/-! ### Decode -/

/-- Decode reads on in the stream and writes on in the destination (R89, R90). -/
theorem Decodes.decodeAccesses {s t : State} (h : Decodes s t) (ha : DecodeAccesses s) : DecodeAccesses t := by
  obtain ⟨new, hn, hr, hw⟩ := h.traced
  obtain ⟨hsa, hsl, hda, -⟩ := h.only.buffers
  obtain ⟨hreads, hwrites⟩ := ha
  have hmono := bytesReached_mono s.dec h.rpos
  have hreach : 8 + bytesReached s.dec t.dec.rpos
      = 8 + bytesReached s.dec s.dec.rpos + (bytesReached s.dec t.dec.rpos - bytesReached s.dec s.dec.rpos) := by omega
  have hout : t.dec.out = s.dec.out + (t.dec.out - s.dec.out) := (Nat.add_sub_cancel' h.out).symm
  refine ⟨?_, ?_⟩
  · rw [(hn.addrs ⟨hsa, hsl⟩).1, hr, hreads, hsa, bytesReached_congr h.compsizeIn, hreach, addrsFrom_add _ (8 + _), Nat.add_assoc]
  · rw [(hn.addrs ⟨hsa, hsl⟩).2, hw, hwrites, hda, ← addrsFrom_add, ← hout]

theorem Decodes.wf {s t : State} (h : Decodes s t) : Memory.wf s.mem = true → Memory.wf t.mem = true := by
  obtain ⟨new, hn, -, -⟩ := h.traced
  exact hn.wf

theorem DecodeTurned.keeps {s t : State} (h : DecodeTurned s t) (hdec : decoding s.phase = true) (hd : InDecode s) :
    TurnKeeps s t := by
  obtain ⟨hD, hidle | ⟨hp, ho, hT⟩⟩ := h
  · exact turnKeeps_of_idle hD.wf hidle
  · exact ⟨hD.wf, decodeInv_of_inDecode hp (hD.inDecode hd ho), hT, fun ha =>
      (accessInv_iff_of_decoding hp).mpr (hD.decodeAccesses ((accessInv_iff_of_decoding hdec).mp ha))⟩

/-! ### The engine's step -/

/-- A turn of a safe running command keeps what its next place needs. -/
theorem engineTurn_keeps {s t : State} (hs : SafeInv s) (hrun : s.phase ≠ .idle) (h : engineTurn s = .next t) : TurnKeeps s t := by
  obtain ⟨-, -, hbuf, ⟨hhead, hdecode⟩, htab⟩ := hs
  rcases running_cases hrun with hc | hp | hdec
  · exact engineTurn_compress_keeps hc h
  · exact engineTurn_header_keeps hp (hhead hp) h
  · exact (engineTurn_decodeTurned hdec (hdecode hdec) htab (hbuf hrun) h).keeps hdec (hdecode hdec)

/-- The operands stay as they were checked. -/
theorem EngineOnly.buffersBad_eq {s t : State} (h : EngineOnly s t) : buffersBad t = buffersBad s := by
  rw [h]
  rfl

theorem engineStep_safe {s t : State} (hs : SafeInv s) (h : engineStep s = .next t) : SafeInv t ∧ (AccessInv s → AccessInv t) := by
  rcases engineStep_cases h with ⟨-, rfl⟩ | ⟨hrun, -, ht⟩
  · exact ⟨hs, id⟩
  · have hk := engineTurn_keeps hs hrun ht
    obtain ⟨hw, hctl, hbuf, -, -⟩ := hs
    refine ⟨⟨hk.mem hw, engineStep_controlInv hctl h, fun _ => ?_, hk.decode, hk.tables⟩, hk.accesses⟩
    rw [(engineStep_engineOnly h).buffersBad_eq]
    exact hbuf hrun

/-! ## What an access of the host keeps -/

/-- While no command runs, nothing but memory and STATUS matters. -/
theorem safe_of_idle {s : State} (hp : s.phase = .idle) (hw : Memory.wf s.mem = true) (hc : ControlInv s) :
    SafeInv s ∧ AccessInv s := by
  have hd : decoding s.phase = false := by rw [hp]; rfl
  exact ⟨⟨hw, hc, fun h => absurd hp h, decodeInv_of_not_decoding (by rw [hp]; decide) hd, tablesInv_of_not_decoding hd⟩,
    accessInv_of_idle hp⟩

/-- A command word leads to the reading of the header only when the source holds one (R330, check 3). -/
theorem srcLen_of_startsHeader {w : Word32} {s t : State} (hb : busy s = false) (h : exec (decodeCmd w) s = .next t)
    (hp : t.phase = .header) : 8 ≤ s.srcLen.toNat := by
  rcases decodeCmd_cases w with ⟨fmt, hd⟩ | ⟨fmt, hd⟩ | hd <;> rw [hd] at h
  · simp only [exec, execCompress, hb, Bool.false_eq_true, if_false] at h
    split_ifs at h
    · rw [← Host.Outcome.next.inj h, endCommand_phase] at hp
      cases hp
    · rw [← Host.Outcome.next.inj h, startCompress_phase] at hp
      cases hp
  · simp only [exec, execDecompress, hb, Bool.false_eq_true, if_false] at h
    split_ifs at h with hbad
    · rw [← Host.Outcome.next.inj h, endCommand_phase] at hp
      cases hp
    · simp only [decompressBad, Bool.or_eq_true, decide_eq_true_eq, not_or, not_lt] at hbad
      exact hbad.2
  · simp only [exec, execIllegalCmd, hb, Bool.false_eq_true, if_false] at h
    rw [← Host.Outcome.next.inj h, endCommand_phase] at hp
    cases hp

/-- The start of COMPRESS writes its header bytes and reads nothing (R291). -/
theorem startCompress_accesses {s : State} (h : s.accesses = []) :
    sourceReads (startCompress s) = [] ∧ (Memory.wf s.mem = true → Memory.wf (startCompress s).mem = true) := by
  unfold startCompress
  generalize hv : { startCommand .encFirst s with enc := encStart s.enc } = v
  have hvm : v.mem = s.mem := by rw [← hv]; rfl
  have hva : v.accesses = [] := by rw [← hv]; exact h
  have hw := headerPlaceholder_writesDst v
  obtain ⟨new, hn, hr⟩ := hw.traced
  obtain ⟨hsa, hsl, -, -⟩ := hw.buffers
  refine ⟨?_, fun hm => hw.wf (hvm ▸ hm)⟩
  rw [(hn.addrs ⟨hsa, hsl⟩).1, hr]
  simp [sourceReads, hva]

/-- A command word is ignored, ends its command, or starts it with checked buffers and nothing read. -/
theorem exec_decodeCmd_safe {w : Word32} {s t : State} (hs : SafeInv s) (h : exec (decodeCmd w) s = .next t) :
    SafeInv t ∧ (AccessInv s → AccessInv t) := by
  have ⟨hw, hctl, _⟩ := hs
  have hc := exec_decodeCmd_controlInv hctl h
  rcases exec_decodeCmd_next h with ⟨-, rfl⟩ | ⟨hb, ⟨c, n, rfl⟩ | ⟨c, n, hbuf, ht⟩ | ⟨c, n, u, hbuf, rfl, rfl⟩⟩
  · exact ⟨hs, id⟩
  · obtain ⟨hsafe, hacc⟩ := safe_of_idle (s := endCommand .invalidParameter 0 (acceptCmd c n s)) rfl hw hc
    exact ⟨hsafe, fun _ => hacc⟩
  · obtain ⟨hreads, hmem⟩ := startCompress_accesses (s := acceptCmd c n s) rfl
    have hrest := startCompress_rest (acceptCmd c n s)
    rw [← ht] at hreads hmem hrest
    have hp : t.phase = .encFirst := by rw [hrest]
    have hd : decoding t.phase = false := by rw [hp]; rfl
    refine ⟨⟨hmem hw, hc, fun _ => ?_, decodeInv_of_not_decoding (by rw [hp]; decide) hd, tablesInv_of_not_decoding hd⟩, fun _ => ?_⟩
    · rw [hrest]
      exact hbuf
    · refine (accessInv_iff_of_compressing (by rw [hp]; rfl)).mpr ?_
      have hpos : t.enc.srcpos = 0 := by rw [hrest]; rfl
      rw [hreads, hpos, addrsFrom_zero]
  · have h8 := srcLen_of_startsHeader hb h rfl
    exact ⟨⟨hw, hc, fun _ => hbuf, ⟨fun _ => h8, fun hd => nomatch hd⟩, trivial⟩, fun _ => (accessInv_iff_of_header rfl).mpr rfl⟩

theorem hostStep_safe {op : HostOp} {s t : State} (hs : SafeInv s) (h : hostStep op s = .next t) :
    SafeInv t ∧ (AccessInv s → AccessInv t) := by
  have ⟨hw, hctl, hbuf, hdec, htab⟩ := hs
  have hc := hostStep_controlInv hctl h
  rcases host_next h with ⟨ag, bd, un, fc, rfl⟩ | ⟨hb, a, b, c, d, rfl⟩ | ⟨a, b, rfl⟩ | rfl | ⟨w, hcmd⟩
  · exact ⟨hs, id⟩
  · have hp : s.phase = .idle := by
      by_contra hrun
      rw [hctl.busy_iff.mpr hrun] at hb
      cases hb
    obtain ⟨hsafe, hacc⟩ := safe_of_idle (s := { s with srcAddr := a, srcLen := b, dstAddr := c, dstLen := d }) hp hw hc
    exact ⟨hsafe, fun _ => hacc⟩
  · exact ⟨⟨memSet_wf hw a b, hc, hbuf, hdec, htab⟩, id⟩
  · obtain ⟨hsafe, hacc⟩ := safe_of_idle (s := hostReset s) rfl hw hc
    exact ⟨hsafe, fun _ => hacc⟩
  · exact exec_decodeCmd_safe hs hcmd

/-- Settles O55: the engine's turn keeps the invariants at each place of a command, and every access of the host keeps them. -/
theorem safetyKept : Obligations.SafetyKept := by
  intro s t hs h
  obtain ⟨ag, he | ⟨op, ho⟩⟩ := step_next h
  · exact engineStep_safe (s := { s with agenda := ag }) hs he
  · exact hostStep_safe (s := { s with agenda := ag }) hs ho

/-! ## What an engine step writes -/

/-- After BUFFER_TOO_SMALL the destination holds free values; else `finishCompress` accesses and writes nothing (R293). -/
theorem finishCompress_writes (s : State) :
    ((finishCompress s).accesses = s.accesses ∧ (finishCompress s).mem = s.mem) ∨
    ((finishCompress s).status = statusEnded .bufferTooSmall ∧ (finishCompress s).accesses = s.accesses ∧
      ∀ a, inRange s.dstAddr.toNat s.dstLen.toNat a = false → memGet (finishCompress s) a = memGet s a) := by
  rcases finishCompress_cases s with ⟨-, e⟩ | ⟨-, e⟩ <;> rw [e]
  · exact .inl ⟨rfl, rfl⟩
  · obtain ⟨hrest, hout, -⟩ := drawDst_spec _ s le_rfl
    have hacc : (drawDst s.dstLen.toNat s).accesses = s.accesses := by rw [hrest]
    exact .inr ⟨rfl, hacc, hout⟩

/-- A turn of a safe running command makes accesses inside the buffers, and memory is what they wrote; only after BUFFER_TOO_SMALL
the bytes of the destination are not. -/
theorem engineTurn_accessed {s t : State} (hs : SafeInv s) (hrun : s.phase ≠ .idle) (h : engineTurn s = .next t) :
    ∃ u new, Accessed s u new ∧ t.accesses = u.accesses ∧
      (t.mem = u.mem ∨ (t.status = statusEnded .bufferTooSmall ∧
        ∀ a, inRange s.dstAddr.toNat s.dstLen.toNat a = false → memGet t a = memGet u a)) := by
  obtain ⟨-, -, hbuf, ⟨hhead, hdecode⟩, htab⟩ := hs
  rcases running_cases hrun with hc | hp | hdec
  · obtain ⟨u, he, ht⟩ := engineTurn_compress_cases hc h
    obtain ⟨new, k, hn, -⟩ := he.traced
    obtain ⟨-, -, hda, hdl⟩ := he.buffers
    refine ⟨u, new, hn, ?_⟩
    rcases ht with ⟨p, -, rfl⟩ | rfl
    · exact ⟨rfl, .inl rfl⟩
    · rcases finishCompress_writes u with ⟨hacc, hmem⟩ | ⟨hst, hacc, hout⟩
      · exact ⟨hacc, .inl hmem⟩
      · rw [hda, hdl] at hout
        exact ⟨hacc, .inr ⟨hst, hout⟩⟩
  · obtain ⟨new, hn, -⟩ := engineTurn_header_accessed hp (hhead hp) h
    exact ⟨t, new, hn, rfl, .inl rfl⟩
  · obtain ⟨new, hn, -⟩ := (engineTurn_decodeTurned hdec (hdecode hdec) htab (hbuf hrun) h).1.traced
    exact ⟨t, new, hn, rfl, .inl rfl⟩

/-- Settles O59: the accesses of the turn lie inside the buffers, and the free values of BUFFER_TOO_SMALL in the destination. -/
theorem engineWritesOnlyDestination : Obligations.EngineWritesOnlyDestination := by
  intro s t hs h
  rcases engineStep_cases h with ⟨-, rfl⟩ | ⟨hrun, -, ht⟩
  · exact ⟨fun _ _ => rfl, [], rfl, StaysInBuffers.nil _, fun _ _ => rfl⟩
  · obtain ⟨u, new, hn, hacc, hmem⟩ := engineTurn_accessed hs hrun ht
    refine ⟨fun a ha => ?_, new, hacc.trans hn.accesses, hn.stays, fun hst a => ?_⟩
    · rcases hmem with hmem | ⟨-, hout⟩
      · rw [memGet_congr hmem, hn.outside ha]
      · rw [hout a ha, hn.outside ha]
    · rcases hmem with hmem | ⟨hsmall, -⟩
      · rw [memGet_congr hmem, hn.mem]
      · exact absurd hsmall hst

end Sys2Proof.Machine
end

section
/-!
PROOFS. The statements of 30_encoding.md: decoding what `encode` writes gives the instruction back, an illegal command word ends at once, and
the position value of POS has its symbol as its bit length.
-/

namespace Sys2Proof.Machine

/-! ## Command words -/

/-- The fields OP, FMT and RSVD of a word made of them (R32). -/
theorem fields_of_word (r : BitVec 16) (f o : BitVec 8) :
    (r ++ f ++ o).extractLsb' 0 8 = o ∧ (r ++ f ++ o).extractLsb' 8 8 = f ∧ (r ++ f ++ o).extractLsb' 16 16 = r := by
  refine ⟨BitVec.extractLsb'_append_eq_right, ?_, ?_⟩
  · exact (BitVec.extractLsb'_append_eq_of_le (by decide)).trans BitVec.extractLsb'_append_eq_right
  · exact (BitVec.extractLsb'_append_eq_of_le (by decide)).trans BitVec.extractLsb'_append_eq_left

/-- A word that is not legal stands for ILLEGAL_CMD (R112). -/
theorem decodeCmd_of_not_legal {w : Word32} (h : legalCmd w = false) : decodeCmd w = .illegalCmd w := by
  unfold decodeCmd
  unfold legalCmd at h
  split_ifs with hr hc hd
  · simp [hr, hc] at h
  · simp [hr, hd] at h
  · rfl
  · rfl

theorem decodeCmd_compress (fmt : BitVec 8) : decodeCmd (encodeCmd (.compress fmt)) = .compress fmt := by
  obtain ⟨ho, hf, hr⟩ := fields_of_word 0#16 fmt 1#8
  rw [encodeCmd, decodeCmd, hr, ho, hf, if_pos rfl, if_pos rfl]

theorem decodeCmd_decompress (fmt : BitVec 8) : decodeCmd (encodeCmd (.decompress fmt)) = .decompress fmt := by
  obtain ⟨ho, hf, hr⟩ := fields_of_word 0#16 fmt 2#8
  rw [encodeCmd, decodeCmd, hr, ho, hf, if_pos rfl, if_neg (by decide), if_pos rfl]

theorem decode_cmd_word (w : Word32) (rest : List Bool) : decode .cmd (natToBits 32 w.toNat ++ rest) = .ok (decodeCmd w) rest := by
  simp only [decode, takeField_natToBits w.isLt, BitVec.ofNat_toNat, BitVec.setWidth_eq]

/-! ## The stream's instructions -/

/-- A header field given by its four bytes has them the other way round (R83). -/
theorem toNat_leWord32_bytes {a b c d : Nat} (ha : a < 256) (hb : b < 256) (hc : c < 256) (hd : d < 256) :
    (leWord32 (a + b * 2 ^ 8 + c * 2 ^ 16 + d * 2 ^ 24)).toNat = d + c * 2 ^ 8 + b * 2 ^ 16 + a * 2 ^ 24 := by
  rw [toNat_leWord32]
  omega

/-- Turning the bytes of a header field round twice gives it back (R83). -/
theorem leWord32_leWord32 (w : Word32) : leWord32 (leWord32 w.toNat).toNat = w := by
  obtain ⟨a, b, c, d, ha, hb, hc, hd, hw⟩ : ∃ a b c d, a < 256 ∧ b < 256 ∧ c < 256 ∧ d < 256 ∧
      w.toNat = a + b * 2 ^ 8 + c * 2 ^ 16 + d * 2 ^ 24 :=
    ⟨w.toNat % 256, w.toNat / 2 ^ 8 % 256, w.toNat / 2 ^ 16 % 256, w.toNat / 2 ^ 24, by omega, by omega, by omega, by omega, by omega⟩
  apply BitVec.eq_of_toNat_eq
  rw [hw, toNat_leWord32_bytes ha hb hc hd, toNat_leWord32_bytes hd hc hb ha]

theorem decode_header_fields (l o : Word32) (rest : List Bool) :
    decode .header (natToBits 32 l.toNat ++ natToBits 32 o.toNat ++ rest)
      = .ok (.streamHeader (leWord32 l.toNat) (leWord32 o.toNat)) rest := by
  simp only [decode, List.append_assoc, takeField_natToBits l.isLt, takeField_natToBits o.isLt]

theorem decode_csym_number {v : Nat} (h : v < 2 ^ 9) (rest : List Bool) :
    decode .csym (natToBits 9 v ++ rest) = decodeCSym v rest := takeField_natToBits h rest decodeCSym

theorem decode_psym_number {c : Nat} (h : c < 2 ^ 5) (rest : List Bool) :
    decode .psym (natToBits 5 c ++ rest) = decodePSym c rest := takeField_natToBits h rest decodePSym

theorem decode_tsym_number {t : Nat} (h : t < 2 ^ 5) (rest : List Bool) :
    decode .tsym (natToBits 5 t ++ rest) = decodeTSym t rest := takeField_natToBits h rest decodeTSym

/-- A C symbol below 256 is the literal of its number (R124). -/
theorem decodeCSym_lit (b : Byte) (rest : List Bool) : decodeCSym b.toNat rest = .ok (.lit b) rest := by
  rw [decodeCSym, if_pos b.isLt, BitVec.ofNat_toNat, BitVec.setWidth_eq]

/-- A C symbol from 256 to 509 is the match symbol of its number (R124). -/
theorem decodeCSym_match {m : BitVec 9} (h : WellFormed (.matchCopy m) = true) (rest : List Bool) :
    decodeCSym m.toNat rest = .ok (.matchCopy m) rest := by
  simp only [WellFormed, Bool.and_eq_true, decide_eq_true_eq] at h
  obtain ⟨hlow, hhigh⟩ := h
  rw [decodeCSym, if_neg (by omega), if_pos hhigh, BitVec.ofNat_toNat, BitVec.setWidth_eq]

/-- A P symbol is followed by its extra bits (R122). -/
theorem decodePSym_pos {c : BitVec 5} {e : BitVec 29} (h : WellFormed (.pos c e) = true) (rest : List Bool) :
    decodePSym c.toNat (natToBits (posExtra c.toNat) e.toNat ++ rest) = .ok (.pos c e) rest := by
  simp only [WellFormed, Bool.and_eq_true, decide_eq_true_eq] at h
  obtain ⟨hc, he⟩ := h
  rw [decodePSym, if_pos hc, takeField_natToBits he]
  simp only [BitVec.ofNat_toNat, BitVec.setWidth_eq]

theorem decodeTSym_zrunM (r : BitVec 4) (rest : List Bool) :
    decodeTSym 1 (natToBits 4 r.toNat ++ rest) = .ok (.zrunM r) rest := by
  simp [decodeTSym, takeField_natToBits r.isLt]

theorem decodeTSym_zrunL (r : BitVec 9) (rest : List Bool) :
    decodeTSym 2 (natToBits 9 r.toNat ++ rest) = .ok (.zrunL r) rest := by
  simp [decodeTSym, takeField_natToBits r.isLt]

/-- T symbol `k + 2` states the length `k` (R125). -/
theorem decodeTSym_len {k : BitVec 5} (h : WellFormed (.len k) = true) (rest : List Bool) :
    decodeTSym (k.toNat + 2) rest = .ok (.len k) rest := by
  simp only [WellFormed, Bool.and_eq_true, decide_eq_true_eq, Config.codeBit] at h
  obtain ⟨hlow, hhigh⟩ := h
  have ht : k.toNat + 2 < 19 := by omega
  rw [decodeTSym, if_neg (by omega), if_neg (by omega), if_neg (by omega), if_pos ht]
  simp only [Nat.add_sub_cancel, BitVec.ofNat_toNat, BitVec.setWidth_eq]

/-! ## LENCODE -/

/-- As many ones as may come, or fewer, and the zero that ends them (R118). -/
theorem lencodeUnary_ended {n fuel : Nat} (h : n ≤ fuel) (k : Nat) (rest : List Bool) :
    lencodeUnary fuel k (List.replicate n true ++ false :: rest) = .ok (.lencode (BitVec.ofNat 5 (k + n))) rest := by
  induction n generalizing fuel k with
  | zero => simp [lencodeUnary]
  | succ n ih =>
    obtain ⟨m, rfl⟩ : ∃ m, fuel = m + 1 := ⟨fuel - 1, by omega⟩
    rw [List.replicate_succ, List.cons_append, lencodeUnary, ih (by omega), Nat.add_right_comm, Nat.add_assoc]

/-- One more one than may come ends the field at once (R306). -/
theorem lencodeUnary_overlong (fuel k : Nat) (rest : List Bool) :
    lencodeUnary fuel k (List.replicate (fuel + 1) true ++ rest) = .ok (.lencode (BitVec.ofNat 5 (k + fuel + 1))) rest := by
  induction fuel generalizing k with
  | zero => simp [lencodeUnary]
  | succ fuel ih =>
    rw [List.replicate_succ, List.cons_append, lencodeUnary, ih, Nat.add_right_comm k 1 fuel, Nat.add_assoc k fuel 1]

/-- Three ones begin a length of 7 or more, whose unary part follows (R118). -/
theorem decode_lencode_ones {n : Nat} (h : 3 ≤ n) (rest : List Bool) :
    decode .lencode (List.replicate n true ++ rest) = lencodeUnary 9 7 (List.replicate (n - 3) true ++ rest) := by
  obtain ⟨m, rfl⟩ : ∃ m, n = 3 + m := ⟨n - 3, by omega⟩
  rw [List.replicate_add, List.append_assoc, Nat.add_sub_cancel_left]
  exact takeField_natToBits (n := 3) (v := 7) (by decide) _ _

theorem decode_lencode {k : BitVec 5} (h : WellFormed (.lencode k) = true) (rest : List Bool) :
    decode .lencode (encode (.lencode k) ++ rest) = .ok (.lencode k) rest := by
  simp only [WellFormed, decide_eq_true_eq, Config.codeBit] at h
  have hk : BitVec.ofNat 5 k.toNat = k := by simp
  simp only [encode, Config.codeBit]
  split_ifs with h6 h16
  · have hv : k.toNat < 2 ^ 3 := by omega
    simp only [decode, takeField_natToBits hv, hk]
    rw [if_pos (by omega)]
  · rw [List.append_assoc, decode_lencode_ones (by omega), List.singleton_append, lencodeUnary_ended (by omega)]
    rw [show 7 + (k.toNat - 4 - 3) = k.toNat by omega, hk]
  · rw [decode_lencode_ones (by decide), lencodeUnary_overlong]
    rw [show 7 + 9 + 1 = k.toNat by omega, hk]

/-! ## Every instruction -/

/-- Settles O1: by the instruction's kind, its word or its symbol and then the bits that follow the symbol. -/
theorem decodeEncodeRoundTrip : Obligations.DecodeEncodeRoundTrip := by
  intro i rest h
  cases i with
  | compress fmt => rw [kindOf, encode, decode_cmd_word, decodeCmd_compress]
  | decompress fmt => rw [kindOf, encode, decode_cmd_word, decodeCmd_decompress]
  | illegalCmd w =>
    have hw : legalCmd w = false := by simpa [WellFormed] using h
    rw [kindOf, encode, decode_cmd_word, decodeCmd_of_not_legal hw]
  | streamHeader l o => rw [kindOf, encode, decode_header_fields, leWord32_leWord32, leWord32_leWord32]
  | block size => simp only [kindOf, encode, decode, takeField_natToBits size.isLt, BitVec.ofNat_toNat, BitVec.setWidth_eq]
  | lit b =>
    have hb := b.isLt
    rw [kindOf, encode, decode_csym_number (by omega), decodeCSym_lit]
  | matchCopy m => rw [kindOf, encode, decode_csym_number m.isLt, decodeCSym_match h]
  | pos c e => rw [kindOf, encode, List.append_assoc, decode_psym_number c.isLt, decodePSym_pos h]
  | zrun1 => exact decode_tsym_number (by decide) rest
  | zrunM r => rw [kindOf, encode, List.append_assoc, decode_tsym_number (by decide), decodeTSym_zrunM]
  | zrunL r => rw [kindOf, encode, List.append_assoc, decode_tsym_number (by decide), decodeTSym_zrunL]
  | len k =>
    have hk : k.toNat ≤ 16 := by
      simp only [WellFormed, Bool.and_eq_true, decide_eq_true_eq] at h
      exact h.2
    rw [kindOf, encode, decode_tsym_number (by omega), decodeTSym_len h]
  | lencode k => exact decode_lencode h rest

/-- Settles O2: each word is decoded. -/
theorem specWordsDecode : Obligations.SpecWordsDecode := by
  unfold Obligations.SpecWordsDecode
  decide

/-! ## POS -/

theorem bitlen_eq_succ_iff (p c : Nat) : bitlen p = c + 1 ↔ 2 ^ c ≤ p ∧ p < 2 ^ (c + 1) := by
  unfold bitlen
  split_ifs with hp
  · simp [hp]
  · rw [Nat.add_right_cancel_iff, Nat.log2_eq_iff hp]

/-- The symbol is the bit length of the position value computed from it and its extra bits (R122). -/
theorem bitlen_posValue {c e : Nat} (h : e < 2 ^ posExtra c) : bitlen (posValue c e) = c := by
  match c with
  | 0 => rfl
  | 1 => rfl
  | k + 2 =>
    have he : e < 2 ^ (k + 1) := h
    have hv : posValue (k + 2) e = 2 ^ (k + 1) + e := if_neg (by omega)
    rw [hv, bitlen_eq_succ_iff, pow_succ 2 (k + 1)]
    omega

/-- Settles O23: `execPos` stores `posValue`, whose bit length is the symbol. -/
theorem posGivesPositionValue : Obligations.PosGivesPositionValue := by
  intro c e s h
  simp only [WellFormed, Bool.and_eq_true, decide_eq_true_eq] at h
  exact ⟨posValue c.toNat e.toNat, rfl, rfl, bitlen_posValue h.2⟩

/-! ## ILLEGAL_CMD -/

/-- An illegal command ends with INVALID_PARAMETER as soon as it is accepted, and withholds no destination byte (R112). -/
theorem exec_illegalCmd_of_idle {s : State} (h : busy s = false) (w : Word32) :
    exec (.illegalCmd w) s = .next (endCommand .invalidParameter 0 (acceptCmd w 0 s)) := by
  simp only [exec, execIllegalCmd, h, Bool.false_eq_true, if_false, encodeCmd]

/-- Settles O3: the word is not legal, so it decodes to ILLEGAL_CMD, which ends at once. -/
theorem illegalCommandEndsAtOnce : Obligations.IllegalCommandEndsAtOnce := by
  intro w s hw hidle
  have hl : legalCmd w = false := by
    rcases hw with ⟨h1, h2⟩ | hr
    · simp [legalCmd, h1, h2]
    · simp [legalCmd, hr]
  exact ⟨decodeCmd_of_not_legal hl, exec_illegalCmd_of_idle hidle w⟩

end Sys2Proof.Machine
end

section
/-!
PROOFS. The bit reader of 40_bitstream.md: GetBits bit by bit, the canonical codes of a table, and DecodeSymbol of a checked table. A table's codes
of one length are consecutive numbers, and `codesEnd` is where they end: twice that number is where the codes of the next length begin. The
completeness check says that those of 16 bits end at 2^16, so that the loop of DecodeSymbol finds a symbol by then.
-/

namespace Sys2Proof.Machine

/-! ## GetBits -/

theorem getBits_zero (s : State) : getBits 0 s = (0, s) := by
  rw [getBits, skipBits_zero]
  rfl

/-- A read of one more bit appends it below the others (R167). -/
theorem getBits_succ (n : Nat) (s : State) :
    (getBits (n + 1) s).1 = 2 * (getBits n s).1 + (inBit s (s.dec.rpos + n)).toNat := by
  simp only [getBits, peekBits, bitsFrom_succ, bitsToNat_append]
  simp [bitsToNat, Nat.mul_comm]

/-- A shorter read gives the upper bits of a longer one. -/
theorem getBits_add_div (m n : Nat) (s : State) : (getBits (m + n) s).1 / 2 ^ n = (getBits m s).1 := by
  induction n with
  | zero => exact Nat.div_one _
  | succ n ih =>
    have hbit := Bool.toNat_lt (inBit s (s.dec.rpos + (m + n)))
    rw [← Nat.add_assoc, getBits_succ, pow_succ', ← Nat.div_div_eq_div_mul, ← ih]
    congr 1
    omega

/-- Settles O25: a read of `n + 1` bits is one of `n` bits and the bit after them. -/
theorem getBitsMsbFirst : Obligations.GetBitsMsbFirst := fun n s =>
  ⟨getBits_zero s, skipBits_rest n s, getBits_succ n s⟩

/-- Past the end of the stream the reader sees zeros (R166). -/
theorem inBit_pastEnd {s : State} {k : Nat} (h : 8 * s.dec.compsizeIn ≤ k) : inBit s k = false := by
  rw [inBit, if_neg (by omega)]

/-- The bits of the stream depend on the decoder and on the bytes of the stream alone (R166). -/
theorem inBit_of_sameStream {s t : State} (hd : t.dec = s.dec) (ha : t.srcAddr = s.srcAddr)
    (hm : ∀ a, inRange (s.srcAddr.toNat + 8) s.dec.compsizeIn a = true → memGet t a = memGet s a) (k : Nat) :
    inBit t k = inBit s k := by
  refine inBit_congr (by rw [hd]) k fun hk => ?_
  rw [srcGet, srcGet, ha]
  exact hm _ ((inRange_iff _ _ _).mpr ⟨by omega, by omega⟩)

/-- Settles O26: by induction on the width, since the bits read agree one by one, and past the end are zeros. -/
theorem readerSeesOnlyTheStream : Obligations.ReaderSeesOnlyTheStream := by
  intro n s t hd ha hm
  induction n with
  | zero => exact ⟨rfl, fun _ => rfl⟩
  | succ n ih =>
    obtain ⟨hsame, hzero⟩ := ih
    refine ⟨?_, fun hend => ?_⟩
    · rw [getBits_succ, getBits_succ, hsame, hd, inBit_of_sameStream hd ha hm]
    · rw [getBits_succ, hzero hend, inBit_pastEnd (by omega)]
      rfl

/-! ## The symbols of one length -/

theorem symsFrom_eq_findIdxs (l : Nat) (len : List Nat) (i : Nat) : symsFrom l len i = len.findIdxs (· == l) i := by
  induction len generalizing i with
  | nil => rfl
  | cons x xs ih =>
    rw [symsFrom, List.findIdxs_cons, ih]
    simp only [beq_iff_eq]

theorem symsFrom_length (l : Nat) (len : List Nat) (i : Nat) : (symsFrom l len i).length = lenCount len l := by
  rw [symsFrom_eq_findIdxs, List.length_findIdxs]
  rfl

/-- The lengths up to a symbol of length `l`, that length, and the rest. -/
theorem split_at_symbol {l σ : Nat} {len : List Nat} (h : len[σ]? = some l) :
    len = len.take σ ++ l :: len.drop (σ + 1) := by
  obtain ⟨hσ, hl⟩ := List.getElem?_eq_some_iff.mp h
  rw [← hl, ← List.drop_eq_getElem_cons hσ, List.take_append_drop]

/-- A symbol stands behind as many symbols of its length as there are before it in the alphabet. -/
theorem getElem?_symsFrom_count {l σ : Nat} {len : List Nat} (h : len[σ]? = some l) :
    (symsFrom l len 0)[(len.take σ).count l]? = some σ := by
  obtain ⟨hσ, -⟩ := List.getElem?_eq_some_iff.mp h
  have hsplit : symsFrom l len 0 = (len.take σ).findIdxs (· == l) ++ σ :: (len.drop (σ + 1)).findIdxs (· == l) (σ + 1) := by
    conv_lhs => rw [symsFrom_eq_findIdxs, split_at_symbol h, List.findIdxs_append, List.findIdxs_cons, if_pos (beq_self_eq_true l)]
    simp [hσ.le]
  rw [hsplit, List.count, ← List.length_findIdxs (s := 0), List.getElem?_append_right le_rfl, Nat.sub_self, List.getElem?_cons_zero]

theorem count_take_lt_lenCount {l σ : Nat} {len : List Nat} (h : len[σ]? = some l) : (len.take σ).count l < lenCount len l := by
  rw [← symsFrom_length l len 0]
  exact (List.getElem?_eq_some_iff.mp (getElem?_symsFrom_count h)).1

/-- Symbol number `r` of length `l` is the one before which `r` symbols have that length. -/
theorem getElem?_symsFrom_iff (l r σ : Nat) (len : List Nat) :
    (symsFrom l len 0)[r]? = some σ ↔ len[σ]? = some l ∧ (len.take σ).count l = r := by
  constructor
  · intro h
    obtain ⟨hr, -⟩ := List.getElem?_eq_some_iff.mp h
    have hl : len[σ]? = some l := by
      have hmem : σ ∈ symsFrom l len 0 := List.mem_of_getElem? h
      rw [symsFrom_eq_findIdxs, List.mem_findIdxs_iff_exists_getElem_pos] at hmem
      obtain ⟨hlt, hp⟩ := hmem
      rw [List.getElem?_eq_getElem hlt, eq_of_beq hp]
    have hnodup : (symsFrom l len 0).Nodup := by
      rw [symsFrom_eq_findIdxs]
      exact List.nodup_findIdxs
    exact ⟨hl, ((List.getElem?_inj hr hnodup).mp (h.trans (getElem?_symsFrom_count hl).symm)).symm⟩
  · rintro ⟨hl, rfl⟩
    exact getElem?_symsFrom_count hl

/-! ## Canonical codes -/

theorem getD_of_getElem? {len : List Nat} {σ l : Nat} (h : len[σ]? = some l) : len.getD σ 0 = l := by
  rw [List.getD_eq_getElem?_getD, h, Option.getD_some]

theorem canonCode_of_length {len : List Nat} {σ l : Nat} (h : len[σ]? = some l) :
    canonCode len σ = firstCode len l + (len.take σ).count l := by
  rw [canonCode, getD_of_getElem? h]

/-- A code of a length belongs to the symbol of that length whose canonical code it is (R168). -/
theorem symOfCode_eq_some_iff (len : List Nat) (l c σ : Nat) :
    symOfCode len l c = some σ ↔ len[σ]? = some l ∧ canonCode len σ = c := by
  unfold symOfCode
  split_ifs with h
  · rw [getElem?_symsFrom_iff]
    refine and_congr_right fun hl => ?_
    rw [canonCode_of_length hl]
    omega
  · refine iff_of_false (by simp) ?_
    rintro ⟨hl, hc⟩
    rw [canonCode_of_length hl] at hc
    omega

/-- Where the codes of length `l` end: the first number above all of them (R233). -/
def codesEnd (len : List Nat) (l : Nat) : Nat := firstCode len l + lenCount len l

theorem firstCode_succ (len : List Nat) {l : Nat} (hl : 1 ≤ l) : firstCode len (l + 1) = 2 * codesEnd len l := by
  obtain ⟨k, rfl⟩ := Nat.exists_eq_add_of_le' hl
  rfl

theorem canonCode_lt_codesEnd {len : List Nat} {σ l : Nat} (h : len[σ]? = some l) : canonCode len σ < codesEnd len l := by
  rw [canonCode_of_length h, codesEnd]
  exact Nat.add_lt_add_left (count_take_lt_lenCount h) _

/-- A number from the first code on that is no symbol's code is above all codes of its length. -/
theorem codesEnd_le_of_symOfCode_none {len : List Nat} {l c : Nat} (hfirst : firstCode len l ≤ c)
    (h : symOfCode len l c = none) : codesEnd len l ≤ c := by
  rw [symOfCode, if_pos hfirst, List.getElem?_eq_none_iff, symsFrom_length] at h
  rw [codesEnd]
  omega

/-- The codes of a longer length begin above all those of a shorter one (R233). -/
theorem codesEnd_mul_le_firstCode (len : List Nat) {l : Nat} (hl : 1 ≤ l) (d : Nat) :
    codesEnd len l * 2 ^ (d + 1) ≤ firstCode len (l + (d + 1)) := by
  induction d with
  | zero => rw [firstCode_succ len hl, pow_one, Nat.mul_comm]
  | succ d ih =>
    rw [← Nat.add_assoc l, firstCode_succ len (by omega), codesEnd, pow_succ, ← Nat.mul_assoc, Nat.mul_comm 2]
    exact Nat.mul_le_mul_right 2 (ih.trans (Nat.le_add_right _ _))

/-- No canonical code is the prefix of a longer one. -/
theorem canonCode_ne_prefix {len : List Nat} {σ τ n d : Nat} (hn : 1 ≤ n) (hσ : len[σ]? = some n)
    (hτ : len[τ]? = some (n + (d + 1))) : canonCode len τ / 2 ^ (d + 1) ≠ canonCode len σ := by
  have hlt : canonCode len σ < codesEnd len n := canonCode_lt_codesEnd hσ
  have hle : codesEnd len n ≤ canonCode len τ / 2 ^ (d + 1) := by
    rw [Nat.le_div_iff_mul_le (Nat.two_pow_pos _), canonCode_of_length hτ]
    exact (codesEnd_mul_le_firstCode len hn d).trans (Nat.le_add_right _ _)
  omega

/-- The next bits of the stream are the code of symbol `σ`, of `n` bits. -/
def CodeIsNext (len : List Nat) (s : State) (σ n : Nat) : Prop :=
  1 ≤ n ∧ len[σ]? = some n ∧ canonCode len σ = (getBits n s).1

/-- Of the symbols whose code is next none has a longer code than another. -/
theorem CodeIsNext.length_le {len : List Nat} {s : State} {σ τ n m : Nat} (hσ : CodeIsNext len s σ n)
    (hτ : CodeIsNext len s τ m) : m ≤ n := by
  by_contra hlt
  obtain ⟨d, rfl⟩ := Nat.exists_eq_add_of_lt (not_le.mp hlt)
  obtain ⟨hn, hlenσ, hcodeσ⟩ := hσ
  obtain ⟨-, hlenτ, hcodeτ⟩ := hτ
  apply canonCode_ne_prefix hn hlenσ hlenτ
  rw [hcodeτ, hcodeσ]
  exact getBits_add_div n (d + 1) s

/-- Only one symbol's code is next: two have the same length, and with it the same symbol. -/
theorem CodeIsNext.unique {len : List Nat} {s : State} {σ τ n m : Nat} (hσ : CodeIsNext len s σ n) (hτ : CodeIsNext len s τ m) :
    τ = σ := by
  obtain rfl : n = m := le_antisymm (hτ.length_le hσ) (hσ.length_le hτ)
  have h1 := (symOfCode_eq_some_iff len n _ σ).mpr hσ.2
  have h2 := (symOfCode_eq_some_iff len n _ τ).mpr hτ.2
  exact Option.some.inj (h2.symm.trans h1)

/-! ## The completeness check -/

/-- The Kraft sum, length by length. -/
theorem kraftSum_eq_sum_count {len : List Nat} (hb : lensBounded len) :
    kraftSum len = ∑ k ∈ Finset.range 17, len.count k * kraftTerm k := by
  have hsub : len.toFinset ⊆ Finset.range 17 := fun k hk =>
    Finset.mem_range.mpr (Nat.lt_succ_of_le (hb k (List.mem_toFinset.mp hk)))
  rw [kraftSum, Finset.sum_list_map_count]
  refine Finset.sum_subset hsub fun k _ hk => ?_
  rw [List.count_eq_zero.mpr fun hmem => hk (List.mem_toFinset.mpr hmem), zero_smul]

/-- The codes of a length end at what the lengths up to it take of the Kraft sum (R226, R233). -/
theorem codesEnd_mul_eq_sum (len : List Nat) {l : Nat} (hl : l < 16) :
    codesEnd len (l + 1) * 2 ^ (16 - (l + 1)) = ∑ k ∈ Finset.range (l + 2), len.count k * kraftTerm k := by
  induction l with
  | zero => simp [Finset.sum_range_succ, codesEnd, firstCode, lenCount, kraftTerm]
  | succ l ih =>
    have hterm : kraftTerm (l + 2) = 2 ^ (16 - (l + 2)) := if_neg (by omega)
    have hpow : 2 ^ (16 - (l + 1)) = 2 * 2 ^ (16 - (l + 2)) := by
      rw [← pow_succ']
      congr 1
      omega
    rw [Finset.sum_range_succ, ← ih (by omega), hterm, hpow, codesEnd, firstCode_succ len (by omega), lenCount]
    ring

/-- In a complete table the codes of 16 bits are used up (R312). -/
theorem codesEnd_of_kraftComplete {len : List Nat} (hk : kraftComplete len = true) (hb : lensBounded len) :
    codesEnd len 16 = 2 ^ 16 := by
  have h := codesEnd_mul_eq_sum len (l := 15) (by decide)
  rw [← kraftSum_eq_sum_count hb, eq_of_beq hk] at h
  rwa [Nat.sub_self, pow_zero, Nat.mul_one] at h

/-! ## DecodeSymbol -/

/-- The loop finds a symbol: what it has read so far is above all shorter codes, and after 16 bits no number is (R168). -/
theorem decodeLoop_finds {len : List Nat} (hend : codesEnd len 16 = 2 ^ 16) (fuel : Nat) {j c : Nat} {bs : List Bool}
    (hj : j + fuel = 16) (hbs : bs.length = fuel) (hc : c < 2 ^ j) (hfirst : firstCode len (j + 1) ≤ 2 * c) :
    ∃ σ n, 1 ≤ n ∧ n ≤ fuel ∧ decodeLoop len fuel j c bs = some (σ, j + n) ∧
      symOfCode len (j + n) (c * 2 ^ n + bitsToNat (bs.take n)) = some σ := by
  induction fuel generalizing j c bs with
  | zero =>
    obtain rfl : j = 16 := hj
    rw [firstCode_succ len (by decide), hend] at hfirst
    omega
  | succ fuel ih =>
    obtain ⟨b, bs, rfl⟩ := List.exists_cons_of_length_eq_add_one hbs
    replace hbs : bs.length = fuel := Nat.succ.inj hbs
    have hb := Bool.toNat_lt b
    cases hsym : symOfCode len (j + 1) (2 * c + b.toNat) with
    | some σ =>
      refine ⟨σ, 1, le_rfl, Nat.succ_pos _, by rw [decodeLoop, hsym], ?_⟩
      rw [← hsym]
      simp [bitsToNat, Nat.mul_comm]
    | none =>
      have habove : codesEnd len (j + 1) ≤ 2 * c + b.toNat := codesEnd_le_of_symOfCode_none (by omega) hsym
      obtain ⟨σ, n, hn, hle, hloop, hσ⟩ := ih (j := j + 1) (c := 2 * c + b.toNat) (by omega) hbs
        (by rw [pow_succ]; omega) (by rw [firstCode_succ len (by omega)]; omega)
      have hj1 : j + 1 + n = j + (n + 1) := Nat.add_right_comm j 1 n
      rw [hj1] at hloop hσ
      refine ⟨σ, n + 1, Nat.succ_pos _, Nat.succ_le_succ hle, by rw [decodeLoop, hsym]; exact hloop, ?_⟩
      rw [← hσ, List.take_succ_cons, bitsToNat_cons, List.length_take_of_le (hbs ▸ hle)]
      congr 1
      ring

theorem take_peekBits {m n : Nat} (h : m ≤ n) (s : State) : (peekBits s n).take m = peekBits s m := by
  rw [peekBits, ← Nat.add_sub_of_le h, bitsFrom_add, List.take_left' (bitsFrom_length _ _ _), peekBits]

/-- In a complete table the loop of DecodeSymbol gives the symbol whose code is next (R168, R312). -/
theorem decodeLoop_of_kraftComplete {len : List Nat} (hk : kraftComplete len = true) (hb : lensBounded len) (s : State) :
    ∃ σ n, n ≤ 16 ∧ decodeLoop len Config.codeBit 0 0 (peekBits s Config.codeBit) = some (σ, n) ∧ CodeIsNext len s σ n := by
  obtain ⟨σ, n, hn, hle, hloop, hσ⟩ := decodeLoop_finds (codesEnd_of_kraftComplete hk hb) 16 (j := 0) (c := 0)
    (bs := peekBits s 16) rfl (peekBits_length s 16) (by decide) (Nat.zero_le _)
  rw [Nat.zero_add] at hloop
  rw [take_peekBits hle, Nat.zero_mul, Nat.zero_add, Nat.zero_add] at hσ
  exact ⟨σ, n, hle, hloop, hn, (symOfCode_eq_some_iff _ _ _ _).mp hσ⟩

/-- Settles O19: the loop finds a symbol whose code is next, and only one symbol's code is. -/
theorem checkedTableDecodesOneSymbol : Obligations.CheckedTableDecodesOneSymbol := by
  intro nn T s hT
  cases T with
  | degenerate d =>
    have hd : d < nn := hT
    exact ⟨d, 0, by rw [decodeSymbol, if_pos hd, skipBits_zero], hd, rfl, rfl⟩
  | regular len =>
    obtain ⟨hnn, hk, hb⟩ := hT
    obtain ⟨σ, n, hle, hloop, hnext⟩ := decodeLoop_of_kraftComplete hk hb s
    have ⟨hn, hlen, hcode⟩ := hnext
    have hlt : σ < nn := hnn ▸ (List.getElem?_eq_some_iff.mp hlen).1
    refine ⟨σ, n, ?_, hlt, hn, hle, getD_of_getElem? hlen, hcode, fun τ hτ hpos hcτ => hnext.unique ⟨hpos, ?_, hcτ⟩⟩
    · rw [decodeSymbol, hloop]
      simp only [if_pos hlt]
    · rw [List.getD_eq_getElem _ _ (hnn ▸ hτ), List.getElem?_eq_getElem (hnn ▸ hτ)]

end Sys2Proof.Machine
end

section
/-!
PROOFS. The decoder never stops: in a safe state each of its instructions has a next state, since its buffers lie in host memory, output is owed,
and a checked table always gives a symbol.
-/

namespace Sys2Proof.Machine

theorem decodeSymbol_of_tableOk {nn : Nat} {T : Table} (h : TableOk nn T) (s : State) :
    ∃ σ n, decodeSymbol nn T s = some (σ, skipBits n s) := by
  obtain ⟨σ, n, hd, -⟩ := checkedTableDecodesOneSymbol nn T s h
  exact ⟨σ, n, hd⟩

/-! ## Buffers in host memory -/

/-- Buffers that pass the checks lie in host memory (R92). -/
theorem buffersFit_of_checked {s : State} (h : buffersBad s = false) : buffersFit s = true := by
  simp only [buffersBad, Bool.or_eq_false_iff, decide_eq_false_iff_not, not_lt] at h
  obtain ⟨⟨⟨⟨hsrc, hdst⟩, -⟩, -⟩, -⟩ := h
  simp [buffersFit, hsrc, hdst]

theorem dstAt_le_of_buffersFit {s : State} (h : buffersFit s = true) {i : Nat} (hi : i ≤ s.dstLen.toNat) :
    dstAt s i ≤ 2 ^ s.addrW.val := by
  simp only [buffersFit, Bool.and_eq_true, decide_eq_true_eq] at h
  exact (Nat.add_le_add_left hi _).trans h.2

/-! ## The instructions -/

theorem exec_streamHeader_exists_next (l o : Word32) (s : State) : ∃ t, exec (.streamHeader l o) s = .next t := by
  simp only [exec, execStreamHeader]
  split_ifs <;> exact ⟨_, rfl⟩

theorem exec_block_exists_next (z : Half) (s : State) : ∃ t, exec (.block z) s = .next t := by
  simp only [exec, execBlock]
  split_ifs <;> exact ⟨_, rfl⟩

theorem exec_lencode_exists_next (k : BitVec 5) (s : State) : ∃ t, exec (.lencode k) s = .next t := by
  simp only [exec, execLencode]
  split_ifs <;> exact ⟨_, rfl⟩

theorem exec_tsym_exists_next {i : Instr} (hi : IsTSymbol i) (s : State) : ∃ t, exec i s = .next t := by
  rcases hi with rfl | ⟨r, rfl⟩ | ⟨r, rfl⟩ | ⟨k, rfl, -⟩ <;> exact ⟨_, rfl⟩

/-- A literal is written below the end of the destination (R324). -/
theorem exec_lit_exists_next (b : Byte) {s : State} (hf : buffersFit s = true) (ho : s.dec.out < s.dstLen.toNat) :
    ∃ t, exec (.lit b) s = .next t := by
  have hin : dstAt s s.dec.out < 2 ^ s.addrW.val := dstAt_le_of_buffersFit (i := s.dec.out + 1) hf ho
  simp only [exec, execLit, putOut_of_lt b hin]
  exact ⟨_, rfl⟩

/-- A match is Bad, or is cut off where the destination ends (R322, R323). -/
theorem exec_matchCopy_exists_next (m : BitVec 9) {s : State} (hf : buffersFit s = true) (hd : InDecode s) :
    ∃ t, exec (.matchCopy m) s = .next t := by
  simp only [exec, execMatchCopy]
  split_ifs with hp
  · exact ⟨_, rfl⟩
  · obtain ⟨hlen, howed, -⟩ := hd
    obtain ⟨hcopy, -⟩ := copyLoop_spec s.dec.pval (matchLength m) s (by omega) howed.le _ rfl
    obtain ⟨u, hu, -⟩ := hcopy (.inr (dstAt_le_of_buffersFit hf (by omega)))
    rw [hu]
    exact ⟨_, rfl⟩

/-! ## The turns of Decode -/

theorem engineTurn_sym_exists_next {s : State} (hp : s.phase = .sym) (hf : buffersFit s = true) (hd : InDecode s)
    (hT : TablesInv s) : ∃ t, engineTurn s = .next t := by
  rw [TablesInv, hp] at hT
  by_cases hz : s.dec.blocksize = 0#16
  · obtain ⟨size, e⟩ := engineTurn_block hp hz
    rw [e]
    exact exec_block_exists_next size _
  · obtain ⟨σ, n, hc⟩ := decodeSymbol_of_tableOk (hT hz).1 (takeOfBlock s)
    rcases engineTurn_sym hp hz hc with ⟨b, e⟩ | ⟨m, -, e⟩ <;> rw [e]
    · exact exec_lit_exists_next b (s := skipBits n (takeOfBlock s)) hf hd.out_lt
    · exact ⟨_, rfl⟩

theorem engineTurn_decoding_exists_next {s : State} (hdec : decoding s.phase = true) (hf : buffersFit s = true)
    (hd : InDecode s) (hT : TablesInv s) : ∃ t, engineTurn s = .next t := by
  cases hp : s.phase with
  | idle | encFirst | encLoop | encEnd | header =>
    rw [hp] at hdec
    cases hdec
  | sym => exact engineTurn_sym_exists_next hp hf hd hT
  | count => exact ⟨_, engineTurn_count hp⟩
  | ptLen =>
    obtain ⟨k, n, -, e⟩ := engineTurn_ptLen hp
    rw [e]
    exact exec_lencode_exists_next k _
  | cLen =>
    rw [TablesInv, hp] at hT
    obtain ⟨-, -, hN⟩ := hT
    obtain ⟨τ, m, hc⟩ := decodeSymbol_of_tableOk hN s
    obtain ⟨i, n, hi, e⟩ := engineTurn_cLen hp hc
    rw [e]
    exact exec_tsym_exists_next hi _
  | pos =>
    rw [TablesInv, hp] at hT
    obtain ⟨-, hP, -⟩ := hT
    obtain ⟨c, m, hc⟩ := decodeSymbol_of_tableOk hP s
    obtain ⟨p, x, n, e⟩ := engineTurn_pos hp hc
    exact ⟨_, e⟩
  | copy =>
    rw [engineTurn_copy hp]
    exact exec_matchCopy_exists_next _ hf hd

/-- Settles O57: the header always has a next state, and so has every turn of Decode. -/
theorem decoderNeverStops : Obligations.DecoderNeverStops := by
  intro s s0 hm hs hp
  obtain ⟨-, -, hbuf, ⟨-, hdecode⟩, htab⟩ := hs
  have hrun : s0.phase ≠ .idle := by
    intro hidle
    rw [hidle] at hp
    rcases hp with hp | hp <;> cases hp
  have hf := buffersFit_of_checked (hbuf hrun)
  rw [step_of_engineMoves hm hf]
  rcases hp with hp | hdec
  · obtain ⟨l, o, e⟩ := engineTurn_header hp
    rw [e]
    exact exec_streamHeader_exists_next l o _
  · exact engineTurn_decoding_exists_next hdec hf (hdecode hdec) htab

end Sys2Proof.Machine
end

section
/-!
PROOFS. The bit writer of 40_bitstream.md: EmitByte, one turn of PutBits' loop, and PutBits and FlushBits as runs of such turns. The stream is the
bytes emitted (`emittedBits`) and the used bits of the partial byte (`partialBits`).
-/

namespace Sys2Proof.Machine

/-! ## EmitByte -/

theorem emitByte_of_lt {s : State} (x : Byte) (h : 8 + s.enc.compsize < s.dstLen.toNat) :
    emitByte x s = { engineWrite (dstAt s (8 + s.enc.compsize)) x s with
      enc := { s.enc with compsize := s.enc.compsize + 1 } } := by
  rw [emitByte, dstPutCapped, if_pos h]
  rfl

theorem emitByte_of_le {s : State} (x : Byte) (h : s.dstLen.toNat ≤ 8 + s.enc.compsize) :
    emitByte x s = { s with enc := { s.enc with compsize := s.enc.compsize + 1 } } := by
  rw [emitByte, dstPutCapped, if_neg (Nat.not_lt.mpr h)]

/-- Settles O27: by whether the byte lies below the capacity. -/
theorem emitByteCountsPastCapacity : Obligations.EmitByteCountsPastCapacity := by
  intro x s
  by_cases h : 8 + s.enc.compsize < s.dstLen.toNat
  · rw [emitByte_of_lt x h, if_pos h, if_pos h]
    rfl
  · rw [emitByte_of_le x (Nat.le_of_not_lt h), if_neg h, if_neg h]

theorem emitByte_enc (x : Byte) (s : State) : (emitByte x s).enc = { s.enc with compsize := s.enc.compsize + 1 } := by
  rw [emitByteCountsPastCapacity]

/-- EmitByte does not look at the number of free bits. -/
theorem emitByte_setBitcount (x : Byte) (n : Nat) (s : State) : emitByte x { s with enc := { s.enc with bitcount := n } }
    = { emitByte x s with enc := { (emitByte x s).enc with bitcount := n } } := by
  rw [emitByteCountsPastCapacity, emitByteCountsPastCapacity]
  rfl

/-! ## One bit -/

/-- The partial byte with one more bit. -/
def nextPartial (b : Bool) (e : Enc) : Byte := e.subbitbuf ||| (BitVec.ofNat 8 b.toNat <<< (e.bitcount - 1))

theorem nextPartial_false (e : Enc) : nextPartial false e = e.subbitbuf := by
  simp [nextPartial]

/-- The last bit of a byte emits it. -/
theorem putBit_last {s : State} (b : Bool) (h : s.enc.bitcount = 1) : putBit b s
    = { emitByte (nextPartial b s.enc) s with
        enc := { (emitByte (nextPartial b s.enc) s).enc with subbitbuf := 0#8, bitcount := 8 } } := by
  simp [putBit, nextPartial, h]

theorem putBit_inside {s : State} (b : Bool) (h : 2 ≤ s.enc.bitcount) : putBit b s
    = { s with enc := { s.enc with subbitbuf := nextPartial b s.enc, bitcount := s.enc.bitcount - 1 } } := by
  rw [putBit, if_neg (by omega)]
  rfl

theorem putBit_dstLen (b : Bool) (s : State) : (putBit b s).dstLen = s.dstLen := by
  obtain ⟨-, -, -, hdl⟩ := (putBit_putsBits b s).writes.buffers
  exact hdl

theorem compsize_le_putBit (b : Bool) (s : State) : s.enc.compsize ≤ (putBit b s).enc.compsize := by
  rw [putBit]
  split_ifs
  · simp [emitByte_enc]
  · rfl

/-! ## The bits of a number -/

/-- The upper `m` of `n` bits are those of the number without the others. -/
theorem take_natToBits {m n : Nat} (h : m ≤ n) (v : Nat) : (natToBits n v).take m = natToBits m (v / 2 ^ (n - m)) := by
  induction n generalizing m with
  | zero =>
    obtain rfl : m = 0 := Nat.le_zero.mp h
    rfl
  | succ n ih =>
    cases m with
    | zero => rfl
    | succ m =>
      have hm : m ≤ n := Nat.le_of_succ_le_succ h
      rw [natToBits, List.take_succ_cons, ih hm, Nat.succ_sub_succ, natToBits, Nat.testBit_div_two_pow, Nat.add_sub_cancel' hm]

/-- A number's bits end with its lowest one. -/
theorem natToBits_two_mul_add (n q : Nat) (b : Bool) : natToBits (n + 1) (2 * q + b.toNat) = natToBits n q ++ [b] := by
  induction n with
  | zero => cases b <;> simp [natToBits, Nat.testBit_zero]
  | succ n ih =>
    have hhalf : (2 * q + b.toNat) / 2 = q := by
      have := Bool.toNat_lt b
      omega
    rw [natToBits, ih, natToBits, Nat.testBit_succ, hhalf, List.cons_append]

/-- The new bit is added to the partial byte, whose free bits are 0 (R161). -/
theorem toNat_nextPartial (b : Bool) {e : Enc} {k : Nat} (hk : e.bitcount = k + 1) (h8 : k < 8)
    (h0 : e.subbitbuf.toNat % 2 ^ (k + 1) = 0) : (nextPartial b e).toNat = e.subbitbuf.toNat + b.toNat * 2 ^ k := by
  have hb : b.toNat * 2 ^ k < 2 ^ (k + 1) := by
    rw [pow_succ']
    exact Nat.mul_lt_mul_of_pos_right (Bool.toNat_lt b) (Nat.two_pow_pos k)
  have hw : b.toNat * 2 ^ k < 2 ^ 8 := hb.trans_le (Nat.pow_le_pow_right (by decide) h8)
  have hb1 : b.toNat < 2 ^ 8 := (Bool.toNat_lt b).trans (by decide)
  obtain ⟨q, hq⟩ := Nat.dvd_of_mod_eq_zero h0
  rw [nextPartial, hk, Nat.add_sub_cancel, BitVec.toNat_or, BitVec.toNat_shiftLeft, BitVec.toNat_ofNat, Nat.mod_eq_of_lt hb1,
    Nat.shiftLeft_eq, Nat.mod_eq_of_lt hw, hq, Nat.two_pow_add_eq_or_of_lt hb]

/-! ## The stream -/

/-- The bits of the partial byte that have been put. -/
def partialBits (e : Enc) : List Bool := (natToBits 8 e.subbitbuf.toNat).take (8 - e.bitcount)

/-- The bits of the first `n` stream bytes in the destination. -/
def emittedBits (s : State) (n : Nat) : List Bool := (List.range n).flatMap fun i => natToBits 8 (dstGet s (8 + i)).toNat

theorem streamBits_eq (s : State) : streamBits s = emittedBits s s.enc.compsize ++ partialBits s.enc := rfl

/-- EmitByte below the capacity appends its byte (R162). -/
theorem emittedBits_emitByte {s : State} (x : Byte) (h : 8 + s.enc.compsize < s.dstLen.toNat) :
    emittedBits (emitByte x s) (s.enc.compsize + 1) = emittedBits s s.enc.compsize ++ natToBits 8 x.toNat := by
  have hget : ∀ i, dstGet (emitByte x s) i = if i = 8 + s.enc.compsize then x else dstGet s i := by
    intro i
    rw [emitByte_of_lt x h]
    show memGet (engineWrite (dstAt s (8 + s.enc.compsize)) x s) (dstAt s i) = _
    rw [memGet_engineWrite]
    simp only [dstAt, Nat.add_left_cancel_iff, dstGet]
  have hold : emittedBits (emitByte x s) s.enc.compsize = emittedBits s s.enc.compsize := by
    refine List.flatMap_congr fun i hi => ?_
    have hne : 8 + i ≠ 8 + s.enc.compsize := by
      have := List.mem_range.mp hi
      omega
    rw [hget, if_neg hne]
  rw [emittedBits, List.range_succ, List.flatMap_append, List.flatMap_singleton, hget, if_pos rfl, ← hold]
  rfl

/-- The used bits of the partial byte with one more bit. -/
theorem take_nextPartial (b : Bool) {e : Enc} (he : WriterInv e) :
    (natToBits 8 (nextPartial b e).toNat).take (8 - (e.bitcount - 1)) = partialBits e ++ [b] := by
  obtain ⟨hpos, hle, h0⟩ := he
  obtain ⟨k, hk⟩ := Nat.exists_eq_add_of_le' hpos
  rw [hk] at h0 hle
  have hx := toNat_nextPartial b hk (by omega) h0
  obtain ⟨q, hq⟩ := Nat.dvd_of_mod_eq_zero h0
  have hnew : (nextPartial b e).toNat / 2 ^ k = 2 * q + b.toNat := by
    rw [hx, hq, show 2 ^ (k + 1) * q + b.toNat * 2 ^ k = 2 ^ k * (2 * q + b.toNat) by ring,
      Nat.mul_div_cancel_left _ (Nat.two_pow_pos k)]
  have hold : e.subbitbuf.toNat / 2 ^ (k + 1) = q := by
    rw [hq, Nat.mul_div_cancel_left _ (Nat.two_pow_pos _)]
  rw [partialBits, take_natToBits (by omega), take_natToBits (by omega), hk, Nat.add_sub_cancel,
    show 8 - (8 - k) = k by omega, show 8 - (8 - (k + 1)) = k + 1 by omega, show 8 - k = 8 - (k + 1) + 1 by omega,
    hnew, hold, natToBits_two_mul_add]

theorem putBit_writerInv (b : Bool) {s : State} (hw : WriterInv s.enc) : WriterInv (putBit b s).enc := by
  obtain ⟨hpos, hle, h0⟩ := hw
  obtain ⟨k, hk⟩ := Nat.exists_eq_add_of_le' hpos
  by_cases hlast : s.enc.bitcount = 1
  · rw [putBit_last b hlast]
    exact ⟨(by decide : 1 ≤ 8), le_refl 8, rfl⟩
  · rw [hk] at h0 hle
    have hfree : (nextPartial b s.enc).toNat % 2 ^ k = 0 := by
      rw [toNat_nextPartial b hk (by omega) h0, Nat.add_mul_mod_self_right]
      exact Nat.mod_eq_zero_of_dvd ((Nat.pow_dvd_pow 2 (Nat.le_succ k)).trans (Nat.dvd_of_mod_eq_zero h0))
    have hk1 : s.enc.bitcount - 1 = k := by omega
    rw [putBit_inside b (by omega), hk1]
    exact ⟨(by omega : 1 ≤ k), (by omega : k ≤ 8), hfree⟩

/-- One turn of PutBits' loop appends its bit (R161). -/
theorem putBit_appends (b : Bool) {s : State} (hw : WriterInv s.enc) (h : 8 + (putBit b s).enc.compsize ≤ s.dstLen.toNat) :
    streamBits (putBit b s) = streamBits s ++ [b] := by
  have htake := take_nextPartial b hw
  have ⟨hpos, _, _⟩ := hw
  rw [streamBits_eq s, List.append_assoc, ← htake]
  by_cases hlast : s.enc.bitcount = 1
  · rw [putBit_last b hlast] at h ⊢
    simp only [emitByte_enc] at h ⊢
    rw [hlast, List.take_of_length_le (by simp), ← emittedBits_emitByte _ h]
    exact List.append_nil _
  · rw [putBit_inside b (by omega)]
    rfl

/-! ## PutBits -/

/-- PutBits' loop over the bits to be put. -/
def putBitList (bs : List Bool) (s : State) : State := bs.foldl (fun s b => putBit b s) s

theorem putBits_eq (n v : Nat) (s : State) : putBits n v s = putBitList (natToBits n v) s := rfl

theorem putBitList_cons (b : Bool) (bs : List Bool) (s : State) : putBitList (b :: bs) s = putBitList bs (putBit b s) := rfl

theorem putBitList_append (as bs : List Bool) (s : State) : putBitList (as ++ bs) s = putBitList bs (putBitList as s) :=
  List.foldl_append

theorem compsize_le_putBitList (bs : List Bool) (s : State) : s.enc.compsize ≤ (putBitList bs s).enc.compsize := by
  induction bs generalizing s with
  | nil => rfl
  | cons b bs ih => exact (compsize_le_putBit b s).trans (ih _)

theorem putBitList_appends (bs : List Bool) {s : State} (hw : WriterInv s.enc)
    (h : 8 + (putBitList bs s).enc.compsize ≤ s.dstLen.toNat) :
    streamBits (putBitList bs s) = streamBits s ++ bs ∧ WriterInv (putBitList bs s).enc := by
  induction bs generalizing s with
  | nil => exact ⟨(List.append_nil _).symm, hw⟩
  | cons b bs ih =>
    rw [putBitList_cons] at h ⊢
    have hfirst := (Nat.add_le_add_left (compsize_le_putBitList bs (putBit b s)) 8).trans h
    obtain ⟨hbits, hwbs⟩ := ih (putBit_writerInv b hw) (by rw [putBit_dstLen]; exact h)
    refine ⟨?_, hwbs⟩
    rw [hbits, putBit_appends b hw hfirst, List.append_assoc, List.singleton_append]

/-- Settles O28: by induction on the bits to be put. -/
theorem putBitsAppends : Obligations.PutBitsAppends := by
  intro n v s hw h
  rw [putBits_eq] at h ⊢
  exact putBitList_appends (natToBits n v) hw h

/-! ## FlushBits -/

/-- Zero bits that do not complete the byte only use up its free bits. -/
theorem putBitList_zeros (m : Nat) {s : State} (h : m < s.enc.bitcount) :
    putBitList (List.replicate m false) s = { s with enc := { s.enc with bitcount := s.enc.bitcount - m } } := by
  induction m generalizing s with
  | zero => rfl
  | succ m ih =>
    rw [List.replicate_succ, putBitList_cons, putBit_inside false (by omega), nextPartial_false, ih (by simp only; omega)]
    simp only [Nat.sub_sub, Nat.add_comm 1 m]

/-- Zero bits up to the end of the byte emit it as it stands. -/
theorem putBitList_zeros_full {s : State} (h : 1 ≤ s.enc.bitcount) : putBitList (List.replicate s.enc.bitcount false) s
    = { emitByte s.enc.subbitbuf s with
        enc := { (emitByte s.enc.subbitbuf s).enc with subbitbuf := 0#8, bitcount := 8 } } := by
  obtain ⟨k, hk⟩ := Nat.exists_eq_add_of_le' h
  have hone : s.enc.bitcount - k = 1 := by omega
  rw [hk, List.replicate_succ', putBitList_append, putBitList_zeros k (by omega), hone, putBitList_cons, putBit_last false rfl,
    nextPartial_false, emitByte_setBitcount]
  rfl

/-- Settles O29: of the 7 zero bits those up to the end of a partial byte emit it, and the others are pending. -/
theorem flushBitsCompletesByte : Obligations.FlushBitsCompletesByte := by
  intro s hw
  obtain ⟨hpos, -, h0⟩ := hw
  have hflush : flushBits s = putBitList (List.replicate 7 false) s := putBits_eq 7 0 s
  refine ⟨rfl, fun h8 => ?_, fun hlt => ?_⟩
  · have hempty : s.enc.subbitbuf = 0#8 := by
      rw [h8, Nat.mod_eq_of_lt s.enc.subbitbuf.isLt] at h0
      exact BitVec.eq_of_toNat_eq h0
    rw [hflush, putBitList_zeros 7 (by omega), h8, ← hempty]
  · have hsplit : List.replicate 7 false
        = List.replicate s.enc.bitcount false ++ List.replicate (7 - s.enc.bitcount) false := by
      rw [← List.replicate_add, Nat.add_sub_of_le (by omega)]
    have hleft : 8 - (7 - s.enc.bitcount) = s.enc.bitcount + 1 := by omega
    rw [hflush, hsplit, putBitList_append, putBitList_zeros_full hpos, putBitList_zeros _ (by simp only; omega)]
    simp only [hleft]

end Sys2Proof.Machine
end

section
/-!
PROOFS. The match finder of 41_match_finder.md: the string hash and its buckets, InsertNode's comparison, ReadInput and the window shift, and
MatchLoop's choice of a token.
-/

namespace Sys2Proof.Machine

/-! ## The string hash and its buckets -/

theorem hash_eq (q : Nat) (c : Byte) : hash q c = q + 1024 * c.toNat + 2 ^ 20 := by
  simp only [hash, Config.W, Config.wndBit]
  omega

theorem le_hash (q : Nat) (c : Byte) : 2 ^ 20 ≤ hash q c := by
  rw [hash_eq]
  omega

theorem hash_le {q : Nat} (h : q ≤ 2 ^ 19 + 255) (c : Byte) : hash q c ≤ Config.maxHashVal := by
  have hc : c.toNat < 256 := c.isLt
  rw [hash_eq]
  simp only [Config.maxHashVal, Config.W, Config.wndBit]
  omega

/-- The children of one node that begin with different bytes hang in different buckets. -/
theorem hash_injective (q : Nat) {c c' : Byte} (h : hash q c = hash q c') : c = c' := by
  rw [hash_eq, hash_eq] at h
  exact BitVec.eq_of_toNat_eq (by omega)

/-- The bucket's head, read where the sentinel's parent has been set, already has the parent sought. -/
theorem child_of_head {q r : Nat} {c : Byte} {f : Finder} (hr : nextAt f (hash q c) = r) (hq : parentAt (setParent 0 q f) r = q) :
    child q c f = some (r, setParent 0 q f) := by
  have hfound : childLoop (setParent 0 q f) q loopBound r = some r := if_pos hq
  simp only [child, hr, hfound, Option.map_some]

/-- The sentinel ends the search of an empty bucket. -/
theorem child_of_empty {q : Nat} {c : Byte} {f : Finder} (h : nextAt f (hash q c) = 0) :
    child q c f = some (0, setParent 0 q f) :=
  child_of_head h (by rw [parentAt_setParent, if_pos ⟨rfl, by decide⟩])

theorem parentAt_of_childLoop {f : Finder} {q fuel r r' : Nat} (h : childLoop f q fuel r = some r') : parentAt f r' = q := by
  induction fuel generalizing r with
  | zero => cases h
  | succ fuel ih =>
    rw [childLoop] at h
    split_ifs at h with hq
    · cases h
      exact hq
    · exact ih h

theorem child_some {q r : Nat} {c : Byte} {f f' : Finder} (h : child q c f = some (r, f')) :
    f' = setParent 0 q f ∧ parentAt f' r = q := by
  obtain ⟨r', hloop, e⟩ := Option.map_eq_some_iff.mp h
  cases e
  exact ⟨rfl, parentAt_of_childLoop hloop⟩

/-- MakeChild's writes, one after the other. -/
theorem makeChild_eq {q r h : Nat} {c : Byte} {f : Finder} (hh : hash q c = h) : makeChild q c r f
    = setChildcount q (childcountAt f q + 1)
        (setParent r q (setPrev r h (setPrev (nextAt f h) r (setNext r (nextAt f h) (setNext h r f))))) := by
  simp only [makeChild, hh, childcountAt_setParent, childcountAt_setPrev, childcountAt_setNext]

/-- No node is a bucket, so that the child's own link leaves the bucket's head alone. -/
theorem nextAt_makeChild_hash {q r : Nat} (c : Byte) (f : Finder) (hr : r < 2 ^ 20) (hq : q ≤ 2 ^ 19 + 255) :
    nextAt (makeChild q c r f) (hash q c) = r := by
  have hnode : hash q c ≠ r := Nat.ne_of_gt (Nat.lt_of_lt_of_le hr (le_hash q c))
  have hsize : hash q c < Config.nextSize := Nat.lt_succ_of_le (hash_le hq c)
  generalize hh : hash q c = h at hnode hsize
  rw [makeChild_eq hh, nextAt_setChildcount, nextAt_setParent, nextAt_setPrev, nextAt_setPrev, nextAt_setNext,
    if_neg fun e => hnode e.1, nextAt_setNext, if_pos ⟨rfl, hsize⟩]

theorem parentAt_makeChild (q : Nat) {r : Nat} (c : Byte) (f : Finder) (hr : r < 2 ^ 20) : parentAt (makeChild q c r f) r = q := by
  rw [makeChild_eq rfl, parentAt_setChildcount, parentAt_setParent, if_pos ⟨rfl, Nat.lt_of_lt_of_le hr (by decide)⟩]

/-- Child's first look at the bucket finds the child that MakeChild hung. -/
theorem child_makeChild {q r : Nat} (c : Byte) (f : Finder) (h1 : 1 ≤ r) (hr : r < 2 ^ 20) (hq : q ≤ 2 ^ 19 + 255) :
    child q c (makeChild q c r f) = some (r, setParent 0 q (makeChild q c r f)) := by
  refine child_of_head (nextAt_makeChild_hash c f hr hq) ?_
  rw [parentAt_setParent, if_neg (by omega), parentAt_makeChild q c f hr]

/-- Settles O34: the child hung stands at the head of its bucket, and the search stops only at a node whose parent is `q`. -/
theorem childFindsMadeChild : Obligations.ChildFindsMadeChild :=
  ⟨fun q c _ hq => ⟨hash_eq q c, le_hash q c, hash_le hq c, fun _ => hash_injective q⟩,
    fun _ _ c f => ⟨child_makeChild c f, child_of_empty, fun _ _ => child_some⟩⟩

/-! ## InsertNode's comparison -/

theorem compareRun_of_ne (k : Nat) {f : Finder} (h : textAt f (f.pos + f.matchlen) ≠ textAt f (f.matchpos + f.matchlen)) :
    compareRun (k + 1) f = (true, f) := if_pos h

theorem compareRun_of_eq (k : Nat) {f : Finder} (h : textAt f (f.pos + f.matchlen) = textAt f (f.matchpos + f.matchlen)) :
    compareRun (k + 1) f = compareRun k { f with matchlen := f.matchlen + 1 } := if_neg (not_not_intro h)

@[simp] theorem textAt_setMatchlen (f : Finder) (m i : Nat) : textAt { f with matchlen := m } i = textAt f i := rfl

/-- Settles O35: by induction on the bytes left to compare. -/
theorem compareRunFindsCommonBytes : Obligations.CompareRunFindsCommonBytes := by
  intro k
  induction k with
  | zero =>
    intro f f' differ h
    cases h
    exact ⟨rfl, Nat.le_refl _, fun i h1 h2 => absurd h1 (Nat.not_le_of_lt h2), rfl⟩
  | succ k ih =>
    intro f f' differ h
    by_cases hsame : textAt f (f.pos + f.matchlen) = textAt f (f.matchpos + f.matchlen)
    case neg =>
      rw [compareRun_of_ne k hsame] at h
      cases h
      exact ⟨rfl, Nat.le_refl _, fun i h1 h2 => absurd h1 (Nat.not_le_of_lt h2), Nat.lt_add_of_pos_right k.succ_pos, hsame⟩
    case pos =>
      rw [compareRun_of_eq k hsame] at h
      obtain ⟨hrest, hle, hpassed, hend⟩ := ih _ _ _ h
      simp only [textAt_setMatchlen] at hpassed hend
      refine ⟨hrest, Nat.le_of_succ_le hle, fun i h1 h2 => ?_, ?_⟩
      · obtain rfl | hlater := Nat.eq_or_lt_of_le h1
        · exact hsame
        · exact hpassed i hlater h2
      · rwa [Nat.add_right_comm, Nat.add_assoc] at hend

/-! ## ReadInput -/

/-- The number of bytes read, and the state after, for `k` bytes that are asked for and left. -/
theorem readInput_eq {d n k : Nat} {s : State} (hk : k = min n (s.srcLen.toNat - s.enc.srcpos)) : readInput d n s
    = (k, { engineReads (s.srcAddr.toNat + s.enc.srcpos) k s with enc := { s.enc with
        srcpos := s.enc.srcpos + k, origsize := s.enc.origsize + k
        finder := readLoop (engineReads (s.srcAddr.toNat + s.enc.srcpos) k s) k s.enc.srcpos d s.enc.finder } }) := by
  subst hk
  rfl

/-- Settles O36: ReadInput's copy changes the window alone, and the reads recorded leave the source bytes as they are. -/
theorem readInputCopiesSource : Obligations.ReadInputCopiesSource := by
  intro d n s
  obtain ⟨k, hk⟩ : ∃ k, k = min n (s.srcLen.toNat - s.enc.srcpos) := ⟨_, rfl⟩
  obtain ⟨honly, htext⟩ := readLoop_spec (engineReads (s.srcAddr.toNat + s.enc.srcpos) k s) k s.enc.srcpos d s.enc.finder
  refine ⟨k, _, readInput_eq hk, hk, ?_, htext⟩
  dsimp only
  rw [← honly]

/-! ## The window shift -/

/-- Entries put before others: where there is none among them, the others are read. -/
theorem arrGet_append {n : Nat} {α : Type} (d : Nat → α) (l m : Arr n α) (i : Nat) :
    arrGet d (l ++ m) i = arrGet (arrGet d m) l i := by
  unfold arrGet
  induction l with
  | nil => rfl
  | cons p l ih => simp only [List.cons_append, sparseGet, ih]

/-- The entries of an array from `w` on, each moved down by `w`. -/
def arrLower {n : Nat} {α : Type} (w : Nat) (l : Arr n α) : Arr n α :=
  l.filterMap fun p =>
    if w ≤ p.1.val then some (⟨p.1.val - w, Nat.lt_of_le_of_lt (Nat.sub_le _ _) p.1.isLt⟩, p.2) else none

theorem arrGet_lower {n : Nat} {α : Type} (d : Nat → α) (w : Nat) (l : Arr n α) (i : Nat) :
    arrGet d (arrLower w l) i = arrGet (fun _ => d i) l (i + w) := by
  unfold arrGet arrLower
  induction l with
  | nil => rfl
  | cons p l ih =>
    obtain ⟨k, v⟩ := p
    by_cases hk : w ≤ k.val
    · have hkey : k.val - w = i ↔ k.val = i + w := by omega
      simp only [List.filterMap_cons, if_pos hk, sparseGet, hkey, ih]
    · have hkey : k.val ≠ i + w := by omega
      simp only [List.filterMap_cons, if_neg hk, sparseGet, if_neg hkey, ih]

theorem shiftText_text (f : Finder) :
    (shiftText f).text = arrLower Config.W f.text ++ arrClearBelow (Config.W + Config.maxMatch) f.text := rfl

/-- The bytes kept are read where no byte has come down. -/
theorem textAt_shiftText (f : Finder) (i : Nat) : textAt (shiftText f) i
    = arrGet (fun _ => if i < Config.W + Config.maxMatch then 0#8 else textAt f i) f.text (i + Config.W) := by
  rw [textAt, shiftText_text, arrGet_append, arrGet_lower, arrGet_clearBelow]
  rfl

/-- Settles O37: below W + M the byte W further on has come down; from there on that index lies outside the window. -/
theorem windowShiftsByW : Obligations.WindowShiftsByW := by
  intro f i
  rw [textAt_shiftText]
  by_cases h : i < Config.W + Config.maxMatch
  · rw [if_pos h, if_pos h]
    rfl
  · have hout : Config.textSize ≤ i + Config.W := by
      simp only [Config.textSize, Config.maxMatch, Config.W, Config.wndBit] at h ⊢
      omega
    rw [if_neg h, if_neg h, arrGet_of_le _ _ hout]

/-! ## MatchLoop -/

theorem emitsLiteral_iff (lastlen matchlen p : Nat) : emitsLiteral lastlen matchlen p = true ↔
    lastlen < matchlen ∨ lastlen < 3 ∨ (lastlen = 3 ∧ 2048 < p) := by
  simp [emitsLiteral, or_assoc]

/-- One turn, once GetNextMatch has answered `u`. -/
theorem matchLoopTurn_of_next {s u : State} (h : getNextMatch s = some u) : matchLoopTurn s =
    if emitsLiteral s.enc.finder.matchlen (min u.enc.finder.matchlen u.enc.finder.remainder)
        (matchPosition u.enc.finder.pos s.enc.finder.matchpos) = true then
      some (output (textAt u.enc.finder (u.enc.finder.pos - 1)).toNat 0 (capMatch u))
    else (getNextMatches (s.enc.finder.matchlen - 1)
      (output (s.enc.finder.matchlen + 253) (matchPosition u.enc.finder.pos s.enc.finder.matchpos) (capMatch u))).map capMatch := by
  rw [matchLoopTurn, h]
  rfl

/-- Settles O39: the turn's choice is that of R205 to R208, after the match has been capped at the remaining input. -/
theorem lazyMatchDecision : Obligations.LazyMatchDecision := by
  intro s u h
  refine ⟨_, _, rfl, rfl, ?_⟩
  rw [matchLoopTurn_of_next h]
  simp only [emitsLiteral_iff]

/-- Settles O38: the back distance less 1 is below W, and the shift changes the difference by W alone. -/
theorem matchPositionIsDistance : Obligations.MatchPositionIsDistance := by
  intro pos lastpos hlt hle
  simp only [matchPosition, Config.W, Config.wndBit]
  exact ⟨by omega, by omega, fun hshift => by omega⟩

end Sys2Proof.Machine
end

section
/-!
PROOFS. The code lengths of 42_huffman_builder.md: the length counts as weighted sums, R225's adjustment, CountLen and MakeLen. A leaf deeper than 16
that counts as 16 deep takes at most 1 of the Kraft sum too much, so that the leaves of 16 bits are at least as many as the passes.
-/

namespace Sys2Proof.Machine

/-! ## Sums over an array -/

/-- What a write does to a sum over an array's entries: the term of the old entry gives way to that of the new one. -/
theorem sum_arrGet_set {n : Nat} {α M : Type} [DecidableEq α] [AddCommMonoid M] (d : Nat → α) (g : Nat → α → M) {s : Finset Nat}
    (l : Arr n α) {i : Nat} (v : α) (hs : i ∈ s) (hn : i < n) :
    ∑ j ∈ s, g j (arrGet d (arrSet d l i v) j) + g i (arrGet d l i) = ∑ j ∈ s, g j (arrGet d l j) + g i v := by
  have hrest : ∑ j ∈ s.erase i, g j (arrGet d (arrSet d l i v) j) = ∑ j ∈ s.erase i, g j (arrGet d l j) :=
    Finset.sum_congr rfl fun j hj => by rw [arrGet_set_other d l v (Finset.ne_of_mem_erase hj)]
  rw [← Finset.sum_erase_add s _ hs, ← Finset.sum_erase_add s (fun j => g j (arrGet d l j)) hs, hrest, arrGet_set_same d l v hn]
  exact add_right_comm _ _ _

/-! ## The length counts -/

/-- The leaves counted at the lengths 1 to 16, each with the weight `φ` gives its length. -/
def lencntSum (φ : Nat → Nat) (c : Lencnt) : Nat := ∑ l ∈ Finset.Ico 1 17, lencntAt c l * φ l

/-- The Kraft sum is the leaves' sum with the weights 2^(16 - l) (R225). -/
theorem lencntKraft_eq_sum (c : Lencnt) : lencntKraft c = lencntSum (fun l => 2 ^ (16 - l)) c := by
  rw [lencntSum, Finset.sum_Ico_eq_sum_range]
  simp only [Nat.add_comm 1]
  rfl

theorem lencntSum_set (φ : Nat → Nat) (c : Lencnt) {l : Nat} (v : Nat) (h1 : 1 ≤ l) (h16 : l ≤ 16) :
    lencntSum φ (arrSet zeroNat c l v) + lencntAt c l * φ l = lencntSum φ c + v * φ l :=
  sum_arrGet_set zeroNat (fun l x => x * φ l) c v (Finset.mem_Ico.mpr ⟨h1, Nat.lt_succ_of_le h16⟩) (Nat.lt_succ_of_le h16)

theorem lencntSum_add (φ : Nat → Nat) (c : Lencnt) {l : Nat} (k : Nat) (h1 : 1 ≤ l) (h16 : l ≤ 16) :
    lencntSum φ (arrSet zeroNat c l (lencntAt c l + k)) = lencntSum φ c + k * φ l := by
  have h := lencntSum_set φ c (lencntAt c l + k) h1 h16
  rw [Nat.add_mul] at h
  omega

theorem lencntSum_sub_one (φ : Nat → Nat) (c : Lencnt) {l : Nat} (h1 : 1 ≤ l) (h16 : l ≤ 16) (hc : lencntAt c l ≠ 0) :
    lencntSum φ (arrSet zeroNat c l (lencntAt c l - 1)) + φ l = lencntSum φ c := by
  obtain ⟨k, hk⟩ := Nat.exists_eq_succ_of_ne_zero hc
  have h := lencntSum_set φ c (lencntAt c l - 1) h1 h16
  rw [hk, Nat.succ_sub_one, Nat.succ_mul] at h
  rw [hk, Nat.succ_sub_one]
  omega

/-! ## The length adjustment -/

/-- The counts with a leaf of length `l` split into two one bit longer (R225). -/
def splitAt (l : Nat) (c : Lencnt) : Lencnt :=
  let c := arrSet zeroNat c l (lencntAt c l - 1)
  arrSet zeroNat c (l + 1) (lencntAt c (l + 1) + 2)

/-- The counts less one leaf of 16 bits (R225). -/
def dropDeepest (c : Lencnt) : Lencnt := arrSet zeroNat c 16 (lencntAt c 16 - 1)

theorem splitLeaf_eq_splitAt {c : Lencnt} {i : Nat} (h : ∃ l, 1 ≤ l ∧ l ≤ i ∧ lencntAt c l ≠ 0) :
    ∃ l, 1 ≤ l ∧ l ≤ i ∧ lencntAt c l ≠ 0 ∧ splitLeaf i c = splitAt l c := by
  induction i with
  | zero =>
    obtain ⟨l, h1, h0, -⟩ := h
    omega
  | succ i ih =>
    rw [splitLeaf]
    split_ifs with hc
    · exact ⟨i + 1, by omega, le_rfl, hc, rfl⟩
    · obtain ⟨l, h1, hi, hl⟩ := h
      have hne : l ≠ i + 1 := by rintro rfl; exact hc hl
      obtain ⟨m, h1, hm, hrest⟩ := ih ⟨l, h1, by omega, hl⟩
      exact ⟨m, h1, by omega, hrest⟩

theorem lencntSum_splitAt (φ : Nat → Nat) {c : Lencnt} {l : Nat} (h1 : 1 ≤ l) (h15 : l ≤ 15) (hc : lencntAt c l ≠ 0) :
    lencntSum φ (splitAt l c) + φ l = lencntSum φ c + 2 * φ (l + 1) := by
  have hdown := lencntSum_sub_one φ c h1 (by omega) hc
  rw [splitAt, lencntSum_add φ _ 2 (by omega) (by omega)]
  omega

/-- What one pass of the adjustment does: one leaf of 16 bits goes, and a shorter one becomes two leaves one bit longer (R225). -/
theorem lencntSum_rebalance_one {c : Lencnt} (hdeep : 0 < lencntAt c 16) (hshort : ∃ l, 1 ≤ l ∧ l ≤ 15 ∧ lencntAt c l ≠ 0) :
    ∃ l, 1 ≤ l ∧ l ≤ 15 ∧ ∀ φ, lencntSum φ (rebalance 1 c) + φ 16 + φ l = lencntSum φ c + 2 * φ (l + 1) := by
  have hkeep : ∀ l, l ≤ 15 → lencntAt (dropDeepest c) l = lencntAt c l := fun l hl =>
    arrGet_set_other zeroNat c _ (by omega)
  obtain ⟨l, h1, h15, hl, hsplit⟩ := splitLeaf_eq_splitAt (c := dropDeepest c) (i := 15) (by
    obtain ⟨l, h1, h15, hl⟩ := hshort
    exact ⟨l, h1, h15, by rwa [hkeep l h15]⟩)
  refine ⟨l, h1, h15, fun φ => ?_⟩
  have hdrop : lencntSum φ (dropDeepest c) + φ 16 = lencntSum φ c := lencntSum_sub_one φ c (by decide) le_rfl (by omega)
  have hpass : rebalance 1 c = splitAt l (dropDeepest c) := hsplit
  have := lencntSum_splitAt φ h1 h15 hl
  rw [hpass]
  omega

/-- A leaf takes of the Kraft sum what two leaves one bit longer take. -/
theorem two_mul_kraftWeight {l : Nat} (h : l ≤ 15) : 2 * 2 ^ (16 - (l + 1)) = 2 ^ (16 - l) := by
  rw [← pow_succ']
  congr 1
  omega

/-- Settles O32: the split leaf leaves the Kraft sum alone, and the leaf of 16 bits that goes took 1 of it. -/
theorem adjustmentLowersKraftByOne : Obligations.AdjustmentLowersKraftByOne := by
  intro c hdeep hshort
  obtain ⟨l, -, h15, hpass⟩ := lencntSum_rebalance_one hdeep hshort
  have hk := hpass fun l => 2 ^ (16 - l)
  rw [two_mul_kraftWeight h15, ← lencntKraft_eq_sum, ← lencntKraft_eq_sum] at hk
  omega

/-- The number of leaves counted. -/
def leafTotal (c : Lencnt) : Nat := lencntSum (fun _ => 1) c

theorem lencntSum_deepest (c : Lencnt) : lencntSum (fun l => if l = 16 then 1 else 0) c = lencntAt c 16 := by
  simp [lencntSum]

/-- Fewer than 2^16 leaves do not make the Kraft sum 2^16 without one shorter than 16 bits. -/
theorem exists_shorter_leaf {c : Lencnt} (hcount : leafTotal c < 2 ^ 16) (hk : 2 ^ 16 ≤ lencntKraft c) :
    ∃ l, 1 ≤ l ∧ l ≤ 15 ∧ lencntAt c l ≠ 0 := by
  by_contra hnone
  push Not at hnone
  have hle : lencntKraft c ≤ leafTotal c := by
    rw [lencntKraft_eq_sum, leafTotal, lencntSum, lencntSum]
    refine Finset.sum_le_sum fun l hl => ?_
    obtain ⟨h1, h17⟩ := Finset.mem_Ico.mp hl
    by_cases h16 : l = 16
    · rw [h16, Nat.sub_self, pow_zero]
    · rw [hnone l h1 (by omega), Nat.zero_mul, Nat.zero_mul]
  omega

/-- As many passes as the Kraft sum exceeds 2^16 bring it there (R225), when the leaves of 16 bits are as many as the passes. -/
theorem rebalance_completes (e : Nat) {c : Lencnt} (hdeep : e ≤ lencntAt c 16) (hk : lencntKraft c = 2 ^ 16 + e)
    (hcount : leafTotal c < 2 ^ 16) :
    lencntKraft (rebalance e c) = 2 ^ 16 ∧ leafTotal (rebalance e c) = leafTotal c := by
  induction e generalizing c with
  | zero => exact ⟨hk, rfl⟩
  | succ e ih =>
    have hshort := exists_shorter_leaf hcount (by omega)
    have hkraft := adjustmentLowersKraftByOne c (by omega) hshort
    obtain ⟨l, -, h15, hpass⟩ := lencntSum_rebalance_one (by omega) hshort
    have htotal : leafTotal (rebalance 1 c) = leafTotal c := by
      have h := hpass fun _ => 1
      rw [leafTotal, leafTotal]
      omega
    have hdeep' : e ≤ lencntAt (rebalance 1 c) 16 := by
      have h := hpass fun l => if l = 16 then 1 else 0
      rw [lencntSum_deepest, lencntSum_deepest, if_pos rfl, if_neg (by omega)] at h
      omega
    obtain ⟨hend, hrest⟩ := ih hdeep' (by omega) (by omega)
    exact ⟨hend, hrest.trans htotal⟩

/-! ## The lengths handed out -/

/-- The lengths handed out, each with its weight, make the counts' sum (R225). -/
theorem sum_map_lengthsDown (φ : Nat → Nat) (c : Lencnt) (i : Nat) :
    ((lengthsDown c i).map φ).sum = ∑ l ∈ Finset.Ico 1 (i + 1), lencntAt c l * φ l := by
  induction i with
  | zero => rfl
  | succ i ih =>
    rw [lengthsDown, List.map_append, List.sum_append, ih, List.map_replicate, List.sum_replicate, smul_eq_mul,
      Finset.sum_Ico_succ_top (Nat.le_add_left 1 i), Nat.add_comm]

theorem mem_lengthsDown {c : Lencnt} {i l : Nat} (h : l ∈ lengthsDown c i) : 1 ≤ l ∧ l ≤ i := by
  induction i with
  | zero => simp [lengthsDown] at h
  | succ i ih =>
    rw [lengthsDown, List.mem_append] at h
    rcases h with h | h
    · obtain rfl := List.eq_of_mem_replicate h
      omega
    · have := ih h
      omega

theorem length_lengthsDown (c : Lencnt) : (lengthsDown c 16).length = leafTotal c := by
  have h := sum_map_lengthsDown (fun _ => 1) c 16
  rwa [List.map_const', List.sum_replicate, smul_eq_mul, Nat.mul_one] at h

/-- The lengths handed out have the Kraft sum of the counts. -/
theorem kraftSum_lengthsDown (c : Lencnt) : kraftSum (lengthsDown c 16) = lencntKraft c := by
  rw [kraftSum, sum_map_lengthsDown, lencntKraft_eq_sum]
  refine Finset.sum_congr rfl fun l hl => ?_
  rw [kraftTerm, if_neg (Nat.one_le_iff_ne_zero.mp (Finset.mem_Ico.mp hl).1)]

theorem assignLens_of_notMem {b σ : Nat} {order : List Nat} (ls : List Nat) (len : Arr b Nat) (h : σ ∉ order) :
    arrGet zeroNat (assignLens order ls len) σ = arrGet zeroNat len σ := by
  induction order generalizing ls len with
  | nil => cases ls <;> rfl
  | cons τ order ih =>
    cases ls with
    | nil => rfl
    | cons l ls =>
      obtain ⟨hτ, horder⟩ := not_or.mp (mt List.mem_cons.mpr h)
      rw [assignLens, ih ls _ horder, arrGet_set_other _ _ _ hτ]

/-- The symbols of `order` get the lengths handed out, one each (R225). -/
theorem map_assignLens {b : Nat} {order ls : List Nat} (len : Arr b Nat) (hnodup : order.Nodup) (hlt : ∀ σ ∈ order, σ < b)
    (hls : ls.length = order.length) : order.map (arrGet zeroNat (assignLens order ls len)) = ls := by
  induction order generalizing ls len with
  | nil => exact (List.length_eq_zero_iff.mp hls).symm
  | cons σ order ih =>
    obtain ⟨l, ls, rfl⟩ := List.exists_cons_of_length_eq_add_one hls
    obtain ⟨hσ, hnodup⟩ := List.nodup_cons.mp hnodup
    obtain ⟨hσb, hlt⟩ := List.forall_mem_cons.mp hlt
    rw [assignLens, List.map_cons, assignLens_of_notMem _ _ hσ, arrGet_set_same _ _ _ hσb,
      ih _ hnodup hlt (Nat.succ.inj hls)]

/-! ## CountLen -/

/-- `f` counts the leaves below each of the nodes before `k`, whose children are older nodes (R224). -/
structure LeafCount (n k : Nat) (left right : Arr Config.cfreqSize Nat) (f : Nat → Nat) : Prop where
  leaf : ∀ i, i < n → f i = 1
  left_lt : ∀ v, n ≤ v → v < k → arrGet zeroNat left v < v
  right_lt : ∀ v, n ≤ v → v < k → arrGet zeroNat right v < v
  node : ∀ v, n ≤ v → v < k → f v = f (arrGet zeroNat left v) + f (arrGet zeroNat right v)

/-- What the leaves of a subtree at `depth` add to the counts: `m` leaves; at least the subtree's share of the Kraft sum, here not below the 1
that a leaf of any depth counts; and at most its exact share, here 0 below depth 16, and 1 for each leaf that counts as 16 deep. -/
structure LeavesAdded (m depth : Nat) (c c' : Lencnt) : Prop where
  total : leafTotal c' = leafTotal c + m
  kraft_ge : lencntKraft c + 2 ^ (16 - depth) ≤ lencntKraft c'
  excess_le : lencntKraft c' + lencntAt c 16 ≤ lencntKraft c + lencntAt c' 16 + 2 ^ 16 / 2 ^ depth

theorem LeavesAdded.leaf (c : Lencnt) {depth : Nat} (h : 1 ≤ depth) :
    LeavesAdded 1 depth c (arrSet zeroNat c (min depth 16) (lencntAt c (min depth 16) + 1)) := by
  have hsum := fun φ => lencntSum_add φ c 1 (Nat.le_min.mpr ⟨h, by decide⟩) (Nat.min_le_right depth 16)
  constructor
  · exact hsum _
  · rw [lencntKraft_eq_sum, lencntKraft_eq_sum, hsum]
    have := Nat.pow_le_pow_right (n := 2) (by decide) (Nat.sub_le_sub_left (Nat.min_le_left depth 16) 16)
    omega
  · rw [lencntKraft_eq_sum, lencntKraft_eq_sum, ← lencntSum_deepest, ← lencntSum_deepest, hsum, hsum]
    rcases Nat.lt_or_ge depth 16 with hd | hd
    · rw [Nat.min_eq_left hd.le, Nat.pow_div hd.le (by decide)]
      omega
    · have hshare := Nat.zero_le (2 ^ 16 / 2 ^ depth)
      rw [Nat.min_eq_right hd, if_pos rfl]
      omega

theorem LeavesAdded.node {m m' depth : Nat} {c c₁ c₂ : Lencnt} (h : LeavesAdded m (depth + 1) c c₁)
    (h' : LeavesAdded m' (depth + 1) c₁ c₂) : LeavesAdded (m + m') depth c c₂ := by
  constructor
  · rw [h'.total, h.total, Nat.add_assoc]
  · have h1 := h.kraft_ge
    have h2 := h'.kraft_ge
    have hshare : 2 ^ (16 - depth) ≤ 2 * 2 ^ (16 - (depth + 1)) := by
      rw [← pow_succ']
      exact Nat.pow_le_pow_right (by decide) (by omega)
    omega
  · have h1 := h.excess_le
    have h2 := h'.excess_le
    have hshare : 2 * (2 ^ 16 / 2 ^ (depth + 1)) ≤ 2 ^ 16 / 2 ^ depth := by
      rw [pow_succ 2 depth, ← Nat.div_div_eq_div_mul]
      exact Nat.mul_div_le _ _
    omega

/-- CountLen counts the leaves of a subtree, when it is not a leaf at the root (R224). -/
theorem leavesAdded_countLen {n k : Nat} {left right : Arr Config.cfreqSize Nat} {f : Nat → Nat} (hf : LeafCount n k left right f)
    {fuel v depth : Nat} (c : Lencnt) (hv : v < fuel) (hk : v < k) (hroot : n ≤ v ∨ 1 ≤ depth) :
    LeavesAdded (f v) depth c (countLen n left right fuel v depth c) := by
  induction fuel generalizing v depth c with
  | zero => omega
  | succ fuel ih =>
    rw [countLen]
    split_ifs with hn
    · rw [hf.leaf v hn]
      exact .leaf c (by omega)
    · have hl := hf.left_lt v (by omega) hk
      have hr := hf.right_lt v (by omega) hk
      rw [hf.node v (by omega) hk]
      exact .node (ih c (by omega) (by omega) (by omega)) (ih _ (by omega) (by omega) (by omega))

/-! ## MakeLen -/

/-- The counts that MakeLen's adjustment leaves for a tree of fewer than 2^16 leaves: a complete code of as many lengths (R225, R226). -/
theorem rebalanced_complete {c : Lencnt} {m : Nat} (h : LeavesAdded m 0 [] c) (hm : m < 2 ^ 16) :
    lencntKraft (rebalance (lencntKraft c - 2 ^ 16) c) = 2 ^ 16 ∧ leafTotal (rebalance (lencntKraft c - 2 ^ 16) c) = m := by
  obtain ⟨htotal, hge, hle⟩ := h
  have hk0 : lencntKraft [] = 0 := rfl
  have ht0 : leafTotal [] = 0 := rfl
  have hd0 : lencntAt [] 16 = 0 := rfl
  rw [ht0, Nat.zero_add] at htotal
  rw [hk0] at hge hle
  rw [hd0] at hle
  rw [← htotal]
  exact rebalance_completes _ (by omega) (by omega) (by omega)

/-- The counts of the tree's leaves (R224). -/
def treeCounts (h : Huff) (root : Nat) : Lencnt := countLen h.n h.left h.right (root + 1) root 0 []

/-- The counts of the tree's leaves after the adjustment (R225). -/
def adjustedCounts (h : Huff) (root : Nat) : Lencnt := rebalance (lencntKraft (treeCounts h root) - 2 ^ 16) (treeCounts h root)

theorem makeLen_eq {b : Nat} (h : Huff) (root : Nat) (len : Arr b Nat) : makeLen h root len
    = (adjustedCounts h root, assignLens h.sortorder (lengthsDown (adjustedCounts h root) 16) len) := rfl

theorem adjustedCounts_complete {h : Huff} {root : Nat} {f : Nat → Nat} (hf : LeafCount h.n (root + 1) h.left h.right f)
    (hroot : h.n ≤ root) (hfew : f root < 2 ^ 16) :
    lencntKraft (adjustedCounts h root) = 2 ^ 16 ∧ leafTotal (adjustedCounts h root) = f root := by
  have hcount : LeavesAdded (f root) 0 [] (treeCounts h root) :=
    leavesAdded_countLen hf [] (Nat.lt_succ_self root) (Nat.lt_succ_self root) (.inl hroot)
  rw [adjustedCounts]
  exact rebalanced_complete hcount hfew

/-- MakeLen hands the leaves recorded in sortorder the lengths of a complete code, one each, and no other symbol any (R225, R226). -/
theorem makeLen_complete_of_leafCount {b : Nat} {h : Huff} {root : Nat} {f : Nat → Nat} (len : Arr b Nat)
    (hf : LeafCount h.n (root + 1) h.left h.right f) (hroot : h.n ≤ root) (hleaves : f root = h.sortorder.length)
    (hfew : h.sortorder.length < 2 ^ 16) (hnodup : h.sortorder.Nodup) (hlt : ∀ σ ∈ h.sortorder, σ < b) :
    (∀ σ ∈ h.sortorder, 1 ≤ arrGet zeroNat (makeLen h root len).2 σ ∧ arrGet zeroNat (makeLen h root len).2 σ ≤ 16) ∧
    kraftSum (h.sortorder.map (arrGet zeroNat (makeLen h root len).2)) = 2 ^ 16 ∧
    ∀ σ, σ ∉ h.sortorder → arrGet zeroNat (makeLen h root len).2 σ = arrGet zeroNat len σ := by
  obtain ⟨hkraft, htotal⟩ := adjustedCounts_complete hf hroot (hleaves ▸ hfew)
  rw [makeLen_eq]
  have hmap := map_assignLens len hnodup hlt
    (show (lengthsDown (adjustedCounts h root) 16).length = _ by rw [length_lengthsDown, htotal, hleaves])
  refine ⟨fun σ hσ => ?_, ?_, fun σ hσ => assignLens_of_notMem _ len hσ⟩
  · have hmem := List.mem_map_of_mem (f := arrGet zeroNat (assignLens h.sortorder (lengthsDown (adjustedCounts h root) 16) len)) hσ
    rw [hmap] at hmem
    exact mem_lengthsDown hmem
  · rw [hmap, kraftSum_lengthsDown, hkraft]

end Sys2Proof.Machine
end

section
/-!
PROOFS. MakeTree of 42_huffman_builder.md. The order of the heap decides which symbol gets which length, but not that the code is complete: for
that only the multiset of the heap's nodes counts. DownHeap keeps it, and a turn of the merge loop puts a new node in the place of two.
-/

namespace Sys2Proof.Machine

/-! ## The heap's nodes -/

/-- The nodes in the heap's first `m` slots, whatever their order. -/
def heapNodes (heap : Heap) (m : Nat) : Multiset Nat := ∑ i ∈ Finset.range m, {heapAt heap (i + 1)}

theorem heapNodes_succ (heap : Heap) (m : Nat) : heapNodes heap (m + 1) = heapNodes heap m + {heapAt heap (m + 1)} :=
  Finset.sum_range_succ _ m

theorem card_heapNodes (heap : Heap) (m : Nat) : (heapNodes heap m).card = m := by
  simp [heapNodes]

theorem heapAt_mem_heapNodes (heap : Heap) {m i : Nat} (h1 : 1 ≤ i) (hi : i ≤ m) : heapAt heap i ∈ heapNodes heap m := by
  obtain ⟨i, rfl⟩ := Nat.exists_eq_add_of_le' h1
  exact Multiset.mem_sum.mpr ⟨i, Finset.mem_range.mpr hi, Multiset.mem_singleton_self _⟩

theorem heapAt_set_same (heap : Heap) {i : Nat} (v : Nat) (h1 : 1 ≤ i) (hi : i ≤ 510) : heapAt (heapSet heap i v) i = v :=
  arrGet_set_same _ _ _ (by omega : i - 1 < 510)

theorem heapAt_set_other (heap : Heap) {i j : Nat} (v : Nat) (h1 : 1 ≤ i) (hj : 1 ≤ j) (h : j ≠ i) :
    heapAt (heapSet heap i v) j = heapAt heap j :=
  arrGet_set_other _ _ _ (by omega)

/-- A write into the heap: the old node of the slot gives way to the new one. -/
theorem heapNodes_set (heap : Heap) {m i : Nat} (v : Nat) (h1 : 1 ≤ i) (hi : i ≤ m) (hm : m ≤ 510) :
    heapNodes (heapSet heap i v) m + {heapAt heap i} = heapNodes heap m + {v} := by
  obtain ⟨i, rfl⟩ := Nat.exists_eq_add_of_le' h1
  exact sum_arrGet_set zeroNat (fun _ x => ({x} : Multiset Nat)) heap v (Finset.mem_range.mpr hi) (by omega : i < 510)

/-- A write above the first `m` slots leaves their nodes alone. -/
theorem heapNodes_set_above (heap : Heap) {m i : Nat} (v : Nat) (hi : m < i) : heapNodes (heapSet heap i v) m = heapNodes heap m :=
  Finset.sum_congr rfl fun j hj => by
    rw [heapAt_set_other heap v (by omega) (by omega) (by have := Finset.mem_range.mp hj; omega)]

/-! ## DownHeap keeps the nodes -/

theorem downHeapChild_bounds {a : Nat} (freq : Arr a Half) {m i : Nat} (heap : Heap) (h : 2 * i ≤ m) :
    2 * i ≤ downHeapChild freq m heap i ∧ downHeapChild freq m heap i ≤ m := by
  rw [downHeapChild]
  split_ifs <;> omega

/-- DownHeap's loop moves the slot left for the sinking node down the heap, and keeps all other nodes (R222). -/
theorem downHeapLoop_keeps {a : Nat} (freq : Arr a Half) {m : Nat} (k fuel : Nat) {i : Nat} (heap : Heap) (h1 : 1 ≤ i) (hi : i ≤ m)
    (hm : m ≤ 510) {j : Nat} {heap' : Heap} (h : downHeapLoop freq m k fuel i heap = (j, heap')) :
    1 ≤ j ∧ j ≤ m ∧ heapNodes heap' m + {heapAt heap i} = heapNodes heap m + {heapAt heap' j} := by
  induction fuel generalizing i heap with
  | zero =>
    obtain ⟨rfl, rfl⟩ := Prod.mk.inj h
    exact ⟨h1, hi, rfl⟩
  | succ fuel ih =>
    rw [downHeapLoop] at h
    split_ifs at h with h2
    · obtain ⟨hc, hcm⟩ := downHeapChild_bounds freq heap h2
      dsimp only at h
      split_ifs at h
      · obtain ⟨rfl, rfl⟩ := Prod.mk.inj h
        exact ⟨h1, hi, rfl⟩
      · have hset := heapNodes_set heap (heapAt heap (downHeapChild freq m heap i)) h1 hi hm
        obtain ⟨hj, hjm, hrest⟩ := ih _ (by omega) hcm h
        rw [heapAt_set_other heap _ h1 (by omega) (by omega)] at hrest
        refine ⟨hj, hjm, ?_⟩
        apply add_right_cancel (b := ({heapAt heap (downHeapChild freq m heap i)} : Multiset Nat))
        rw [add_right_comm, hrest, add_right_comm, hset, add_right_comm]
    · obtain ⟨rfl, rfl⟩ := Prod.mk.inj h
      exact ⟨h1, hi, rfl⟩

theorem heapNodes_downHeap {a : Nat} (freq : Arr a Half) {m i : Nat} (heap : Heap) (h1 : 1 ≤ i) (hi : i ≤ m) (hm : m ≤ 510) :
    heapNodes (downHeap freq m i heap) m = heapNodes heap m := by
  obtain ⟨j, heap', hloop⟩ : ∃ j heap', downHeapLoop freq m (heapAt heap i) m i heap = (j, heap') := ⟨_, _, rfl⟩
  obtain ⟨hj, hjm, hkeep⟩ := downHeapLoop_keeps freq _ _ heap h1 hi hm hloop
  have hset := heapNodes_set heap' (heapAt heap i) hj hjm hm
  have hdown : downHeap freq m i heap = heapSet heap' j (heapAt heap i) := by
    rw [downHeap, hloop]
  rw [hdown]
  exact add_right_cancel (hset.trans hkeep)

theorem heapNodes_heapify {a : Nat} (freq : Arr a Half) {m i : Nat} (heap : Heap) (hi : i ≤ m) (hm : m ≤ 510) :
    heapNodes (heapify freq m i heap) m = heapNodes heap m := by
  induction i generalizing heap with
  | zero => rfl
  | succ i ih => rw [heapify, ih _ (by omega), heapNodes_downHeap freq heap (by omega) hi hm]

theorem heapNodes_heapFill (xs : List Nat) (heap : Heap) {m : Nat} (h : m + xs.length ≤ 510) :
    heapNodes (heapFill xs (m + 1) heap) (m + xs.length) = heapNodes heap m + xs := by
  induction xs generalizing heap m with
  | nil => simp [heapFill]
  | cons x xs ih =>
    rw [List.length_cons] at h
    rw [heapFill, List.length_cons, Nat.add_comm xs.length, ← Nat.add_assoc, ih _ (by omega), heapNodes_succ,
      heapNodes_set_above heap x (Nat.lt_succ_self m), heapAt_set_same heap x (by omega) (by omega), ← Multiset.cons_coe,
      Multiset.add_cons, add_assoc, Multiset.singleton_add, Multiset.add_cons]

/-! ## The merge loop -/

/-- The heap without its first node: the last one takes the slot and sinks (R220). -/
def popHeap {a : Nat} (freq : Arr a Half) (m : Nat) (heap : Heap) : Heap :=
  downHeap freq (m - 1) 1 (heapSet heap 1 (heapAt heap m))

theorem heapNodes_popHeap {a : Nat} (freq : Arr a Half) {m : Nat} (heap : Heap) (h2 : 2 ≤ m) (hm : m ≤ 510) :
    heapNodes heap m = heapAt heap 1 ::ₘ heapNodes (popHeap freq m heap) (m - 1) := by
  obtain ⟨m, rfl⟩ := Nat.exists_eq_add_of_le' (by omega : 1 ≤ m)
  have hset := heapNodes_set heap (heapAt heap (m + 1)) (m := m + 1) le_rfl (by omega) hm
  rw [heapNodes_succ, heapAt_set_other heap _ le_rfl (by omega) (by omega), add_right_comm] at hset
  rw [popHeap, Nat.add_sub_cancel, heapNodes_downHeap freq _ le_rfl (by omega) (by omega), ← add_right_cancel hset,
    ← Multiset.singleton_add, add_comm]

/-- The frequencies with the weight of the node `k` made of `i` and `j` (R220). -/
def mergedFreq {a : Nat} (freq : Arr a Half) (k i j : Nat) : Arr a Half :=
  arrSet (zeroBits 16) freq k (arrGet (zeroBits 16) freq i + arrGet (zeroBits 16) freq j)

/-- The scratch after one turn of the merge loop (R220). -/
def mergeTurn {a : Nat} (n k : Nat) (h : Huff) (freq : Arr a Half) : Huff :=
  let i := heapAt h.heap 1
  let heap := popHeap freq h.heapsize h.heap
  let j := heapAt heap 1
  { h with
    heap := downHeap (mergedFreq freq k i j) (h.heapsize - 1) 1 (heapSet heap 1 k)
    heapsize := h.heapsize - 1
    sortorder := recordLeaf n j (recordLeaf n i h.sortorder)
    left := arrSet zeroNat h.left k i
    right := arrSet zeroNat h.right k j }

theorem mergeLoop_succ {a : Nat} (n fuel k : Nat) (h : Huff) (freq : Arr a Half) :
    ∃ freq' : Arr a Half, mergeLoop n (fuel + 1) k h freq
      = if h.heapsize - 1 ≤ 1 then (mergeTurn n k h freq, freq', k) else mergeLoop n fuel (k + 1) (mergeTurn n k h freq) freq' :=
  ⟨_, rfl⟩

/-- One turn of the merge loop: two nodes of the heap give way to the new one, whose children they are (R220). -/
structure Merges (n k i j : Nat) (rest : Multiset Nat) (h h' : Huff) : Prop where
  before : heapNodes h.heap h.heapsize = i ::ₘ j ::ₘ rest
  after : heapNodes h'.heap h'.heapsize = k ::ₘ rest
  heapsize : h'.heapsize = h.heapsize - 1
  alphabet : h'.n = h.n
  order : h'.sortorder = recordLeaf n j (recordLeaf n i h.sortorder)
  left : h'.left = arrSet zeroNat h.left k i
  right : h'.right = arrSet zeroNat h.right k j

theorem merges_mergeTurn {a : Nat} (n k : Nat) {h : Huff} (freq : Arr a Half) (h2 : 2 ≤ h.heapsize) (hm : h.heapsize ≤ 510) :
    ∃ i j rest, Merges n k i j rest h (mergeTurn n k h freq) := by
  have hpop := heapNodes_popHeap freq h.heap h2 hm
  obtain ⟨rest, hrest⟩ := Multiset.exists_cons_of_mem
    (heapAt_mem_heapNodes (popHeap freq h.heapsize h.heap) le_rfl (by omega : 1 ≤ h.heapsize - 1))
  refine ⟨_, _, rest, hpop.trans (hrest ▸ rfl), ?_, rfl, rfl, rfl, rfl, rfl⟩
  have hset := heapNodes_set (popHeap freq h.heapsize h.heap) (m := h.heapsize - 1) k le_rfl (by omega) (by omega)
  rw [hrest, ← Multiset.singleton_add (heapAt _ _), add_comm, add_assoc] at hset
  rw [mergeTurn, heapNodes_downHeap _ _ le_rfl (by omega) (by omega), add_left_cancel hset, add_comm, Multiset.singleton_add]

/-- A leaf that leaves the heap goes into sortorder: the two together keep the same leaves. -/
theorem coe_recordLeaf_add (n i : Nat) (order : List Nat) (s : Multiset Nat) :
    (recordLeaf n i order : Multiset Nat) + s.filter (· < n) = (order : Multiset Nat) + (i ::ₘ s).filter (· < n) := by
  rw [recordLeaf]
  split_ifs with h
  · rw [Multiset.filter_cons_of_pos (p := (· < n)) _ h, ← Multiset.coe_add, ← Multiset.singleton_add i, add_assoc]
    rfl
  · rw [Multiset.filter_cons_of_neg (p := (· < n)) _ h]

/-- A node made of two older ones has the leaves of both. -/
theorem LeafCount.merge {n k i j : Nat} {left right : Arr Config.cfreqSize Nat} {f : Nat → Nat} (hf : LeafCount n k left right f)
    (hn : n ≤ k) (hk : k < 1019) (hi : i < k) (hj : j < k) :
    LeafCount n (k + 1) (arrSet zeroNat left k i) (arrSet zeroNat right k j) (Function.update f k (f i + f j)) := by
  constructor
  case leaf =>
    intro v hv
    rw [Function.update_of_ne (by omega), hf.leaf v hv]
  case left_lt =>
    intro v hv hvk
    rw [arrGet_set_lt _ _ _ _ hk]
    split_ifs with h
    · omega
    · exact hf.left_lt v hv (by omega)
  case right_lt =>
    intro v hv hvk
    rw [arrGet_set_lt _ _ _ _ hk]
    split_ifs with h
    · omega
    · exact hf.right_lt v hv (by omega)
  case node =>
    intro v hv hvk
    rw [arrGet_set_lt _ _ _ _ hk, arrGet_set_lt _ _ _ _ hk]
    split_ifs with h
    · rw [h, Function.update_self, Function.update_of_ne (by omega), Function.update_of_ne (by omega)]
    · have hl := hf.left_lt v hv (by omega)
      have hr := hf.right_lt v hv (by omega)
      rw [Function.update_of_ne h, Function.update_of_ne (by omega), Function.update_of_ne (by omega), hf.node v hv (by omega)]

/-- What the merge loop keeps before it makes node `k`: the nodes of the heap are older than `k` and have all the leaves between them, and
every leaf is in the heap or in sortorder. -/
structure MergeInv (n k : Nat) (used : List Nat) (f : Nat → Nat) (h : Huff) : Prop where
  alphabet : h.n = n
  alphabet_le : n ≤ k
  next : k + h.heapsize = n + used.length
  count : LeafCount n k h.left h.right f
  older : ∀ v ∈ heapNodes h.heap h.heapsize, v < k
  leaves : ((heapNodes h.heap h.heapsize).map f).sum = used.length
  order : (h.sortorder : Multiset Nat) + (heapNodes h.heap h.heapsize).filter (· < n) = used

theorem MergeInv.merges {n k i j : Nat} {rest : Multiset Nat} {used : List Nat} {f : Nat → Nat} {h h' : Huff}
    (hi : MergeInv n k used f h) (hm : Merges n k i j rest h h') (h2 : 2 ≤ h.heapsize) (hn : n ≤ 510) (hused : used.length ≤ n) :
    MergeInv n (k + 1) used (Function.update f k (f i + f j)) h' := by
  obtain ⟨halpha, hnk, hnext, hcount, holder, hleaves, horder⟩ := hi
  obtain ⟨hbefore, hafter, hsize, halpha', horder', hleft, hright⟩ := hm
  rw [hbefore] at holder hleaves horder
  have hik : i < k := holder i (by simp)
  have hjk : j < k := holder j (by simp)
  have hrest : ∀ v ∈ rest, v < k := fun v hv => holder v (by simp [hv])
  constructor
  case alphabet => rw [halpha', halpha]
  case alphabet_le => omega
  case next => omega
  case count =>
    rw [hleft, hright]
    exact hcount.merge hnk (by omega) hik hjk
  case older =>
    intro v hv
    rw [hafter, Multiset.mem_cons] at hv
    rcases hv with rfl | hv
    · omega
    · exact (hrest v hv).trans (Nat.lt_succ_self k)
  case leaves =>
    have hsame : rest.map (Function.update f k (f i + f j)) = rest.map f :=
      Multiset.map_congr rfl fun v hv => Function.update_of_ne (hrest v hv).ne _ _
    rw [hafter, Multiset.map_cons, Multiset.sum_cons, Function.update_self, hsame, ← hleaves]
    simp only [Multiset.map_cons, Multiset.sum_cons, Nat.add_assoc]
  case order =>
    rw [hafter, horder', Multiset.filter_cons_of_neg _ (by omega), coe_recordLeaf_add, coe_recordLeaf_add, horder]

/-- The tree that the merge loop leaves (R220): its root has all used symbols for leaves, and sortorder lists them. -/
structure TreeBuilt (n : Nat) (used : List Nat) (f : Nat → Nat) (h : Huff) (root : Nat) : Prop where
  alphabet : h.n = n
  internal : n ≤ root
  count : LeafCount n (root + 1) h.left h.right f
  leaves : f root = used.length
  order : h.sortorder.Perm used

/-- When one node is left in the heap, it is the tree's root, which was made last. -/
theorem MergeInv.treeBuilt {n k : Nat} {used : List Nat} {f : Nat → Nat} {h : Huff} (hi : MergeInv n (k + 1) used f h)
    (hn : n ≤ k) (hnodes : heapNodes h.heap h.heapsize = {k}) : TreeBuilt n used f h k := by
  obtain ⟨halpha, -, -, hcount, -, hleaves, horder⟩ := hi
  rw [hnodes, Multiset.map_singleton, Multiset.sum_singleton] at hleaves
  rw [hnodes, Multiset.filter_singleton, if_neg (by omega), Multiset.empty_eq_zero, add_zero] at horder
  exact ⟨halpha, hn, hcount, hleaves, Multiset.coe_eq_coe.mp horder⟩

theorem treeBuilt_mergeLoop {a n : Nat} {used : List Nat} (hn : n ≤ 510) (hused : used.length ≤ n) (fuel : Nat) {k : Nat}
    {f : Nat → Nat} {h : Huff} (freq : Arr a Half) (hi : MergeInv n k used f h) (h2 : 2 ≤ h.heapsize) (hfuel : h.heapsize ≤ fuel + 1) :
    ∃ f, TreeBuilt n used f (mergeLoop n fuel k h freq).1 (mergeLoop n fuel k h freq).2.2 := by
  induction fuel generalizing k f h freq with
  | zero => omega
  | succ fuel ih =>
    have hle : h.heapsize ≤ 510 := by
      have hnk := hi.alphabet_le
      have hnext := hi.next
      omega
    obtain ⟨freq', hloop⟩ := mergeLoop_succ n fuel k h freq
    obtain ⟨i, j, rest, hm⟩ := merges_mergeTurn n k freq h2 hle
    have hi' := hi.merges hm h2 hn hused
    have hsize := hm.heapsize
    rw [hloop]
    split_ifs with hlast
    · have hcard := card_heapNodes (mergeTurn n k h freq).heap (mergeTurn n k h freq).heapsize
      rw [hm.after, Multiset.card_cons] at hcard
      obtain rfl : rest = 0 := Multiset.card_eq_zero.mp (by omega)
      exact ⟨_, hi'.treeBuilt hi.alphabet_le hm.after⟩
    · exact ih freq' hi' (by omega) (by omega)

/-! ## MakeTree -/

theorem mem_usedSyms {a n σ : Nat} {freq : Arr a Half} : σ ∈ usedSyms n freq ↔ σ < n ∧ freqAt freq σ ≠ 0 := by
  simp [usedSyms]

theorem nodup_usedSyms {a : Nat} (n : Nat) (freq : Arr a Half) : (usedSyms n freq).Nodup :=
  List.nodup_range.filter _

theorem length_usedSyms_le {a : Nat} (n : Nat) (freq : Arr a Half) : (usedSyms n freq).length ≤ n :=
  (List.length_filter_le _ _).trans List.length_range.le

/-- The heap with the used symbols in it (R220). -/
def symbolHeap {a : Nat} (n : Nat) (freq : Arr a Half) (h : Huff) : Heap := heapFill (usedSyms n freq) 1 (heapSet h.heap 1 0)

/-- The scratch when the merge loop begins (R220). -/
def mergeStart {a : Nat} (n : Nat) (freq : Arr a Half) (h : Huff) : Huff :=
  { h with
    n := n, heapsize := (usedSyms n freq).length, sortorder := []
    heap := heapify freq (usedSyms n freq).length ((usedSyms n freq).length / 2) (symbolHeap n freq h) }

theorem makeTree_degenerate {a b n : Nat} {freq : Arr a Half} (len : Arr b Nat) (code : Arr b Half) (h : Huff)
    (hused : (usedSyms n freq).length < 2) : makeTree n freq len code h =
      { root := heapAt (symbolHeap n freq h) 1
        freq := freq
        len := arrClearBelow n len
        code := arrSet (zeroBits 16) code (heapAt (symbolHeap n freq h) 1) 0#16
        huff := { h with n := n, heap := symbolHeap n freq h, heapsize := (usedSyms n freq).length, sortorder := [] } } :=
  if_pos hused

/-- A tree of fewer than two used symbols has the used one for its root, or symbol 0 (R223). -/
theorem heapAt_symbolHeap {a n : Nat} {freq : Arr a Half} (h : Huff) (hused : (usedSyms n freq).length < 2) :
    heapAt (symbolHeap n freq h) 1 = (usedSyms n freq).headD 0 := by
  rw [symbolHeap]
  cases hlist : usedSyms n freq with
  | nil => exact heapAt_set_same _ _ le_rfl (by decide)
  | cons σ rest =>
    rw [hlist, List.length_cons] at hused
    obtain rfl : rest = [] := List.length_eq_zero_iff.mp (by omega)
    exact heapAt_set_same _ _ le_rfl (by decide)

theorem mergeInv_mergeStart {a n : Nat} (freq : Arr a Half) (h : Huff) (hn : n ≤ 510) :
    MergeInv n n (usedSyms n freq) (fun _ => 1) (mergeStart n freq h) := by
  have hle := length_usedSyms_le n freq
  have hnodes : heapNodes (mergeStart n freq h).heap (mergeStart n freq h).heapsize = usedSyms n freq := by
    have hfill := heapNodes_heapFill (usedSyms n freq) (heapSet h.heap 1 0) (m := 0) (by omega)
    rw [Nat.zero_add, Nat.zero_add] at hfill
    exact (heapNodes_heapify freq _ (Nat.div_le_self _ 2) (by omega)).trans (hfill.trans (zero_add _))
  have hlt : ∀ v ∈ usedSyms n freq, v < n := fun v hv => (mem_usedSyms.mp hv).1
  constructor
  case alphabet => rfl
  case alphabet_le => exact le_rfl
  case next => rfl
  case count => exact ⟨fun _ _ => rfl, fun v _ _ => by omega, fun v _ _ => by omega, fun v _ _ => by omega⟩
  case older => simpa [hnodes] using hlt
  case leaves => simp [hnodes]
  case order =>
    rw [hnodes, Multiset.filter_eq_self.mpr (by simpa using hlt)]
    exact zero_add _

/-- With two used symbols MakeTree's lengths are those that MakeLen gives a tree of the used symbols (R220). -/
theorem makeTree_regular {a b n : Nat} {freq : Arr a Half} (len : Arr b Nat) (code : Arr b Half) (h : Huff) (hn : n ≤ 510)
    (hused : ¬ (usedSyms n freq).length < 2) : ∃ f h' root, TreeBuilt n (usedSyms n freq) f h' root ∧
    (makeTree n freq len code h).len = (makeLen h' root (arrClearBelow n len)).2 := by
  obtain ⟨f, htree⟩ := treeBuilt_mergeLoop hn (length_usedSyms_le n freq) (usedSyms n freq).length freq
    (mergeInv_mergeStart freq h hn) (Nat.le_of_not_lt hused) (Nat.le_succ _)
  exact ⟨f, _, _, htree, congrArg TreeOut.len (if_neg hused)⟩

/-! ## The degenerate tree -/

theorem usedSyms_eq_singleton {a n σ : Nat} {freq : Arr a Half} (hused : (usedSyms n freq).length < 2) (hσ : σ ∈ usedSyms n freq) :
    usedSyms n freq = [σ] := by
  have hpos := List.length_pos_of_mem hσ
  obtain ⟨τ, hτ⟩ := List.length_eq_one_iff.mp (by omega : (usedSyms n freq).length = 1)
  rw [hτ, List.mem_singleton] at hσ
  rw [hτ, hσ]

theorem headD_usedSyms_lt {a n : Nat} (freq : Arr a Half) (hn : 1 ≤ n) : (usedSyms n freq).headD 0 < n := by
  cases hlist : usedSyms n freq with
  | nil => exact hn
  | cons σ rest => exact (mem_usedSyms.mp (hlist ▸ List.mem_cons_self)).1

theorem length_usedSyms_lt_two {a n : Nat} {freq : Arr a Half}
    (hone : ∀ i j, i < n → j < n → freqAt freq i ≠ 0 → freqAt freq j ≠ 0 → i = j) : (usedSyms n freq).length < 2 := by
  rcases hlist : usedSyms n freq with _ | ⟨σ, _ | ⟨τ, rest⟩⟩
  · decide
  · exact Nat.one_lt_two
  · have hnodup := nodup_usedSyms n freq
    obtain ⟨hσ, hσf⟩ := mem_usedSyms.mp (hlist ▸ List.mem_cons_self : σ ∈ usedSyms n freq)
    obtain ⟨hτ, hτf⟩ := mem_usedSyms.mp (hlist ▸ List.mem_cons_of_mem _ List.mem_cons_self : τ ∈ usedSyms n freq)
    rw [hlist, hone σ τ hσ hτ hσf hτf] at hnodup
    exact absurd List.mem_cons_self (List.nodup_cons.mp hnodup).1

/-- Settles O30: the heap's first slot holds the only used symbol, or the 0 that MakeTree puts there first. -/
theorem degenerateTree : Obligations.DegenerateTree := by
  intro a b n freq len code h hone
  have hused := length_usedSyms_lt_two hone
  rw [makeTree_degenerate len code h hused, heapAt_symbolHeap h hused]
  refine ⟨fun i hi => ?_, fun i hi hf => ?_, fun hnone => ?_, ?_⟩
  · rw [arrGet_clearBelow, if_pos hi]
    rfl
  · rw [usedSyms_eq_singleton hused (mem_usedSyms.mpr ⟨hi, hf⟩)]
    rfl
  · have hempty : usedSyms n freq = [] := List.eq_nil_iff_forall_not_mem.mpr fun σ hσ =>
      (mem_usedSyms.mp hσ).2 (hnone σ (mem_usedSyms.mp hσ).1)
    rw [hempty]
    rfl
  · rcases Nat.lt_or_ge ((usedSyms n freq).headD 0) b with hb | hb
    · exact arrGet_set_same _ _ _ hb
    · exact arrGet_of_le _ _ hb

/-! ## The regular tree -/

/-- MakeLen hands the used symbols, one each, the lengths of a complete code (R226). -/
theorem TreeBuilt.makeLen_complete {b n root : Nat} {used : List Nat} {f : Nat → Nat} {h : Huff} (htree : TreeBuilt n used f h root)
    (len : Arr b Nat) (hfew : used.length < 2 ^ 16) (hnodup : used.Nodup) (hlt : ∀ σ ∈ used, σ < b) :
    (∀ σ ∈ used, 1 ≤ arrGet zeroNat (makeLen h root len).2 σ ∧ arrGet zeroNat (makeLen h root len).2 σ ≤ 16) ∧
    kraftSum (used.map (arrGet zeroNat (makeLen h root len).2)) = 2 ^ 16 ∧
    ∀ σ, σ ∉ used → arrGet zeroNat (makeLen h root len).2 σ = arrGet zeroNat len σ := by
  obtain ⟨rfl, hinternal, hcount, hleaves, horder⟩ := htree
  have hmem : ∀ σ, σ ∈ used ↔ σ ∈ h.sortorder := fun σ => horder.mem_iff.symm
  rw [← horder.length_eq] at hleaves hfew
  obtain ⟨hbounds, hkraft, hother⟩ := makeLen_complete_of_leafCount len hcount hinternal hleaves hfew
    (horder.nodup_iff.mpr hnodup) fun σ hσ => hlt σ ((hmem σ).mpr hσ)
  simp only [hmem]
  refine ⟨hbounds, hkraft ▸ ?_, hother⟩
  exact ((horder.symm.map _).map kraftTerm).sum_eq

/-- The symbols that a list leaves out take nothing of the Kraft sum when their lengths are 0. -/
theorem kraftSum_map_filter {g : Nat → Nat} {p : Nat → Bool} {l : List Nat} (h : ∀ σ ∈ l, p σ = false → g σ = 0) :
    kraftSum (l.map g) = kraftSum ((l.filter p).map g) := by
  induction l with
  | nil => rfl
  | cons σ l ih =>
    obtain ⟨hσ, hl⟩ := List.forall_mem_cons.mp h
    rw [kraftSum, List.map_cons, List.map_cons, List.sum_cons, ← kraftSum, ih hl]
    cases hp : p σ with
    | false => rw [hσ hp, kraftTerm, if_pos rfl, Nat.zero_add, List.filter_cons_of_neg (by rw [hp]; decide)]
    | true =>
      rw [List.filter_cons_of_pos hp]
      rfl

/-- Settles O31: the merge loop builds a tree whose leaves are the used symbols, and MakeLen hands these, one each, the lengths of a complete
code that it makes of the leaves' depths. -/
theorem builtLengthsAreComplete : Obligations.BuiltLengthsAreComplete := by
  intro a b n freq len code h hn1 hn _ hb hroot
  have hused : ¬ (usedSyms n freq).length < 2 := by
    intro hused
    rw [makeTree_degenerate len code h hused, heapAt_symbolHeap h hused] at hroot
    exact absurd hroot (Nat.not_le_of_lt (headD_usedSyms_lt freq hn1))
  have hle := length_usedSyms_le n freq
  obtain ⟨f, h', root, htree, hlen⟩ := makeTree_regular len code h hn hused
  obtain ⟨hbounds, hkraft, hother⟩ := htree.makeLen_complete (arrClearBelow n len) (by omega) (nodup_usedSyms n freq)
    fun σ hσ => (mem_usedSyms.mp hσ).1.trans_le hb
  rw [← hlen] at hbounds hkraft hother
  have hzero : ∀ σ, σ < n → freqAt freq σ = 0 → arrGet zeroNat (makeTree n freq len code h).len σ = 0 := by
    intro σ hσ hf
    rw [hother σ fun hmem => (mem_usedSyms.mp hmem).2 hf, arrGet_clearBelow, if_pos hσ]
    rfl
  constructor
  · intro σ hσ
    split_ifs with hf
    · exact hzero σ hσ hf
    · exact hbounds σ (mem_usedSyms.mpr ⟨hσ, hf⟩)
  · rw [kraftSum_map_filter (p := fun i => freqAt freq i != 0) fun σ hσ hp =>
      hzero σ (List.mem_range.mp hσ) (by simpa using hp)]
    exact hkraft

end Sys2Proof.Machine
end

section
/-!
PROOFS. MakeCode of 42_huffman_builder.md. Its table of first codes is R233's modulo 2^16, and the loop over the symbols keeps in it, for each length,
the code that comes next. In a complete table all codes of used lengths lie below 2^16, so that nothing is lost.
-/

namespace Sys2Proof.Machine

/-! ## The first codes -/

/-- MakeCode's first code of a length is R233's, modulo 2^16 (R229). -/
theorem startCode_eq_firstCode {lencnt : Lencnt} {dense : List Nat}
    (hcnt : ∀ l, 1 ≤ l → l ≤ 16 → lencntAt lencnt l = dense.count l) {l : Nat} (h1 : 1 ≤ l) (h17 : l ≤ 17) :
    startCode lencnt l = firstCode dense l % 2 ^ 16 := by
  obtain ⟨l, rfl⟩ := Nat.exists_eq_add_of_le' h1
  induction l with
  | zero => rfl
  | succ l ih =>
    rw [startCode, ih (by omega) (by omega), hcnt (l + 1) (by omega) (by omega), firstCode, lenCount]
    omega

/-- The table of first codes filled for the lengths up to `m`, the rest of it unwritten. -/
theorem arrGet_startTable_upTo (lencnt : Lencnt) (m : Nat) {l : Nat} (h1 : 1 ≤ l) (hm : l ≤ m) (h17 : l ≤ 17) :
    arrGet zeroNat ((List.range m).foldl (fun t i => arrSet zeroNat t (i + 1) (startCode lencnt (i + 1))) ([] : StartTable)) l
      = startCode lencnt l := by
  induction m with
  | zero => omega
  | succ m ih =>
    rw [List.range_succ, List.foldl_append, List.foldl_cons, List.foldl_nil, arrGet_set]
    split_ifs with h
    · rw [h.1]
    · exact ih (by have : m + 1 < 18 → l ≠ m + 1 := fun hlt he => h ⟨he, hlt⟩; omega)

theorem arrGet_startTable (lencnt : Lencnt) {l : Nat} (h1 : 1 ≤ l) (h17 : l ≤ 17) :
    arrGet zeroNat (startTable lencnt) l = startCode lencnt l := arrGet_startTable_upTo lencnt 17 h1 h17 h17

/-! ## MakeCode's loop -/

theorem codeLoop_of_unused {b s : Nat} {len : Arr b Nat} (h : arrGet zeroNat len s = 0) (m : Nat) (start : StartTable)
    (code : Arr b Half) :
    codeLoop len (m + 1) s start code = codeLoop len m (s + 1) start (arrSet (zeroBits 16) code s 0#16) :=
  if_neg (not_not_intro h)

theorem codeLoop_of_used {b s : Nat} {len : Arr b Nat} (h : arrGet zeroNat len s ≠ 0) (m : Nat) (start : StartTable)
    (code : Arr b Half) : codeLoop len (m + 1) s start code
      = codeLoop len m (s + 1) (arrSet zeroNat start (arrGet zeroNat len s) (arrGet zeroNat start (arrGet zeroNat len s) + 1))
          (arrSet (zeroBits 16) code s (BitVec.ofNat 16 (arrGet zeroNat start (arrGet zeroNat len s)))) :=
  if_pos h

/-- The loop leaves the codes of the symbols before `s` alone. -/
theorem arrGet_codeLoop_below {b : Nat} (len : Arr b Nat) (m : Nat) {s σ : Nat} (start : StartTable) (code : Arr b Half) (hσ : σ < s) :
    arrGet (zeroBits 16) (codeLoop len m s start code) σ = arrGet (zeroBits 16) code σ := by
  induction m generalizing s start code with
  | zero => rfl
  | succ m ih =>
    by_cases h0 : arrGet zeroNat len s = 0
    · rw [codeLoop_of_unused h0, ih _ _ (by omega), arrGet_set_other _ _ _ (by omega)]
    · rw [codeLoop_of_used h0, ih _ _ (by omega), arrGet_set_other _ _ _ (by omega)]

/-- `start` holds for each length the code that follows those of the symbols before `s`, the first being `first` (R229). -/
def NextCodes {b : Nat} (first : Nat → Nat) (len : Arr b Nat) (s : Nat) (start : StartTable) : Prop :=
  ∀ l, 1 ≤ l → l ≤ 16 → arrGet zeroNat start l = first l + ((List.range s).map (arrGet zeroNat len)).count l

theorem count_map_range_succ (g : Nat → Nat) (s l : Nat) :
    ((List.range (s + 1)).map g).count l = ((List.range s).map g).count l + if g s = l then 1 else 0 := by
  rw [List.range_succ, List.map_append, List.count_append, List.map_singleton, List.count_singleton]
  simp only [beq_iff_eq]

/-- A symbol of a length takes that length's code. -/
theorem NextCodes.take {b s : Nat} {first : Nat → Nat} {len : Arr b Nat} {start : StartTable} (h : NextCodes first len s start) :
    NextCodes first len (s + 1)
      (arrSet zeroNat start (arrGet zeroNat len s) (arrGet zeroNat start (arrGet zeroNat len s) + 1)) := by
  intro l h1 h16
  rw [count_map_range_succ, arrGet_set]
  by_cases hl : arrGet zeroNat len s = l
  · rw [hl, if_pos ⟨rfl, (by omega : l < 18)⟩, if_pos rfl, h l h1 h16, Nat.add_assoc]
  · rw [if_neg fun hs => hl hs.1.symm, if_neg hl, h l h1 h16, Nat.add_zero]

/-- A symbol of length 0 takes no code. -/
theorem NextCodes.skip {b s : Nat} {first : Nat → Nat} {len : Arr b Nat} {start : StartTable} (h : NextCodes first len s start)
    (hs : arrGet zeroNat len s = 0) : NextCodes first len (s + 1) start := by
  intro l h1 h16
  rw [count_map_range_succ, hs, if_neg (by omega), h l h1 h16, Nat.add_zero]

/-- The loop gives a symbol the code that follows those of the symbols of its length before it; without a length it gets 0 (R229). -/
theorem arrGet_codeLoop {b : Nat} {first : Nat → Nat} {len : Arr b Nat} {m s σ : Nat} {start : StartTable} (code : Arr b Half)
    (h : NextCodes first len s start) (hs : s ≤ σ) (hσ : σ < s + m) (hb : σ < b) (hlen : arrGet zeroNat len σ ≤ 16) :
    arrGet (zeroBits 16) (codeLoop len m s start code) σ = if arrGet zeroNat len σ = 0 then 0#16
      else BitVec.ofNat 16 (first (arrGet zeroNat len σ)
        + ((List.range σ).map (arrGet zeroNat len)).count (arrGet zeroNat len σ)) := by
  induction m generalizing s start code with
  | zero => omega
  | succ m ih =>
    by_cases h0 : arrGet zeroNat len s = 0
    · rw [codeLoop_of_unused h0]
      rcases Nat.eq_or_lt_of_le hs with rfl | hlt
      · rw [if_pos h0, arrGet_codeLoop_below len m _ _ (Nat.lt_succ_self s), arrGet_set_same _ _ _ hb]
      · exact ih _ (h.skip h0) hlt (by omega)
    · rw [codeLoop_of_used h0]
      rcases Nat.eq_or_lt_of_le hs with rfl | hlt
      · rw [if_neg h0, arrGet_codeLoop_below len m _ _ (Nat.lt_succ_self s), arrGet_set_same _ _ _ hb,
          h _ (Nat.one_le_iff_ne_zero.mpr h0) hlen]
      · exact ih _ h.take hlt (by omega)

/-- MakeCode before the truncation to a code's cell: first code plus rank (R229). -/
theorem arrGet_makeCode {b n σ : Nat} {len : Arr b Nat} (lencnt : Lencnt) (code : Arr b Half) (hσ : σ < n) (hb : σ < b)
    (hlen : arrGet zeroNat len σ ≤ 16) :
    arrGet (zeroBits 16) (makeCode n lencnt len code) σ = if arrGet zeroNat len σ = 0 then 0#16
      else BitVec.ofNat 16 (startCode lencnt (arrGet zeroNat len σ)
        + ((List.range σ).map (arrGet zeroNat len)).count (arrGet zeroNat len σ)) :=
  arrGet_codeLoop code (fun l h1 h16 => arrGet_startTable lencnt h1 (by omega)) (Nat.zero_le σ) (by omega) hb hlen

/-! ## The codes fit -/

/-- In a complete table the codes of every length end by 2^16 (R233, R312). -/
theorem codesEnd_le {len : List Nat} (hk : kraftComplete len = true) (hb : lensBounded len) {l : Nat} (h1 : 1 ≤ l) (h16 : l ≤ 16) :
    codesEnd len l ≤ 2 ^ 16 := by
  have hend := codesEnd_of_kraftComplete hk hb
  rcases Nat.eq_or_lt_of_le h16 with rfl | hlt
  · exact hend.le
  · obtain ⟨d, hd⟩ := Nat.exists_eq_add_of_lt hlt
    calc codesEnd len l ≤ codesEnd len l * 2 ^ (d + 1) := Nat.le_mul_of_pos_right _ (Nat.two_pow_pos _)
      _ ≤ firstCode len 16 := hd ▸ codesEnd_mul_le_firstCode len h1 d
      _ ≤ codesEnd len 16 := Nat.le_add_right _ _
      _ = 2 ^ 16 := hend

/-- Settles O33: a symbol gets its length's first code and, beyond it, the number of symbols before it of that length; in a complete code that
number fits the code's 16 bits. -/
theorem makeCodeIsCanonical : Obligations.MakeCodeIsCanonical := by
  intro b n lencnt len code dense hdense hbounded hk hcnt σ hσ
  have hlen : dense[σ]? = some (arrGet zeroNat len σ) := by
    rw [hdense, List.getElem?_map, List.getElem?_range hσ, Option.map_some]
  rcases Nat.lt_or_ge σ b with hb | hb
  case inr =>
    rw [arrGet_of_le _ _ hb, arrGet_of_le _ len hb]
    rfl
  have h16 : arrGet zeroNat len σ ≤ 16 := hbounded _ (List.mem_of_getElem? hlen)
  rw [arrGet_makeCode lencnt code hσ hb h16]
  split_ifs with h0
  · rfl
  · have hfits := (canonCode_lt_codesEnd hlen).trans_le (codesEnd_le hk hbounded (Nat.one_le_iff_ne_zero.mpr h0) h16)
    have hrank : (List.range σ).map (arrGet zeroNat len) = dense.take σ := by
      rw [hdense, ← List.map_take, List.take_range, Nat.min_eq_left hσ.le]
    rw [BitVec.toNat_ofNat, startCode_eq_firstCode hcnt (by omega) (by omega), hrank, Nat.mod_add_mod, ← canonCode_of_length hlen,
      Nat.mod_eq_of_lt hfits]

end Sys2Proof.Machine
end

section
/-!
PROOFS. The token buffer of 43_block_encoder.md: Output stores a token in room that its invariant guarantees, and no other step of the machine touches
the buffer while COMPRESS runs. A turn of the decoder never leads into COMPRESS, so that the invariant is due only where COMPRESS starts or goes on.
-/

namespace Sys2Proof.Machine

/-! ## The invariant and Output -/

theorem TokenInv.outputpos_le {e : Enc} (h : TokenInv e) : e.outputpos ≤ 16384 := by
  simp only [TokenInv, Config.bufSize, Config.flushMargin] at h
  rcases h with ⟨-, hpos⟩ | ⟨k, hk, -, hpos⟩ <;> omega

/-- The invariant speaks of the mask and the cursor alone. -/
theorem TokenInv.congr {e f : Enc} (h : TokenInv e) (hm : f.outputmask = e.outputmask) (hp : f.outputpos = e.outputpos) :
    TokenInv f := by
  rwa [TokenInv, hm, hp]

/-- Token number `k` of a group, stored behind at most five bytes for each of the `k` before it. -/
theorem storeToken_tokenInv (c p : Nat) {e : Enc} {k : Nat} (hk : k < 8) (hm : e.outputmask = 0x80#8 >>> k)
    (hpos : e.outputpos ≤ Config.bufSize - Config.flushMargin + 5 * k) : TokenInv (storeToken c p e) := by
  obtain ⟨hpos', hmask'⟩ := storeToken_outputpos c p e
  refine .inr ⟨k, hk, hmask'.trans hm, ?_⟩
  split_ifs at hpos' <;> omega

/-- The first token of a group stands behind its flag byte. -/
theorem firstToken_tokenInv (c p : Nat) {e : Enc} (hm : e.outputmask = 0x80#8)
    (hpos : e.outputpos < Config.bufSize - Config.flushMargin) : TokenInv (storeToken c p (openGroup e)) := by
  have hopen : (openGroup e).outputpos = e.outputpos + 1 := rfl
  exact storeToken_tokenInv c p (k := 0) (by decide) hm (by omega)

/-- The mask moves on inside its group exactly when the token before was not number 7 (R257). -/
theorem TokenInv.next_in_group {e : Enc} (h : TokenInv e) (hm : e.outputmask >>> 1 ≠ 0#8) :
    ∃ k, k < 8 ∧ e.outputmask >>> 1 = 0x80#8 >>> k ∧ e.outputpos ≤ Config.bufSize - Config.flushMargin + 5 * k := by
  rcases h with ⟨hzero, -⟩ | ⟨k, hk, hmask, hpos⟩
  · rw [hzero] at hm
    exact absurd rfl hm
  · have hnext : e.outputmask >>> 1 = 0x80#8 >>> (k + 1) := by rw [hmask, BitVec.shiftRight_add]
    have hlast : k ≠ 7 := by
      rintro rfl
      rw [hnext] at hm
      exact hm (by decide)
    exact ⟨k + 1, by omega, hnext, hpos⟩

theorem sendBlock_outputmask (s : State) : (sendBlock s).enc.outputmask = s.enc.outputmask := by
  obtain ⟨-, -, -, -, -, hmask, -⟩ := sendBlock_spec s
  exact hmask

/-- Output keeps the invariant: inside a group, as the first token of one, and after the block has been sent. -/
theorem output_tokenInv (c p : Nat) {s : State} (h : TokenInv s.enc) : TokenInv (output c p s).enc := by
  rcases output_cases c p s with ⟨hm, e⟩ | ⟨-, hroom, e⟩ | ⟨-, -, u, hu, e⟩ <;> rw [e]
  · obtain ⟨k, hk, hmask, hpos⟩ := h.next_in_group hm
    exact storeToken_tokenInv c p hk hmask hpos
  · exact firstToken_tokenInv c p rfl hroom
  · have hmask : u.enc.outputmask = 0x80#8 := by rw [hu, sendBlock_outputmask]
    exact firstToken_tokenInv c p (e := { u.enc with outputpos := 0 }) hmask (show 0 < 16344 by decide)

/-! ## The steps of COMPRESS -/

theorem matchLoopStart_tokenInv {s t : State} (h : matchLoopStart s = some t) (hi : TokenInv s.enc) : TokenInv t.enc := by
  obtain ⟨f, -, rfl⟩ := Option.map_eq_some_iff.mp h
  exact hi.congr rfl rfl

theorem getNextMatches_tokenInv {k : Nat} {s t : State} (h : getNextMatches k s = some t) (hi : TokenInv s.enc) : TokenInv t.enc := by
  rw [getNextMatches_spec h]
  exact hi.congr rfl rfl

theorem matchLoopTurn_tokenInv {s t : State} (h : matchLoopTurn s = some t) (hi : TokenInv s.enc) : TokenInv t.enc := by
  obtain ⟨u, hu, c, p, ht⟩ := matchLoopTurn_cases h
  have hcap : TokenInv (capMatch u).enc := by
    have hnext : TokenInv u.enc := by
      rw [getNextMatch_spec hu]
      exact hi.congr rfl rfl
    exact hnext.congr rfl rfl
  have hout := output_tokenInv c p hcap
  rcases ht with rfl | ⟨k, v, hv, rfl⟩
  · exact hout
  · exact (getNextMatches_tokenInv hv hout).congr rfl rfl

theorem engineTurn_compress_tokensInv {s t : State} (hc : compressing s.phase = true) (h : engineTurn s = .next t)
    (hi : TokenInv s.enc) : TokensInv t := by
  intro hct
  cases hp : s.phase with
  | encFirst =>
    obtain ⟨u, hu, rfl⟩ := engineTurn_encFirst hp h
    have hu' : TokenInv u.enc := matchLoopStart_tokenInv hu hi
    exact hu'
  | encLoop =>
    rcases engineTurn_encLoop hp h with ⟨-, rfl⟩ | ⟨-, ht⟩
    · exact hi
    · exact matchLoopTurn_tokenInv ht hi
  | encEnd =>
    obtain ⟨-, ht⟩ := engineTurn_encEnd hp h
    rw [ht, finishCompress_phase] at hct
    cases hct
  | idle | header | sym | count | ptLen | cLen | pos | copy =>
    rw [hp] at hc
    cases hc

/-! ## The decoder does not lead into COMPRESS -/

theorem storeTable_not_compressing (T : Table) (s : State) : compressing (storeTable T s).phase = false := by
  rcases storeTable_cases T s with ⟨-, e⟩ | ⟨-, e⟩ | ⟨-, e⟩ <;> rw [e] <;> rfl

theorem listTurn_not_compressing {s : State} (h : compressing s.phase = false) : compressing (listTurn s).phase = false := by
  unfold listTurn buildTable
  split_ifs
  · exact h
  · exact storeTable_not_compressing _ s
  · rfl

theorem afterSymbol_not_compressing (s : State) : compressing (afterSymbol s).phase = false := by
  rcases afterSymbol_cases s with ⟨-, e⟩ | ⟨-, e⟩ <;> rw [e] <;> rfl

theorem readCount_not_compressing (s : State) : compressing (readCount s).phase = false := by
  rcases readCount_cases s with ⟨n, e⟩ | ⟨σ, n, -, e⟩ | ⟨c, n, -, -, e⟩ <;> rw [e]
  · rfl
  · exact storeTable_not_compressing _ _
  · dsimp only
    split_ifs <;> rfl

theorem exec_streamHeader_not_compressing {l o : Word32} {s t : State} (h : exec (.streamHeader l o) s = .next t) :
    compressing t.phase = false := by
  obtain ⟨u, -, rfl | ⟨-, -, ⟨-, rfl⟩ | ⟨-, rfl⟩⟩⟩ := exec_streamHeader_next h <;> rfl

theorem exec_block_not_compressing {z : Half} {s t : State} (h : exec (.block z) s = .next t) : compressing t.phase = false := by
  rcases exec_block_next h with ⟨-, rfl⟩ | ⟨-, rfl⟩ <;> rfl

theorem exec_lit_not_compressing {b : Byte} {s t : State} (h : exec (.lit b) s = .next t) : compressing t.phase = false := by
  obtain ⟨-, rfl⟩ := exec_lit_next h
  exact afterSymbol_not_compressing _

theorem exec_matchCopy_not_compressing {m : BitVec 9} {s t : State} (h : exec (.matchCopy m) s = .next t) :
    compressing t.phase = false := by
  rcases exec_matchCopy_next h with ⟨-, rfl⟩ | ⟨-, u, -, rfl⟩
  · rfl
  · exact afterSymbol_not_compressing u

theorem exec_lencode_not_compressing {k : BitVec 5} {s t : State} (hp : compressing s.phase = false)
    (h : exec (.lencode k) s = .next t) : compressing t.phase = false := by
  rcases exec_lencode_next h with ⟨-, rfl⟩ | ⟨-, rfl⟩
  · rfl
  · refine listTurn_not_compressing ?_
    rwa [(skipField_worksOn _).phase]

theorem exec_tsym_not_compressing {i : Instr} (hi : IsTSymbol i) {s t : State} (hp : compressing s.phase = false)
    (h : exec i s = .next t) : compressing t.phase = false := by
  rcases exec_tsym_next hi h with ⟨z, rfl⟩ | ⟨k, -, -, rfl⟩ <;> exact listTurn_not_compressing hp

theorem engineTurn_sym_not_compressing {s t : State} (hp : s.phase = .sym) (h : engineTurn s = .next t) :
    compressing t.phase = false := by
  by_cases hb : s.dec.blocksize = 0#16
  · obtain ⟨size, e⟩ := engineTurn_block hp hb
    exact exec_block_not_compressing (e ▸ h)
  · cases hd : decodeSymbol Config.NC s.dec.cTab (takeOfBlock s) with
    | none =>
      rw [engineTurn_sym_none hp hb hd] at h
      cases h
    | some x =>
      rcases engineTurn_sym hp hb hd with ⟨b, e⟩ | ⟨m, -, e⟩
      · exact exec_lit_not_compressing (e ▸ h)
      · obtain rfl := Host.Outcome.next.inj (e.symm.trans h)
        rfl

theorem engineTurn_cLen_not_compressing {s t : State} (hp : s.phase = .cLen) (h : engineTurn s = .next t) :
    compressing t.phase = false := by
  cases hd : decodeSymbol Config.NT s.dec.tTab s with
  | none =>
    rw [engineTurn_cLen_none hp hd] at h
    cases h
  | some x =>
    obtain ⟨τ, u⟩ := x
    obtain ⟨-, m, rfl⟩ := decodeSymbol_some hd
    obtain ⟨i, n, hi, e⟩ := engineTurn_cLen hp hd
    refine exec_tsym_not_compressing (s := skipBits n (skipBits m s)) hi ?_ (e ▸ h)
    rw [skipBits_phase, skipBits_phase, hp]
    rfl

theorem engineTurn_pos_not_compressing {s t : State} (hp : s.phase = .pos) (h : engineTurn s = .next t) :
    compressing t.phase = false := by
  cases hd : decodeSymbol Config.NPD s.dec.pTab s with
  | none =>
    rw [engineTurn_pos_none hp hd] at h
    cases h
  | some x =>
    obtain ⟨p, y, n, e⟩ := engineTurn_pos hp hd
    obtain rfl := Host.Outcome.next.inj (e.symm.trans h)
    rfl

/-- Outside COMPRESS no turn of the engine leads into it. -/
theorem engineTurn_not_compressing {s t : State} (hc : compressing s.phase = false) (h : engineTurn s = .next t) :
    compressing t.phase = false := by
  cases hp : s.phase with
  | encFirst | encLoop | encEnd =>
    rw [hp] at hc
    cases hc
  | idle =>
    simp only [engineTurn, hp] at h
    rwa [← Host.Outcome.next.inj h]
  | header =>
    obtain ⟨l, o, e⟩ := engineTurn_header hp
    exact exec_streamHeader_not_compressing (e ▸ h)
  | sym => exact engineTurn_sym_not_compressing hp h
  | count =>
    obtain rfl := Host.Outcome.next.inj ((engineTurn_count hp).symm.trans h)
    exact readCount_not_compressing s
  | ptLen =>
    obtain ⟨k, n, -, e⟩ := engineTurn_ptLen hp
    exact exec_lencode_not_compressing (s := skipBits n s) hc (e ▸ h)
  | cLen => exact engineTurn_cLen_not_compressing hp h
  | pos => exact engineTurn_pos_not_compressing hp h
  | copy => exact exec_matchCopy_not_compressing (engineTurn_copy hp ▸ h)

/-! ## Every step -/

theorem tokensInv_of_not_compressing {s : State} (h : compressing s.phase = false) : TokensInv s := by
  intro hc
  rw [h] at hc
  cases hc

theorem engineStep_tokensInv {s t : State} (hi : TokensInv s) (h : engineStep s = .next t) : TokensInv t := by
  rcases engineStep_cases h with ⟨-, rfl⟩ | ⟨-, -, ht⟩
  · exact hi
  · cases hc : compressing s.phase with
    | true => exact engineTurn_compress_tokensInv hc ht (hi hc)
    | false => exact tokensInv_of_not_compressing (engineTurn_not_compressing hc ht)

/-- COMPRESS starts with an empty token buffer (R255). -/
theorem startCompress_tokensInv (s : State) : TokensInv (startCompress s) := by
  intro _
  rw [startCompress_rest]
  exact .inl ⟨rfl, rfl⟩

theorem exec_decodeCmd_tokensInv {w : Word32} {s t : State} (hi : TokensInv s) (h : exec (decodeCmd w) s = .next t) :
    TokensInv t := by
  rcases exec_decodeCmd_next h with ⟨-, ht⟩ | ⟨-, ⟨c, n, ht⟩ | ⟨c, n, -, ht⟩ | ⟨c, n, u, -, hu, ht⟩⟩ <;> rw [ht]
  · exact hi
  · exact tokensInv_of_not_compressing rfl
  · exact startCompress_tokensInv _
  · rw [hu]
    exact tokensInv_of_not_compressing rfl

theorem hostStep_tokensInv {op : HostOp} {s t : State} (hi : TokensInv s) (h : hostStep op s = .next t) : TokensInv t := by
  rcases host_next h with ⟨ag, bd, un, fc, rfl⟩ | ⟨-, a, b, c, d, rfl⟩ | ⟨a, b, rfl⟩ | rfl | ⟨w, hw⟩
  · exact hi
  · exact hi
  · exact hi
  · exact tokensInv_of_not_compressing rfl
  · exact exec_decodeCmd_tokensInv hi hw

/-- Settles O43: the steps of COMPRESS keep the invariant, its start establishes it, and no other step leads into COMPRESS. -/
theorem tokenBufferBounded : Obligations.TokenBufferBounded := by
  refine ⟨fun s t hi h => ?_, fun e => TokenInv.outputpos_le⟩
  obtain ⟨ag, he | ⟨op, ho⟩⟩ := step_next h
  · exact engineStep_tokensInv (s := { s with agenda := ag }) hi he
  · exact hostStep_tokensInv (s := { s with agenda := ag }) hi ho

/-! ## Output's token -/

/-- A token, literal or match, stored where the buffer has room for it. -/
theorem tokenStored {c p : Nat} {s : State} (hc : c < 510) (hp : p < 2 ^ 19) (hflag : s.enc.cpos < s.enc.outputpos)
    (hroom : s.enc.outputpos + (if 256 ≤ c then 5 else 1) ≤ 16384) :
    TokenStored c p s { s with enc := storeToken c p s.enc } := by
  by_cases h : 256 ≤ c
  · rw [if_pos h] at hroom
    exact tokenStored_match h hc hp hflag hroom
  · rw [if_neg h] at hroom
    exact tokenStored_lit p (Nat.lt_of_not_le h) hflag hroom

theorem openGroup_eq (e : Enc) :
    openGroup e = { e with cpos := e.outputpos, outputpos := e.outputpos + 1, buf := (openGroup e).buf } := rfl

/-- The flag byte of a new group, which stands in the buffer (R257). -/
theorem bufAt_openGroup {e : Enc} (h : e.outputpos < Config.bufSize) (i : Nat) :
    bufAt (openGroup e) i = if i = e.outputpos then 0#8 else bufAt e i := by
  rw [openGroup, bufAt_pushBuf]
  simp only [h, and_true]
  rfl

/-- The first token of a group: its flag byte, and then the token behind it. -/
theorem tokenStored_openGroup {c p : Nat} {v : State} (hc : c < 510) (hp : p < 2 ^ 19) (hpos : v.enc.outputpos < 16344) :
    ∃ u : State, u = { v with enc := { v.enc with
        cpos := v.enc.outputpos, outputpos := v.enc.outputpos + 1, buf := u.enc.buf } } ∧
      (∀ i, bufAt u.enc i = if i = v.enc.outputpos then 0#8 else bufAt v.enc i) ∧
      TokenStored c p u { v with enc := storeToken c p (openGroup v.enc) } := by
  refine ⟨{ v with enc := openGroup v.enc }, rfl, bufAt_openGroup (hpos.trans (by decide)), ?_⟩
  refine tokenStored (s := { v with enc := openGroup v.enc }) hc hp (Nat.lt_succ_self _) ?_
  have hopen : (openGroup v.enc).outputpos = v.enc.outputpos + 1 := rfl
  rw [hopen]
  split_ifs <;> omega

/-- Settles O40: by whether the mask runs out, and then by whether the buffer is full enough to be sent. -/
theorem outputStoresToken : Obligations.OutputStoresToken := by
  intro c p s hc hp
  refine ⟨fun hm hflag hroom => ?_, fun hm => ?_⟩
  · rcases output_cases c p s with ⟨-, e⟩ | ⟨h0, -⟩ | ⟨h0, -⟩
    · rw [e]
      exact tokenStored (s := { s with enc := { s.enc with outputmask := s.enc.outputmask >>> 1 } }) hc hp hflag hroom
    · exact absurd h0 hm
    · exact absurd h0 hm
  · obtain ⟨m, hmask⟩ : ∃ m : State, m = { s with enc := { s.enc with outputmask := 0x80#8 } } := ⟨_, rfl⟩
    rcases output_cases c p s with ⟨h1, -⟩ | ⟨-, hlt, e⟩ | ⟨-, hge, w, hw, e⟩
    · exact absurd hm h1
    · obtain ⟨u, hu, hbuf, hstored⟩ := tokenStored_openGroup (v := m) hc hp (by rw [hmask]; exact hlt)
      refine ⟨m, m, u, hmask, (if_pos hlt).symm, hu, by rw [hmask], hbuf, ?_⟩
      rw [e]
      rw [hmask] at hstored
      exact hstored
    · obtain ⟨v, hv⟩ : ∃ v : State, v = { sendBlock m with enc := { (sendBlock m).enc with outputpos := 0 } } := ⟨_, rfl⟩
      obtain ⟨u, hu, hbuf, hstored⟩ := tokenStored_openGroup (v := v) hc hp (by rw [hv]; exact (by decide : 0 < 16344))
      refine ⟨m, v, u, hmask, ?_, hu, ?_, hbuf, ?_⟩
      · have hfull : ¬ s.enc.outputpos < 16344 := Nat.not_lt.mpr hge
        rw [if_neg hfull, hv]
      · rw [hv]
        dsimp only
        rw [sendBlock_outputmask, hmask]
      · have hout : output c p s = { v with enc := storeToken c p (openGroup v.enc) } := by rw [e, hw, hv, hmask]
        rw [hout]
        exact hstored

end Sys2Proof.Machine
end

section
/-!
PROOFS. The destination of COMPRESS: what its capped writes leave at each destination index, and how the command ends.
-/

namespace Sys2Proof.Machine

/-! ## Capped writes -/

/-- A capped write changes the byte of its index, where the capacity holds it, and no other (R90, R162). -/
theorem memGet_dstPutCapped (s : State) (i : Nat) (b : Byte) (a : Nat) :
    memGet (dstPutCapped s i b) a = if a = dstAt s i ∧ i < s.dstLen.toNat then b else memGet s a := by
  rcases dstPutCapped_cases s i b with ⟨hout, e⟩ | ⟨hin, e⟩ <;> rw [e]
  · rw [if_neg fun h => Nat.not_lt.mpr hout h.2]
  · rw [memGet_engineWrite]
    simp only [hin, and_true]

theorem dstPutCapped_enc (s : State) (i : Nat) (b : Byte) : (dstPutCapped s i b).enc = s.enc := by
  rw [(dstPutCapped_writesDst s i b).rest]

theorem dstPutCapped_dstLen (s : State) (i : Nat) (b : Byte) : (dstPutCapped s i b).dstLen = s.dstLen := by
  rw [(dstPutCapped_writesDst s i b).rest]

theorem WritesDst.dstAt {s t : State} (h : WritesDst s t) (i : Nat) : dstAt t i = dstAt s i := by
  rw [Machine.dstAt, Machine.dstAt, h.rest]

theorem dstGet_dstPutCapped (s : State) (i : Nat) (b : Byte) (j : Nat) :
    dstGet (dstPutCapped s i b) j = if j = i ∧ i < s.dstLen.toNat then b else dstGet s j := by
  have hij : dstAt s j = dstAt s i ↔ j = i := Nat.add_left_cancel_iff
  rw [dstGet, (dstPutCapped_writesDst s i b).dstAt, memGet_dstPutCapped]
  simp only [hij]
  rfl

/-! ## Runs of capped writes -/

/-- Capped writes of `g 0`, `g 1`, … at `n` consecutive indices from `d` on. -/
def putRun (d : Nat) (g : Nat → Byte) (n : Nat) (s : State) : State :=
  (List.range n).foldl (fun s i => dstPutCapped s (d + i) (g i)) s

theorem putRun_succ (d : Nat) (g : Nat → Byte) (n : Nat) (s : State) :
    putRun d g (n + 1) s = dstPutCapped (putRun d g n s) (d + n) (g n) := by
  simp [putRun, List.range_succ]

theorem headerPlaceholder_eq (s : State) : headerPlaceholder s = putRun 0 (fun _ => 0#8) 8 s := by
  simp only [headerPlaceholder, putRun, Nat.zero_add]

/-- The header is the field L and behind it the field O (R292). -/
theorem writeHeader_eq (s : State) : writeHeader s
    = putRun 4 (leByte s.enc.origsize) 4 (putRun 0 (leByte (s.enc.compsize + 1)) 4 s) := by
  simp only [writeHeader, putRun, Nat.zero_add]

theorem putRun_writesDst (d : Nat) (g : Nat → Byte) (n : Nat) (s : State) : WritesDst s (putRun d g n s) :=
  foldl_writesDst _ (fun s i => dstPutCapped_writesDst s (d + i) (g i)) _ s

theorem putRun_dstLen (d : Nat) (g : Nat → Byte) (n : Nat) (s : State) : (putRun d g n s).dstLen = s.dstLen := by
  rw [(putRun_writesDst d g n s).rest]

/-- Every byte of memory after the writes: those below the capacity have been made. -/
theorem memGet_putRun (d : Nat) (g : Nat → Byte) (n : Nat) (s : State) (a : Nat) : memGet (putRun d g n s) a
    = if dstAt s d ≤ a ∧ a < dstAt s (d + n) ∧ a < dstAt s s.dstLen.toNat then g (a - dstAt s d) else memGet s a := by
  induction n with
  | zero =>
    rw [if_neg (by simp only [dstAt]; omega)]
    rfl
  | succ n ih =>
    have hlast : dstAt s (d + n) = dstAt s d + n := (Nat.add_assoc _ _ _).symm
    have hend : dstAt s (d + (n + 1)) = dstAt s d + n + 1 := (Nat.add_assoc _ _ _).symm
    have hcap : d + n < s.dstLen.toNat ↔ dstAt s d + n < dstAt s s.dstLen.toNat := by
      rw [← hlast]
      exact Nat.add_lt_add_iff_left.symm
    rw [putRun_succ, memGet_dstPutCapped, putRun_dstLen, (putRun_writesDst d g n s).dstAt, ih, hend, hlast]
    simp only [hcap]
    generalize dstAt s d = x
    by_cases ha : a = x + n
    · rw [ha, Nat.add_sub_cancel_left]
      by_cases hin : x + n < dstAt s s.dstLen.toNat
      · rw [if_pos ⟨rfl, hin⟩, if_pos (by omega)]
      · rw [if_neg (by omega), if_neg (by omega), if_neg (by omega)]
    · rw [if_neg fun h => ha h.1]
      exact if_congr (by omega) rfl rfl

theorem dstGet_putRun (d : Nat) (g : Nat → Byte) (n : Nat) (s : State) (j : Nat) : dstGet (putRun d g n s) j
    = if d ≤ j ∧ j < d + n ∧ j < s.dstLen.toNat then g (j - d) else dstGet s j := by
  have hj : dstAt s j - dstAt s d = j - d := Nat.add_sub_add_left _ _ _
  rw [dstGet, (putRun_writesDst d g n s).dstAt, memGet_putRun, hj]
  exact if_congr (by simp only [dstAt]; omega) rfl rfl

/-- The accesses are the writes below the capacity, in order. -/
theorem putRun_accesses (g : Nat → Byte) (n : Nat) (s : State) : (putRun 0 g n s).accesses
    = ((List.range (min n s.dstLen.toNat)).map fun i => .write (dstAt s i) (g i)).reverse ++ s.accesses := by
  induction n with
  | zero =>
    rw [Nat.zero_min]
    rfl
  | succ n ih =>
    rw [putRun_succ, Nat.zero_add]
    rcases dstPutCapped_cases (putRun 0 g n s) n (g n) with ⟨hout, e⟩ | ⟨hin, e⟩ <;> rw [e]
    · rw [putRun_dstLen] at hout
      rw [ih, Nat.min_eq_right hout, Nat.min_eq_right (Nat.le_succ_of_le hout)]
    · rw [putRun_dstLen] at hin
      rw [engineWrite_accesses, (putRun_writesDst 0 g n s).dstAt, ih, Nat.min_eq_left hin.le, Nat.min_eq_left hin, List.range_succ,
        List.map_append, List.reverse_append]
      rfl

/-! ## The end of COMPRESS -/

/-- The end of COMPRESS gives RESULT_LEN the required size, whatever the capacity (R293). -/
theorem finishCompress_rest (s : State) : finishCompress s = { s with
    status := (finishCompress s).status, resultLen := BitVec.ofNat 64 (8 + s.enc.compsize + 1), phase := .idle
    mem := (finishCompress s).mem, freeCtr := (finishCompress s).freeCtr } := by
  rcases finishCompress_cases s with ⟨-, e⟩ | ⟨-, e⟩ <;> rw [e]
  · rfl
  · obtain ⟨hrest, -, -⟩ := drawDst_spec _ s le_rfl
    generalize drawDst s.dstLen.toNat s = u at hrest
    rw [hrest]
    rfl

theorem dstGet_endCommand (c : Code) (n : Nat) (s : State) (j : Nat) : dstGet (endCommand c n s) j = dstGet s j := rfl

theorem finishCompress_of_fits {s : State} (h : 8 + s.enc.compsize < s.dstLen.toNat) :
    finishCompress s = endCommand .success (8 + s.enc.compsize + 1) s := by
  rcases finishCompress_cases s with ⟨-, e⟩ | ⟨hlt, -⟩
  · exact e
  · omega

/-- The end of COMPRESS changes no byte outside the destination (R293). -/
theorem finishCompress_outside (s : State) {a : Nat} (h : inRange s.dstAddr.toNat s.dstLen.toNat a = false) :
    memGet (finishCompress s) a = memGet s a := by
  rcases finishCompress_writes s with ⟨-, hmem⟩ | ⟨-, -, hout⟩
  · exact memGet_congr hmem a
  · exact hout a h

/-- HufEncodeEnd: the last block, the flush and the terminator behind them (R285, R291). -/
theorem hufEncodeEnd_eq (s : State) : hufEncodeEnd s
    = dstPutCapped (flushBits (sendBlock s)) (8 + (flushBits (sendBlock s)).enc.compsize) 0#8 := by
  simp only [hufEncodeEnd]

/-- The end of COMPRESS is one turn of the engine, unless the header cannot state L (R292). -/
theorem engineTurn_encEnd_eq {s : State} (hp : s.phase = .encEnd) : engineTurn s
    = if 2 ^ 32 - 1 < (hufEncodeEnd s).enc.compsize + 1 then .refused .headerOverflow
      else .next (finishCompress (writeHeader (hufEncodeEnd s))) := by
  simp only [engineTurn, hp, stepEncEnd]
  generalize hufEncodeEnd s = u
  simp only [headerOverflows, decide_eq_true_eq]

theorem hufEncodeEnd_dstLen (s : State) : (hufEncodeEnd s).dstLen = s.dstLen := by
  obtain ⟨-, -, -, hdl⟩ := (hufEncodeEnd_encodes s).buffers
  exact hdl

theorem hufEncodeEnd_origsize (s : State) : (hufEncodeEnd s).enc.origsize = s.enc.origsize := by
  obtain ⟨-, -, horig, -⟩ := sendBlock_spec s
  rw [hufEncodeEnd_eq, dstPutCapped_enc, (flushBits_putsBits _).enc, ← horig]

/-- Behind the bit stream stands the terminator, where the capacity holds it (R291). -/
theorem hufEncodeEnd_terminator {s : State} (h : 8 + (hufEncodeEnd s).enc.compsize < s.dstLen.toNat) :
    dstGet (hufEncodeEnd s) (8 + (hufEncodeEnd s).enc.compsize) = 0#8 := by
  have hdl := hufEncodeEnd_dstLen s
  rw [hufEncodeEnd_eq, dstPutCapped_enc] at h ⊢
  rw [hufEncodeEnd_eq, dstPutCapped_dstLen] at hdl
  rw [dstGet_dstPutCapped, hdl, if_pos ⟨rfl, h⟩]

theorem leByte_eq_byteOf (v i : Nat) : leByte v i = byteOf v i := (byteOf_eq v i).symm

theorem writeHeader_enc (s : State) : (writeHeader s).enc = s.enc := by
  rw [(writeHeader_writesDst s).rest]

theorem writeHeader_dstLen (s : State) : (writeHeader s).dstLen = s.dstLen := by
  rw [(writeHeader_writesDst s).rest]

/-- The destination after the header has been written (R292). -/
theorem dstGet_writeHeader (s : State) (j : Nat) : dstGet (writeHeader s) j
    = if s.dstLen.toNat ≤ j then dstGet s j
      else if j < 4 then byteOf (s.enc.compsize + 1) j
      else if j < 8 then byteOf s.enc.origsize (j - 4)
      else dstGet s j := by
  rw [writeHeader_eq, dstGet_putRun, dstGet_putRun, putRun_dstLen]
  simp only [leByte_eq_byteOf, Nat.sub_zero]
  by_cases hout : s.dstLen.toNat ≤ j
  · rw [if_neg (by omega), if_neg (by omega), if_pos hout]
  rw [if_neg hout]
  by_cases h4 : j < 4
  · rw [if_neg (by omega), if_pos (by omega), if_pos h4]
  rw [if_neg h4]
  by_cases h8 : j < 8
  · rw [if_pos (by omega), if_pos h8]
  · rw [if_neg (by omega), if_neg (by omega), if_neg h8]

/-- What the last step of COMPRESS leaves of the state before it. -/
theorem compressEnd_rest {s t : State} (h : t = finishCompress (writeHeader (hufEncodeEnd s))) : t = { s with
    enc := (hufEncodeEnd s).enc, mem := t.mem, phase := .idle, status := t.status
    resultLen := BitVec.ofNat 64 (8 + (hufEncodeEnd s).enc.compsize + 1), freeCtr := t.freeCtr, accesses := t.accesses } := by
  have hu := (hufEncodeEnd_encodes s).rest
  have hv := (writeHeader_writesDst (hufEncodeEnd s)).rest
  have ht := finishCompress_rest (writeHeader (hufEncodeEnd s))
  rw [← h] at ht
  generalize writeHeader (hufEncodeEnd s) = v at h hv ht
  generalize hufEncodeEnd s = u at hu hv ⊢
  have hacc : t.accesses = v.accesses := by rw [ht]
  have hsize : v.enc = u.enc := by rw [hv]
  rw [hacc]
  conv_lhs => rw [ht, hsize, hv, hu]

theorem compressEnd_outside {s t : State} (h : t = finishCompress (writeHeader (hufEncodeEnd s))) {a : Nat}
    (ha : inRange s.dstAddr.toNat s.dstLen.toNat a = false) : memGet t a = memGet s a := by
  have he := (hufEncodeEnd_encodes s).trans (writeHeader_encodes _)
  rw [h]
  generalize writeHeader (hufEncodeEnd s) = u at he
  obtain ⟨-, -, hda, hdl⟩ := he.buffers
  rw [finishCompress_outside u (by rwa [hda, hdl]), he.outside ha]

/-- Where the capacity holds the stream and its terminator, the command succeeds and the header is patched into what the encoder left. -/
theorem compressEnd_fits {s t : State} (h : t = finishCompress (writeHeader (hufEncodeEnd s)))
    (hfit : 8 + (hufEncodeEnd s).enc.compsize < s.dstLen.toNat) :
    t.status = statusEnded .success ∧ ∀ j, dstGet t j = dstGet (writeHeader (hufEncodeEnd s)) j := by
  have hfit' : 8 + (writeHeader (hufEncodeEnd s)).enc.compsize < (writeHeader (hufEncodeEnd s)).dstLen.toNat := by
    rwa [writeHeader_enc, writeHeader_dstLen, hufEncodeEnd_dstLen]
  rw [h, finishCompress_of_fits hfit']
  exact ⟨rfl, dstGet_endCommand _ _ _⟩

theorem compressEnd_tooSmall {s t : State} (h : t = finishCompress (writeHeader (hufEncodeEnd s)))
    (hsmall : ¬ 8 + (hufEncodeEnd s).enc.compsize < s.dstLen.toNat) : t.status = statusEnded .bufferTooSmall := by
  rcases finishCompress_cases (writeHeader (hufEncodeEnd s)) with ⟨hfit, -⟩ | ⟨-, e⟩
  · rw [writeHeader_enc, writeHeader_dstLen, hufEncodeEnd_dstLen] at hfit
    exact absurd hfit hsmall
  · rw [h, e]
    rfl

/-- A stream that fits its buffer: header, bit stream and terminator stand in the destination; `r` is the required size (R291 to R293). -/
theorem compressEnd_destination {s t : State} {r : Nat} (h : t = finishCompress (writeHeader (hufEncodeEnd s)))
    (hr : r = 8 + (hufEncodeEnd s).enc.compsize + 1) (hfit : r ≤ s.dstLen.toNat) :
    dstGet t (r - 1) = 0#8 ∧
    (∀ i, i < 4 → dstGet t i = byteOf (r - 8) i ∧ dstGet t (4 + i) = byteOf s.enc.origsize i) ∧
    ∀ i, 8 ≤ i → i ≠ r - 1 → i < s.dstLen.toNat → dstGet t i = dstGet (hufEncodeEnd s) i := by
  have hroom : 8 + (hufEncodeEnd s).enc.compsize < s.dstLen.toNat := by omega
  have hterm := hufEncodeEnd_terminator hroom
  have hlast : r - 1 = 8 + (hufEncodeEnd s).enc.compsize := by rw [hr, Nat.add_sub_cancel]
  have hl : r - 8 = (hufEncodeEnd s).enc.compsize + 1 := by omega
  obtain ⟨-, hget⟩ := compressEnd_fits h hroom
  rw [← hlast] at hterm
  simp only [hget, dstGet_writeHeader, hufEncodeEnd_dstLen, hufEncodeEnd_origsize, hl]
  refine ⟨?_, fun i hi => ⟨?_, ?_⟩, fun i h8 _ hlt => ?_⟩
  · rw [if_neg (by omega), if_neg (by omega), if_neg (by omega), hterm]
  · rw [if_neg (by omega), if_pos hi]
  · rw [if_neg (by omega), if_neg (by omega), if_pos (by omega), Nat.add_sub_cancel_left]
  · rw [if_neg (by omega), if_neg (by omega), if_neg (by omega)]

/-- Settles O42: HufEncodeEnd, the header and `finishCompress` one after the other, by whether L fits its field and the stream its buffer. -/
theorem compressEnds : Obligations.CompressEnds := by
  intro s hp hf
  rw [engineStep_fit hf, engineTurn_encEnd_eq hp]
  generalize (hufEncodeEnd s).enc.compsize + 1 = l
  by_cases hlong : 2 ^ 32 - 1 < l
  · rw [if_pos hlong, if_pos hlong]
  · rw [if_neg hlong, if_neg hlong]
    obtain ⟨t, ht⟩ : ∃ t, t = finishCompress (writeHeader (hufEncodeEnd s)) := ⟨_, rfl⟩
    obtain ⟨r, hr⟩ : ∃ r, r = 8 + (hufEncodeEnd s).enc.compsize + 1 := ⟨_, rfl⟩
    refine ⟨t, r, congrArg _ ht.symm, hr, hr ▸ compressEnd_rest ht, fun a => compressEnd_outside ht, ?_⟩
    by_cases hfit : r ≤ s.dstLen.toNat
    · rw [if_pos hfit]
      obtain ⟨hstatus, -⟩ := compressEnd_fits ht (by omega)
      exact ⟨hstatus, compressEnd_destination ht hr hfit⟩
    · rw [if_neg hfit]
      exact compressEnd_tooSmall ht (by omega)

end Sys2Proof.Machine
end

section
/-!
PROOFS. The command words of COMPRESS, DECOMPRESS and ILLEGAL_CMD: what the start of COMPRESS initialises (R291), its check of SRC_LEN (R290), and
what a command word leaves alone.
-/

namespace Sys2Proof.Machine

/-! ## What a command word leads to -/

/-- COMPRESS of a source that the header cannot state ends as soon as it is accepted (R290). -/
theorem exec_compress_of_longSource {s : State} (hb : busy s = false) (h : 2 ^ 32 - 1 < s.srcLen.toNat) (fmt : BitVec 8) :
    exec (.compress fmt) s
      = .next (endCommand .invalidParameter 0 (acceptCmd (encodeCmd (.compress fmt)) s.dstLen.toNat s)) := by
  simp only [exec, execCompress, hb, acceptCmd_srcLen, h, decide_true, Bool.or_true, Bool.false_eq_true, if_false, if_true]

/-- COMPRESS of operands that pass its checks starts (R291). -/
theorem exec_compress_of_checked {s : State} (hb : busy s = false) (hbuf : buffersBad s = false) (h : s.srcLen.toNat ≤ 2 ^ 32 - 1)
    (fmt : BitVec 8) :
    exec (.compress fmt) s = .next (startCompress (acceptCmd (encodeCmd (.compress fmt)) s.dstLen.toNat s)) := by
  have hpass : ¬(buffersBad s || decide (2 ^ 32 - 1 < s.srcLen.toNat)) = true := by
    rw [hbuf, Bool.false_or, decide_eq_true_iff]
    exact Nat.not_lt.mpr h
  simp only [exec, execCompress, hb, buffersBad_acceptCmd, acceptCmd_srcLen, Bool.false_eq_true, if_false]
  exact if_neg hpass

/-- COMPRESS is ignored while BUSY = 1, rejected by its checks, or started. -/
theorem exec_compress_next {fmt : BitVec 8} {s t : State} (h : exec (.compress fmt) s = .next t) :
    t = s ∨ ∃ w n, t = endCommand .invalidParameter 0 (acceptCmd w n s) ∨ t = startCompress (acceptCmd w n s) := by
  simp only [exec, execCompress] at h
  split_ifs at h
  · exact .inl (Host.Outcome.next.inj h).symm
  · exact .inr ⟨_, _, .inl (Host.Outcome.next.inj h).symm⟩
  · exact .inr ⟨_, _, .inr (Host.Outcome.next.inj h).symm⟩

theorem exec_decompress_next {fmt : BitVec 8} {s t : State} (h : exec (.decompress fmt) s = .next t) :
    t = s ∨ ∃ w n, t = endCommand .invalidParameter 0 (acceptCmd w n s) ∨
      t = { startCommand .header (acceptCmd w n s) with dec := { s.dec with bad := false } } := by
  simp only [exec, execDecompress] at h
  split_ifs at h
  · exact .inl (Host.Outcome.next.inj h).symm
  · exact .inr ⟨_, _, .inl (Host.Outcome.next.inj h).symm⟩
  · exact .inr ⟨_, _, .inr (Host.Outcome.next.inj h).symm⟩

theorem exec_illegalCmd_next {w : Word32} {s t : State} (h : exec (.illegalCmd w) s = .next t) :
    t = s ∨ ∃ w n, t = endCommand .invalidParameter 0 (acceptCmd w n s) := by
  simp only [exec, execIllegalCmd] at h
  split_ifs at h
  · exact .inl (Host.Outcome.next.inj h).symm
  · exact .inr ⟨_, _, (Host.Outcome.next.inj h).symm⟩

/-- Settles O6: the check of SRC_LEN ends the command as soon as it is accepted. -/
theorem compressRejectsLongSource : Obligations.CompressRejectsLongSource := fun fmt _ hb h =>
  exec_compress_of_longSource hb h fmt

/-! ## The header placeholder -/

/-- The start of COMPRESS writes its header placeholder over the destination, and nothing else (R291). -/
theorem startCompress_eq (s : State) :
    startCompress s = putRun 0 (fun _ => 0#8) 8 { startCommand .encFirst s with enc := encStart s.enc } :=
  headerPlaceholder_eq _

theorem memGet_startCompress (s : State) (a : Nat) : memGet (startCompress s) a
    = if inRange s.dstAddr.toNat (min 8 s.dstLen.toNat) a = true then 0#8 else memGet s a := by
  rw [startCompress_eq, memGet_putRun]
  refine if_congr ?_ rfl rfl
  rw [inRange_iff]
  simp only [dstAt, startCommand_dstAddr, startCommand_dstLen]
  omega

theorem startCompress_writes (s : State) : (startCompress s).accesses
    = ((List.range (min 8 s.dstLen.toNat)).map fun i => .write (dstAt s i) 0#8).reverse ++ s.accesses := by
  rw [startCompress_eq, putRun_accesses]
  rfl

/-! ## The encoder's state at the start -/

/-- The window and the tree are InitSlide's (R182). -/
theorem initSlide_arrays (f : Finder) (i : Nat) :
    textAt (initSlide f) i = 0#8 ∧ childcountAt (initSlide f) i = 0 ∧ positionAt (initSlide f) i = 0#32 ∧
    parentAt (initSlide f) i = 0 ∧ prevAt (initSlide f) i = 0 ∧
    levelAt (initSlide f) i = (if 2 ^ 19 ≤ i ∧ i ≤ 2 ^ 19 + 255 then 1 else 0) ∧
    nextAt (initSlide f) i = (if 1 ≤ i ∧ i ≤ 2 ^ 19 - 2 then i + 1 else 0) := by
  refine ⟨rfl, rfl, rfl, rfl, rfl, ?_, ?_⟩
  · have hlevel : levelAt (initSlide f) i = (levelInit i).toNat := rfl
    rw [hlevel, levelInit, apply_ite BitVec.toNat]
    exact if_congr (by simp only [Config.W, Config.wndBit]; omega) rfl rfl
  · have hnext : nextAt (initSlide f) i = nextInit i := rfl
    rw [hnext, nextInit]
    exact if_congr (by simp only [Config.W, Config.wndBit]; omega) rfl rfl

theorem freqAt_clearBelow {a m : Nat} (freq : Arr a Half) {i : Nat} (h : i < m) : freqAt (arrClearBelow m freq) i = 0 := by
  rw [freqAt, arrGet_clearBelow, if_pos h]
  rfl

/-- Settles O5: the checks pass, so the command starts; its header placeholder is a run of capped writes, and the encoder's state is `encStart`. -/
theorem compressStarts : Obligations.CompressStarts := by
  intro fmt s hb hbuf hlen
  obtain ⟨u, hu⟩ : ∃ u, u = acceptCmd (encodeCmd (.compress fmt)) s.dstLen.toNat s := ⟨_, rfl⟩
  obtain ⟨t, ht⟩ : ∃ t, t = startCompress u := ⟨_, rfl⟩
  have hexec := exec_compress_of_checked hb hbuf hlen fmt
  have hacc := startCompress_writes u
  have hmem := memGet_startCompress u
  have hrest := startCompress_rest u
  rw [← hu, ← ht] at hexec
  rw [← ht] at hacc hmem hrest
  have henc : t.enc = encStart s.enc := by rw [hrest, hu, acceptCmd_enc]
  refine ⟨t, hexec, ?_, ?_, ?_, ?_, ?_, ?_⟩
  · rw [hacc] at hrest
    rw [hrest, hu, acceptCmd_accesses, List.append_nil]
    rfl
  · intro a
    rw [hmem, hu]
    rfl
  · intro i
    obtain ⟨htext, hchild, hpos, hparent, hprev, hlevel, hnext⟩ := initSlide_arrays s.enc.finder i
    rw [henc]
    exact ⟨htext, rfl, hchild, hpos, hparent, hprev, hlevel, hnext⟩
  · intro i hi
    rw [henc]
    exact freqAt_clearBelow s.enc.cfreq hi
  · intro i hi
    rw [henc]
    exact freqAt_clearBelow s.enc.pfreq hi
  · rw [henc]
    exact ⟨rfl, rfl, rfl, rfl, rfl, rfl, rfl, rfl⟩

/-! ## What a command word leaves alone -/

/-- Settles O10: each end of a command word changes only fields that the statement names, and the start of COMPRESS its header bytes. -/
theorem commandFrame : Obligations.CommandFrame := by
  refine ⟨fun fmt s t h => ?_, fun fmt s t h => ?_, fun w s t h => ?_⟩
  · rcases exec_compress_next h with rfl | ⟨w, n, ht | ht⟩
    · exact ⟨rfl, fun _ _ => rfl⟩
    · rw [ht]
      exact ⟨rfl, fun _ _ => rfl⟩
    · have hrest := startCompress_rest (acceptCmd w n s)
      have hmem := memGet_startCompress (acceptCmd w n s)
      rw [← ht] at hrest hmem
      refine ⟨?_, fun a ha => ?_⟩
      · rw [hrest]
        rfl
      · rw [hmem, acceptCmd_dstAddr, acceptCmd_dstLen, if_neg (Bool.eq_false_iff.mp ha)]
        rfl
  · rcases exec_decompress_next h with rfl | ⟨w, n, ht | ht⟩
    · rfl
    · rw [ht]
      rfl
    · rw [ht]
      rfl
  · rcases exec_illegalCmd_next h with rfl | ⟨w, n, ht⟩
    · rfl
    · rw [ht]
      rfl

end Sys2Proof.Machine
end

section
/-!
PROOFS. The values that the block encoder chooses for the decoder to read back: the symbol and extra bits of a position value (R280), and the
T symbols of a run of zero lengths (R273).
-/

namespace Sys2Proof.Machine

/-! ## Position values -/

theorem bitlen_eq_zero_iff (p : Nat) : bitlen p = 0 ↔ p = 0 := by
  unfold bitlen
  split_ifs with hp <;> simp [hp]

theorem lt_two_pow_bitlen (p : Nat) : p < 2 ^ bitlen p := by
  cases hc : bitlen p with
  | zero => simp [(bitlen_eq_zero_iff p).mp hc]
  | succ c => exact ((bitlen_eq_succ_iff p c).mp hc).2

/-- The value of the extra bits that EncodeP sends for a position value (R280). -/
def extraOf (p : Nat) : Nat := p % 2 ^ posExtra (bitlen p)

theorem extraOf_lt (p : Nat) : extraOf p < 2 ^ posExtra (bitlen p) := Nat.mod_lt _ (by positivity)

/-- The extra bits are the position value without its most significant bit, which the decoder adds again (R122, R280). -/
theorem posValue_extraOf (p : Nat) : posValue (bitlen p) (extraOf p) = p := by
  cases hc : bitlen p with
  | zero => exact ((bitlen_eq_zero_iff p).mp hc).symm
  | succ c =>
    obtain ⟨hle, hlt⟩ := (bitlen_eq_succ_iff p c).mp hc
    have hextra : extraOf p = p - 2 ^ c := by
      rw [extraOf, hc, posExtra, Nat.add_sub_cancel, Nat.mod_eq_sub_mod hle, Nat.mod_eq_of_lt]
      rw [pow_succ] at hlt
      omega
    rw [posValue, hextra, Nat.add_sub_cancel]
    split_ifs with h1
    · have hzero : c = 0 := by omega
      subst hzero
      omega
    · omega

/-- The fields that EncodeP sends after the code of the symbol (R280). -/
def extraFields (p : Nat) : List Field := if 1 < bitlen p then [(bitlen p - 1, extraOf p)] else []

theorem encodeP_eq (e : Enc) (p : Nat) : encodeP e p = codeField e.ptlen e.ptcode (bitlen p) :: extraFields p := rfl

/-- With no extra bits (c at most 1) the sent bits are none as well, so one reading serves both cases. -/
theorem extraFields_bits (p : Nat) :
    ((extraFields p).flatMap fun f => natToBits f.1 f.2) = natToBits (posExtra (bitlen p)) (extraOf p) := by
  unfold extraFields
  split_ifs with h
  · exact List.flatMap_singleton _ _
  · have hnone : posExtra (bitlen p) = 0 := by
      rw [posExtra]
      omega
    rw [hnone]
    rfl

/-- What the decoder reads for a symbol of its alphabet and its extra bits. -/
theorem decode_psym_extra {c v : Nat} (hc : c ≤ 30) (hv : v < 2 ^ posExtra c) (rest : List Bool) :
    ∃ (σ : BitVec 5) (x : BitVec 29), decode .psym (natToBits 5 c ++ natToBits (posExtra c) v ++ rest) = .ok (.pos σ x) rest ∧
      σ.toNat = c ∧ x.toNat = v := by
  have hσ : (BitVec.ofNat 5 c).toNat = c := by rw [BitVec.toNat_ofNat, Nat.mod_eq_of_lt (by omega)]
  have hwidth : 2 ^ posExtra c ≤ 2 ^ 29 := Nat.pow_le_pow_right (by decide) (by rw [posExtra]; omega)
  have hx : (BitVec.ofNat 29 v).toNat = v := by rw [BitVec.toNat_ofNat, Nat.mod_eq_of_lt (hv.trans_le hwidth)]
  have hwf : WellFormed (.pos (BitVec.ofNat 5 c) (BitVec.ofNat 29 v)) = true := by
    simp only [WellFormed, hσ, hx, Bool.and_eq_true, decide_eq_true_eq]
    exact ⟨Nat.lt_of_le_of_lt hc (by decide), hv⟩
  have hread := decodePSym_pos hwf rest
  rw [hσ, hx] at hread
  refine ⟨BitVec.ofNat 5 c, BitVec.ofNat 29 v, ?_, hσ, hx⟩
  rw [List.append_assoc, decode_psym_number (by omega), hread]

/-- Settles O24: the extra bits are the position value below its leading bit, and symbol and extra bits read back as POS. -/
theorem positionCodingInverts : Obligations.PositionCodingInverts := by
  intro e p
  refine ⟨extraFields p, encodeP_eq e p, lt_two_pow_bitlen p, ?_, fun hc rest => ?_⟩
  · split_ifs with h
    · have hvalue := posValue_extraOf p
      rw [posValue, if_pos h] at hvalue ⊢
      exact ⟨if_neg (by omega), hvalue⟩
    · exact ⟨extraOf p, if_pos (by omega), extraOf_lt p, posValue_extraOf p⟩
  · obtain ⟨c, x, hread, hsym, hextra⟩ := decode_psym_extra hc (extraOf_lt p) rest
    refine ⟨c, x, ?_, hsym, ?_⟩
    · rw [extraFields_bits, hread]
    · rw [hsym, hextra, posValue_extraOf]

/-! ## Runs of zero lengths -/

/-- A run of one or two zero lengths is sent symbol by symbol (R273). -/
theorem runSyms_zeros_of_le_two {n : Nat} (h : n ≤ 2) : runSyms (0, n) = List.replicate n (0, (0, 0)) := by
  simp only [runSyms, if_true, if_pos h]

/-- Up to 18 zeros fit a 4-bit extension (R273). -/
theorem runSyms_zeros_of_le_18 {n : Nat} (h2 : 2 < n) (h : n ≤ 18) : runSyms (0, n) = [(1, (4, n - 3))] := by
  simp only [runSyms, if_true, if_neg (Nat.not_le.mpr h2), if_pos h]

/-- 19 zeros are one more than a 4-bit extension states and one fewer than a 9-bit extension does (R273). -/
theorem runSyms_zeros_19 : runSyms (0, 19) = [(0, (0, 0)), (1, (4, 15))] := rfl

/-- From 20 zeros on the extension has 9 bits (R273). -/
theorem runSyms_zeros_of_ge_20 {n : Nat} (h : 20 ≤ n) : runSyms (0, n) = [(2, (9, n - 20))] := by
  simp only [runSyms, if_true, if_neg (show ¬n ≤ 2 by omega), if_neg (show ¬n ≤ 18 by omega), if_neg (show ¬n = 19 by omega)]

/-- Settles O41, case by case in the run's length as R273 chooses. -/
theorem zeroRunPolicy : Obligations.ZeroRunPolicy := by
  intro n hpos hmax
  by_cases h2 : n ≤ 2
  · rw [runSyms_zeros_of_le_two h2]
    refine ⟨by simp, fun x hx => ?_, fun h => by omega⟩
    rw [List.eq_of_mem_replicate hx]
    decide
  by_cases h18 : n ≤ 18
  · rw [runSyms_zeros_of_le_18 (Nat.not_le.mp h2) h18]
    have hsum : n - 3 + 3 + 0 = n := by omega
    have hfits : n - 3 < 2 ^ 4 := by omega
    exact ⟨hsum, List.forall_mem_singleton.mpr ⟨(by decide : 1 ≤ 2), hfits, rfl⟩, fun h => by omega⟩
  by_cases h19 : n = 19
  · rw [h19, runSyms_zeros_19]
    decide
  · rw [runSyms_zeros_of_ge_20 (by omega)]
    have hsum : n - 20 + 20 + 0 = n := by omega
    have hfits : n - 20 < 2 ^ 9 := by omega
    exact ⟨hsum, List.forall_mem_singleton.mpr ⟨le_refl 2, hfits, rfl⟩, fun h => by omega⟩

end Sys2Proof.Machine
end

section
/-!
PROOFS. COMPRESS does not depend on its destination (R295). Two runs over the same source (`Twin`) take the same encoder state through every operation:
what an operation reads besides is source bytes, which the checked buffers keep apart from what it writes. The bytes put agree index by index as far as
both capacities hold them (`SameBytes`), which for equal encoder states says the same as equal bit streams.
-/

namespace Sys2Proof.Machine

/-! ## Equal bit streams -/

/-- Where both capacities hold the bytes produced and the terminator to come, the bytes are the same. -/
def SameBytes (s t : State) : Prop :=
  8 + s.enc.compsize < s.dstLen.toNat → 8 + s.enc.compsize < t.dstLen.toNat →
    ∀ i, i < s.enc.compsize → dstGet t (8 + i) = dstGet s (8 + i)

theorem natToBits_byte_inj {a b : Byte} (h : natToBits 8 a.toNat = natToBits 8 b.toNat) : a = b := by
  have hv := congrArg bitsToNat h
  rw [bitsToNat_natToBits_of_lt a.isLt, bitsToNat_natToBits_of_lt b.isLt] at hv
  exact BitVec.eq_of_toNat_eq hv

theorem emittedBits_succ (s : State) (n : Nat) :
    emittedBits s (n + 1) = emittedBits s n ++ natToBits 8 (dstGet s (8 + n)).toNat := by
  rw [emittedBits, List.range_succ, List.flatMap_append, List.flatMap_singleton]
  rfl

/-- The emitted bits are the same exactly when the emitted bytes are. -/
theorem emittedBits_eq_iff (s t : State) (n : Nat) :
    emittedBits t n = emittedBits s n ↔ ∀ i, i < n → dstGet t (8 + i) = dstGet s (8 + i) := by
  induction n with
  | zero => exact ⟨fun _ i hi => absurd hi (Nat.not_lt_zero i), fun _ => rfl⟩
  | succ n ih =>
    rw [emittedBits_succ, emittedBits_succ]
    constructor
    · intro h i hi
      obtain ⟨hold, hnew⟩ := List.append_inj' h (by simp)
      rcases Nat.lt_succ_iff_lt_or_eq.mp hi with hi | rfl
      · exact ih.mp hold i hi
      · exact natToBits_byte_inj hnew
    · intro h
      rw [ih.mpr fun i hi => h i (Nat.lt_succ_of_lt hi), h n (Nat.lt_succ_self n)]

/-- With the same encoder state the partial byte is the same, and the streams agree when their bytes do. -/
theorem sameStream_iff {s t : State} (he : t.enc = s.enc) : SameStream s t ↔ SameBytes s t := by
  simp only [SameStream, SameBytes, streamBits_eq, he, List.append_left_inj, emittedBits_eq_iff]

/-! ## Two runs over the same source -/

/-- Two runs of COMPRESS over the same source, with checked buffers, that have put the same bytes where `p` holds. -/
structure Twin (p : Prop) (s t : State) : Prop where
  source : SameSource s t
  checked : buffersBad s = false
  checked' : buffersBad t = false
  bytes : p → SameBytes s t

theorem Twin.enc {p : Prop} {s t : State} (h : Twin p s t) : t.enc = s.enc := h.source.1

theorem Twin.phase {p : Prop} {s t : State} (h : Twin p s t) : t.phase = s.phase := h.source.2.1

theorem Twin.srcLen {p : Prop} {s t : State} (h : Twin p s t) : t.srcLen = s.srcLen := h.source.2.2.1

theorem Twin.srcGet {p : Prop} {s t : State} (h : Twin p s t) {i : Nat} (hi : i < s.srcLen.toNat) : srcGet t i = srcGet s i :=
  h.source.2.2.2 i hi

/-- `t` is `s` after work that keeps the operands and every byte outside the destination. -/
structure KeepsSource (s t : State) : Prop where
  srcAddr : t.srcAddr = s.srcAddr
  srcLen : t.srcLen = s.srcLen
  checked : buffersBad t = buffersBad s
  outside : ∀ a, inRange s.dstAddr.toNat s.dstLen.toNat a = false → memGet t a = memGet s a

theorem Encodes.keepsSource {s t : State} (h : Encodes s t) : KeepsSource s t := by
  obtain ⟨hsa, hsl, -, -⟩ := h.buffers
  refine ⟨hsa, hsl, ?_, fun a => h.outside⟩
  rw [h.rest]
  rfl

theorem finishCompress_keepsSource (s : State) : KeepsSource s (finishCompress s) := by
  have hrest := finishCompress_rest s
  refine ⟨by rw [hrest], by rw [hrest], ?_, fun a => finishCompress_outside s⟩
  rw [hrest]
  rfl

/-- Checked buffers do not meet, so the source bytes are kept (R92). -/
theorem KeepsSource.srcGet {s t : State} (h : KeepsSource s t) (hb : buffersBad s = false) {i : Nat} (hi : i < s.srcLen.toNat) :
    srcGet t i = srcGet s i := by
  have hout : inRange s.dstAddr.toNat s.dstLen.toNat (s.srcAddr.toNat + i) = false := by
    by_contra hin
    have hnot := not_inSource_of_inDestination hb (Bool.not_eq_false _ ▸ hin)
    rw [inRange_eq_false_iff] at hnot
    omega
  rw [Machine.srcGet, h.srcAddr, h.outside _ hout]
  rfl

/-- Two runs stay twins through work that leaves them the same encoder state. -/
theorem Twin.work {p : Prop} {s t s' t' : State} (h : Twin p s t) (hs : KeepsSource s s') (ht : KeepsSource t t')
    (he : t'.enc = s'.enc) (hp : t'.phase = s'.phase) (hbytes : p → SameBytes s' t') : Twin p s' t' := by
  refine ⟨⟨he, hp, by rw [ht.srcLen, hs.srcLen, h.srcLen], fun i hi => ?_⟩, hs.checked.trans h.checked,
    ht.checked.trans h.checked', hbytes⟩
  rw [hs.srcLen] at hi
  rw [ht.srcGet h.checked' (by rwa [h.srcLen]), hs.srcGet h.checked hi, h.srcGet hi]

theorem Twin.encodes {p : Prop} {s t s' t' : State} (h : Twin p s t) (hs : Encodes s s') (ht : Encodes t t')
    (he : t'.enc = s'.enc) (hbytes : p → SameBytes s' t') : Twin p s' t' :=
  h.work hs.keepsSource ht.keepsSource he (by rw [ht.worksOn.phase, hs.worksOn.phase, h.phase]) hbytes

/-- A change of the encoder's state alone that produces no byte. -/
theorem Twin.setEnc {p : Prop} {s t : State} (h : Twin p s t) {e e' : Enc} (he : e' = e) (hc : e.compsize = s.enc.compsize) :
    Twin p { s with enc := e } { t with enc := e' } := by
  subst he
  refine ⟨⟨rfl, h.phase, h.srcLen, fun _ => h.srcGet⟩, h.checked, h.checked', fun hp => ?_⟩
  have hb := h.bytes hp
  rw [SameBytes, ← hc] at hb
  exact hb

theorem Twin.setPhase {p : Prop} {s t : State} (h : Twin p s t) (q : Phase) : Twin p { s with phase := q } { t with phase := q } :=
  ⟨⟨h.enc, rfl, h.srcLen, fun _ => h.srcGet⟩, h.checked, h.checked', h.bytes⟩

theorem Twin.foldl {p : Prop} {β : Type} {f : State → β → State} (hf : ∀ s t b, Twin p s t → Twin p (f s b) (f t b))
    (l : List β) {s t : State} (h : Twin p s t) : Twin p (l.foldl f s) (l.foldl f t) := by
  induction l generalizing s t with
  | nil => exact h
  | cons b l ih => exact ih (hf s t b h)

/-! ## The bit writer -/

theorem dstPutCapped_encodes (s : State) (i : Nat) (b : Byte) : Encodes s (dstPutCapped s i b) := by
  have he := dstPutCapped_enc s i b
  exact WritesDst.encodes (by rw [he]; exact dstPutCapped_writesDst s i b) (by rw [he])

/-- The same capped write in both runs. -/
theorem Twin.dstPutCapped {p : Prop} {s t : State} (h : Twin p s t) (i : Nat) (b : Byte) :
    Twin p (dstPutCapped s i b) (dstPutCapped t i b) := by
  refine h.encodes (dstPutCapped_encodes s i b) (dstPutCapped_encodes t i b) ?_ fun hp => ?_
  · rw [dstPutCapped_enc, dstPutCapped_enc, h.enc]
  · intro hs ht j hj
    simp only [dstPutCapped_enc, dstPutCapped_dstLen] at hs ht hj
    have hold := h.bytes hp hs ht j hj
    have hin : i = 8 + j → i < s.dstLen.toNat ∧ i < t.dstLen.toNat := by omega
    rw [dstGet_dstPutCapped, dstGet_dstPutCapped]
    by_cases hi : 8 + j = i
    · rw [if_pos ⟨hi, (hin hi.symm).2⟩, if_pos ⟨hi, (hin hi.symm).1⟩]
    · rw [if_neg fun h => hi h.1, if_neg fun h => hi h.1, hold]

theorem Twin.putRun {p : Prop} {s t : State} (h : Twin p s t) (d : Nat) (g : Nat → Byte) (n : Nat) :
    Twin p (putRun d g n s) (putRun d g n t) :=
  Twin.foldl (fun _ _ i hst => hst.dstPutCapped (d + i) (g i)) _ h

theorem dstGet_emitByte (x : Byte) (s : State) (j : Nat) : dstGet (emitByte x s) j
    = if j = 8 + s.enc.compsize ∧ 8 + s.enc.compsize < s.dstLen.toNat then x else dstGet s j :=
  dstGet_dstPutCapped s (8 + s.enc.compsize) x j

theorem emitByte_dstLen (x : Byte) (s : State) : (emitByte x s).dstLen = s.dstLen := by
  obtain ⟨-, -, -, hdl⟩ := (emitByte_putsBits x s).encodes.buffers
  exact hdl

/-- EmitByte appends the same byte in both runs, and where both capacities hold it, it is written in both. -/
theorem Twin.emitByte {p : Prop} {s t : State} (h : Twin p s t) (x : Byte) : Twin p (emitByte x s) (emitByte x t) := by
  refine h.encodes (emitByte_putsBits x s).encodes (emitByte_putsBits x t).encodes ?_ fun hp => ?_
  · rw [emitByte_enc, emitByte_enc, h.enc]
  · intro hs ht j hj
    simp only [emitByte_enc, emitByte_dstLen] at hs ht hj
    rw [dstGet_emitByte, dstGet_emitByte, h.enc]
    rcases Nat.lt_succ_iff_lt_or_eq.mp hj with hold | rfl
    · have hne : ¬ 8 + j = 8 + s.enc.compsize := by omega
      rw [if_neg fun h => hne h.1, if_neg fun h => hne h.1, h.bytes hp (by omega) (by omega) j hold]
    · rw [if_pos ⟨rfl, by omega⟩, if_pos ⟨rfl, by omega⟩]

theorem Twin.putBit {p : Prop} {s t : State} (h : Twin p s t) (b : Bool) : Twin p (putBit b s) (putBit b t) := by
  have he := h.enc
  unfold Machine.putBit
  simp only [he]
  split_ifs
  · have hx := h.emitByte (s.enc.subbitbuf ||| (BitVec.ofNat 8 b.toNat <<< (s.enc.bitcount - 1)))
    exact hx.setEnc (by rw [hx.enc]) rfl
  · exact h.setEnc rfl rfl

theorem Twin.putBits {p : Prop} {s t : State} (h : Twin p s t) (n v : Nat) : Twin p (putBits n v s) (putBits n v t) :=
  Twin.foldl (fun _ _ b hst => hst.putBit b) (natToBits n v) h

theorem Twin.flushBits {p : Prop} {s t : State} (h : Twin p s t) : Twin p (flushBits s) (flushBits t) := h.putBits 7 0

theorem Twin.putFields {p : Prop} {s t : State} (h : Twin p s t) (fs : List Field) : Twin p (putFields fs s) (putFields fs t) :=
  Twin.foldl (fun _ _ f hst => hst.putBits f.1 f.2) fs h

/-! ## The block encoder -/

theorem blockFields_compsize (e : Enc) : (blockFields e).2.compsize = e.compsize := by
  rw [blockFields_spec e]

theorem Twin.sendBlock {p : Prop} {s t : State} (h : Twin p s t) : Twin p (sendBlock s) (sendBlock t) := by
  rw [sendBlock_eq, sendBlock_eq, h.enc]
  exact (h.setEnc rfl (blockFields_compsize s.enc)).putFields _

theorem storeToken_compsize (c q : Nat) (e : Enc) : (storeToken c q e).compsize = e.compsize := by
  rcases Nat.lt_or_ge c 256 with h | h
  · rw [storeToken_lit q e h]
    rfl
  · rw [storeToken_match q e h, matchBytes_only]

theorem Twin.setMask {p : Prop} {s t : State} (h : Twin p s t) (m : Byte) :
    Twin p { s with enc := { s.enc with outputmask := m } } { t with enc := { t.enc with outputmask := m } } :=
  h.setEnc (by rw [h.enc]) rfl

theorem output_of_inside {s : State} (c q : Nat) (hm : s.enc.outputmask >>> 1 ≠ 0#8) :
    output c q s = { s with enc := storeToken c q { s.enc with outputmask := s.enc.outputmask >>> 1 } } := by
  rcases output_cases c q s with ⟨-, e⟩ | ⟨hz, -⟩ | ⟨hz, -⟩
  · exact e
  · exact absurd hz hm
  · exact absurd hz hm

theorem output_of_room {s : State} (c q : Nat) (hm : s.enc.outputmask >>> 1 = 0#8)
    (hroom : s.enc.outputpos < Config.bufSize - Config.flushMargin) :
    output c q s = { s with enc := storeToken c q (openGroup { s.enc with outputmask := 0x80#8 }) } := by
  rcases output_cases c q s with ⟨hz, -⟩ | ⟨-, -, e⟩ | ⟨-, hfull, -⟩
  · exact absurd hm hz
  · exact e
  · exact absurd hroom (Nat.not_lt.mpr hfull)

theorem output_of_full {s u : State} (c q : Nat) (hm : s.enc.outputmask >>> 1 = 0#8)
    (hfull : Config.bufSize - Config.flushMargin ≤ s.enc.outputpos)
    (hu : u = sendBlock { s with enc := { s.enc with outputmask := 0x80#8 } }) :
    output c q s = { u with enc := storeToken c q (openGroup { u.enc with outputpos := 0 }) } := by
  rcases output_cases c q s with ⟨hz, -⟩ | ⟨-, hroom, -⟩ | ⟨-, -, v, hv, e⟩
  · exact absurd hm hz
  · exact absurd hroom (Nat.not_lt.mpr hfull)
  · rw [e, hv, ← hu]

theorem Twin.output {p : Prop} {s t : State} (h : Twin p s t) (c q : Nat) : Twin p (output c q s) (output c q t) := by
  have he := h.enc
  by_cases hm : s.enc.outputmask >>> 1 = 0#8
  · by_cases hroom : s.enc.outputpos < Config.bufSize - Config.flushMargin
    · rw [output_of_room c q hm hroom, output_of_room (s := t) c q (by rwa [he]) (by rwa [he])]
      exact h.setEnc (by rw [he]) (storeToken_compsize c q _)
    · have hfull := Nat.not_lt.mp hroom
      obtain ⟨u, hu⟩ : ∃ u, u = Machine.sendBlock { s with enc := { s.enc with outputmask := 0x80#8 } } := ⟨_, rfl⟩
      obtain ⟨v, hv⟩ : ∃ v, v = Machine.sendBlock { t with enc := { t.enc with outputmask := 0x80#8 } } := ⟨_, rfl⟩
      have hsent : Twin p u v := by
        rw [hu, hv]
        exact (h.setMask 0x80#8).sendBlock
      rw [output_of_full c q hm hfull hu, output_of_full (s := t) c q (by rwa [he]) (by rwa [he]) hv]
      exact hsent.setEnc (by rw [hsent.enc]) (storeToken_compsize c q _)
  · rw [output_of_inside c q hm, output_of_inside (s := t) c q (by rwa [he])]
    exact h.setEnc (by rw [he]) (storeToken_compsize c q _)

/-! ## The match finder -/

theorem Twin.withFinder {p : Prop} {s t : State} (h : Twin p s t) (f : Finder) : Twin p (withFinder s f) (withFinder t f) :=
  h.setEnc (by rw [h.enc]) rfl

/-- ReadInput's copy reads source bytes alone (R198). -/
theorem readLoop_congr {s t : State} {m i : Nat} (h : ∀ j, i ≤ j → j < i + m → srcGet t j = srcGet s j) (d : Nat) (f : Finder) :
    readLoop t m i d f = readLoop s m i d f := by
  induction m generalizing i d f with
  | zero => rfl
  | succ m ih =>
    rw [readLoop, readLoop, h i le_rfl (by omega)]
    exact ih (fun j hj hlt => h j (by omega) (by omega)) _ _

theorem Twin.readInput {p : Prop} {s t : State} (h : Twin p s t) (d n : Nat) :
    (readInput d n t).1 = (readInput d n s).1 ∧ Twin p (readInput d n s).2 (readInput d n t).2 := by
  obtain ⟨k, hk⟩ : ∃ k, k = min n (s.srcLen.toNat - s.enc.srcpos) := ⟨_, rfl⟩
  have hkt : k = min n (t.srcLen.toNat - t.enc.srcpos) := by rw [h.srcLen, h.enc, hk]
  have hs := readInput_encodes d n s
  have ht := readInput_encodes d n t
  rw [readInput_eq hk] at hs ⊢
  rw [readInput_eq hkt] at ht ⊢
  refine ⟨rfl, h.encodes hs ht ?_ fun hp => ?_⟩
  · have hloop := readLoop_congr (s := engineReads (s.srcAddr.toNat + s.enc.srcpos) k s)
      (t := engineReads (t.srcAddr.toNat + t.enc.srcpos) k t) (m := k) (i := s.enc.srcpos)
      (fun j hj hlt => h.srcGet (by omega)) d s.enc.finder
    simp only [h.enc] at hloop ⊢
    rw [hloop]
  · exact h.bytes hp

theorem Twin.capMatch {p : Prop} {s t : State} (h : Twin p s t) : Twin p (capMatch s) (capMatch t) :=
  h.setEnc (by rw [h.enc]) rfl

theorem Twin.refill {p : Prop} {s t : State} (h : Twin p s t) : Twin p (refill s) (refill t) := by
  have h1 := h.withFinder (shiftText s.enc.finder)
  obtain ⟨hk, h2⟩ := h1.readInput (Config.W + Config.maxMatch) Config.W
  unfold Machine.refill
  simp only [h.enc, hk]
  exact h2.setEnc (by rw [h2.enc]) rfl

/-- GetNextMatch up to DeleteNode: one byte on, and a refill at the window's end (R199). -/
def advanced (s : State) : State :=
  let u := withFinder s { s.enc.finder with remainder := s.enc.finder.remainder - 1, pos := s.enc.finder.pos + 1 }
  if u.enc.finder.pos = 2 * Config.W then refill u else u

theorem getNextMatch_eq (s : State) :
    getNextMatch s = ((deleteNode (advanced s).enc.finder).bind insertNode).map (withFinder (advanced s)) := by
  have e : getNextMatch s = match deleteNode (advanced s).enc.finder with
      | none => none
      | some f => (insertNode f).map (withFinder (advanced s)) := rfl
  rw [e]
  cases deleteNode (advanced s).enc.finder <;> rfl

theorem Twin.advanced {p : Prop} {s t : State} (h : Twin p s t) : Twin p (advanced s) (advanced t) := by
  have hu := h.withFinder { s.enc.finder with remainder := s.enc.finder.remainder - 1, pos := s.enc.finder.pos + 1 }
  unfold Machine.advanced
  rw [h.enc]
  dsimp only
  rw [hu.enc]
  split_ifs
  · exact hu.refill
  · exact hu

/-- A new finder computed from the encoder's state alone, if there is one. -/
theorem Twin.mapFinder {p : Prop} {s t s' : State} (h : Twin p s t) {o : Option Finder} (hs : o.map (Machine.withFinder s) = some s') :
    ∃ t', o.map (Machine.withFinder t) = some t' ∧ Twin p s' t' := by
  obtain ⟨f, rfl, rfl⟩ := Option.map_eq_some_iff.mp hs
  exact ⟨_, rfl, h.withFinder f⟩

theorem Twin.getNextMatch {p : Prop} {s t s' : State} (h : Twin p s t) (hs : getNextMatch s = some s') :
    ∃ t', getNextMatch t = some t' ∧ Twin p s' t' := by
  rw [getNextMatch_eq] at hs ⊢
  rw [h.advanced.enc]
  exact h.advanced.mapFinder hs

theorem Twin.getNextMatches {p : Prop} {k : Nat} {s t s' : State} (h : Twin p s t) (hs : getNextMatches k s = some s') :
    ∃ t', getNextMatches k t = some t' ∧ Twin p s' t' := by
  induction k generalizing s t with
  | zero =>
    cases hs
    exact ⟨t, rfl, h⟩
  | succ k ih =>
    cases hg : Machine.getNextMatch s with
    | none => simp [Machine.getNextMatches, hg] at hs
    | some u =>
      obtain ⟨v, hv, huv⟩ := h.getNextMatch hg
      simp only [Machine.getNextMatches, hg, hv] at hs ⊢
      exact ih huv hs

/-! ## MatchLoop -/

/-- The state in which MatchLoop inserts its first string: the window filled, and the finder's cursors at its start (R205). -/
def primed (s : State) : State :=
  let (k, u) := readInput Config.W (Config.W + Config.maxMatch) s
  withFinder u { u.enc.finder with remainder := k, matchlen := 0, matchpos := 0, pos := Config.W }

theorem matchLoopStart_eq (s : State) :
    matchLoopStart s = ((insertNode (primed s).enc.finder).map (withFinder (primed s))).map capMatch := by
  rw [Option.map_map]
  rfl

theorem Twin.primed {p : Prop} {s t : State} (h : Twin p s t) : Twin p (primed s) (primed t) := by
  obtain ⟨hk, hread⟩ := h.readInput Config.W (Config.W + Config.maxMatch)
  unfold Machine.primed
  simp only [hk]
  exact hread.setEnc (by rw [hread.enc]) rfl

theorem Twin.matchLoopStart {p : Prop} {s t s' : State} (h : Twin p s t) (hs : matchLoopStart s = some s') :
    ∃ t', matchLoopStart t = some t' ∧ Twin p s' t' := by
  rw [matchLoopStart_eq] at hs ⊢
  obtain ⟨u, hu, rfl⟩ := Option.map_eq_some_iff.mp hs
  obtain ⟨v, hv, huv⟩ := h.primed.mapFinder hu
  rw [h.primed.enc, hv]
  exact ⟨_, rfl, huv.capMatch⟩

theorem Twin.matchLoopTurn {p : Prop} {s t s' : State} (h : Twin p s t) (hs : matchLoopTurn s = some s') :
    ∃ t', matchLoopTurn t = some t' ∧ Twin p s' t' := by
  obtain ⟨u, hu, -⟩ := matchLoopTurn_cases hs
  obtain ⟨v, hv, huv⟩ := h.getNextMatch hu
  rw [matchLoopTurn_of_next hu] at hs
  rw [matchLoopTurn_of_next hv, h.enc, huv.enc]
  split_ifs at hs ⊢
  · cases hs
    exact ⟨_, rfl, huv.capMatch.output _ _⟩
  · obtain ⟨w, hw, rfl⟩ := Option.map_eq_some_iff.mp hs
    obtain ⟨x, hx, hwx⟩ := (huv.capMatch.output _ _).getNextMatches hw
    exact ⟨_, by rw [hx]; rfl, hwx.capMatch⟩

/-! ## The end of COMPRESS -/

theorem Twin.hufEncodeEnd {p : Prop} {s t : State} (h : Twin p s t) : Twin p (hufEncodeEnd s) (hufEncodeEnd t) := by
  have hflush := h.sendBlock.flushBits
  rw [hufEncodeEnd_eq, hufEncodeEnd_eq, hflush.enc]
  exact hflush.dstPutCapped _ _

theorem Twin.writeHeader {p : Prop} {s t : State} (h : Twin p s t) : Twin p (writeHeader s) (writeHeader t) := by
  rw [writeHeader_eq, writeHeader_eq, h.enc]
  exact (h.putRun _ _ _).putRun _ _ _

/-- Where a capacity does not hold the stream, the destination is unspecified; where both do, `finishCompress` writes nothing (R293). -/
theorem Twin.finishCompress {p : Prop} {s t : State} (h : Twin p s t) : Twin p (finishCompress s) (finishCompress t) := by
  have hs := finishCompress_rest s
  have ht := finishCompress_rest t
  refine h.work (finishCompress_keepsSource s) (finishCompress_keepsSource t) ?_ ?_ fun hp => ?_
  · rw [hs, ht, h.enc]
  · rw [hs, ht]
  · intro hfs hft
    have hes : (Machine.finishCompress s).enc = s.enc ∧ (Machine.finishCompress s).dstLen = s.dstLen := by
      rw [hs]
      exact ⟨rfl, rfl⟩
    have het : (Machine.finishCompress t).dstLen = t.dstLen := by rw [ht]
    rw [hes.1, hes.2] at hfs
    rw [hes.1, het] at hft
    rw [finishCompress_of_fits hfs, finishCompress_of_fits (by rwa [h.enc])]
    exact h.bytes hp hfs hft

theorem finishCompress_resultLen (s : State) : (finishCompress s).resultLen = BitVec.ofNat 64 (8 + s.enc.compsize + 1) := by
  rw [finishCompress_rest]

/-! ## The engine's turn -/

theorem engineTurn_of_encFirst {s u : State} (hp : s.phase = .encFirst) (hu : matchLoopStart s = some u) :
    engineTurn s = .next { u with phase := .encLoop } := by
  have e : engineTurn s = stepEncFirst s := by simp only [engineTurn, hp]
  rw [e, stepEncFirst, hu]
  rfl

/-- A turn of COMPRESS in one run has its twin in the other. -/
theorem Twin.engineTurn {p : Prop} {s t s' : State} (h : Twin p s t) (hc : compressing s.phase = true)
    (hs : engineTurn s = .next s') :
    ∃ t', engineTurn t = .next t' ∧ Twin p s' t' ∧ (s'.phase = .idle → t'.resultLen = s'.resultLen) := by
  cases hp : s.phase with
  | encFirst =>
    obtain ⟨u, hu, rfl⟩ := engineTurn_encFirst hp hs
    obtain ⟨v, hv, huv⟩ := h.matchLoopStart hu
    exact ⟨_, engineTurn_of_encFirst (h.phase.trans hp) hv, huv.setPhase .encLoop, fun hidle => nomatch hidle⟩
  | encLoop =>
    rcases engineTurn_encLoop hp hs with ⟨hr, rfl⟩ | ⟨hr, hturn⟩
    · refine ⟨{ t with phase := .encEnd }, ?_, h.setPhase .encEnd, fun hidle => nomatch hidle⟩
      simp only [Machine.engineTurn, h.phase, hp, stepEncLoop, h.enc, if_pos hr]
    · obtain ⟨t', ht', htwin⟩ := h.matchLoopTurn hturn
      refine ⟨t', ?_, htwin, fun hidle => ?_⟩
      · simp only [Machine.engineTurn, h.phase, hp, stepEncLoop, h.enc, if_neg hr, ht', orEndless]
      · rw [(matchLoopTurn_encodes hturn).worksOn.phase, hp] at hidle
        cases hidle
  | encEnd =>
    obtain ⟨hfit, hdone⟩ := engineTurn_encEnd hp hs
    have hend := h.hufEncodeEnd
    have hhead := hend.writeHeader
    rw [hdone]
    refine ⟨_, ?_, hhead.finishCompress, fun _ => ?_⟩
    · rw [engineTurn_encEnd_eq (h.phase.trans hp), hend.enc, if_neg (Nat.not_lt.mpr hfit)]
    · rw [finishCompress_resultLen, finishCompress_resultLen, hhead.enc]
  | idle | header | sym | count | ptLen | cLen | pos | copy =>
    rw [hp] at hc
    cases hc

/-- Settles O44: the runs are twins, and their streams agree as their bytes do. -/
theorem encoderIgnoresDestination : Obligations.EncoderIgnoresDestination := by
  intro s t s' hc hbs hbt hsource hs
  have h : Twin (SameStream s t) s t := ⟨hsource, hbs, hbt, (sameStream_iff hsource.1).mp⟩
  rw [engineStep_fit (buffersFit_of_checked hbs)] at hs
  rw [engineStep_fit (buffersFit_of_checked hbt)]
  obtain ⟨t', ht, htwin, hlen⟩ := h.engineTurn hc hs
  exact ⟨t', ht, htwin.source, fun hstream => (sameStream_iff htwin.enc).mpr (htwin.bytes hstream), hlen⟩

end Sys2Proof.Machine
end

section
/-!
PROOFS. The start of DECOMPRESS, its header, and the lists of a block header (44_block_decoder.md): each instruction leads to one of a few exact
states, and a list instruction to `listTurn` of a state in which only the cursor and the lengths differ (`ListWork`).
-/

namespace Sys2Proof.Machine

/-! ## DECOMPRESS -/

/-- The stored word of DECOMPRESS states its FMT (R32, R111). -/
theorem fmtOf_decompress (fmt : BitVec 8) (n : Nat) (s : State) :
    fmtOf (acceptCmd (encodeCmd (.decompress fmt)) n s) = fmt.toNat := by
  obtain ⟨-, hf, -⟩ := fields_of_word 0#16 fmt 2#8
  rw [fmtOf, acceptCmd_cmd, encodeCmd, hf]

/-- Checks 1 to 3 of R330 on an accepted DECOMPRESS. -/
theorem decompressBad_acceptCmd_iff (fmt : BitVec 8) (n : Nat) (s : State) :
    decompressBad (acceptCmd (encodeCmd (.decompress fmt)) n s) = true ↔
      (fmt ≠ 1#8 ∧ fmt ≠ 2#8) ∨ buffersBad s = true ∨ s.srcLen.toNat < 8 := by
  have h1 : fmt = 1#8 ↔ fmt.toNat = 1 := BitVec.toNat_inj.symm
  have h2 : fmt = 2#8 ↔ fmt.toNat = 2 := BitVec.toNat_inj.symm
  simp only [decompressBad, fmtOf_decompress, buffersBad_acceptCmd, ne_eq, h1, h2, Bool.or_eq_true, Bool.and_eq_true, bne_iff_ne,
    decide_eq_true_eq, or_assoc]
  rw [acceptCmd_srcLen]

theorem exec_decompress_of_idle {s : State} (hb : busy s = false) (fmt : BitVec 8) {u : State}
    (hu : u = acceptCmd (encodeCmd (.decompress fmt)) s.dstLen.toNat s) :
    exec (.decompress fmt) s = .next (if decompressBad u then endCommand .invalidParameter 0 u
      else { startCommand .header u with dec := { u.dec with bad := false } }) := by
  subst hu
  simp only [exec, execDecompress, hb, Bool.false_eq_true, if_false]
  split_ifs <;> rfl

/-- Settles O7: none of the checks fails, so the command starts. -/
theorem decompressStarts : Obligations.DecompressStarts := by
  intro fmt s hb hfmt hbuf hlen
  rw [exec_decompress_of_idle hb fmt rfl, if_neg]
  · rfl
  · rw [decompressBad_acceptCmd_iff, hbuf]
    rintro (⟨h1, h2⟩ | h | h)
    · exact hfmt.elim h1 h2
    · cases h
    · omega

/-- Settles O8: a check fails, so the command ends as soon as it is accepted. -/
theorem decompressRejectsParameters : Obligations.DecompressRejectsParameters := by
  intro fmt s hb h
  rw [exec_decompress_of_idle hb fmt rfl, if_pos]
  · rfl
  · rw [decompressBad_acceptCmd_iff]
    exact h.imp_right .inr

/-! ## The stream header -/

theorem fmtOf_eq_one_iff (s : State) : fmtOf s = 1 ↔ s.cmd.extractLsb' 8 8 = 1#8 := BitVec.toNat_inj (y := 1#8)

/-- L and O as the header states them (R331). -/
def storeSizes (l o : Word32) (s : State) : State :=
  { s with dec := { s.dec with compsizeIn := l.toNat, origsize := o.toNat } }

/-- The width of the P list's count field, by the format version (R52, R331). -/
def storePbit (s : State) : State :=
  { s with dec := { s.dec with pbit := if s.cmd.extractLsb' 8 8 = 1#8 then 4 else 5 } }

/-- The three ends of STREAM_HEADER (R330, R331). -/
theorem exec_streamHeader_eq (l o : Word32) (s : State) : exec (.streamHeader l o) s = .next
    (if s.srcLen.toNat < 8 + l.toNat ∨ s.dstLen.toNat ≠ o.toNat then endCommand .invalidParameter 0 (storeSizes l o s)
    else if o = 0#32 then endCommand .success 0 (storePbit (storeSizes l o s))
    else startDecode (storePbit (storeSizes l o s))) := by
  have ho : o.toNat = 0 ↔ o = 0#32 := BitVec.toNat_inj (y := 0#32)
  simp only [exec, execStreamHeader, fmtOf_eq_one_iff, ho]
  by_cases h4 : s.srcLen.toNat < 8 + l.toNat
  · rw [if_pos h4, if_pos (.inl h4)]
    rfl
  · by_cases h5 : s.dstLen.toNat ≠ o.toNat
    · rw [if_neg h4, if_pos h5, if_pos (.inr h5)]
      rfl
    · rw [if_neg h4, if_neg h5, if_neg (not_or.mpr ⟨h4, h5⟩), ← apply_ite Host.Outcome.next]
      rfl

/-- Settles O12, end by end. -/
theorem streamHeaderOutcome : Obligations.StreamHeaderOutcome := by
  intro l o s
  refine ⟨_, exec_streamHeader_eq l o s, ?_⟩
  by_cases hbad : s.srcLen.toNat < 8 + l.toNat ∨ s.dstLen.toNat ≠ o.toNat
  · rw [if_pos hbad, if_pos hbad]
    rfl
  · rw [if_neg hbad, if_neg hbad]
    by_cases hzero : o = 0#32
    · rw [if_pos hzero, if_pos hzero, hzero]
      rfl
    · rw [if_neg hzero, if_neg hzero]
      rfl

/-! ## The block header -/

theorem exec_block_eq (size : Half) (s : State) : exec (.block size) s = .next (if size = 0#16 then endBad s
    else startList .tList { s with dec := { s.dec with blocksize := size } }) := by
  simp only [exec, execBlock]
  split_ifs <;> rfl

/-- Settles O13: SIZE 0 is Bad, and any other SIZE starts the T list. -/
theorem blockStartsLists : Obligations.BlockStartsLists := by
  intro size s
  rw [exec_block_eq]
  split_ifs <;> rfl

/-! ## The count field -/

/-- Reading bits and then Bad: the command ends with INVALID_DATA and no byte has changed (R328). -/
theorem endBad_ended {s u : State} (hout : u.dec.out = s.dec.out) (hmem : u.mem = s.mem) :
    Ended .invalidData s.dec.out (endBad u) ∧ (endBad u).dec.bad = true ∧ (endBad u).mem = s.mem :=
  ⟨⟨rfl, rfl, by rw [endBad_resultLen, hout]⟩, rfl, hmem⟩

/-- The count field of width `w`, and behind a count of 0 the symbol of a degenerate table (R305, R310). -/
theorem readCount_eq (s : State) {w : Nat} (hw : w = listCountWidth s.dec s.dec.list) : readCount s =
    if (getBits w s).1 = 0 then
      (if listSize s.dec.list ≤ (getBits w (skipBits w s)).1 then endBad (skipBits w (skipBits w s))
      else storeTable (.degenerate (getBits w (skipBits w s)).1) (skipBits w (skipBits w s)))
    else if listSize s.dec.list < (getBits w s).1 then endBad (skipBits w s)
    else { skipBits w s with
      dec := { (skipBits w s).dec with count := (getBits w s).1, idx := 0, lens := List.replicate (listSize s.dec.list) 0 }
      phase := if s.dec.list = .cList then .cLen else .ptLen } := by
  have hplace : (match s.dec.list with | .cList => Phase.cLen | _ => Phase.ptLen)
      = if s.dec.list = .cList then .cLen else .ptLen := by cases s.dec.list <;> rfl
  subst hw
  rw [← hplace]
  rfl

/-- Settles O14, by the count and, where it is 0, by the symbol. -/
theorem listCountOutcome : Obligations.ListCountOutcome := by
  intro s hp hf
  obtain ⟨w, hw⟩ : ∃ w, w = listCountWidth s.dec s.dec.list := ⟨_, rfl⟩
  rw [← hw]
  obtain ⟨count, hcount⟩ : ∃ count, count = (getBits w s).1 := ⟨_, rfl⟩
  obtain ⟨σ, hσ⟩ : ∃ σ, σ = (getBits w (skipBits w s)).1 := ⟨_, rfl⟩
  refine ⟨count, skipBits w s, by rw [hcount]; rfl, readCount s,
    (engineStep_fit hf).trans (engineTurn_count hp), ?_⟩
  rw [readCount_eq s hw, ← hcount, ← hσ]
  by_cases hzero : count = 0
  · rw [if_pos hzero, if_pos hzero]
    refine ⟨σ, skipBits w (skipBits w s), by rw [hσ]; rfl, ?_⟩
    by_cases hsym : σ < listSize s.dec.list
    · rw [if_neg (Nat.not_le.mpr hsym), if_pos hsym]
      rcases storeTable_cases (.degenerate σ) (skipBits w (skipBits w s)) with ⟨hlist, e⟩ | ⟨hlist, e⟩ | ⟨hlist, e⟩ <;> rw [e]
      · rw [show s.dec.list = .tList from hlist]
      · rw [show s.dec.list = .cList from hlist]
      · rw [show s.dec.list = .pList from hlist]
    · rw [if_pos (Nat.le_of_not_lt hsym), if_neg hsym]
      exact endBad_ended rfl rfl
  · rw [if_neg hzero, if_neg hzero]
    by_cases hlarge : listSize s.dec.list < count
    · rw [if_pos hlarge, if_pos hlarge]
      exact endBad_ended rfl rfl
    · rw [if_neg hlarge, if_neg hlarge]

/-! ## Lengths appended to a list -/

theorem getD_set {l : List Nat} {i : Nat} (h : i < l.length) (k j : Nat) :
    (l.set i k).getD j 0 = if j = i then k else l.getD j 0 := by
  by_cases hj : j = i
  · subst hj
    simp [List.getD_eq_getElem?_getD, h]
  · simp [List.getD_eq_getElem?_getD, List.getElem?_set_ne (Ne.symm hj), hj]

/-- T symbol `t` from 3 on states the length `t - 2` (R125). -/
theorem decodeTSym_of_ge_three {t : Nat} (h3 : 3 ≤ t) (h18 : t ≤ 18) (rest : List Bool) :
    decodeTSym t rest = .ok (.len (BitVec.ofNat 5 (t - 2))) rest := by
  have ht : t < Config.NT := Nat.lt_succ_of_le h18
  rw [decodeTSym, if_neg (by omega), if_neg (by omega), if_neg (by omega), if_pos ht]

/-- An instruction that runs `z` zeros appends them to the C list, clipped at its end (R311, R313). -/
theorem appendsLengths_of_putZeros {i : Instr} {z : Nat} {s : State} (h : exec i s = .next (listTurn (putZeros z s)))
    (hlist : s.dec.list = .cList) (hlen : s.dec.lens.length = 510) (hidx : s.dec.idx < 510) : AppendsLengths i z 0 s := by
  have hsize : listSize s.dec.list = 510 := by rw [hlist]; rfl
  obtain ⟨hend, hlength, hget⟩ := zeroRun_spec 510 z s.dec.idx s.dec.lens hlen
  rw [← hsize] at hend hlength hget
  refine ⟨_, putZeros z s, h, ?_, hlength.trans (hsize.trans hlen.symm), fun j _ => hget j, listTurn_spec _⟩
  have hclip : (putZeros z s).dec.idx = min (s.dec.idx + z) Config.NC := by
    refine hend.trans ?_
    rw [hsize]
    show _ = min (s.dec.idx + z) 510
    omega
  rw [← hclip]
  rfl

/-- LEN appends its length to the C list (R311). -/
theorem len_appendsLengths (k : BitVec 5) {s : State} (hlen : s.dec.lens.length = 510) (hidx : s.dec.idx < 510) :
    AppendsLengths (.len k) 1 k.toNat s := by
  refine ⟨_, putLen k.toNat s, rfl, ?_, List.length_set, fun j _ => ?_, listTurn_spec _⟩
  · have hnext : s.dec.idx + 1 = min (s.dec.idx + 1) Config.NC := (Nat.min_eq_left hidx).symm
    rw [← hnext]
    rfl
  · refine (getD_set (by omega) k.toNat j).trans (if_congr ?_ rfl rfl)
    omega

/-- Settles O15: the symbols decode by their numbers, and each runs zeros or puts one length. -/
theorem tSymbolsAppendLengths : Obligations.TSymbolsAppendLengths := by
  refine ⟨fun rest => ⟨decode_tsym_number (by decide) rest, fun r => ?_, fun r => ?_, fun t h3 h18 => ?_⟩,
    fun s hlist hlen hidx => ⟨appendsLengths_of_putZeros rfl hlist hlen hidx, fun r => appendsLengths_of_putZeros rfl hlist hlen hidx,
      fun r => appendsLengths_of_putZeros rfl hlist hlen hidx, fun k => len_appendsLengths k hlen hidx⟩⟩
  · rw [List.append_assoc, decode_tsym_number (by decide), decodeTSym_zrunM]
  · rw [List.append_assoc, decode_tsym_number (by decide), decodeTSym_zrunL]
  · rw [decode_tsym_number (by omega), decodeTSym_of_ge_three h3 h18]

/-! ## LENCODE -/

theorem exec_lencode_of_le {k : BitVec 5} (h : k.toNat ≤ 16) (s : State) :
    exec (.lencode k) s = .next (listTurn (skipField (putLen k.toNat s))) := if_neg (Nat.not_lt.mpr h)

/-- Only the T list has a special index, which is reached after its third length (R300, R305). -/
theorem listSpecial_eq_some_succ_iff (l : ListKind) (i : Nat) : listSpecial l = some (i + 1) ↔ l = .tList ∧ i = 2 := by
  cases l <;> simp [listSpecial, eq_comm]

/-- `z` zeros follow a length put at the cursor of `s`, behind a field of `n` bits that states them: after the third length of
the T list its skip field, elsewhere none (R305). -/
def SkipAfterLength (s : State) (z n : Nat) : Prop :=
  if s.dec.list = .tList ∧ s.dec.idx = 2 then z = (getBits 2 s).1 ∧ n = 2 else z = 0 ∧ n = 0

theorem skipField_putLen (k : Nat) (s : State) :
    ∃ z n, SkipAfterLength s z n ∧ skipField (putLen k s) = putZeros z (skipBits n (putLen k s)) := by
  have hspecial := listSpecial_eq_some_succ_iff s.dec.list s.dec.idx
  rcases skipField_cases (putLen k s) with ⟨hno, e⟩ | ⟨hyes, e⟩ <;> rw [e]
  · refine ⟨0, 0, ?_, by rw [skipBits_zero]; rfl⟩
    rw [SkipAfterLength, if_neg fun h => hno (hspecial.mpr h)]
    exact ⟨rfl, rfl⟩
  · refine ⟨(getBits 2 s).1, 2, ?_, rfl⟩
    rw [SkipAfterLength, if_pos (hspecial.mp hyes)]
    exact ⟨rfl, rfl⟩

/-- The zeros of a skip field never reach the end of the alphabet: at most 3 follow the third of 19 lengths. -/
theorem SkipAfterLength.fits {s : State} {z n : Nat} (h : SkipAfterLength s z n) (hidx : s.dec.idx < listSize s.dec.list) :
    s.dec.idx + 1 + z ≤ listSize s.dec.list := by
  unfold SkipAfterLength at h
  by_cases hskip : s.dec.list = .tList ∧ s.dec.idx = 2
  · rw [if_pos hskip] at h
    have hz : z < 4 := h.1 ▸ getBits_lt 2 s
    have hsize : listSize s.dec.list = 19 := by rw [hskip.1]; rfl
    omega
  · rw [if_neg hskip] at h
    omega

/-- Settles O16: the length is put and the zeros of the skip field, none or up to three, follow it. -/
theorem lencodeAppendsLength : Obligations.LencodeAppendsLength := by
  intro k s hk _ hlen hidx
  obtain ⟨z, n, hskip, hu⟩ := skipField_putLen k.toNat s
  have hfits := hskip.fits hidx
  have hlen_put : (s.dec.lens.set s.dec.idx k.toNat).length = listSize s.dec.list := List.length_set.trans hlen
  obtain ⟨hend, hlength, hget⟩ := zeroRun_spec _ z (s.dec.idx + 1) _ hlen_put
  refine ⟨_, putZeros z (skipBits n (putLen k.toNat s)), z, n, (exec_lencode_of_le hk s).trans (by rw [hu]), hskip, ?_,
    hlength.trans hlen.symm, fun j _ => (hget j).trans ?_, listTurn_spec _⟩
  · have hmove : (putZeros z (skipBits n (putLen k.toNat s))).dec.idx = s.dec.idx + 1 + z := by
      refine hend.trans ?_
      omega
    rw [← hmove]
    rfl
  · rw [getD_set (by omega)]
    by_cases hj : j = s.dec.idx
    · rw [if_neg (by omega), if_pos hj, if_pos hj]
    · rw [if_neg hj, if_neg hj]
      exact if_congr (by omega) rfl rfl

/-- Settles O17: the length is Bad, and the field ends at its thirteenth one bit. -/
theorem lencodeAboveSixteenIsInvalid : Obligations.LencodeAboveSixteenIsInvalid := by
  refine ⟨fun k s hk => if_pos hk, fun rest => ?_⟩
  rw [decode_lencode_ones (by decide), lencodeUnary_overlong]

/-! ## What the header and the list instructions leave alone -/

/-- `u` is `s` after lengths of a list: besides the cursor and the lengths, only accesses have been recorded. -/
def ListWork (s u : State) : Prop := u = { s with
  accesses := u.accesses, dec := { s.dec with rpos := u.dec.rpos, idx := u.dec.idx, lens := u.dec.lens } }

theorem putZeros_listWork (z : Nat) (s : State) : ListWork s (putZeros z s) := rfl

theorem putLen_listWork (k : Nat) (s : State) : ListWork s (putLen k s) := rfl

/-- What changes between a list instruction's `s` and its next state `t`. -/
def ListFrame (s t : State) : Prop := t = { s with
  status := t.status, resultLen := t.resultLen, phase := t.phase, accesses := t.accesses
  dec := { s.dec with
    rpos := t.dec.rpos, idx := t.dec.idx, lens := t.dec.lens, list := t.dec.list, bad := t.dec.bad
    tTab := t.dec.tTab, cTab := t.dec.cTab, pTab := t.dec.pTab } }

theorem endBad_listFrame (s : State) : ListFrame s (endBad s) := rfl

theorem storeTable_listFrame (T : Table) (s : State) : ListFrame s (storeTable T s) := by
  rcases storeTable_cases T s with ⟨-, e⟩ | ⟨-, e⟩ | ⟨-, e⟩ <;> rw [e] <;> rfl

theorem storeTable_accesses (T : Table) (s : State) : (storeTable T s).accesses = s.accesses := by
  rcases storeTable_cases T s with ⟨-, e⟩ | ⟨-, e⟩ | ⟨-, e⟩ <;> rw [e]

/-- Going on with a list accesses nothing, and what it changes besides the list is the flag and the tables. -/
theorem listTurn_frame (s : State) : (listTurn s).accesses = s.accesses ∧ ListFrame s (listTurn s) := by
  unfold listTurn buildTable
  split_ifs
  · exact ⟨rfl, rfl⟩
  · exact ⟨storeTable_accesses _ s, storeTable_listFrame _ s⟩
  · exact ⟨rfl, endBad_listFrame s⟩

theorem ListWork.listFrame {s u t : State} (h : ListWork s u) (k : ListFrame u t) : ListFrame s t := by
  unfold ListFrame at *
  rw [k, h]

theorem skipField_putLen_listWork (k : Nat) (s : State) : ListWork s (skipField (putLen k s)) := by
  obtain ⟨z, n, -, e⟩ := skipField_putLen k s
  rw [e]
  rfl

/-- LENCODE reads its skip field of memory, or nothing (R305). -/
theorem skipField_putLen_accesses (k : Nat) (s : State) : (skipField (putLen k s)).accesses = s.accesses ∨
    (skipField (putLen k s)).accesses = (skipBits 2 s).accesses := by
  rcases skipField_cases (putLen k s) with ⟨-, e⟩ | ⟨-, e⟩ <;> rw [e]
  · exact .inl rfl
  · exact .inr rfl

theorem exec_streamHeader_frame {l o : Word32} {s t : State} (h : exec (.streamHeader l o) s = .next t) :
    t = { s with
      status := t.status, resultLen := t.resultLen, phase := t.phase
      dec := { s.dec with
        compsizeIn := t.dec.compsizeIn, origsize := t.dec.origsize, pbit := t.dec.pbit, blocksize := t.dec.blocksize
        out := t.dec.out, rpos := t.dec.rpos } } := by
  rw [exec_streamHeader_eq] at h
  obtain rfl := Host.Outcome.next.inj h
  split_ifs <;> rfl

theorem exec_block_frame {size : Half} {s t : State} (h : exec (.block size) s = .next t) :
    t = { s with
      status := t.status, resultLen := t.resultLen, phase := t.phase
      dec := { s.dec with blocksize := t.dec.blocksize, list := t.dec.list, bad := t.dec.bad } } := by
  rcases exec_block_next h with ⟨-, rfl⟩ | ⟨-, rfl⟩ <;> rfl

/-- A list instruction works on the list and goes on with it, or it is a LENCODE above 16. -/
theorem exec_list_frame {i : Instr} {s t : State}
    (hi : i = .zrun1 ∨ (∃ r, i = .zrunM r) ∨ (∃ r, i = .zrunL r) ∨ (∃ k, i = .len k) ∨ ∃ k, i = .lencode k)
    (h : exec i s = .next t) :
    (t.accesses = s.accesses ∨ ((∃ k, i = .lencode k) ∧ t.accesses = (skipBits 2 s).accesses)) ∧ ListFrame s t := by
  have hturn {u : State} (hu : ListWork s u) (hacc : u.accesses = s.accesses) :
      (listTurn u).accesses = s.accesses ∧ ListFrame s (listTurn u) :=
    ⟨(listTurn_frame u).1.trans hacc, hu.listFrame (listTurn_frame u).2⟩
  rcases hi with rfl | ⟨r, rfl⟩ | ⟨r, rfl⟩ | ⟨k, rfl⟩ | ⟨k, rfl⟩
  · obtain rfl := Host.Outcome.next.inj h
    exact (hturn (putZeros_listWork 1 s) rfl).imp_left .inl
  · obtain rfl := Host.Outcome.next.inj h
    exact (hturn (putZeros_listWork (r.toNat + 3) s) rfl).imp_left .inl
  · obtain rfl := Host.Outcome.next.inj h
    exact (hturn (putZeros_listWork (r.toNat + 20) s) rfl).imp_left .inl
  · obtain rfl := Host.Outcome.next.inj h
    exact (hturn (putLen_listWork k.toNat s) rfl).imp_left .inl
  · rcases exec_lencode_next h with ⟨-, rfl⟩ | ⟨-, rfl⟩
    · exact ⟨.inl rfl, endBad_listFrame s⟩
    · obtain ⟨hacc, hframe⟩ := listTurn_frame (skipField (putLen k.toNat s))
      rw [hacc]
      exact ⟨(skipField_putLen_accesses k.toNat s).imp_right fun e => ⟨⟨k, rfl⟩, e⟩,
        (skipField_putLen_listWork k.toNat s).listFrame hframe⟩

/-- Settles O18, instruction by instruction. -/
theorem tableInstructionFrame : Obligations.TableInstructionFrame := by
  refine ⟨fun _ _ _ _ => exec_streamHeader_frame, fun _ _ _ => exec_block_frame, fun c e s t h => ?_, fun _ _ _ => exec_list_frame⟩
  obtain rfl := Host.Outcome.next.inj h
  rfl

end Sys2Proof.Machine
end

section
/-!
PROOFS. The symbols of a block (44_block_decoder.md section 2): LIT writes one byte and MATCH copies earlier output, and then the command has ended or
the next symbol is due.
-/

namespace Sys2Proof.Machine

/-! ## After a symbol -/

theorem afterSymbol_rest (s : State) : afterSymbol s = { s with
    phase := (afterSymbol s).phase, status := (afterSymbol s).status, resultLen := (afterSymbol s).resultLen } := by
  rcases afterSymbol_cases s with ⟨-, e⟩ | ⟨-, e⟩ <;> rw [e]

theorem afterSymbol_mem (s : State) : (afterSymbol s).mem = s.mem := by rw [afterSymbol_rest]

theorem afterSymbol_dec (s : State) : (afterSymbol s).dec = s.dec := by rw [afterSymbol_rest]

theorem memGet_afterSymbol (s : State) (a : Nat) : memGet (afterSymbol s) a = memGet s a := memGet_congr (afterSymbol_mem s) a

theorem dstAt_afterSymbol (s : State) (i : Nat) : dstAt (afterSymbol s) i = dstAt s i := by
  rw [afterSymbol_rest]
  rfl

theorem dstGet_afterSymbol (s : State) (i : Nat) : dstGet (afterSymbol s) i = dstGet s i := by
  rw [dstGet, dstAt_afterSymbol, memGet_afterSymbol, dstGet]

theorem copyAccesses_afterSymbol (s : State) (i p n : Nat) : copyAccesses (afterSymbol s) i p n = copyAccesses s i p n := by
  simp only [copyAccesses, dstAt_afterSymbol, dstGet_afterSymbol]

/-- `u` is `s` after output of a symbol: memory, the accesses and the output cursor differ. -/
def Outputs (s u : State) : Prop := u = { s with
  mem := u.mem, accesses := u.accesses, dec := { s.dec with out := u.dec.out } }

theorem putOut_outputs (s : State) (a n : Nat) (b : Byte) : Outputs s (setOut n (engineWrite a b s)) := rfl

theorem copyLoop_outputs {p k : Nat} {s u : State} (h : copyLoop p k s = some u) : Outputs s u := by
  obtain ⟨honly, hstatus, hresult, hphase, hdec, -⟩ := copyLoop_only h
  rwa [DecodesOnly, hstatus, hresult, hphase, hdec] at honly

theorem Outputs.afterSymbol {s u : State} (h : Outputs s u) : afterSymbol u = { s with
    mem := u.mem, accesses := u.accesses, dec := { s.dec with out := u.dec.out }, phase := (Machine.afterSymbol u).phase
    status := (Machine.afterSymbol u).status, resultLen := (Machine.afterSymbol u).resultLen } := by
  have hrest := afterSymbol_rest u
  generalize Machine.afterSymbol u = t at hrest ⊢
  conv_lhs => rw [hrest, h]

/-- After its output the command ends as soon as the output is complete, and else the next symbol is due (R320, R324). -/
theorem Outputs.ends_or_goesOn {s u : State} (h : Outputs s u) :
    if u.dec.out = s.dec.origsize then Ended .success s.dec.origsize (Machine.afterSymbol u)
    else (Machine.afterSymbol u).phase = .sym ∧ (Machine.afterSymbol u).status = s.status ∧
      (Machine.afterSymbol u).resultLen = s.resultLen := by
  have horig : u.dec.origsize = s.dec.origsize := by rw [h]
  rw [← horig]
  rcases afterSymbol_cases u with ⟨hfull, e⟩ | ⟨howed, e⟩ <;> rw [e]
  · rw [if_pos hfull]
    exact ⟨rfl, rfl, rfl⟩
  · rw [if_neg howed]
    exact ⟨rfl, by rw [h], by rw [h]⟩

/-! ## LIT -/

theorem exec_lit_of_lt (b : Byte) {s : State} (h : dstAt s s.dec.out < 2 ^ s.addrW.val) :
    exec (.lit b) s = .next (afterSymbol (setOut (s.dec.out + 1) (engineWrite (dstAt s s.dec.out) b s))) := by
  simp only [exec, execLit, putOut_of_lt b h]
  rfl

theorem exec_lit_of_le (b : Byte) {s : State} (h : 2 ^ s.addrW.val ≤ dstAt s s.dec.out) :
    exec (.lit b) s = .fault .outsideAddressSpace := by
  simp only [exec, execLit, putOut_of_le b h]
  rfl

/-- A literal changes the byte at the output cursor and no other (R321). -/
theorem memGet_lit (b : Byte) (s : State) (a : Nat) :
    memGet (afterSymbol (setOut (s.dec.out + 1) (engineWrite (dstAt s s.dec.out) b s))) a
      = if a = dstAt s s.dec.out then b else memGet s a :=
  (memGet_afterSymbol _ a).trans (memGet_engineWrite s _ a b)

/-- Settles O20: the byte is written where the output stands, if that is in host memory. -/
theorem litWritesByte : Obligations.LitWritesByte := by
  intro b s
  have hput := putOut_outputs s (dstAt s s.dec.out) (s.dec.out + 1) b
  refine ⟨fun h => ⟨_, exec_lit_of_lt b h, ?_, memGet_lit b s, hput.ends_or_goesOn⟩, exec_lit_of_le b⟩
  rw [afterSymbol_mem]
  exact hput.afterSymbol

/-! ## MATCH -/

theorem exec_matchCopy_of_lt (m : BitVec 9) {s : State} (h : s.dec.out < s.dec.pval + 1) :
    exec (.matchCopy m) s = .next (endBad s) := if_pos h

theorem exec_matchCopy_of_le (m : BitVec 9) {s : State} (h : s.dec.pval + 1 ≤ s.dec.out) :
    exec (.matchCopy m) s = orOutside ((copyLoop s.dec.pval (matchLength m) s).map afterSymbol) := if_neg (Nat.not_lt.mpr h)

/-- Settles O21: a source before the output is Bad; else the match does what its copy does (`copyLoop_spec`). -/
theorem matchCopiesEarlierOutput : Obligations.MatchCopiesEarlierOutput := by
  intro m s
  refine ⟨exec_matchCopy_of_lt m, fun hp ho => ?_⟩
  obtain ⟨n, hn⟩ : ∃ n, n = min (matchLength m) (s.dec.origsize - s.dec.out) := ⟨_, rfl⟩
  refine ⟨n, hn, ?_⟩
  obtain ⟨hcopy, hout⟩ := copyLoop_spec s.dec.pval (matchLength m) s hp ho n hn
  rw [exec_matchCopy_of_le m hp]
  refine ⟨fun hfit => ?_, fun hpos hlarge => ?_⟩
  · obtain ⟨u, hu, hrest, hbytes, hframe, -⟩ := hcopy hfit
    have hcursor : u.dec.out = s.dec.out + n := by rw [hrest]
    rw [hu]
    refine ⟨afterSymbol u, rfl, ?_, fun j hj => ?_, fun a ha => ?_, ?_⟩
    · have hacc : u.accesses = copyAccesses u s.dec.out s.dec.pval n ++ s.accesses := congrArg State.accesses hrest
      rw [afterSymbol_mem, copyAccesses_afterSymbol, ← hacc, ← hcursor]
      exact (copyLoop_outputs hu).afterSymbol
    · rw [dstGet_afterSymbol, dstGet_afterSymbol]
      exact hbytes j hj
    · rw [memGet_afterSymbol]
      exact hframe a ha
    · rw [← hcursor]
      exact (copyLoop_outputs hu).ends_or_goesOn
  · rw [hout hpos hlarge]
    rfl

/-! ## What LIT and MATCH leave alone -/

theorem Outputs.frame {s u : State} (h : Outputs s u) : Machine.afterSymbol u = { s with
    mem := (Machine.afterSymbol u).mem, accesses := (Machine.afterSymbol u).accesses
    dec := { s.dec with out := (Machine.afterSymbol u).dec.out, bad := (Machine.afterSymbol u).dec.bad }
    phase := (Machine.afterSymbol u).phase, status := (Machine.afterSymbol u).status
    resultLen := (Machine.afterSymbol u).resultLen } := by
  have hafter := h.afterSymbol
  generalize Machine.afterSymbol u = t at hafter ⊢
  rw [hafter]

/-- Settles O22: a literal writes the byte at the old output cursor, and a match those that its copy appends. -/
theorem symbolFrame : Obligations.SymbolFrame := by
  rintro i s t (⟨b, rfl⟩ | ⟨m, rfl⟩) h
  · obtain ⟨-, rfl⟩ := exec_lit_next h
    refine ⟨(putOut_outputs s _ _ b).frame, ?_, fun a ha => ?_⟩
    · rw [afterSymbol_dec]
      exact Nat.le_succ _
    · rw [memGet_lit, if_neg]
      rintro rfl
      rw [afterSymbol_dec, setOut_dec_out, Nat.add_sub_cancel_left, inRange_eq_false_iff] at ha
      omega
  · rcases exec_matchCopy_next h with ⟨-, rfl⟩ | ⟨-, u, hu, rfl⟩
    · exact ⟨rfl, le_rfl, fun _ _ => rfl⟩
    · obtain ⟨-, -, -, -, -, hout, -, hframe⟩ := copyLoop_only hu
      refine ⟨(copyLoop_outputs hu).frame, ?_, fun a ha => ?_⟩
      · rwa [afterSymbol_dec]
      · rw [afterSymbol_dec] at ha
        rw [memGet_afterSymbol]
        exact hframe a ha

end Sys2Proof.Machine
end

section
/-!
PROOFS. The statements of 70_reset_and_hazards.md. DECOMPRESS ends because every turn of Decode lowers what remains of it (`remaining`): the output
owed, then the places before the next output, then the lengths owed of the list being read. The others follow from what a reset and an access of the
host do.
-/

namespace Sys2Proof.Machine

/-! ## What remains of Decode -/

/-- How many lists of a block header follow this one (R300). -/
def listsAfter : ListKind → Nat
  | .tList => 2
  | .cList => 1
  | .pList => 0

/-- How many places the header of a further block takes, which is due where the current block is exhausted (R318): one for SIZE and
two for each list. -/
def headerPlaces (d : Dec) : Nat := if d.blocksize = 0#16 then 7 else 0

/-- A bound of the places from this one to the next output: a symbol takes up to three, and a list two, its count field and its
lengths. -/
def placesAhead (s : State) : Nat :=
  match s.phase with
  | .idle | .encFirst | .encLoop | .encEnd | .header => 0
  | .copy => 1
  | .pos => 2
  | .sym => 3 + headerPlaces s.dec
  | .ptLen | .cLen => 4 + 2 * listsAfter s.dec.list + headerPlaces s.dec
  | .count => 5 + 2 * listsAfter s.dec.list + headerPlaces s.dec

theorem placesAhead_of_copy {s : State} (hp : s.phase = .copy) : placesAhead s = 1 := by rw [placesAhead, hp]

theorem placesAhead_of_pos {s : State} (hp : s.phase = .pos) : placesAhead s = 2 := by rw [placesAhead, hp]

theorem placesAhead_of_sym {s : State} (hp : s.phase = .sym) : placesAhead s = 3 + headerPlaces s.dec := by
  rw [placesAhead, hp]

theorem placesAhead_of_lengths {s : State} (hp : s.phase = .ptLen ∨ s.phase = .cLen) :
    placesAhead s = 4 + 2 * listsAfter s.dec.list + headerPlaces s.dec := by
  rcases hp with hp | hp <;> rw [placesAhead, hp]

theorem placesAhead_of_count {s : State} (hp : s.phase = .count) :
    placesAhead s = 5 + 2 * listsAfter s.dec.list + headerPlaces s.dec := by
  rw [placesAhead, hp]

theorem placesAhead_pos {s : State} (h : decoding s.phase = true) : 0 < placesAhead s := by
  unfold placesAhead
  cases hp : s.phase with
  | idle | encFirst | encLoop | encEnd | header =>
    rw [hp] at h
    cases h
  | sym | count | ptLen | cLen | pos | copy =>
    dsimp only
    omega

/-- A stored list leads to the next one, or to the symbols (R300). -/
theorem placesAhead_storeTable (T : Table) (s : State) :
    placesAhead (storeTable T s) = 3 + 2 * listsAfter s.dec.list + headerPlaces s.dec := by
  rcases storeTable_cases T s with ⟨hk, e⟩ | ⟨hk, e⟩ | ⟨hk, e⟩ <;> rw [e, hk]
  · exact placesAhead_of_count rfl
  · exact placesAhead_of_count rfl
  · exact placesAhead_of_sym rfl

/-- What remains of Decode: the output owed, the places ahead and the lengths owed of the list being read. -/
def remaining (s : State) : Nat ×ₗ Nat ×ₗ Nat :=
  toLex (s.dec.origsize - s.dec.out, toLex (placesAhead s, s.dec.count - s.dec.idx))

/-- Reading bits brings Decode no further by itself. -/
theorem remaining_skipBits (n : Nat) (s : State) : remaining (skipBits n s) = remaining s := rfl

theorem remaining_lt_of_output {s t : State} (horig : t.dec.origsize = s.dec.origsize) (howed : s.dec.out < s.dec.origsize)
    (hout : s.dec.out < t.dec.out) : remaining t < remaining s := by
  refine Prod.Lex.toLex_lt_toLex.mpr (.inl ?_)
  dsimp only
  omega

theorem remaining_lt_of_places {s t : State} (horig : t.dec.origsize = s.dec.origsize) (hout : t.dec.out = s.dec.out)
    (hplace : placesAhead t < placesAhead s) : remaining t < remaining s :=
  Prod.Lex.toLex_lt_toLex.mpr (.inr ⟨by rw [horig, hout], Prod.Lex.toLex_lt_toLex.mpr (.inl hplace)⟩)

theorem remaining_lt_of_lengths {s t : State} (horig : t.dec.origsize = s.dec.origsize) (hout : t.dec.out = s.dec.out)
    (hplace : placesAhead t = placesAhead s) (hlens : t.dec.count - t.dec.idx < s.dec.count - s.dec.idx) :
    remaining t < remaining s :=
  Prod.Lex.toLex_lt_toLex.mpr (.inr ⟨by rw [horig, hout], Prod.Lex.toLex_lt_toLex.mpr (.inr ⟨hplace, hlens⟩)⟩)

/-- Bad ends Decode: no place is ahead. -/
theorem remaining_endBad_lt {s : State} (h : decoding s.phase = true) : remaining (endBad s) < remaining s :=
  remaining_lt_of_places rfl rfl (placesAhead_pos h)

/-- After a list Decode leaves its place. -/
theorem remaining_storeTable_lt (T : Table) {s : State} (hp : s.phase = .count ∨ s.phase = .ptLen ∨ s.phase = .cLen) :
    remaining (storeTable T s) < remaining s := by
  have hframe := storeTable_listFrame T s
  refine remaining_lt_of_places (by rw [hframe]) (by rw [hframe]) ?_
  rw [placesAhead_storeTable]
  rcases hp with hp | hp
  · rw [placesAhead_of_count hp]
    omega
  · rw [placesAhead_of_lengths hp]
    omega

/-! ## The lists -/

theorem ListWork.placesAhead_eq {s u : State} (h : ListWork s u) : placesAhead u = placesAhead s := by
  rw [h]
  rfl

/-- Decode stands at the lengths of a list that is not complete. -/
def ListOwed (s : State) : Prop := (s.phase = .ptLen ∨ s.phase = .cLen) ∧ ListOk s.dec

theorem listOwed_of_ptLen {s : State} (hp : s.phase = .ptLen) (hT : TablesInv s) : ListOwed s := by
  rw [TablesInv, hp] at hT
  obtain ⟨-, hlist, -⟩ := hT
  exact ⟨.inl hp, hlist⟩

theorem listOwed_of_cLen {s : State} (hp : s.phase = .cLen) (hT : TablesInv s) : ListOwed s := by
  rw [TablesInv, hp] at hT
  obtain ⟨-, hlist, -⟩ := hT
  exact ⟨.inr hp, hlist⟩

theorem ListOwed.skipBits {s : State} (h : ListOwed s) (n : Nat) : ListOwed (skipBits n s) := h

theorem ListOwed.decoding {s : State} (h : ListOwed s) : decoding s.phase = true := by
  obtain ⟨hp | hp, -⟩ := h <;> rw [hp] <;> rfl

/-- Once the cursor has moved on, fewer lengths are owed, or the list is complete and Decode leaves its place. -/
theorem ListWork.remaining_listTurn_lt {s u : State} (h : ListWork s u) (hs : ListOwed s) (hidx : s.dec.idx < u.dec.idx) :
    remaining (listTurn u) < remaining s := by
  have hdec := hs.decoding
  obtain ⟨hp, -, -, howed, -⟩ := hs
  have hphase : u.phase = s.phase := by rw [h]
  have hcount : u.dec.count = s.dec.count := by rw [h]
  have hlt : remaining u < remaining s :=
    remaining_lt_of_lengths (by rw [h]) (by rw [h]) h.placesAhead_eq (by omega)
  rw [← hphase] at hp hdec
  unfold listTurn buildTable
  split_ifs
  · exact hlt
  · exact (remaining_storeTable_lt _ (.inr hp)).trans hlt
  · exact (remaining_endBad_lt hdec).trans hlt

/-- A run of zeros moves the cursor on, up to the end of the alphabet (R313). -/
theorem putZeros_idx (z : Nat) {s : State} (h : s.dec.lens.length = listSize s.dec.list) :
    (putZeros z s).dec.idx = max s.dec.idx (min (s.dec.idx + z) (listSize s.dec.list)) :=
  (zeroRun_spec _ z s.dec.idx s.dec.lens h).1

theorem remaining_putZeros_lt {z : Nat} {s : State} (h : ListOwed s) (hz : 1 ≤ z) :
    remaining (listTurn (putZeros z s)) < remaining s := by
  refine (putZeros_listWork z s).remaining_listTurn_lt h ?_
  obtain ⟨-, hlen, -, hidx, hcount⟩ := h
  rw [putZeros_idx z hlen]
  omega

theorem remaining_putLen_lt (k : Nat) {s : State} (h : ListOwed s) : remaining (listTurn (putLen k s)) < remaining s :=
  (putLen_listWork k s).remaining_listTurn_lt h (Nat.lt_succ_self _)

/-- Every T instruction appends a length at least (R311). -/
theorem exec_tsym_remaining_lt {i : Instr} (hi : IsTSymbol i) {s t : State} (hl : ListOwed s) (h : exec i s = .next t) :
    remaining t < remaining s := by
  rcases hi with rfl | ⟨r, rfl⟩ | ⟨r, rfl⟩ | ⟨k, rfl, -⟩ <;> obtain rfl := Host.Outcome.next.inj h
  · exact remaining_putZeros_lt hl le_rfl
  · exact remaining_putZeros_lt hl (by omega)
  · exact remaining_putZeros_lt hl (by omega)
  · exact remaining_putLen_lt _ hl

theorem exec_lencode_remaining_lt {k : BitVec 5} {s t : State} (hl : ListOwed s) (h : exec (.lencode k) s = .next t) :
    remaining t < remaining s := by
  rcases exec_lencode_next h with ⟨-, rfl⟩ | ⟨-, rfl⟩
  · exact remaining_endBad_lt hl.decoding
  · refine (skipField_putLen_listWork k.toNat s).remaining_listTurn_lt hl ?_
    obtain ⟨z, n, -, e⟩ := skipField_putLen k.toNat s
    obtain ⟨-, hlen, -⟩ := hl
    rw [e, putZeros_idx z (s := skipBits n (putLen k.toNat s)) (List.length_set.trans hlen), skipBits_dec_idx, putLen_dec_idx]
    omega

/-! ## The symbols -/

/-- A symbol that writes output lowers what is owed, whether Decode goes on or ends. -/
theorem remaining_afterSymbol_lt {s u : State} (horig : u.dec.origsize = s.dec.origsize) (howed : s.dec.out < s.dec.origsize)
    (hout : s.dec.out < u.dec.out) : remaining (afterSymbol u) < remaining s :=
  remaining_lt_of_output (by rwa [afterSymbol_dec]) howed (by rwa [afterSymbol_dec])

/-- Where output is owed, a match of at least one byte writes one (R322). -/
theorem out_lt_of_copyLoop {p k : Nat} {s u : State} (hk : 1 ≤ k) (howed : s.dec.out < s.dec.origsize)
    (h : copyLoop p k s = some u) : s.dec.out < u.dec.out := by
  obtain ⟨k, rfl⟩ := Nat.exists_eq_add_of_le' hk
  by_cases hin : dstAt s s.dec.out < 2 ^ s.addrW.val
  · rw [copyLoop_succ howed.ne hin] at h
    obtain ⟨-, -, -, -, -, hout, -⟩ := copyLoop_only h
    exact hout
  · rw [copyLoop_outside howed.ne (Nat.le_of_not_lt hin)] at h
    cases h

/-- A match symbol states a length of at least 3 (R121). -/
theorem one_le_matchLength {m : BitVec 9} (h : WellFormed (.matchCopy m) = true) : 1 ≤ matchLength m := by
  simp only [WellFormed, Bool.and_eq_true, decide_eq_true_eq] at h
  unfold matchLength
  omega

theorem exec_matchCopy_remaining_lt {m : BitVec 9} {s t : State} (hp : s.phase = .copy) (howed : s.dec.out < s.dec.origsize)
    (hm : WellFormed (.matchCopy m) = true) (h : exec (.matchCopy m) s = .next t) : remaining t < remaining s := by
  rcases exec_matchCopy_next h with ⟨-, rfl⟩ | ⟨-, u, hu, rfl⟩
  · exact remaining_endBad_lt (by rw [hp]; rfl)
  · obtain ⟨-, -, -, -, hdec, -⟩ := copyLoop_only hu
    exact remaining_afterSymbol_lt (by rw [hdec]) howed (out_lt_of_copyLoop (one_le_matchLength hm) howed hu)

/-! ## The turns of Decode, place by place -/

/-- SIZE opens a block that is not empty, or is Bad (R300). -/
theorem exec_block_remaining_lt {z : Half} {s t : State} (hp : s.phase = .sym) (hb : s.dec.blocksize = 0#16)
    (h : exec (.block z) s = .next t) : remaining t < remaining s := by
  rcases exec_block_next h with ⟨-, rfl⟩ | ⟨hz, rfl⟩
  · exact remaining_endBad_lt (by rw [hp]; rfl)
  · refine remaining_lt_of_places rfl rfl ?_
    rw [placesAhead_of_count rfl, placesAhead_of_sym hp]
    simp [listsAfter, headerPlaces, hb, hz]

theorem engineTurn_sym_remaining_lt {s t : State} (hp : s.phase = .sym) (howed : s.dec.out < s.dec.origsize)
    (h : engineTurn s = .next t) : remaining t < remaining s := by
  by_cases hb : s.dec.blocksize = 0#16
  · obtain ⟨size, e⟩ := engineTurn_block hp hb
    rw [← remaining_skipBits 16 s]
    exact exec_block_remaining_lt hp hb (e ▸ h)
  · cases hd : decodeSymbol Config.NC s.dec.cTab (takeOfBlock s) with
    | none =>
      rw [engineTurn_sym_none hp hb hd] at h
      cases h
    | some x =>
      obtain ⟨σ, u⟩ := x
      obtain ⟨-, n, rfl⟩ := decodeSymbol_some hd
      rcases engineTurn_sym hp hb hd with ⟨b, e⟩ | ⟨m, -, e⟩
      · obtain ⟨-, rfl⟩ := exec_lit_next (e ▸ h)
        refine remaining_afterSymbol_lt rfl howed ?_
        rw [setOut_dec_out]
        exact Nat.lt_succ_self _
      · obtain rfl := Host.Outcome.next.inj (e.symm.trans h)
        refine remaining_lt_of_places rfl rfl ?_
        rw [placesAhead_of_pos rfl, placesAhead_of_sym hp]
        omega

theorem remaining_readCount_lt {s : State} (hp : s.phase = .count) : remaining (readCount s) < remaining s := by
  rcases readCount_cases s with ⟨n, e⟩ | ⟨σ, n, -, e⟩ | ⟨c, n, -, -, e⟩ <;> rw [e]
  · rw [← remaining_skipBits n s]
    exact remaining_endBad_lt (by rw [skipBits_phase, hp]; rfl)
  · rw [← remaining_skipBits n s]
    exact remaining_storeTable_lt _ (.inl hp)
  · refine remaining_lt_of_places rfl rfl ?_
    rw [placesAhead_of_lengths (ite_eq_or_eq _ _ _).symm, placesAhead_of_count hp]
    exact Nat.add_lt_add_right (Nat.add_lt_add_right (by decide) _) _

theorem engineTurn_cLen_remaining_lt {s t : State} (hp : s.phase = .cLen) (hT : TablesInv s) (h : engineTurn s = .next t) :
    remaining t < remaining s := by
  cases hd : decodeSymbol Config.NT s.dec.tTab s with
  | none =>
    rw [engineTurn_cLen_none hp hd] at h
    cases h
  | some x =>
    obtain ⟨τ, u⟩ := x
    obtain ⟨-, m, rfl⟩ := decodeSymbol_some hd
    obtain ⟨i, n, hi, e⟩ := engineTurn_cLen hp hd
    rw [← remaining_skipBits m s, ← remaining_skipBits n (skipBits m s)]
    exact exec_tsym_remaining_lt hi (((listOwed_of_cLen hp hT).skipBits m).skipBits n) (e ▸ h)

theorem engineTurn_pos_remaining_lt {s t : State} (hp : s.phase = .pos) (h : engineTurn s = .next t) :
    remaining t < remaining s := by
  cases hd : decodeSymbol Config.NPD s.dec.pTab s with
  | none =>
    rw [engineTurn_pos_none hp hd] at h
    cases h
  | some x =>
    obtain ⟨c, u⟩ := x
    obtain ⟨-, m, rfl⟩ := decodeSymbol_some hd
    obtain ⟨p, x, n, e⟩ := engineTurn_pos hp hd
    obtain rfl := Host.Outcome.next.inj (e.symm.trans h)
    refine remaining_lt_of_places rfl rfl ?_
    rw [placesAhead_of_copy rfl, placesAhead_of_pos hp]
    decide

/-- Every turn of Decode lowers what remains of it. -/
theorem engineTurn_remaining_lt {s t : State} (hdec : decoding s.phase = true) (howed : s.dec.out < s.dec.origsize)
    (hT : TablesInv s) (h : engineTurn s = .next t) : remaining t < remaining s := by
  cases hp : s.phase with
  | idle | encFirst | encLoop | encEnd | header =>
    rw [hp] at hdec
    cases hdec
  | sym => exact engineTurn_sym_remaining_lt hp howed h
  | count =>
    obtain rfl := Host.Outcome.next.inj ((engineTurn_count hp).symm.trans h)
    exact remaining_readCount_lt hp
  | ptLen =>
    obtain ⟨k, n, -, e⟩ := engineTurn_ptLen hp
    rw [← remaining_skipBits n s]
    exact exec_lencode_remaining_lt ((listOwed_of_ptLen hp hT).skipBits n) (e ▸ h)
  | cLen => exact engineTurn_cLen_remaining_lt hp hT h
  | pos => exact engineTurn_pos_remaining_lt hp h
  | copy =>
    rw [TablesInv, hp] at hT
    obtain ⟨-, -, hm⟩ := hT
    exact exec_matchCopy_remaining_lt hp howed hm (engineTurn_copy hp ▸ h)

/-! ## Runs -/

/-- Finitely many steps lead from `s` to the end of its command. -/
def Ends (s : State) : Prop := ∃ n t, Host.Core.run core n s = .next t ∧ t.phase = .idle ∧ done t = true

theorem ends_of_ended {s : State} (hp : s.phase = .idle) (hd : done s = true) : Ends s := ⟨0, s, rfl, hp, hd⟩

theorem run_succ {s u : State} (h : step s = .next u) (n : Nat) : Host.Core.run core (n + 1) s = Host.Core.run core n u := by
  have hcore : core.step s = .next u := h
  simp only [Host.Core.run, hcore]

theorem ends_of_step {s u : State} (h : step s = .next u) (hu : Ends u) : Ends s := by
  obtain ⟨n, t, hrun, ht⟩ := hu
  exact ⟨n + 1, t, (run_succ h n).trans hrun, ht⟩

/-- A turn that leaves no command running has ended it, with DONE = 1 (R356). -/
theorem Turned.done_of_idle {s t : State} (h : Turned s t) (hp : t.phase = .idle) : done t = true := by
  obtain ⟨u, -, ⟨p, hne, rfl⟩ | ⟨c, n, -, rfl⟩⟩ := h
  · exact absurd hp hne
  · exact done_statusEnded _ c rfl

/-- With no access of the host due, a safe running DECOMPRESS takes a turn, and is safe again. -/
theorem step_decompress {s : State} (ha : s.agenda = []) (hs : SafeInv s) (hp : s.phase = .header ∨ decoding s.phase = true) :
    ∃ t, step s = .next t ∧ engineTurn s = .next t ∧ Turned s t ∧ t.agenda = [] ∧ SafeInv t := by
  have hrun : s.phase ≠ .idle := by
    intro hidle
    rw [hidle] at hp
    rcases hp with hp | hp <;> cases hp
  obtain ⟨t, ht⟩ := decoderNeverStops s s (.inl ⟨ha, rfl⟩) hs hp
  have hstep : step s = engineStep s := by rw [step, ha]
  have hfit : engineStep s = engineTurn s := by
    obtain ⟨-, -, hbuf, -⟩ := hs
    exact engineStep_fit (buffersFit_of_checked (hbuf hrun))
  have he : engineStep s = .next t := hstep.symm.trans ht
  have hturn : engineTurn s = .next t := hfit.symm.trans he
  obtain ⟨-, -, -, -, -, -, -, hagenda, -⟩ := engineKeepsOperands s t he
  exact ⟨t, ht, hturn, engineTurn_turned hrun hturn, hagenda.trans ha, (engineStep_safe hs he).1⟩

/-- From a safe state Decode ends, since every turn lowers what remains of it. -/
theorem decode_ends {s : State} (ha : s.agenda = []) (hs : SafeInv s) (hdec : decoding s.phase = true) : Ends s := by
  induction hr : remaining s using WellFoundedLT.induction generalizing s with
  | ind r ih =>
    subst hr
    obtain ⟨t, ht, hturn, hend, hagenda, hsafe⟩ := step_decompress ha hs (.inr hdec)
    obtain ⟨-, -, hbuf, ⟨-, hdecode⟩, htab⟩ := hs
    have hd : InDecode s := hdecode hdec
    have hb : buffersBad s = false := hbuf fun hidle => by rw [hidle] at hdec; cases hdec
    refine ends_of_step ht ?_
    obtain ⟨-, hidle | ⟨hdect, -⟩⟩ := engineTurn_decodeTurned hdec hd htab hb hturn
    · exact ends_of_ended hidle (hend.done_of_idle hidle)
    · exact ih _ (engineTurn_remaining_lt hdec hd.owed htab hturn) hagenda hsafe hdect rfl

/-- Settles O58: the header's turn ends the command or starts Decode, and Decode ends. -/
theorem decompressEnds : Obligations.DecompressEnds := by
  intro s ha hs hp
  rcases hp with hp | hdec
  · obtain ⟨t, ht, hturn, hend, hagenda, hsafe⟩ := step_decompress ha hs (.inl hp)
    refine ends_of_step ht ?_
    rcases engineTurn_header_cases hp hturn with hidle | ⟨u, rfl, -⟩
    · exact ends_of_ended hidle (hend.done_of_idle hidle)
    · exact decode_ends hagenda hsafe rfl
  · exact decode_ends ha hs hdec

/-! ## Accesses while BUSY = 1 -/

theorem writeOperand_of_busy {s : State} (h : busy s = true) (t : State) : writeOperand s t = .refused .operandWriteWhileBusy :=
  if_pos h

/-- While BUSY = 1 only STATUS may be read (R386). -/
theorem hostRegRead_of_busy {s : State} {r : Reg} (hs : r ≠ .status) (h : busy s = true) :
    hostRegRead r s = .refused .registerReadWhileBusy := by
  cases r with
  | status => exact absurd rfl hs
  | cmd | srcAddr | srcLen | dstAddr | dstLen | resultLen => exact if_pos h

theorem regRead_of_busy {s : State} {off width : Nat} {r : Reg} (hr : regAt off width = some r) (hs : r ≠ .status)
    (h : busy s = true) : hostStep (.regRead (s.base + off) width) s = .refused .registerReadWhileBusy :=
  (hostStep_regRead hr).trans (hostRegRead_of_busy hs h)

/-- The buffers of a running command are the engine's (R96). -/
theorem hostMemWrite_of_busy {s : State} {a : Nat} (b : Byte) (h : busy s = true) (ha : a < 2 ^ s.addrW.val)
    (hin : inBuffers s a = true) : hostMemWrite a b s = .refused .bufferWriteWhileBusy := by
  simp [hostMemWrite, inSpace, ha, h, hin]

theorem operandWrite_of_busy {s : State} {off : Nat} (v : Word64) (h : busy s = true)
    (hoff : off = 0x08 ∨ off = 0x10 ∨ off = 0x18 ∨ off = 0x20) :
    hostStep (.regWrite (s.base + off) 64 v) s = .refused .operandWriteWhileBusy := by
  rcases hoff with rfl | rfl | rfl | rfl
  · exact (hostStep_regWrite (r := .srcAddr) rfl v).trans (writeOperand_of_busy h _)
  · exact (hostStep_regWrite (r := .srcLen) rfl v).trans (writeOperand_of_busy h _)
  · exact (hostStep_regWrite (r := .dstAddr) rfl v).trans (writeOperand_of_busy h _)
  · exact (hostStep_regWrite (r := .dstLen) rfl v).trans (writeOperand_of_busy h _)

/-- Settles O47: each access reaches its register whole, or its byte of memory, and is ignored or refused there. -/
theorem accessesWhileBusy : Obligations.AccessesWhileBusy := by
  refine ⟨fun s v off width hoff => ?_, fun s v off width hb => ⟨fun hoff hw => ?_, fun hoff hw => ?_, fun hoff => ?_,
    fun a b ha hin => hostMemWrite_of_busy b hb ha hin⟩⟩
  · rcases hoff with ⟨rfl, rfl⟩ | ⟨rfl, rfl⟩
    · exact hostStep_regWrite (r := .status) rfl v
    · exact hostStep_regWrite (r := .resultLen) rfl v
  · subst hoff hw
    exact (hostStep_regWrite (r := .cmd) rfl v).trans (exec_decodeCmd_of_busy hb _)
  · subst hw
    exact operandWrite_of_busy v hb hoff
  · rcases hoff with ⟨rfl, rfl⟩ | ⟨rfl | rfl | rfl | rfl | rfl, rfl⟩
    · exact regRead_of_busy (r := .cmd) rfl (by decide) hb
    · exact regRead_of_busy (r := .srcAddr) rfl (by decide) hb
    · exact regRead_of_busy (r := .srcLen) rfl (by decide) hb
    · exact regRead_of_busy (r := .dstAddr) rfl (by decide) hb
    · exact regRead_of_busy (r := .dstLen) rfl (by decide) hb
    · exact regRead_of_busy (r := .resultLen) rfl (by decide) hb

/-! ## Reset -/

/-- Settles O45: these are the values of `State.reset`. -/
theorem resetRegisterValues : Obligations.ResetRegisterValues := ⟨rfl, rfl, rfl, rfl, rfl, rfl, rfl, rfl⟩

/-- A turn of the host is its access, on the state less that turn. -/
theorem step_of_host {s : State} {op : HostOp} {rest : List Turn} (h : s.agenda = .host op :: rest) :
    step s = hostStep op { s with agenda := rest } := by
  rw [step, h]

/-- Settles O46: the reset takes memory, ADDR_W, BASE and the agenda from the state it abandons, and the registers from `State.reset`. -/
theorem resetAbandonsCommand : Obligations.ResetAbandonsCommand := by
  intro s rest h
  refine ⟨hostReset { s with agenda := rest }, step_of_host h, fun _ => rfl, ?_⟩
  obtain ⟨hcmd, hstatus, hsa, hsl, hda, hdl, hresult, hphase⟩ := resetRegisterValues
  exact ⟨hcmd, hstatus, hsa, hsl, hda, hdl, hresult, hphase, rfl, rfl, rfl⟩

/-- Settles O56: at reset no command runs, so the invariants ask for an empty memory in its form and a legal STATUS alone. -/
theorem resetIsSafe : Obligations.ResetIsSafe := by
  obtain ⟨hsafe, hacc⟩ := safe_of_idle (s := State.reset) rfl rfl (.inl rfl)
  exact ⟨hsafe, tokensInv_of_not_compressing rfl, hacc⟩

end Sys2Proof.Machine
end

section
/-!
PROOFS. The canonical form of host memory (log entry 3): a memory in the form is determined by its bytes, and every step keeps the form. Of
the instructions COMPRESS, LIT and MATCH alone write memory, and fetching one writes nothing.
-/

namespace Sys2Proof.Machine

/-! ## Canonical lists are determined by their entries -/

section
variable {κ α : Type} {key : κ → Nat} {d : Nat → α}

theorem sparseGet_head (k : κ) (v : α) (t : List (κ × α)) : sparseGet key d ((k, v) :: t) (key k) = v := if_pos rfl

variable [DecidableEq α]

/-- Below the least listed key every entry is the initial one. -/
theorem sparseGet_of_lt_head {k : κ} {v : α} {t : List (κ × α)} (h : sparseWf key d ((k, v) :: t) = true) {i : Nat}
    (hi : i < key k) : sparseGet key d ((k, v) :: t) i = d i := by
  obtain ⟨hrise, -, -⟩ := (sparseWf_cons d k v t).mp h
  refine sparseGet_of_absent d fun p hp => ?_
  rcases List.mem_cons.mp hp with rfl | hp
  · exact hi.ne'
  · exact (hi.trans (hrise p hp)).ne'

/-- The tail of a canonical list reads like the list, but for the initial entry at the head's key. -/
theorem sparseGet_tail {k : κ} {v : α} {t : List (κ × α)} (h : sparseWf key d ((k, v) :: t) = true) (i : Nat) :
    sparseGet key d t i = if key k = i then d i else sparseGet key d ((k, v) :: t) i := by
  obtain ⟨hrise, -, -⟩ := (sparseWf_cons d k v t).mp h
  by_cases hi : key k = i
  · rw [if_pos hi]
    exact sparseGet_of_absent d fun p hp => hi ▸ (hrise p hp).ne'
  · rw [if_neg hi]
    exact (if_neg hi).symm

/-- Where canonical lists read alike, neither lists a key below the other's least: what is listed differs from the initial entry. -/
theorem head_le_of_sparseGet_eq {k k' : κ} {v v' : α} {t t' : List (κ × α)} (h : sparseWf key d ((k, v) :: t) = true)
    (h' : sparseWf key d ((k', v') :: t') = true)
    (heq : ∀ i, sparseGet key d ((k, v) :: t) i = sparseGet key d ((k', v') :: t') i) : key k' ≤ key k := by
  obtain ⟨-, hv, -⟩ := (sparseWf_cons d k v t).mp h
  by_contra hlt
  have hread := heq (key k)
  rw [sparseGet_head, sparseGet_of_lt_head h' (Nat.lt_of_not_le hlt)] at hread
  exact hv hread

/-- A canonical list with an entry does not read like the empty one. -/
theorem not_sparseGet_eq_init {k : κ} {v : α} {t : List (κ × α)} (h : sparseWf key d ((k, v) :: t) = true) :
    ¬ ∀ i, sparseGet key d ((k, v) :: t) i = d i := by
  obtain ⟨-, hv, -⟩ := (sparseWf_cons d k v t).mp h
  exact fun heq => hv ((sparseGet_head k v t).symm.trans (heq (key k)))

/-- Canonical lists that read alike are equal. -/
theorem eq_of_sparseGet_eq (hkey : Function.Injective key) {l l' : List (κ × α)} (h : sparseWf key d l = true)
    (h' : sparseWf key d l' = true) (heq : ∀ i, sparseGet key d l i = sparseGet key d l' i) : l = l' := by
  induction l generalizing l' with
  | nil =>
    cases l' with
    | nil => rfl
    | cons p' t' => exact absurd (fun i => (heq i).symm) (not_sparseGet_eq_init h')
  | cons p t ih =>
    cases l' with
    | nil => exact absurd heq (not_sparseGet_eq_init h)
    | cons p' t' =>
      obtain ⟨k, v⟩ := p
      obtain ⟨k', v'⟩ := p'
      obtain rfl : k = k' :=
        hkey (le_antisymm (head_le_of_sparseGet_eq h' h fun i => (heq i).symm) (head_le_of_sparseGet_eq h h' heq))
      obtain rfl : v = v' := by
        have hread := heq (key k)
        rwa [sparseGet_head, sparseGet_head] at hread
      obtain ⟨-, -, ht⟩ := (sparseWf_cons d k v t).mp h
      obtain ⟨-, -, ht'⟩ := (sparseWf_cons d k v t').mp h'
      have htail : ∀ i, sparseGet key d t i = sparseGet key d t' i := fun i => by
        rw [sparseGet_tail h, sparseGet_tail h', heq]
      rw [ih ht ht' htail]

end

/-- Settles O52: a memory is a canonical list whose keys are the addresses themselves. -/
theorem canonicalMemoryIsUnique : Obligations.CanonicalMemoryIsUnique :=
  fun _ _ h h' heq => eq_of_sparseGet_eq Function.injective_id h h' heq

/-! ## Every instruction keeps the form -/

theorem exec_compress_wf {fmt : BitVec 8} {s t : State} (hw : Memory.wf s.mem = true) (h : exec (.compress fmt) s = .next t) :
    Memory.wf t.mem = true := by
  rcases exec_compress_next h with rfl | ⟨w, n, ht | ht⟩
  · exact hw
  · rw [ht]
    exact hw
  · obtain ⟨-, hmem⟩ := startCompress_accesses (s := acceptCmd w n s) rfl
    rw [ht]
    exact hmem hw

theorem exec_lit_wf {b : Byte} {s t : State} (hw : Memory.wf s.mem = true) (h : exec (.lit b) s = .next t) :
    Memory.wf t.mem = true := by
  obtain ⟨-, rfl⟩ := exec_lit_next h
  rw [afterSymbol_mem]
  exact memSet_wf hw _ _

theorem exec_matchCopy_wf {m : BitVec 9} {s t : State} (hw : Memory.wf s.mem = true) (h : exec (.matchCopy m) s = .next t) :
    Memory.wf t.mem = true := by
  rcases exec_matchCopy_next h with ⟨-, rfl⟩ | ⟨-, u, hu, rfl⟩
  · exact hw
  · obtain ⟨-, -, -, -, -, -, hcopy, -⟩ := copyLoop_only hu
    rw [afterSymbol_mem]
    exact hcopy hw

/-- An instruction that writes bytes of the destination. -/
def WritesMemory : Instr → Prop
  | .compress _ | .lit _ | .matchCopy _ => True
  | .decompress _ | .illegalCmd _ | .streamHeader _ _ | .block _ | .pos _ _ | .zrun1 | .zrunM _ | .zrunL _ | .len _ | .lencode _ => False

/-- Every other instruction leaves memory as it is: its frame does not name it. -/
theorem exec_mem_of_not_writesMemory {i : Instr} (hi : ¬ WritesMemory i) {s t : State} (h : exec i s = .next t) : t.mem = s.mem := by
  obtain ⟨-, hdecompress, hillegal⟩ := commandFrame
  obtain ⟨hheader, hblock, hpos, hlist⟩ := tableInstructionFrame
  cases i with
  | compress fmt | lit b | matchCopy m => exact absurd trivial hi
  | decompress fmt => rw [hdecompress fmt s t h]
  | illegalCmd w => rw [hillegal w s t h]
  | streamHeader l o => rw [hheader l o s t h]
  | block size => rw [hblock size s t h]
  | pos c e => rw [hpos c e s t h]
  | zrun1 | zrunM | zrunL | len | lencode =>
    obtain ⟨-, hframe⟩ := hlist _ s t (by simp) h
    rw [hframe]

theorem exec_wf {i : Instr} {s t : State} (hw : Memory.wf s.mem = true) (h : exec i s = .next t) : Memory.wf t.mem = true := by
  by_cases hi : WritesMemory i
  · cases i with
    | compress fmt => exact exec_compress_wf hw h
    | lit b => exact exec_lit_wf hw h
    | matchCopy m => exact exec_matchCopy_wf hw h
    | decompress | illegalCmd | streamHeader | block | pos | zrun1 | zrunM | zrunL | len | lencode => exact hi.elim
  · rwa [exec_mem_of_not_writesMemory hi h]

/-! ## Fetching leaves memory alone -/

/-- What has been fetched stands on the memory `m`. -/
def FetchedOn (m : List Host.Cell) : Fetched → Prop
  | .run _ u => u.mem = m
  | .await u => u.mem = m
  | .stop _ => True

theorem fetchBits_fetchedOn (k : Kind) (pre : List Bool) (n : Nat) (s : State) : FetchedOn s.mem (fetchBits k pre n s) := by
  unfold fetchBits
  cases decode k (pre ++ peekBits s n) with
  | ok i rest => exact skipBits_mem _ s
  | bad e => trivial

theorem fetchHeader_fetchedOn (s : State) : FetchedOn s.mem (fetchHeader s) := by
  obtain ⟨l, o, e⟩ := fetchHeader_spec s
  rw [e]
  exact engineReads_mem _ 8 s

theorem fetchSym_fetchedOn (s : State) : FetchedOn s.mem (fetchSym s) := by
  unfold fetchSym
  split_ifs with hb
  · exact fetchBits_fetchedOn .block [] 16 s
  · cases hd : decodeSymbol Config.NC s.dec.cTab (takeOfBlock s) with
    | none => trivial
    | some x =>
      obtain ⟨σ, u⟩ := x
      obtain ⟨hσ, n, rfl⟩ := decodeSymbol_some hd
      rcases fetchCSym_spec (skipBits n (takeOfBlock s)) hσ with ⟨b, e⟩ | ⟨m, e, -⟩ <;> simp only [e] <;> rfl

theorem fetchPos_fetchedOn (s : State) : FetchedOn s.mem (fetchPos s) := by
  unfold fetchPos
  cases hd : decodeSymbol Config.NPD s.dec.pTab s with
  | none => trivial
  | some x =>
    obtain ⟨c, u⟩ := x
    obtain ⟨-, n, rfl⟩ := decodeSymbol_some hd
    exact fetchBits_fetchedOn .psym _ 29 (skipBits n s)

theorem fetchT_fetchedOn (s : State) : FetchedOn s.mem (fetchT s) := by
  unfold fetchT
  cases hd : decodeSymbol Config.NT s.dec.tTab s with
  | none => trivial
  | some x =>
    obtain ⟨τ, u⟩ := x
    obtain ⟨-, n, rfl⟩ := decodeSymbol_some hd
    exact fetchBits_fetchedOn .tsym _ 9 (skipBits n s)

/-- What has been fetched on a canonical memory leaves a canonical one. -/
theorem FetchedOn.wf {m : List Host.Cell} {f : Fetched} {t : State} (hf : FetchedOn m f) (hw : Memory.wf m = true)
    (h : runFetched f = .next t) : Memory.wf t.mem = true := by
  cases f with
  | run i u =>
    obtain rfl : u.mem = m := hf
    exact exec_wf hw h
  | await u =>
    obtain rfl : u.mem = m := hf
    obtain rfl := Host.Outcome.next.inj h
    exact hw
  | stop e => cases h

/-! ## Every step keeps the form -/

theorem readCount_mem (s : State) : (readCount s).mem = s.mem := by
  rcases readCount_cases s with ⟨n, e⟩ | ⟨σ, n, -, e⟩ | ⟨c, n, -, -, e⟩ <;> rw [e]
  · rfl
  · rw [storeTable_listFrame (.degenerate σ) (skipBits n s)]
    rfl
  · rfl

theorem engineTurn_wf {s t : State} (hw : Memory.wf s.mem = true) (h : engineTurn s = .next t) : Memory.wf t.mem = true := by
  cases hp : s.phase with
  | encFirst | encLoop | encEnd => exact (engineTurn_compress_keeps (by rw [hp]; rfl) h).mem hw
  | idle =>
    simp only [engineTurn, hp] at h
    obtain rfl := Host.Outcome.next.inj h
    exact hw
  | header =>
    simp only [engineTurn, hp] at h
    exact (fetchHeader_fetchedOn s).wf hw h
  | sym =>
    simp only [engineTurn, hp] at h
    exact (fetchSym_fetchedOn s).wf hw h
  | count =>
    obtain rfl := Host.Outcome.next.inj ((engineTurn_count hp).symm.trans h)
    rwa [readCount_mem]
  | ptLen =>
    simp only [engineTurn, hp] at h
    exact (fetchBits_fetchedOn .lencode [] 13 s).wf hw h
  | cLen =>
    simp only [engineTurn, hp] at h
    exact (fetchT_fetchedOn s).wf hw h
  | pos =>
    simp only [engineTurn, hp] at h
    exact (fetchPos_fetchedOn s).wf hw h
  | copy => exact exec_matchCopy_wf hw (engineTurn_copy hp ▸ h)

theorem engineStep_wf {s t : State} (hw : Memory.wf s.mem = true) (h : engineStep s = .next t) : Memory.wf t.mem = true := by
  rcases engineStep_cases h with ⟨-, rfl⟩ | ⟨-, -, ht⟩
  · exact hw
  · exact engineTurn_wf hw ht

theorem hostStep_wf {op : HostOp} {s t : State} (hw : Memory.wf s.mem = true) (h : hostStep op s = .next t) :
    Memory.wf t.mem = true := by
  rcases host_next h with ⟨ag, bd, un, fc, rfl⟩ | ⟨-, a, b, c, d, rfl⟩ | ⟨a, b, rfl⟩ | rfl | ⟨w, hcmd⟩
  · exact hw
  · exact hw
  · exact memSet_wf hw a b
  · exact hw
  · exact exec_wf hw hcmd

/-- Settles O53: the engine's turn keeps the form at each place, and so does every access of the host. -/
theorem memoryFormKept : Obligations.MemoryFormKept := by
  intro s t hw h
  obtain ⟨ag, he | ⟨op, ho⟩⟩ := step_next h
  · exact engineStep_wf (s := { s with agenda := ag }) hw he
  · exact hostStep_wf (s := { s with agenda := ag }) hw ho

end Sys2Proof.Machine
end
